-- ==== Sys2Proof/Word.lean ====
section
/-! DEFINITION. The bit vectors of the VK-4460: what the manual shifts, masks, counts with wrapping or carries in
a field of bits (01_granules_memory_and_poison.md R2, 09_member_link_frames.md R180). -/

namespace Sys2Proof

/-- A byte of a granule, a frame or a service transfer. -/
abbrev Byte := BitVec 8

/-- A word of a granule, and a register of the service port: 64 bits (R2, chapter 10.2). -/
abbrev Word := BitVec 64

/-- A granule address as frames and service transfers carry it: 23 bits (R1, R180). -/
abbrev Granule := BitVec 23

/-- The 64 bytes of a granule: byte i is bits 8i to 8i+7, so word w is bits 64w to 64w+63 (R2). -/
abbrev GranuleData := BitVec 512

/-- A 64-flag byte mask: flag i governs byte i (R2). -/
abbrev Mask := BitVec 64

/-- A tag field of a frame: 4 bits (R180). -/
abbrev Tag := BitVec 4

/-- The membership epoch: 16 bits that wrap (R154). -/
abbrev Epoch := BitVec 16

/-- One bit for each stored bit of a DRAM word: bits 0 to 63 its data bits, bits 64 to 71 its check bits (R2). -/
abbrev StoredBits := BitVec 72

end Sys2Proof
end

