-- ==== Sys2Proof/Syntax.lean ====
section
/-! DEFINITION. The commands of the VK-4460, one constructor for each row of spec/opcode_table.json, with the operands
that the spec gives each row. -/

namespace Sys2Proof

/-- The four attachments (00_scope.md, "Port"). -/
inductive Port where
  | p0 | p1 | p2 | p3
deriving DecidableEq, Repr

/-- The port number 0 to 3 (03 R41). -/
def Port.number : Port → Nat
  | .p0 => 0
  | .p1 => 1
  | .p2 => 2
  | .p3 => 3

/-- The four ports in ascending order. -/
def Port.all : List Port := [.p0, .p1, .p2, .p3]

/-- One thing for each port. -/
structure PerPort (α : Type) where
  p0 : α
  p1 : α
  p2 : α
  p3 : α
deriving DecidableEq, Repr

/-- The same thing for every port. -/
def PerPort.const {α : Type} (a : α) : PerPort α := ⟨a, a, a, a⟩

/-- The thing of port `p`. -/
def PerPort.get {α : Type} (m : PerPort α) : Port → α
  | .p0 => m.p0
  | .p1 => m.p1
  | .p2 => m.p2
  | .p3 => m.p3

/-- `m` with `a` for port `p`. -/
def PerPort.set {α : Type} (m : PerPort α) (p : Port) (a : α) : PerPort α :=
  match p with
  | .p0 => { m with p0 := a }
  | .p1 => { m with p1 := a }
  | .p2 => { m with p2 := a }
  | .p3 => { m with p3 := a }

/-- A transaction slot, 0 to 49 (03 R41). -/
abbrev SlotId := Fin 50

/-- The operations of an atomic block (09 R183). -/
inductive AtomicOp where
  | fetchAdd | swap | compareSwap
deriving DecidableEq, Repr

/-- The atomic block of an ATOMIC frame and of an ATOMIC_RMW operation (01 R3, 09 R183). -/
structure AtomicBlock where
  op : AtomicOp
  word : Fin 8
  a : Word
  b : Word
deriving DecidableEq, Repr

/-- The outcome of a YIELD, with the payload that DIRTY carries (chapter 5.2). -/
inductive YieldOutcome where
  | dirty (data : GranuleData)
  | clean
  | absent
deriving DecidableEq, Repr

/-- The control block of a CONTROL frame (09 R185). `value` is bytes 8 to 15, which SET_WINDOW reads as limit (bytes
8 to 10) and rights (byte 11). -/
structure ControlBlock where
  code : Byte
  arg : Byte
  offset : BitVec 16
  base : Granule
  valid : Byte
  value : Word
deriving DecidableEq, Repr

/-- The lines and straps as they stand when hub reset ends: true is asserted (00_scope.md, signal summary). -/
structure ResetLines where
  firstMemSize : Bool
  secondMemSize : Bool
  admitMode : Bool
  present : PerPort Bool
  latch : PerPort Bool
  /-- Where SPI_SEL is asserted when hub reset ends: the whole bytes on SPI_IN of that selection so far (10 R196, R200). -/
  selection : Option (List Byte)
deriving DecidableEq, Repr

/-- The commands, in the order of spec/opcode_table.json. The frames carry the header fields that the hub uses: tag,
granule field, recall id and outcome (09 R180). -/
inductive Instr where
  /-- Power-on or assertion of RESET (01 R16). -/
  | hubReset
  /-- Hub reset ends with the straps and lines as given (01 R1). -/
  | hubResetEnd (lines : ResetLines)
  /-- The debounced PRESENT line of a port has the new level (07 R127). -/
  | presenceEvent (p : Port) (asserted : Bool)
  /-- The debounced LATCH line of a port has the new level; closed is asserted (07 R127). -/
  | latchEvent (p : Port) (closed : Bool)
  | linkUp (p : Port)
  | linkLost (p : Port)
  | linkLostAtController (p : Port)
  | frameSent (p : Port)
  | readShare (p : Port) (tag : Tag) (g : Granule)
  | readOwn (p : Port) (tag : Tag) (g : Granule)
  | promote (p : Port) (tag : Tag) (g : Granule)
  | peek (p : Port) (tag : Tag) (g : Granule)
  | poke (p : Port) (tag : Tag) (g : Granule) (data : GranuleData) (mask : Mask)
  | atomic (p : Port) (tag : Tag) (g : Granule) (block : AtomicBlock)
  | returnDirty (p : Port) (tag : Tag) (g : Granule) (data : GranuleData)
  | release (p : Port) (tag : Tag) (g : Granule)
  | yield (p : Port) (tag : Tag) (g : Granule) (recallId : Byte) (outcome : YieldOutcome)
  /-- JOIN carries tag 15; `g` is the granule field as the card sent it (09 R180: not examined). -/
  | join (p : Port) (g : Granule)
  /-- LEAVE carries tag 15. -/
  | leave (p : Port) (g : Granule)
  /-- CONTROL carries tag 14. -/
  | control (p : Port) (g : Granule) (block : ControlBlock)
  /-- A frame given by its bytes, whose form no kind of 09 R181 has (R187). -/
  | malformedFrame (p : Port) (bytes : List Byte)
  | readComplete
  | writeFullComplete
  | writePartialComplete
  | atomicRmwComplete
  | poisonSetComplete
  | initComplete
  | recallDeadlineExpiry (slot : SlotId)
  | fenceRequest (p : Port)
  | departureDeadlineExpiry (p : Port)
  | walkVisit
  | sweepReport
  | clearReport
  | regRead (offset : BitVec 16)
  | regWrite (offset : BitVec 16) (value : Word)
  | eventStatusWrite (value : Word)
  | eventEnableWrite (value : Word)
  | portControlWrite (p : Port) (value : Word)
  | admitModeWrite (value : Word)
  | recallLimitWrite (value : Word)
  | departLimitWrite (value : Word)
  | correctedWrite (value : Word)
  | uncorrectedWrite (value : Word)
  | firstFaultWrite (value : Word)
  | protoErrorsWrite (p : Port) (value : Word)
  /-- The port byte of a membership command may name no port (10 R205). -/
  | admitPort (port : Byte)
  | ejectPort (port : Byte)
  | fencePort (port : Byte)
  | releasePort (port : Byte)
  | holdOn (port : Byte)
  | holdOff (port : Byte)
  | setWindow (index : Byte) (valid : Byte) (base limit : Granule) (rights : Byte)
  | hubClear
  | memPeek (g : Granule)
  | memPoke (g : Granule) (data : GranuleData) (mask : Mask)
  | slotStatus
  /-- These stored bits of word `word` of granule `g` come to be in error (01 R7). -/
  | dramBitsInError (g : Granule) (word : Fin 8) (bits : StoredBits)
  /-- SPI_SEL is deasserted after these whole bytes, before a request is complete (10 R197). -/
  | incompleteSelection (bytes : List Byte)
  | unknownServiceCommand (code : Byte)
deriving DecidableEq, Repr

end Sys2Proof
end

