-- ==== Sys2Proof/Decode.lean ====
section
/-! DEFINITION. The command that a word spells by the bits of spec/opcode_table.json. -/

namespace Sys2Proof

/-- No row of the table has bits, so no word spells a command. Commands reach the block as frames, service transfers,
lines and events, whose bytes Machine/Wire.lean reads. -/
def decodeTableWord (_nbits _w : Nat) : Option Instr := none

end Sys2Proof
end

