-- ==== Sys2Proof/Config.lean ====
section
/-! DEFINITION. What the manual leaves open (free values, with no body), and the fixed quantities of the part. -/

namespace Sys2Proof

/-- How the code sees a stored word with three or more bits in error: "more bits in error may be detected or may be
seen as a single-bit or a clean word" (01_granules_memory_and_poison.md R7). -/
inductive ManyBits where
  /-- Seen as a word without error. -/
  | clean
  /-- Seen as a word with a single error, in the stored bit of this number (0 to 63 data, 64 to 71 check bits). -/
  | single (bit : BitVec 7)
  /-- Detected, not correctable. -/
  | detected
deriving DecidableEq, Repr, Inhabited

namespace Config

/-- FREE VALUE (log 6). How a word is seen whose data were written as the first argument and whose stored bits in
error are the second, three or more of them. -/
opaque manyBitsSeenAs : Word → StoredBits → ManyBits

/-- FREE VALUE (log 8). The draws that settle the order of parties which the manual lets act in either order. -/
opaque pick : Nat → Nat

/-- FREE VALUE (log 11). How many of the frames that wait in the link layer are still taken when the link is lost. -/
opaque framesTakenAtLinkLost : Nat → Nat

/-- The memory queue holds up to 16 operations (R3). -/
def memoryQueueCapacity : Nat := 16

/-- Intake runs only while the outbound frame queue holds fewer frames than this (R179). -/
def intakeLimit : Nat := 32

/-- `xs` in an order settled by the draws from number `c` on; the first argument bounds the draws. Every order of
`xs` is open, and a list of at most one element has only one order and draws nothing. -/
def freeOrder {α : Type} : Nat → Nat → List α → List α
  | 0, _, xs => xs
  | _ + 1, _, [] => []
  | _ + 1, _, [x] => [x]
  | n + 1, c, x :: y :: xs =>
    let k := pick c % (xs.length + 2)
    match (x :: y :: xs)[k]? with
    | some z => z :: freeOrder n (c + 1) ((x :: y :: xs).eraseIdx k)
    | none => x :: y :: xs

end Config
end Sys2Proof
end

