-- ==== Sys2Proof/Machine/Sparse.lean ====
section
/-! DEFINITION. Sparse tables in one canonical form: a list of (key, value) pairs with keys strictly rising and no value
equal to the default, so that equal tables are equal data. DRAM bytes, bit errors, poison marks, directory sets and
granule chains are held so. -/

namespace Sys2Proof.Sparse

variable {α : Type}

/-- The value at key `k`; an unlisted key has the default `d`. -/
def get (d : α) : List (Nat × α) → Nat → α
  | [], _ => d
  | (a, v) :: m, k => if a = k then v else get d m k

/-- `m` with `v` at key `k`, in canonical form: writing the default removes the entry. -/
def set [DecidableEq α] (d : α) : List (Nat × α) → Nat → α → List (Nat × α)
  | [], k, v => if v = d then [] else [(k, v)]
  | (a, w) :: m, k, v =>
    if k < a then (if v = d then (a, w) :: m else (k, v) :: (a, w) :: m)
    else if k = a then (if v = d then m else (k, v) :: m)
    else (a, w) :: set d m k v

/-- The canonical form: keys strictly rising, and no entry equal to the default. -/
abbrev wf [DecidableEq α] (d : α) (m : List (Nat × α)) : Prop :=
  List.Pairwise (fun x y => x.1 < y.1) m ∧ ∀ e ∈ m, e.2 ≠ d

end Sys2Proof.Sparse
end

