-- ==== Sys2Proof/Machine/State.lean ====
section
/-! DEFINITION. The state of the VK-4460 as plain data, block by block as 00_scope.md lists the blocks, and its value
right after hub reset is taken. -/

namespace Sys2Proof.Machine

/-! ### Member port interfaces (chapter 9) -/

/-- The request kinds with their operands (04, 09 R181, R183). -/
inductive Request where
  | readShare | readOwn | promote | peek
  | poke (data : GranuleData) (mask : Mask)
  | atomic (block : AtomicBlock)
  | returnDirty (data : GranuleData)
  | release
deriving DecidableEq, Repr

/-- A frame from a card, whole and checked by the link layer (09 R181). `malformed` stands for a frame that fails the
form check for its kind code, length, outcome or atomic operation (R187). -/
inductive Frame where
  | request (tag : Tag) (g : Granule) (r : Request)
  | yield (tag : Tag) (g : Granule) (recallId : Byte) (outcome : YieldOutcome)
  | join (g : Granule)
  | leave (g : Granule)
  | control (g : Granule) (block : ControlBlock)
  | malformed
deriving DecidableEq, Repr

/-- The two recalls (chapter 5.1). -/
inductive RecallKind where
  | revoke | demote
deriving DecidableEq, Repr

/-- The status of an ACK (09 R192). -/
inductive AckStatus where
  | ok | stale | casFail
deriving DecidableEq, Repr

/-- The body of an ACK (09 R182). -/
inductive AckBody where
  | none
  | data (d : GranuleData)
  | value (v : Word)
deriving DecidableEq, Repr

/-- The reason of a BOUNCE, and the refusals of the service port (09 R192, 10 R199). -/
inductive Reason where
  | notMember | starting | busy | badAddress | denied | poisoned | refused | badArgument | wrongState
deriving DecidableEq, Repr

/-- Why a port was fenced (07 R126). -/
inductive FenceReason where
  | recallTimeout | departTimeout | linkLost | removed | hold | manager | clear
deriving DecidableEq, Repr

/-- The notices with what each carries beside the epoch (07 R155, 06 R121). `memberDown` with no reason is PARKED. -/
inductive Notice where
  | memberUp (p : Port)
  | memberDown (p : Port) (reason : Option FenceReason)
  | leaveAskedLatch (p : Port)
  | leaveAskedEject (p : Port)
  | leaveWithdrawn (p : Port)
  | rightsChanged (index : Fin 8)
deriving DecidableEq, Repr

/-- The mode of a directory entry, and of a grant (02 R21, 09 R182). -/
inductive Mode where
  | readers | owner
deriving DecidableEq, Repr

/-- A frame of the hub (09 R182). -/
inductive HubFrame where
  | grant (tag : Tag) (g : Granule) (mode : Mode) (data : Option GranuleData) (poison : Bool)
  | ack (tag : Tag) (g : Granule) (status : AckStatus) (body : AckBody) (poison : Bool)
  | bounce (tag : Tag) (g : Granule) (reason : Reason)
  | recall (kind : RecallKind) (g : Granule) (slot : SlotId)
  | notice (n : Notice) (epoch : Epoch)
deriving DecidableEq, Repr

/-- What one member port interface owns (chapter 9). -/
structure Iface where
  linkUp : Bool
  protoErrors : BitVec 8
  /-- The outbound frame queue, oldest first (R179). -/
  outq : List HubFrame
  /-- Frames that wait in the link layer while intake is held back, oldest first (R179). -/
  waiting : List Frame
deriving DecidableEq, Repr

/-! ### Memory controller (chapter 1) -/

/-- The kinds of memory operation with their operands (01 R3). -/
inductive MemKind where
  | read
  | writeFull (data : GranuleData)
  | writePartial (data : GranuleData) (mask : Mask)
  | atomicRmw (block : AtomicBlock)
  | poisonSet
  | init
deriving DecidableEq, Repr

/-- The party to which a completion returns (01 R3). -/
inductive Origin where
  | slot (i : SlotId)
  | sweep
  | initializer
deriving DecidableEq, Repr

/-- An operation of the memory queue (01 R3). -/
structure MemOp where
  kind : MemKind
  granule : Granule
  origin : Origin
deriving DecidableEq, Repr

/-- What FIRST_FAULT captures (01 R10). -/
structure FaultLocation where
  granule : Granule
  word : Fin 8
deriving DecidableEq, Repr

/-- What the memory controller owns (chapter 1). -/
structure MemController where
  /-- G, the installed granule count (R1). -/
  granuleCount : Nat
  /-- The data bytes as they were written, by byte offset in the pool (R2). -/
  dram : List Host.Cell
  /-- The stored bits in error of each word since it was written, by word number 8·granule + word (R7). -/
  bitErrors : List (Nat × StoredBits)
  /-- The poison map, by granule (R11). -/
  poison : List (Nat × Bool)
  /-- The memory queue, oldest first; the oldest is being performed (R3). -/
  queue : List MemOp
  /-- The pending list, in the order of the offers (R4). -/
  waiting : List MemOp
  /-- The next granule that the initializer has to offer (R17). -/
  nextInit : Nat
  corrected : BitVec 16
  uncorrected : BitVec 16
  firstFault : Option FaultLocation
deriving DecidableEq, Repr

/-! ### Holder directory (chapter 2) -/

/-- The lock of an entry (02 R21). -/
inductive Lock where
  | none
  | busy (slot : SlotId)
  | evicting (slot : SlotId)
deriving DecidableEq, Repr

/-- A valid directory entry (02 R21). -/
structure Entry where
  granule : Granule
  mode : Mode
  holders : PerPort Bool
  lock : Lock
deriving DecidableEq, Repr

/-- A set of eight ways, an invalid way being `none`, and its allocation order, oldest first (02 R20, R23). -/
structure DirSet where
  ways : Vector (Option Entry) 8
  order : List (Fin 8)
deriving DecidableEq, Repr

/-- The set after hub reset (02 R24). -/
def DirSet.empty : DirSet := ⟨Vector.replicate 8 Option.none, []⟩

/-! ### Transaction table (chapters 3 and 5) -/

/-- The phases of an occupied slot (03 R43); a FREE slot has no record. -/
inductive Phase where
  | waiting | evicting | recalling | memory | bypass | draining
deriving DecidableEq, Repr

/-- The kind of a transaction with its operands (03 R43). -/
inductive TxnKind where
  | member (r : Request)
  | sweepDepart (p : Port)
  | sweepRecheck
  /-- The sweep slot whose action HUB_CLEAR withdrew (08 R174). -/
  | sweepWithdrawn
  | memPeek
  | memPoke (data : GranuleData) (mask : Mask)
deriving DecidableEq, Repr

/-- An awaited port: the recall sent to it, and whether its answer state is timed out (05 R93). -/
structure Awaited where
  kind : RecallKind
  timedOut : Bool
deriving DecidableEq, Repr

/-- The status of an ATOMIC_RMW completion (01 R5). -/
inductive AtomicStatus where
  | ok | casFail | poisoned
deriving DecidableEq, Repr

/-- The result data of a slot (03 R43). -/
inductive OpResult where
  | none
  | data (d : GranuleData) (poison : Bool)
  | word (status : AtomicStatus) (old : Option Word)
deriving DecidableEq, Repr

/-- The record of an occupied slot (03 R43); the slot's number is its origin (R41). -/
structure Txn where
  phase : Phase
  kind : TxnKind
  granule : Granule
  victim : Option Granule
  awaited : PerPort (Option Awaited)
  deadline : Option Nat
  poisonSeen : Bool
  result : OpResult
deriving DecidableEq, Repr

/-- What the transaction table owns (chapters 3 and 5). -/
structure TxnTable where
  slots : Vector (Option Txn) 50
  /-- The granule chains, head first, by granule (03 R45). -/
  chains : List (Nat × List SlotId)
  recallLimit : BitVec 16
deriving DecidableEq, Repr

/-! ### Window table (chapter 6) -/

/-- The rights, in rising order (06 R113). -/
inductive Right where
  | none | read | write
deriving DecidableEq, Repr

/-- A window entry (06 R113). -/
structure Window where
  valid : Bool
  base : Granule
  limit : Granule
  rights : PerPort Right
deriving DecidableEq, Repr

/-! ### Port membership controller (chapter 7) -/

/-- The states of a port (07 R126). -/
inductive PortState where
  | empty | parked | held | joinable | active | departing | fencing | fenced
deriving DecidableEq, Repr

/-- The ADMIT_MODE register (07 R133). -/
inductive AdmitMode where
  | auto | managed
deriving DecidableEq, Repr

/-- A port record (07 R126). -/
structure PortRec where
  state : PortState
  present : Bool
  latchClosed : Bool
  holdFlag : Bool
  controlGrant : Bool
  indicatorForced : Bool
  fenceReason : Option FenceReason
  leaveAsked : Bool
  sweepFinished : Bool
  deadline : Option Nat
  joinedEpoch : Option Epoch
deriving DecidableEq, Repr

/-- What the port membership controller owns (chapter 7), with the events on their way to it. -/
structure Membership where
  ports : PerPort PortRec
  epoch : Epoch
  admitMode : AdmitMode
  departLimit : BitVec 16
  /-- LINK_LOST reports of each port's interface not yet taken (09 R178). -/
  linkLost : PerPort Nat
  /-- RECALL_TIMEOUT fence requests not yet taken (05 R105). -/
  fenceRequests : List Port
deriving DecidableEq, Repr

/-! ### Sweep engine (chapter 8) -/

/-- A sweep job (08 R157). -/
inductive Job where
  | depart (p : Port)
  | fence (p : Port)
  | recheck
  | clear
deriving DecidableEq, Repr

/-- The pause of the walk (08 R157). SWEEP_STATE shows both SLOT cases alike. -/
inductive Pause where
  | none
  /-- SLOT: the sweep slot is in use for the current entry. -/
  | slot
  /-- SLOT: the sweep slot is still in use from a stopped job (R169). -/
  | slotInUse
  | evicting
  | memory
deriving DecidableEq, Repr

/-- The walk record (08 R157). -/
structure Walk where
  set : Fin 1024
  way : Fin 8
  pause : Pause
deriving DecidableEq, Repr

/-- The start of a walk (08 R161), and the walk record while the queue is empty (R158, R176). -/
def Walk.start : Walk := ⟨0, 0, .none⟩

/-- A report of a completed job on its way to its owner (08 R171). -/
inductive Report where
  | depart (p : Port)
  | fence (p : Port)
  | clear
deriving DecidableEq, Repr

/-- What the sweep engine owns (chapter 8). -/
structure Sweep where
  /-- The sweep queue, the running job first (R157). -/
  jobs : List Job
  walk : Walk
  /-- Completion reports not yet taken, oldest first (R171). -/
  reports : List Report
deriving DecidableEq, Repr

/-! ### Service port and event unit (chapter 10) -/

/-- HUB_STATE (10 R204). -/
inductive HubState where
  | initializing | running | clearing
deriving DecidableEq, Repr

/-- The two memory commands (10 R206). -/
inductive MemCommand where
  | peek | poke
deriving DecidableEq, Repr

/-- The result record of the service slot (10 R206). -/
inductive SlotResult where
  | idle
  | pending (c : MemCommand) (g : Granule)
  | done (c : MemCommand) (g : Granule) (data : Option GranuleData) (poison : Bool)
  | badAddress (c : MemCommand) (g : Granule)
deriving DecidableEq, Repr

/-- What the service port and event unit owns (chapter 10). -/
structure ServicePort where
  hubState : HubState
  eventStatus : BitVec 11
  eventEnable : BitVec 11
  result : SlotResult
  /-- The response of the last transfer: the status byte and the response data (R197), which `State.spiOut` sends. -/
  response : List Byte
  /-- A selection that was open when hub reset ended has its request still to complete, which is not taken (R200). -/
  staleSelection : Bool
deriving DecidableEq, Repr

/-! ### The whole part -/

/-- The state of the part: one field for each block, hub reset and the time base, and the model's own two fields
`pending` (the commands that wait, first in, first out; log 1) and `freeDraws` (log 8). -/
structure State where
  pending : List Instr
  freeDraws : Nat
  /-- RESET is asserted, or power-on has not ended (01 R16). -/
  inReset : Bool
  /-- The 1 µs time base (00_scope.md). -/
  now : Nat
  mem : MemController
  /-- The holder directory, by set number (02 R20). -/
  dir : List (Nat × DirSet)
  table : TxnTable
  windows : Vector Window 8
  ctl : Membership
  ifaces : PerPort Iface
  sweep : Sweep
  svc : ServicePort
deriving DecidableEq, Repr

/-- Why the machine stops. The manual stops on nothing. -/
inductive Fault where
  /-- Raised by the completion of a memory operation on a granule of G or more, an address that does not exist (01 R1:
  the memory queue is offered addresses below G). SAFE (log 15): no run of the part meets it. -/
  | noSuchGranule
deriving DecidableEq, Repr

/-- Why a command has no meaning. -/
inductive Refusal where
  /-- A row of the table without a meaning yet. SAFE. No arm uses it. -/
  | notModelled (mnemonic : String)
deriving DecidableEq, Repr

/-- The least installed granule count: the two straps deasserted, or reserved (01 R1). -/
def leastGranuleCount : Nat := 2097152

/-- The window table after hub reset with a granule count of `g` (06 R114). -/
def resetWindows (g : Nat) : Vector Window 8 :=
  (Vector.replicate 8 (⟨false, 0, 0, .const .none⟩ : Window)).set 0 ⟨true, 0, BitVec.ofNat 23 (g - 1), .const .write⟩

/-- A port record in hub reset (07 R126). -/
def PortRec.reset : PortRec where
  state := .empty
  present := false
  latchClosed := false
  holdFlag := false
  controlGrant := false
  indicatorForced := false
  fenceReason := none
  leaveAsked := false
  sweepFinished := false
  deadline := none
  joinedEpoch := none

/-- The state in hub reset, as power-on or RESET leaves it (01 R16, 02 R24, 03 R44, 05 R103, R112, 07 R126, R140,
R154, 08 R158, 09 R178, R179, R191, 10 R201, R204, R206, R213, R214). The granule count and ADMIT_MODE stand at the
values of deasserted straps until HUB_RESET_END samples them (log 4). -/
def State.reset : State where
  pending := []
  freeDraws := 0
  inReset := true
  now := 0
  mem :=
    { granuleCount := leastGranuleCount, dram := [], bitErrors := [], poison := [], queue := [], waiting := [],
      nextInit := 0, corrected := 0, uncorrected := 0, firstFault := none }
  dir := []
  table := { slots := Vector.replicate 50 none, chains := [], recallLimit := 500 }
  windows := resetWindows leastGranuleCount
  ctl :=
    { ports := .const .reset, epoch := 0, admitMode := .auto, departLimit := 200, linkLost := .const 0,
      fenceRequests := [] }
  ifaces := .const { linkUp := false, protoErrors := 0, outq := [], waiting := [] }
  sweep := { jobs := [], walk := .start, reports := [] }
  svc :=
    { hubState := .initializing, eventStatus := 0, eventEnable := 0, result := .idle, response := [],
      staleSelection := false }

end Sys2Proof.Machine
end

