-- ==== Sys2Proof/Machine/Operands.lean ====
section
/-! DEFINITION. Operand forms: byte order, the words and flags of a granule, slot numbers, tags, rights and the fields of
a control block. -/

namespace Sys2Proof.Machine

/-! ### Bytes and numbers -/

/-- A number from its bytes, least significant first (09, chapter 9.2). -/
def leNat : List Byte → Nat
  | [] => 0
  | b :: bs => b.toNat + 256 * leNat bs

/-- The `n` low bytes of a number, least significant first (09, chapter 9.2). -/
def leBytes : Nat → Nat → List Byte
  | 0, _ => []
  | n + 1, v => BitVec.ofNat 8 v :: leBytes n (v / 256)

/-- A number from its bytes, most significant first (10 R196). -/
def beNat (bs : List Byte) : Nat := leNat bs.reverse

/-- The `n` low bytes of a number, most significant first (10 R196). -/
def beBytes (n v : Nat) : List Byte := (leBytes n v).reverse

/-- The 64 bytes of a granule in order (01 R2). -/
def dataBytes (d : GranuleData) : List Byte := leBytes 64 d.toNat

/-- A granule from its 64 bytes in order (01 R2). -/
def dataOfBytes (bs : List Byte) : GranuleData := BitVec.ofNat 512 (leNat bs)

/-! ### Words and masks -/

/-- Word `w` of a granule: bytes 8w to 8w+7, byte 8w least significant (01 R2). -/
def wordOf (d : GranuleData) (w : Fin 8) : Word := d.extractLsb' (64 * w.val) 64

/-- Byte `i` of a granule (01 R2). -/
def byteOf (d : GranuleData) (i : Nat) : Byte := d.extractLsb' (8 * i) 8

/-- A granule from its eight words (01 R2). -/
def dataOfWords (f : Fin 8 → Word) : GranuleData :=
  f 7 ++ f 6 ++ f 5 ++ f 4 ++ f 3 ++ f 2 ++ f 1 ++ f 0

/-- The eight flags of the bytes of word `w` (01 R2). -/
def flagsOf (m : Mask) (w : Fin 8) : Byte := m.extractLsb' (8 * w.val) 8

/-- A word with all bits set in the bytes whose flags are set. -/
def spread (flags : Byte) : Word :=
  let b := fun i => if flags.getLsbD i then (255 : Byte) else 0
  b 7 ++ b 6 ++ b 5 ++ b 4 ++ b 3 ++ b 2 ++ b 1 ++ b 0

/-- `old` with the flagged bytes replaced from `new` (01 R13). -/
def mergeWord (old new : Word) (flags : Byte) : Word :=
  (new &&& spread flags) ||| (old &&& ~~~spread flags)

/-- The mask with all 64 flags set. -/
def fullMask : Mask := BitVec.allOnes 64

/-- The eight word numbers in ascending order. -/
def allWords : List (Fin 8) := [0, 1, 2, 3, 4, 5, 6, 7]

/-- How many stored bits are in error. -/
def bitCount (e : StoredBits) : Nat := (List.range 72).countP fun i => e.getLsbD i

/-- The number of a word in the pool. -/
def wordKey (g : Granule) (w : Fin 8) : Nat := 8 * g.toNat + w.val

/-- The offset in the pool of the first byte of a word: byte b of granule a stands at 64a + b (01 R2). -/
def wordAddress (g : Granule) (w : Fin 8) : Nat := 64 * g.toNat + 8 * w.val

/-! ### Slots, ports and tags -/

/-- The port with a number of 0 to 3. -/
def portOfNumber : Nat → Option Port
  | 0 => some .p0
  | 1 => some .p1
  | 2 => some .p2
  | 3 => some .p3
  | _ => none

/-- The slot that a tag of 0 to 11 names: 12 × port number + tag (03 R41). -/
def memberSlot (p : Port) (tag : Tag) : Option SlotId :=
  if h : 12 * p.number + tag.toNat < 48 ∧ tag.toNat < 12 then some ⟨12 * p.number + tag.toNat, by omega⟩ else none

/-- The sweep slot (03 R41). -/
def sweepSlot : SlotId := 48

/-- The service slot (03 R41). -/
def serviceSlot : SlotId := 49

/-- The port whose member slot this is (03 R41). -/
def slotPort (i : SlotId) : Option Port := portOfNumber (i.val / 12)

/-- The tag of a member slot (03 R41). -/
def slotTag (i : SlotId) : Tag := BitVec.ofNat 4 (i.val % 12)

/-- The fifty slots in ascending order. -/
def allSlots : List SlotId := List.finRange 50

/-- The twelve member slots of a port (03 R41). -/
def portSlots (p : Port) : List SlotId := allSlots.filter fun i => slotPort i == some p

/-- The slot that a recall id of 0 to 49 names (05 R90). -/
def slotOfRecallId (b : Byte) : Option SlotId :=
  if h : b.toNat < 50 then some ⟨b.toNat, h⟩ else none

/-- The set of a granule: its address modulo 1024 (02 R20). -/
def setOf (g : Granule) : Nat := g.toNat % 1024

/-! ### Sets of ports -/

/-- The ports of a set, in ascending order. -/
def members (m : PerPort Bool) : List Port := Port.all.filter m.get

/-- The set has no port. -/
def noMember (m : PerPort Bool) : Bool := !m.p0 && !m.p1 && !m.p2 && !m.p3

/-- No port is awaited (05 R93). -/
def noneAwaited (a : PerPort (Option Awaited)) : Bool :=
  a.p0.isNone && a.p1.isNone && a.p2.isNone && a.p3.isNone

/-! ### Rights and the fields of SET_WINDOW -/

/-- A pair of right bits: WRITE when its upper bit is set, READ when only its lower bit is set, else NONE (09 R185). -/
def rightOfBits (b : BitVec 2) : Right :=
  if b.getLsbD 1 then .write else if b.getLsbD 0 then .read else .none

/-- The rights byte: two bits per port, P0 in bits 1–0 (09 R185, 10 R198). -/
def rightsOfByte (b : Byte) : PerPort Right :=
  ⟨rightOfBits (b.extractLsb' 0 2), rightOfBits (b.extractLsb' 2 2), rightOfBits (b.extractLsb' 4 2),
    rightOfBits (b.extractLsb' 6 2)⟩

/-- The code of a right in the WINDOW register (10 R202). -/
def Right.code : Right → Nat
  | .none => 0
  | .read => 1
  | .write => 2

/-- `r` is at least the right needed (06 R113). -/
def Right.covers (r need : Right) : Bool := need.code ≤ r.code

/-- The limit field of a control block: the low 23 bits of bytes 8 to 10 (09 R185). -/
def ControlBlock.limit (b : ControlBlock) : Granule := b.value.extractLsb' 0 23

/-- The rights byte of a control block: byte 11 (09 R185). -/
def ControlBlock.rights (b : ControlBlock) : Byte := b.value.extractLsb' 24 8

/-! ### Request kinds -/

/-- The right that a kind needs (06 R116). -/
def Request.need : Request → Right
  | .readShare => .read
  | .readOwn => .write
  | .promote => .write
  | .peek => .read
  | .poke _ _ => .write
  | .atomic _ => .write
  | .returnDirty _ => .none
  | .release => .none

/-- RETURN_DIRTY and RELEASE bypass the chains (chapter 4). -/
def Request.bypass : Request → Bool
  | .returnDirty _ => true
  | .release => true
  | .readShare => false
  | .readOwn => false
  | .promote => false
  | .peek => false
  | .poke _ _ => false
  | .atomic _ => false

/-- A kind that gets a directory entry when its granule has none (02 R25). -/
def TxnKind.allocates : TxnKind → Bool
  | .member .readShare => true
  | .member .readOwn => true
  | .member .promote => true
  | .member .peek => false
  | .member (.poke _ _) => false
  | .member (.atomic _) => false
  | .member (.returnDirty _) => false
  | .member .release => false
  | .sweepDepart _ => false
  | .sweepRecheck => false
  | .sweepWithdrawn => false
  | .memPeek => false
  | .memPoke _ _ => false

/-- A POKE or MEM_POKE with no mask flag set (03 R48 step 2). -/
def TxnKind.zeroMask : TxnKind → Bool
  | .member (.poke _ m) => m == 0
  | .memPoke _ m => m == 0
  | .member .readShare => false
  | .member .readOwn => false
  | .member .promote => false
  | .member .peek => false
  | .member (.atomic _) => false
  | .member (.returnDirty _) => false
  | .member .release => false
  | .sweepDepart _ => false
  | .sweepRecheck => false
  | .sweepWithdrawn => false
  | .memPeek => false

/-- A kind judged for WRITE at activation: member POKE and ATOMIC (03 R48 step 1). -/
def TxnKind.judgedAtActivation : TxnKind → Bool
  | .member (.poke _ _) => true
  | .member (.atomic _) => true
  | .member .readShare => false
  | .member .readOwn => false
  | .member .promote => false
  | .member .peek => false
  | .member (.returnDirty _) => false
  | .member .release => false
  | .sweepDepart _ => false
  | .sweepRecheck => false
  | .sweepWithdrawn => false
  | .memPeek => false
  | .memPoke _ _ => false

end Sys2Proof.Machine
end

