-- ==== Sys2Proof/Machine/Flags.lean ====
section
/-! DEFINITION. Counts, event bits, output lines, conditions and the values of the 64-bit registers. -/

namespace Sys2Proof.Machine

/-! ### Counts -/

/-- A 16-bit count raised by `n`, saturating at 65,535 (01 R9). -/
def satAdd (c : BitVec 16) (n : Nat) : BitVec 16 := BitVec.ofNat 16 (min (c.toNat + n) 65535)

/-- An 8-bit count raised by one, saturating at 255 (09 R191). -/
def satInc (c : BitVec 8) : BitVec 8 := BitVec.ofNat 8 (min (c.toNat + 1) 255)

/-! ### Events -/

/-- The eleven events of the event unit (10, chapter 10.6). -/
inductive Event where
  | seated | admitWait | joined | leaveAsked | parked | fenced | protocol | uncorrectable | sweepIdle | initDone
  | clearDone
deriving DecidableEq, Repr

/-- The bit of an event in EVENT_STATUS and EVENT_ENABLE (10 R202). -/
def Event.bit : Event → Nat
  | .seated => 0
  | .admitWait => 1
  | .joined => 2
  | .leaveAsked => 3
  | .parked => 4
  | .fenced => 5
  | .protocol => 6
  | .uncorrectable => 7
  | .sweepIdle => 8
  | .initDone => 9
  | .clearDone => 10

/-- An event set with the event latched (10 R213). -/
def latchEventBit (status : BitVec 11) (e : Event) : BitVec 11 := status ||| BitVec.ofNat 11 (2 ^ e.bit)

/-! ### Output lines -/

/-- ALERT: at least one event is both latched and enabled (10 R214). -/
def State.alert (s : State) : Bool := (s.svc.eventStatus &&& s.svc.eventEnable) != 0

/-- HOLD of a port: initialization has not ended, or FENCED, or the hold flag is set (07 R129). -/
def State.holdLine (s : State) (p : Port) : Bool :=
  s.svc.hubState == .initializing || (s.ctl.ports.get p).state == .fenced || (s.ctl.ports.get p).holdFlag

/-- INDICATOR of a port: PARKED or FENCED, or forced (07 R128). -/
def State.indicatorLine (s : State) (p : Port) : Bool :=
  (s.ctl.ports.get p).state == .parked || (s.ctl.ports.get p).state == .fenced || (s.ctl.ports.get p).indicatorForced

/-! ### Conditions that several blocks consult -/

/-- The port's state. -/
def State.portState (s : State) (p : Port) : PortState := (s.ctl.ports.get p).state

/-- A member is a port in ACTIVE or DEPARTING (00_scope.md). -/
def PortState.isMember : PortState → Bool
  | .active => true
  | .departing => true
  | .empty => false
  | .parked => false
  | .held => false
  | .joinable => false
  | .fencing => false
  | .fenced => false

/-- A port in FENCING or FENCED, to which no frame is sent and from which none is taken (09 R179, R187). -/
def PortState.isFenced : PortState → Bool
  | .fencing => true
  | .fenced => true
  | .empty => false
  | .parked => false
  | .held => false
  | .joinable => false
  | .active => false
  | .departing => false

/-- The record of a slot; `none` is FREE (03 R43). -/
def State.txn (s : State) (i : SlotId) : Option Txn := s.table.slots.get i

/-- The chain of a granule, head first (03 R45). -/
def State.chain (s : State) (g : Granule) : List SlotId := Sparse.get [] s.table.chains g.toNat

/-- The slot's outstanding count: its operations in the memory queue and the pending list (01 R5). -/
def State.outstanding (s : State) (i : SlotId) : Nat :=
  (s.mem.queue ++ s.mem.waiting).countP fun op => op.origin == .slot i

/-- The occupied member slots of a port (03 R41). -/
def State.occupied (s : State) (p : Port) : Nat := (portSlots p).countP fun i => (s.txn i).isSome

/-- The first valid window entry that covers the granule (06 R115). -/
def State.coveringWindow (s : State) (g : Granule) : Option Window :=
  s.windows.toList.find? fun w => w.valid && w.base ≤ g && g ≤ w.limit

/-- The right of a port for a granule (06 R115). -/
def State.right (s : State) (p : Port) (g : Granule) : Right :=
  match s.coveringWindow g with
  | some w => w.rights.get p
  | none => .none

/-! ### Registers -/

/-- The registers, each instance by itself (10 R201). -/
inductive Reg where
  | hubState | epoch | memGranules | admitMode | recallLimit | departLimit | eventStatus | eventEnable
  | corrected | uncorrected | firstFault | sweepState
  | portStatus (p : Port)
  | portControl (p : Port)
  | protoErrors (p : Port)
  | window (i : Fin 8)
deriving DecidableEq, Repr

/-- The registers in the order of their offsets, which are 8 apart from 00h (10 R201). -/
def registerTable : List Reg :=
  [.hubState, .epoch, .memGranules, .admitMode, .recallLimit, .departLimit, .eventStatus, .eventEnable, .corrected,
    .uncorrected, .firstFault, .sweepState]
    ++ [.portStatus .p0, .portStatus .p1, .portStatus .p2, .portStatus .p3]
    ++ [.portControl .p0, .portControl .p1, .portControl .p2, .portControl .p3]
    ++ [.protoErrors .p0, .protoErrors .p1, .protoErrors .p2, .protoErrors .p3]
    ++ [.window 0, .window 1, .window 2, .window 3, .window 4, .window 5, .window 6, .window 7]

/-- The register at an offset; none for an offset outside the table or between two registers (10 R203). -/
def Reg.ofOffset (offset : BitVec 16) : Option Reg :=
  if offset.toNat % 8 = 0 then registerTable[offset.toNat / 8]? else none

/-- A field of a register value: `v` from bit `at` on. -/
def field (v pos : Nat) : Word := BitVec.ofNat 64 (v * 2 ^ pos)

/-- One bit of a register value. -/
def flagBit (b : Bool) (pos : Nat) : Word := if b then field 1 pos else 0

def HubState.code : HubState → Nat
  | .initializing => 0
  | .running => 1
  | .clearing => 2

def PortState.code : PortState → Nat
  | .empty => 0
  | .parked => 1
  | .held => 2
  | .joinable => 3
  | .active => 4
  | .departing => 5
  | .fencing => 6
  | .fenced => 7

/-- The code of a fence reason in PORT_STATUS and in MEMBER_DOWN (10 R202, 09 R184). -/
def FenceReason.code : FenceReason → Nat
  | .recallTimeout => 1
  | .departTimeout => 2
  | .linkLost => 3
  | .removed => 4
  | .hold => 5
  | .manager => 6
  | .clear => 7

/-- Job kind and job port of SWEEP_STATE (08 R176, 10 R202). -/
def Job.code : Job → Nat
  | .depart _ => 1
  | .fence _ => 2
  | .recheck => 3
  | .clear => 4

def Job.portNumber : Job → Nat
  | .depart p => p.number
  | .fence p => p.number
  | .recheck => 0
  | .clear => 0

def Pause.code : Pause → Nat
  | .none => 0
  | .slot => 1
  | .slotInUse => 1
  | .evicting => 2
  | .memory => 3

/-- The sweep slot phase field of SWEEP_STATE (10 R202). The sweep slot takes no other phase (08 R176). -/
def sweepPhaseCode : Option Txn → Nat
  | none => 0
  | some t =>
    match t.phase with
    | .waiting => 1
    | .recalling => 2
    | .memory => 3
    | .evicting => 0
    | .bypass => 0
    | .draining => 0

/-- SWEEP_STATE (08 R176, 10 R202). -/
def sweepStateValue (s : State) : Word :=
  let job := s.sweep.jobs.head?
  let slot := s.txn sweepSlot
  field ((job.map Job.code).getD 0) 0 ||| field ((job.map Job.portNumber).getD 0) 4
    ||| field s.sweep.walk.set.val 8 ||| field s.sweep.walk.way.val 20 ||| field s.sweep.walk.pause.code 24
    ||| field (sweepPhaseCode slot) 28
    ||| flagBit (slot.any fun t => !noneAwaited t.awaited) 31 ||| field (s.sweep.jobs.length % 8) 32

/-- PORT_STATUS (07 R126, 10 R202). -/
def portStatusValue (s : State) (p : Port) : Word :=
  let r := s.ctl.ports.get p
  field r.state.code 0 ||| flagBit r.present 4 ||| flagBit r.latchClosed 5 ||| flagBit r.leaveAsked 6
    ||| flagBit r.holdFlag 7 ||| flagBit (s.ifaces.get p).linkUp 8
    ||| field ((r.fenceReason.map FenceReason.code).getD 0) 12 ||| field (s.occupied p) 16
    ||| flagBit r.joinedEpoch.isSome 31 ||| field (r.joinedEpoch.getD 0).toNat 32

/-- FIRST_FAULT (01 R10, 10 R202). -/
def firstFaultValue : Option FaultLocation → Word
  | none => 0
  | some f => field f.granule.toNat 0 ||| field f.word.val 24 ||| field 1 31

/-- WINDOW (06 R125, 10 R202). -/
def windowValue (w : Window) : Word :=
  field w.base.toNat 0 ||| field w.limit.toNat 24 ||| field w.rights.p0.code 48 ||| field w.rights.p1.code 50
    ||| field w.rights.p2.code 52 ||| field w.rights.p3.code 54 ||| flagBit w.valid 63

/-- What a register reads as (10 R202). -/
def readRegister (s : State) : Reg → Word
  | .hubState => field s.svc.hubState.code 0
  | .epoch => s.ctl.epoch.setWidth 64
  | .memGranules => field (s.mem.granuleCount % 2 ^ 24) 0
  | .admitMode => flagBit (s.ctl.admitMode == .managed) 0
  | .recallLimit => s.table.recallLimit.setWidth 64
  | .departLimit => s.ctl.departLimit.setWidth 64
  | .eventStatus => s.svc.eventStatus.setWidth 64
  | .eventEnable => s.svc.eventEnable.setWidth 64
  | .corrected => s.mem.corrected.setWidth 64
  | .uncorrected => s.mem.uncorrected.setWidth 64
  | .firstFault => firstFaultValue s.mem.firstFault
  | .sweepState => sweepStateValue s
  | .portStatus p => portStatusValue s p
  | .portControl p =>
    flagBit (s.ctl.ports.get p).controlGrant 0 ||| flagBit (s.ctl.ports.get p).indicatorForced 1
  | .protoErrors p => (s.ifaces.get p).protoErrors.setWidth 64
  | .window i => windowValue (s.windows.get i)

end Sys2Proof.Machine
end

