-- ==== Sys2Proof/Machine/Wire.lean ====
section
/-! DEFINITION. Bytes on the wire: a card's frame read from its bytes, a hub frame written as bytes, and a request of the
service port read from its bytes (chapters 9.2 and 10.1). -/

namespace Sys2Proof.Machine

/-! ### Frames from a card -/

/-- Byte `n`, 0 beyond the end. -/
def byteAt (bs : List Byte) (n : Nat) : Byte := bs.getD n 0

/-- `n` bytes from position `k` on, as a number with the least significant byte first. -/
def leField (bs : List Byte) (k n : Nat) : Nat := leNat ((bs.drop k).take n)

/-- The tag field (09 R180). -/
def tagField (bs : List Byte) : Tag := (byteAt bs 1).extractLsb' 0 4

/-- The granule address field: 23 bits of bytes 2 to 4 (09 R180). -/
def granuleField (bs : List Byte) : Granule := BitVec.ofNat 23 (leField bs 2 3)

/-- The data of a body that starts with them, after the 8-byte header (09 R183). -/
def dataField (bs : List Byte) : GranuleData := dataOfBytes ((bs.drop 8).take 64)

/-- The operation code of an atomic block (09 R183). -/
def atomicOpOfCode (b : Byte) : Option AtomicOp :=
  if b = 1 then some .fetchAdd else if b = 2 then some .swap else if b = 3 then some .compareSwap else none

/-- A request of a kind without body: its length is 8 and its tag class 0 to 13 (09 R181). -/
def bareRequest (bs : List Byte) (r : Request) : Frame :=
  if bs.length = 8 ∧ (tagField bs).toNat < 14 then .request (tagField bs) (granuleField bs) r else .malformed

/-- ATOMIC (09 R181, R183). -/
def atomicFrame (bs : List Byte) : Frame :=
  match atomicOpOfCode (byteAt bs 8) with
  | some op =>
    if bs.length = 32 ∧ (tagField bs).toNat < 14 then
      .request (tagField bs) (granuleField bs)
        (.atomic ⟨op, ⟨(byteAt bs 9).toNat % 8, by omega⟩, BitVec.ofNat 64 (leField bs 16 8),
          BitVec.ofNat 64 (leField bs 24 8)⟩)
    else .malformed
  | none => .malformed

/-- YIELD: the length that its outcome permits (09 R181). -/
def yieldFrame (bs : List Byte) : Frame :=
  let outcome : BitVec 2 := (byteAt bs 6).extractLsb' 0 2
  if outcome = 1 ∧ bs.length = 72 then .yield (tagField bs) (granuleField bs) (byteAt bs 5) (.dirty (dataField bs))
  else if outcome = 2 ∧ bs.length = 8 then .yield (tagField bs) (granuleField bs) (byteAt bs 5) .clean
  else if outcome = 3 ∧ bs.length = 8 then .yield (tagField bs) (granuleField bs) (byteAt bs 5) .absent
  else .malformed

/-- The control block of a CONTROL frame (09 R185). -/
def controlBlock (bs : List Byte) : ControlBlock where
  code := byteAt bs 8
  arg := byteAt bs 9
  offset := BitVec.ofNat 16 (leField bs 10 2)
  base := BitVec.ofNat 23 (leField bs 12 3)
  valid := byteAt bs 15
  value := BitVec.ofNat 64 (leField bs 16 8)

/-- A frame from a card, by the form check of intake (09 R180, R181, R183, R185, R187). -/
def Frame.ofBytes (bs : List Byte) : Frame :=
  if bs.length < 8 then .malformed
  else
    match (byteAt bs 0).toNat with
    | 1 => bareRequest bs .readShare
    | 2 => bareRequest bs .readOwn
    | 3 => bareRequest bs .promote
    | 4 => bareRequest bs .peek
    | 5 =>
      if bs.length = 80 ∧ (tagField bs).toNat < 14 then
        .request (tagField bs) (granuleField bs) (.poke (dataField bs) (BitVec.ofNat 64 (leField bs 72 8)))
      else .malformed
    | 6 => atomicFrame bs
    | 7 =>
      if bs.length = 72 ∧ (tagField bs).toNat < 14 then
        .request (tagField bs) (granuleField bs) (.returnDirty (dataField bs))
      else .malformed
    | 8 => bareRequest bs .release
    | 9 => yieldFrame bs
    | 10 => if bs.length = 8 ∧ tagField bs = 15 then .join (granuleField bs) else .malformed
    | 11 => if bs.length = 8 ∧ tagField bs = 15 then .leave (granuleField bs) else .malformed
    | 12 => if bs.length = 24 ∧ tagField bs = 14 then .control (granuleField bs) (controlBlock bs) else .malformed
    | _ => .malformed

/-! ### Frames of the hub -/

/-- The status code of an ACK (09 R192). -/
def AckStatus.code : AckStatus → Nat
  | .ok => 0
  | .stale => 1
  | .casFail => 2

/-- The reason code of a BOUNCE, and of a refusal on the service port (09 R192, 10 R199). -/
def Reason.code : Reason → Nat
  | .notMember => 1
  | .starting => 2
  | .busy => 3
  | .badAddress => 4
  | .denied => 5
  | .poisoned => 6
  | .refused => 7
  | .badArgument => 8
  | .wrongState => 9

/-- The eight bytes of a header: kind, tag, granule, byte 5 and byte 6 (09 R180). -/
def headerBytes (kind : Nat) (tag : Tag) (g : Granule) (byte5 byte6 : Nat) : List Byte :=
  leBytes 1 kind ++ leBytes 1 tag.toNat ++ leBytes 3 g.toNat ++ leBytes 1 byte5 ++ leBytes 1 byte6 ++ [0]

/-- Bit 2 of byte 6, the poison flag (09 R180). -/
def poisonBit (b : Bool) : Nat := if b then 4 else 0

/-- Bit 3 of byte 6, the mode of a GRANT (09 R180). -/
def Mode.headerBit : Mode → Nat
  | .readers => 0
  | .owner => 8

/-- The body of an ACK (09 R182). -/
def AckBody.bytes : AckBody → List Byte
  | .none => []
  | .data d => dataBytes d
  | .value v => leBytes 8 v.toNat

/-- The kind codes of REVOKE and DEMOTE (09 R182). -/
def RecallKind.code : RecallKind → Nat
  | .revoke => 19
  | .demote => 20

/-- The kind, port and argument of a notice block (09 R184). -/
def Notice.fields : Notice → Nat × Nat × Nat
  | .memberUp p => (1, p.number, 0)
  | .memberDown p reason => (2, p.number, (reason.map FenceReason.code).getD 0)
  | .leaveAskedLatch p => (3, p.number, 1)
  | .leaveAskedEject p => (3, p.number, 2)
  | .leaveWithdrawn p => (4, p.number, 0)
  | .rightsChanged k => (5, 0, k.val)

/-- A frame of the hub as it is sent (09 R180, R182, R184). -/
def HubFrame.toBytes : HubFrame → List Byte
  | .grant tag g mode data poison =>
    headerBytes 16 tag g 0 (poisonBit poison + mode.headerBit) ++ (data.map dataBytes).getD []
  | .ack tag g status body poison => headerBytes 17 tag g status.code (poisonBit poison) ++ body.bytes
  | .bounce tag g reason => headerBytes 18 tag g reason.code 0
  | .recall kind g slot => headerBytes kind.code 0 g slot.val 0
  | .notice n epoch =>
    headerBytes 21 15 0 0 0
      ++ (leBytes 1 n.fields.1 ++ leBytes 1 n.fields.2.1 ++ leBytes 2 epoch.toNat ++ leBytes 1 n.fields.2.2 ++ [0, 0, 0])

/-! ### Requests of the service port -/

/-- `n` bytes from position `k` on, as a number with the most significant byte first (10 R196). -/
def beField (bs : List Byte) (k n : Nat) : Nat := beNat ((bs.drop k).take n)

/-- The argument bytes that a command code calls for; none for a code outside the table (10 R198). -/
def argumentBytes (code : Byte) : Option Nat :=
  match code.toNat with
  | 1 => some 2
  | 2 => some 10
  | 3 => some 1
  | 4 => some 1
  | 5 => some 1
  | 6 => some 1
  | 7 => some 1
  | 8 => some 1
  | 9 => some 9
  | 10 => some 0
  | 11 => some 3
  | 12 => some 75
  | 13 => some 0
  | _ => none

/-- The row of a REG_WRITE from the service port: a row of its own for each writable register (10 R203). -/
def registerWriteRow (offset : BitVec 16) (v : Word) : Instr :=
  match Reg.ofOffset offset with
  | some .eventStatus => .eventStatusWrite v
  | some .eventEnable => .eventEnableWrite v
  | some (.portControl p) => .portControlWrite p v
  | some .admitMode => .admitModeWrite v
  | some .recallLimit => .recallLimitWrite v
  | some .departLimit => .departLimitWrite v
  | some .corrected => .correctedWrite v
  | some .uncorrected => .uncorrectedWrite v
  | some .firstFault => .firstFaultWrite v
  | some (.protoErrors p) => .protoErrorsWrite p v
  | some .hubState => .regWrite offset v
  | some .epoch => .regWrite offset v
  | some .memGranules => .regWrite offset v
  | some .sweepState => .regWrite offset v
  | some (.portStatus _) => .regWrite offset v
  | some (.window _) => .regWrite offset v
  | none => .regWrite offset v

/-- The command of a request whose bytes after the command byte are `a` (10 R198). -/
def requestRow (code : Byte) (a : List Byte) : Instr :=
  let granule : Granule := BitVec.ofNat 23 (beField a 0 3)
  match code.toNat with
  | 1 => .regRead (BitVec.ofNat 16 (beField a 0 2))
  | 2 => registerWriteRow (BitVec.ofNat 16 (beField a 0 2)) (BitVec.ofNat 64 (beField a 2 8))
  | 3 => .admitPort (byteAt a 0)
  | 4 => .ejectPort (byteAt a 0)
  | 5 => .fencePort (byteAt a 0)
  | 6 => .releasePort (byteAt a 0)
  | 7 => .holdOn (byteAt a 0)
  | 8 => .holdOff (byteAt a 0)
  | 9 =>
    .setWindow (byteAt a 0) (byteAt a 1) (BitVec.ofNat 23 (beField a 2 3)) (BitVec.ofNat 23 (beField a 5 3)) (byteAt a 8)
  | 10 => .hubClear
  | 11 => .memPeek granule
  | 12 => .memPoke granule (dataOfBytes ((a.drop 3).take 64)) (BitVec.ofNat 64 (leField a 67 8))
  | 13 => .slotStatus
  | _ => .unknownServiceCommand code

/-- The command that the whole bytes of a selection complete, if they complete one; later bytes are not examined
(10 R197, R198). -/
def serviceRequest (bytes : List Byte) : Option Instr :=
  match bytes with
  | [] => none
  | code :: a =>
    match argumentBytes code with
    | none => some (.unknownServiceCommand code)
    | some n => if a.length < n then none else some (requestRow code a)

/-! ### SPI_OUT -/

/-- The length of the request that the bytes of a selection begin: the command byte and the argument bytes that its code
calls for; an unknown code is a request of one byte (10 R197, R198). -/
def requestLength : List Byte → Nat
  | [] => 1
  | code :: _ => 1 + (argumentBytes code).getD 0

/-- After these bytes a selection has not carried its request whole (10 R197). -/
def requestOpen (bytes : List Byte) : Bool := bytes.length < requestLength bytes

/-- What SPI_OUT carries while byte `n` of a selection is clocked, whose bytes on SPI_IN are given: zero during the
request, zero in the turnaround byte, then the response of the transfer, then zero. Outside a selection SPI_OUT is not
driven (10 R196, R197). -/
def State.spiOut (s : State) (selection : Option (List Byte)) (n : Nat) : Option Byte :=
  selection.map fun bytes =>
    if n ≤ requestLength bytes then 0 else s.svc.response.getD (n - requestLength bytes - 1) 0

end Sys2Proof.Machine
end

