-- ==== Sys2Proof/Machine/Ops.lean ====
section
/-! DEFINITION. The named updates of the state that every meaning is built from: one for each kind of state, and the two
shapes of a command (a change of the running part, a transfer on the service port). -/

namespace Sys2Proof.Machine

/-! ### Updates of one block's state -/

/-- The record of a slot; `none` frees it and discards every field (03 R43). -/
def State.setTxn (s : State) (i : SlotId) (t : Option Txn) : State :=
  { s with table := { s.table with slots := s.table.slots.set i.val t i.isLt } }

/-- The chain of a granule (03 R45). -/
def State.setChain (s : State) (g : Granule) (c : List SlotId) : State :=
  { s with table := { s.table with chains := Sparse.set [] s.table.chains g.toNat c } }

/-- The set of a granule in the holder directory (02 R20). -/
def State.dirSet (s : State) (set : Nat) : DirSet := Sparse.get .empty s.dir set

/-- A set of the holder directory rewritten. -/
def State.setDirSet (s : State) (set : Nat) (d : DirSet) : State :=
  { s with dir := Sparse.set .empty s.dir set d }

/-- A port record rewritten. -/
def State.setPort (s : State) (p : Port) (r : PortRec) : State :=
  { s with ctl := { s.ctl with ports := s.ctl.ports.set p r } }

/-- A member port interface rewritten. -/
def State.setIface (s : State) (p : Port) (f : Iface) : State := { s with ifaces := s.ifaces.set p f }

/-- The sweep engine's state rewritten. -/
def State.setSweep (s : State) (w : Sweep) : State := { s with sweep := w }

/-- The memory controller's state rewritten. -/
def State.setMem (s : State) (m : MemController) : State := { s with mem := m }

/-- The result record of the service slot rewritten (10 R206). -/
def State.setResult (s : State) (r : SlotResult) : State := { s with svc := { s.svc with result := r } }

/-- The epoch increased by one, wrapping (07 R154). -/
def State.bumpEpoch (s : State) : State := { s with ctl := { s.ctl with epoch := s.ctl.epoch + 1 } }

/-- An event latched, whatever its enable (10 R213). -/
def State.raise (s : State) (e : Event) : State :=
  { s with svc := { s.svc with eventStatus := latchEventBit s.svc.eventStatus e } }

/-- A frame offered for a port's outbound queue: discarded when the link is DOWN or the port is in FENCING or FENCED,
else queued at the tail (09 R179). -/
def State.send (s : State) (p : Port) (f : HubFrame) : State :=
  let i := s.ifaces.get p
  if !i.linkUp || (s.portState p).isFenced then s else s.setIface p { i with outq := i.outq ++ [f] }

/-- A notice with the epoch as it stands, offered on the links of the given ports (07 R154, R155). -/
def State.sendNotice (s : State) (ps : List Port) (n : Notice) : State :=
  ps.foldl (fun s p => s.send p (.notice n s.ctl.epoch)) s

/-- The ports in ACTIVE. -/
def State.activePorts (s : State) : List Port := Port.all.filter fun p => s.portState p == .active

/-- A memory operation offered: it enters the queue at once when fewer than 16 operations are there and nothing is
pending, else it joins the tail of the pending list (01 R4). -/
def State.offer (s : State) (op : MemOp) : State :=
  if s.mem.queue.length < Config.memoryQueueCapacity ∧ s.mem.waiting = [] then
    s.setMem { s.mem with queue := s.mem.queue ++ [op] }
  else s.setMem { s.mem with waiting := s.mem.waiting ++ [op] }

/-- A protocol error of a port: counted and raised (09 R191). -/
def State.protocolError (s : State) (p : Port) : State :=
  let i := s.ifaces.get p
  (s.setIface p { i with protoErrors := satInc i.protoErrors }).raise .protocol

/-! ### Parties in either order -/

/-- The parties of one change act one after the other, in an order that the manual leaves open (log 8). A single
party draws nothing. -/
def State.inFreeOrder (s : State) (parties : List (State → State)) : State :=
  match parties with
  | [] => s
  | [f] => f s
  | fs => (Config.freeOrder fs.length s.freeDraws fs).foldl (fun s f => f s) { s with freeDraws := s.freeDraws + fs.length }

/-! ### The shapes of a command -/

/-- A change of the running part. While hub reset is asserted the part is held at its reset state (01 R16, 10 R200). -/
def change (f : State → State) (s : State) : Host.Outcome State Fault Refusal :=
  .next (if s.inReset then s else f s)

/-- A status byte: 0 is OK (10 R199). -/
def statusByte : Option Reason → Byte
  | none => 0
  | some r => BitVec.ofNat 8 r.code

/-- The response of a transfer: the status byte and the response data (10 R197, R198). -/
def State.respond (s : State) (status : Option Reason) (data : List Byte) : State :=
  { s with svc := { s.svc with response := statusByte status :: data } }

/-- A transfer on the service port, at the completion of its request or at the end of a selection without one: no transfer
is taken in hub reset, and a selection that was already open when hub reset ended is not taken either (10 R197, R200; log
17). -/
def transfer (f : State → State) (s : State) : Host.Outcome State Fault Refusal :=
  change
    (fun s =>
      if s.svc.staleSelection then { s with svc := { s.svc with staleSelection := false } } else f s)
    s

end Sys2Proof.Machine
end

