-- ==== Sys2Proof/Machine/Memory.lean ====
section
/-! DEFINITION. The memory controller (chapter 1): the DRAM with its error correction, the poison map and the
performing of one operation. -/

namespace Sys2Proof.Machine

/-! ### The DRAM -/

/-- The canonical form of the DRAM: addresses strictly rising, no byte of zero listed. An unlisted byte reads 0, the
value that INIT writes (01 R17; log 5). -/
abbrev Memory.wf (m : List Host.Cell) : Prop := Sparse.wf (0 : Byte) m

/-- The byte at an offset of the pool (01 R2). -/
def Memory.byte (m : List Host.Cell) (a : Nat) : Byte := Sparse.get 0 m a

/-- A byte written. -/
def Memory.setByte (m : List Host.Cell) (a : Nat) (b : Byte) : List Host.Cell := Sparse.set 0 m a b

/-- `n` bytes from offset `a` on, in order. -/
def Memory.bytes (m : List Host.Cell) : Nat → Nat → List Byte
  | _, 0 => []
  | a, n + 1 => Memory.byte m a :: Memory.bytes m (a + 1) n

/-- Bytes written from offset `a` on, in order. -/
def Memory.setBytes (m : List Host.Cell) : Nat → List Byte → List Host.Cell
  | _, [] => m
  | a, b :: bs => Memory.setBytes (Memory.setByte m a b) (a + 1) bs

/-- The data of a word as they were written (01 R2). -/
def MemController.written (m : MemController) (g : Granule) (w : Fin 8) : Word :=
  BitVec.ofNat 64 (leNat (Memory.bytes m.dram (wordAddress g w) 8))

/-- The stored bits of a word that are in error (01 R7; log 6). -/
def MemController.errors (m : MemController) (g : Granule) (w : Fin 8) : StoredBits :=
  Sparse.get 0 m.bitErrors (wordKey g w)

/-- The poison mark of a granule (01 R11). -/
def MemController.mark (m : MemController) (g : Granule) : Bool := Sparse.get false m.poison g.toNat

/-- A word written with new check bits, so that none of its stored bits is in error (01 R7). -/
def MemController.writeWord (m : MemController) (g : Granule) (w : Fin 8) (v : Word) : MemController :=
  { m with
    dram := Memory.setBytes m.dram (wordAddress g w) (leBytes 8 v.toNat)
    bitErrors := Sparse.set 0 m.bitErrors (wordKey g w) 0 }

/-- All eight words written from the data of a granule (01 R12). -/
def MemController.writeGranule (m : MemController) (g : Granule) (d : GranuleData) : MemController :=
  allWords.foldl (fun m w => m.writeWord g w (wordOf d w)) m

/-- The poison mark set or cleared (01 R11). -/
def MemController.setMark (m : MemController) (g : Granule) (b : Bool) : MemController :=
  { m with poison := Sparse.set false m.poison g.toNat b }

/-! ### Reading a word -/

/-- How a read classifies a word (01 R7). -/
inductive Verdict where
  | clean | corrected | uncorrectable
deriving DecidableEq, Repr

/-- A word that was read: its number, the value delivered or merged, and its class (01 R7, R8). -/
structure Reading where
  word : Fin 8
  value : Word
  verdict : Verdict
deriving DecidableEq, Repr

/-- A stored bit inverted in the data that were read; a check bit leaves the data as they are. -/
def flipBit (v : Word) (bit : BitVec 7) : Word := v ^^^ BitVec.ofNat 64 (2 ^ bit.toNat)

/-- A word read and classified (01 R7, R8): one bit in error is corrected, two are always detected, and more are seen
as the free value of log 6 says. -/
def MemController.readWord (m : MemController) (g : Granule) (w : Fin 8) : Reading :=
  let v := m.written g w
  let e := m.errors g w
  let raw := v ^^^ e.extractLsb' 0 64
  match bitCount e with
  | 0 => ⟨w, v, .clean⟩
  | 1 => ⟨w, v, .corrected⟩
  | 2 => ⟨w, raw, .uncorrectable⟩
  | _ + 3 =>
    match Config.manyBitsSeenAs v e with
    | .clean => ⟨w, raw, .clean⟩
    | .single bit => ⟨w, flipBit raw bit, .corrected⟩
    | .detected => ⟨w, raw, .uncorrectable⟩

/-- The words of one operation that were found uncorrectable, in ascending order. -/
def uncorrectableWords (rs : List Reading) : List (Fin 8) :=
  (rs.filter fun r => r.verdict == .uncorrectable).map Reading.word

/-- The counts, the poison mark, FIRST_FAULT and the event that the reads of one operation bring about (01 R7 to
R10). Where the granule was poisoned before and no word is uncorrectable, no counter changes: the last sentence of R8 is
taken as the exception to R7 (log 28). -/
def State.accountReads (s : State) (g : Granule) (rs : List Reading) : State :=
  let m := { s.mem with corrected := satAdd s.mem.corrected (rs.countP fun r => r.verdict == .corrected) }
  match uncorrectableWords rs with
  | [] => if s.mem.mark g then s else s.setMem m
  | w :: ws =>
    let m := { m.setMark g true with uncorrected := satAdd m.uncorrected (ws.length + 1) }
    (s.setMem { m with firstFault := m.firstFault <|> some ⟨g, w⟩ }).raise .uncorrectable

/-! ### Performing an operation -/

/-- What a completion carries (01 R5). -/
inductive Completion where
  | done
  | read (d : GranuleData) (poison : Bool)
  | partialWrite (poison : Bool)
  | rmw (status : AtomicStatus) (old : Option Word)
deriving DecidableEq, Repr

/-- READ (01 R12). -/
def State.performRead (s : State) (g : Granule) : State × Completion :=
  let rs := allWords.map fun w => s.mem.readWord g w
  let s' := s.accountReads g rs
  (s', .read (dataOfWords fun w => (s.mem.readWord g w).value) (s'.mem.mark g))

/-- WRITE_FULL: all eight words written, the mark cleared (01 R12). -/
def State.writeFull (s : State) (g : Granule) (d : GranuleData) : State :=
  s.setMem ((s.mem.writeGranule g d).setMark g false)

/-- The words that a partial write merges: some but not all of their flags are set (01 R13). -/
def mergedWords (mask : Mask) : List (Fin 8) :=
  allWords.filter fun w => flagsOf mask w != 0 && flagsOf mask w != 255

/-- The value that a partial write leaves in a word (01 R13). -/
def MemController.mergedValue (m : MemController) (g : Granule) (d : GranuleData) (mask : Mask) (w : Fin 8) : Word :=
  if flagsOf mask w = 255 then wordOf d w else mergeWord (m.readWord g w).value (wordOf d w) (flagsOf mask w)

/-- WRITE_PARTIAL with a mask that is not full: each word by its flags (01 R13). -/
def State.performPartial (s : State) (g : Granule) (d : GranuleData) (mask : Mask) : State × Completion :=
  let before := s.mem
  let s' := s.accountReads g ((mergedWords mask).map fun w => before.readWord g w)
  let m := (allWords.filter fun w => flagsOf mask w != 0).foldl
    (fun m w => m.writeWord g w (before.mergedValue g d mask w)) s'.mem
  (s'.setMem m, .partialWrite (m.mark g))

/-- The new word of an atomic operation, if it writes, and its status (01 R14). -/
def applyAtomic (b : AtomicBlock) (old : Word) : Option Word × AtomicStatus :=
  match b.op with
  | .fetchAdd => (some (old + b.a), .ok)
  | .swap => (some b.a, .ok)
  | .compareSwap => if old = b.a then (some b.b, .ok) else (none, .casFail)

/-- ATOMIC_RMW (01 R14). -/
def State.performAtomic (s : State) (g : Granule) (b : AtomicBlock) : State × Completion :=
  if s.mem.mark g then (s, .rmw .poisoned none)
  else
    let r := s.mem.readWord g b.word
    let s' := s.accountReads g [r]
    match r.verdict with
    | .uncorrectable => (s', .rmw .poisoned none)
    | .clean | .corrected =>
      match applyAtomic b r.value with
      | (some v, st) => (s'.setMem (s'.mem.writeWord g b.word v), .rmw st (some r.value))
      | (none, st) => (s', .rmw st (some r.value))

/-- One operation performed on the DRAM (01 R12 to R17). -/
def State.perform (s : State) (op : MemOp) : State × Completion :=
  match op.kind with
  | .read => s.performRead op.granule
  | .writeFull d => (s.writeFull op.granule d, .done)
  | .writePartial d mask =>
    if mask = fullMask then (s.writeFull op.granule d, .partialWrite false)
    else s.performPartial op.granule d mask
  | .atomicRmw b => s.performAtomic op.granule b
  | .poisonSet => (s.setMem (s.mem.setMark op.granule true), .done)
  | .init => (s.writeFull op.granule 0, .done)

/-! ### The initializer -/

/-- The initializer offers INIT operations in ascending order, each when the previous one has entered the queue; the
first argument bounds the offers of one change, 17 being enough to fill the queue and leave one pending (01 R17). -/
def State.offerInits : Nat → State → State
  | 0, s => s
  | n + 1, s =>
    if s.mem.nextInit < s.mem.granuleCount ∧ s.mem.waiting = [] then
      State.offerInits n
        ((s.offer ⟨.init, BitVec.ofNat 23 s.mem.nextInit, .initializer⟩).setMem
          { (s.offer ⟨.init, BitVec.ofNat 23 s.mem.nextInit, .initializer⟩).mem with nextInit := s.mem.nextInit + 1 })
    else s

/-- Initialization ends: HUB_STATE becomes RUNNING and INIT_DONE is raised (01 R17). -/
def State.endInitialization (s : State) : State :=
  ({ s with svc := { s.svc with hubState := .running } } : State).raise .initDone

end Sys2Proof.Machine
end

