-- ==== Sys2Proof/Machine/Directory.lean ====
section
/-! DEFINITION. The holder directory (chapter 2): lookup, allocation, victim choice, and the changes to an entry, each of
which frees an entry that it leaves without holder and without lock (R39). -/

namespace Sys2Proof.Machine

/-! ### One set -/

/-- The eight ways in ascending order. -/
def allWays : List (Fin 8) := [0, 1, 2, 3, 4, 5, 6, 7]

/-- The way of the valid entry of a granule (02 R20). -/
def DirSet.wayOf (d : DirSet) (g : Granule) : Option (Fin 8) :=
  allWays.find? fun w => (d.ways.get w).any fun e => e.granule == g

/-- The lowest-numbered invalid way (02 R28). -/
def DirSet.invalidWay (d : DirSet) : Option (Fin 8) :=
  allWays.find? fun w => (d.ways.get w).isNone

/-- The entry of a way carries no lock. -/
def DirSet.unlocked (d : DirSet) (w : Fin 8) : Bool := (d.ways.get w).any fun e => e.lock == .none

/-- The victim: the first way in allocation order whose entry carries no lock (02 R29). -/
def DirSet.victimWay (d : DirSet) : Option (Fin 8) := d.order.find? d.unlocked

/-- A way rewritten. -/
def DirSet.put (d : DirSet) (w : Fin 8) (e : Entry) : DirSet := { d with ways := d.ways.set w.val (some e) w.isLt }

/-- A way freed: invalid, and out of the allocation order (02 R21, R23). -/
def DirSet.free (d : DirSet) (w : Fin 8) : DirSet :=
  { ways := d.ways.set w.val none w.isLt, order := d.order.filter fun x => x != w }

/-- A new entry: mode READERS, no holder, locked busy (02 R28). -/
def newEntry (g : Granule) (i : SlotId) : Entry := ⟨g, .readers, .const false, .busy i⟩

/-- A way allocated for a granule: it joins the tail of the allocation order (02 R28). -/
def DirSet.allocate (d : DirSet) (w : Fin 8) (g : Granule) (i : SlotId) : DirSet :=
  { (d.put w (newEntry g i)) with order := d.order ++ [w] }

/-! ### Changes to an entry -/

/-- The changes that the rules of chapter 2 make to a valid entry. -/
inductive EntryChange where
  /-- The busy lock set (R25). -/
  | lockBusy (i : SlotId)
  /-- The evicting lock set (R30). -/
  | lockEvicting (i : SlotId)
  /-- The lock of this slot released (R27, R33). -/
  | unlock (i : SlotId)
  /-- A holder removed (R35, R36, R37, R38). -/
  | remove (p : Port)
  /-- Every holder removed (R38, CLEAR). -/
  | removeAll
  /-- A demoted holder stays, mode READERS (R35). -/
  | demote
  /-- GRANT READER recorded, and the lock of this slot released in the same change (R34). -/
  | grantReader (p : Port) (i : SlotId)
  /-- GRANT OWNER recorded, and the lock of this slot released in the same change (R34). -/
  | grantOwner (p : Port) (i : SlotId)
deriving DecidableEq, Repr

/-- A lock after the release of slot `i`'s lock (02 R27, R33). -/
def Lock.release (l : Lock) (i : SlotId) : Lock := if l = .busy i ∨ l = .evicting i then .none else l

/-- An entry after a change. -/
def Entry.apply (e : Entry) : EntryChange → Entry
  | .lockBusy i => { e with lock := .busy i }
  | .lockEvicting i => { e with lock := .evicting i }
  | .unlock i => { e with lock := e.lock.release i }
  | .remove p => { e with holders := e.holders.set p false }
  | .removeAll => { e with holders := .const false }
  | .demote => { e with mode := .readers }
  | .grantReader p i => { e with mode := .readers, holders := e.holders.set p true, lock := e.lock.release i }
  | .grantOwner p i => { e with mode := .owner, holders := (PerPort.const false).set p true, lock := e.lock.release i }

/-- A valid entry with no holder and no lock is freed (02 R39). -/
def Entry.freed (e : Entry) : Bool := noMember e.holders && e.lock == .none

/-- A change to the valid entry of a granule in its set, with the freeing of R39. -/
def DirSet.change (d : DirSet) (g : Granule) (c : EntryChange) : DirSet :=
  match d.wayOf g with
  | none => d
  | some w =>
    match d.ways.get w with
    | none => d
    | some e => if (e.apply c).freed then d.free w else d.put w (e.apply c)

/-! ### The directory -/

/-- The valid entry of a granule (02 R20, R25). -/
def State.entry (s : State) (g : Granule) : Option Entry :=
  let d := s.dirSet (setOf g)
  (d.wayOf g).bind fun w => d.ways.get w

/-- A change to the valid entry of a granule; nothing where the granule has none. -/
def State.changeEntry (s : State) (g : Granule) (c : EntryChange) : State :=
  s.setDirSet (setOf g) ((s.dirSet (setOf g)).change g c)

/-- A new entry for a granule that has none, in the lowest-numbered invalid way of its set (02 R28). -/
def State.allocateEntry (s : State) (g : Granule) (i : SlotId) : State :=
  let d := s.dirSet (setOf g)
  match d.wayOf g, d.invalidWay with
  | none, some w => s.setDirSet (setOf g) (d.allocate w g i)
  | _, _ => s

/-- The completion of an eviction: the victim is freed and its way allocated for the requester's granule of the same
set, in one change (02 R32). -/
def State.replaceVictim (s : State) (victim g : Granule) (i : SlotId) : State :=
  let d := s.dirSet (setOf victim)
  match d.wayOf victim, d.wayOf g with
  | some w, none => if setOf g = setOf victim then s.setDirSet (setOf victim) ((d.free w).allocate w g i) else s
  | _, _ => s

/-- The granule's entry carries an evicting lock (09 R190, 02 R26). -/
def State.evictingEntry (s : State) (g : Granule) : Bool :=
  (s.entry g).any fun e =>
    match e.lock with
    | .evicting _ => true
    | .busy _ => false
    | .none => false

/-- The port holds the granule (02 R36). -/
def State.holds (s : State) (p : Port) (g : Granule) : Bool := (s.entry g).any fun e => e.holders.get p

/-- The port is the one holder of an OWNER-mode entry (02 R36). -/
def State.soleOwner (s : State) (p : Port) (g : Granule) : Bool :=
  (s.entry g).any fun e => e.mode == .owner && e.holders == (PerPort.const false).set p true

/-- The port holds the granule in OWNER mode. -/
def State.owns (s : State) (p : Port) (g : Granule) : Bool :=
  (s.entry g).any fun e => e.mode == .owner && e.holders.get p

/-- The granule has no holder: no entry, or an entry without holders. -/
def State.unheld (s : State) (g : Granule) : Bool := (s.entry g).all fun e => noMember e.holders

end Sys2Proof.Machine
end

