-- ==== Sys2Proof/Machine/Transactions.lean ====
section
/-! DEFINITION. The transaction table, first part (chapters 3 to 5): recalls, the memory phase, reply time and the
activation of a transaction that needs no new directory entry. -/

namespace Sys2Proof.Machine

/-! ### The slot record -/

/-- A slot as it is placed (03 R43). -/
def newTxn (k : TxnKind) (g : Granule) : Txn where
  phase := .waiting
  kind := k
  granule := g
  victim := none
  awaited := .const none
  deadline := none
  poisonSeen := false
  result := .none

/-- The record of an occupied slot rewritten. -/
def State.modifyTxn (s : State) (i : SlotId) (f : Txn → Txn) : State :=
  match s.txn i with
  | none => s
  | some t => s.setTxn i (some (f t))

/-- A slot leaves its chain, wherever it stands in it (03 R47). -/
def State.leaveChain (s : State) (i : SlotId) (g : Granule) : State := s.setChain g ((s.chain g).erase i)

/-- The granule that the transaction recalls: the victim's while EVICTING, else its own (05 R90, R95). -/
def Txn.recalled (t : Txn) : Granule := t.victim.getD t.granule

/-! ### Recalls -/

/-- A POISON_SET offered by slot `i`; poison seen is set when the granule is the transaction's own (03 R53, 05 R92). -/
def State.offerPoison (s : State) (g : Granule) (i : SlotId) (own : Bool) : State :=
  (s.offer ⟨.poisonSet, g, .slot i⟩).modifyTxn i fun t => { t with poisonSeen := t.poisonSeen || own }

/-- A holder whose port is in FENCING is removed without a recall, with a POISON_SET where it was the owner
(03 R48 step 4, 02 R30, 05 R92). -/
def State.dropFencedHolder (g : Granule) (i : SlotId) (own : Bool) (s : State) (p : Port) : State :=
  if s.holds p g && s.portState p == .fencing then
    (if s.owns p g then s.offerPoison g i own else s).changeEntry g (.remove p)
  else s

/-- Every holder whose port is in FENCING removed. -/
def State.dropFencedHolders (s : State) (g : Granule) (i : SlotId) (own : Bool) : State :=
  Port.all.foldl (State.dropFencedHolder g i own) s

/-- DEMOTE to the owner of an OWNER-mode entry (04 R66, R75). -/
def demoteOwner (e : Entry) : List (Port × RecallKind) :=
  match e.mode with
  | .readers => []
  | .owner => (members e.holders).map fun p => (p, .demote)

/-- REVOKE to every holder (04 R69, R78, R82). -/
def revokeAll (e : Entry) : List (Port × RecallKind) := (members e.holders).map fun p => (p, .revoke)

/-- The recalls of a PROMOTE by `p` (04 R71). -/
def promoteRecalls (p : Port) (e : Entry) : List (Port × RecallKind) :=
  if e.holders.get p then
    match e.mode with
    | .readers => ((members e.holders).filter fun q => q != p).map fun q => (q, .revoke)
    | .owner => []
  else revokeAll e

/-- What a RECHECK asks of a holder, by the mode of the entry and the holder's right (08 R165). -/
def recheckNeed : Mode → Right → Option RecallKind
  | _, .write => none
  | .readers, .read => none
  | .owner, .read => some .demote
  | _, .none => some .revoke

/-- The recalls of a RECHECK (08 R166). -/
def State.recheckRecalls (s : State) (e : Entry) : List (Port × RecallKind) :=
  (members e.holders).filterMap fun p => (recheckNeed e.mode (s.right p e.granule)).map fun k => (p, k)

/-- The recall set of slot `i`'s transaction against the entry as it stands (04 R65 to R82, 03 R60, R61, 08 R166,
R174). -/
def State.recallSet (s : State) (i : SlotId) (k : TxnKind) (e : Entry) : List (Port × RecallKind) :=
  match k with
  | .member .readShare => demoteOwner e
  | .member .readOwn => revokeAll e
  | .member .promote =>
    match slotPort i with
    | some p => promoteRecalls p e
    | none => revokeAll e
  | .member .peek => demoteOwner e
  | .member (.poke _ _) => revokeAll e
  | .member (.atomic _) => revokeAll e
  | .member (.returnDirty _) => []
  | .member .release => []
  | .sweepDepart p => if e.holders.get p then [(p, .revoke)] else []
  | .sweepRecheck => s.recheckRecalls e
  | .sweepWithdrawn => []
  | .memPeek => demoteOwner e
  | .memPoke _ _ => revokeAll e

/-- The awaited set after these recalls (05 R93). -/
def awaitedOf (rs : List (Port × RecallKind)) : PerPort (Option Awaited) :=
  rs.foldl (fun a r => a.set r.1 (some ⟨r.2, false⟩)) (.const none)

/-- The recalls of one transaction queued, their ports awaited and the deadline set, in one change (05 R90, R104). -/
def State.issueRecalls (s : State) (i : SlotId) (g : Granule) (rs : List (Port × RecallKind)) : State :=
  (rs.foldl (fun s r => s.send r.1 (.recall r.2 g i)) s).modifyTxn i fun t =>
    { t with awaited := awaitedOf rs, deadline := some (s.now + s.table.recallLimit.toNat) }

/-! ### Reply time -/

/-- The data of a READ completion, and its poison flag, if the slot has one (03 R53). -/
def OpResult.readData : OpResult → Option GranuleData
  | .data d _ => some d
  | .word _ _ => Option.none
  | .none => Option.none

/-- The body of an ACK that carries read data (04 R64). -/
def OpResult.dataBody : OpResult → AckBody
  | .data d _ => .data d
  | .word _ _ => .none
  | .none => .none

/-- The answer to an ATOMIC by the status of its completion (04 R83). -/
def atomicAnswer (tag : Tag) (g : Granule) : OpResult → HubFrame
  | .word .ok (some w) => .ack tag g .ok (.value w) false
  | .word .ok none => .ack tag g .ok .none false
  | .word .casFail (some w) => .ack tag g .casFail (.value w) false
  | .word .casFail none => .ack tag g .casFail .none false
  | .word .poisoned _ => .bounce tag g .poisoned
  | .data _ _ => .ack tag g .ok .none false
  | .none => .ack tag g .ok .none false

/-- What reply time decides: the answer frame, and the change of the entry that releases the lock (03 R54, R55). -/
structure Reply where
  frame : HubFrame
  change : EntryChange
deriving DecidableEq, Repr

/-- The answer to a member transaction, judged against the port's state and right as they stand (03 R54, 04 R67, R70,
R72, R73, R76, R79, R80, R83). -/
def State.replyOf (s : State) (i : SlotId) (p : Port) (t : Txn) (r : Request) : Reply :=
  let tag := slotTag i
  let g := t.granule
  let bounce := fun reason => Reply.mk (.bounce tag g reason) (.unlock i)
  let departing := s.portState p == .departing
  let right := s.right p g
  match r with
  | .readShare =>
    if departing then bounce .notMember
    else if !right.covers .read then bounce .denied
    else ⟨.grant tag g .readers t.result.readData t.poisonSeen, .grantReader p i⟩
  | .readOwn =>
    if departing then bounce .notMember
    else if !right.covers .write then bounce .denied
    else ⟨.grant tag g .owner t.result.readData t.poisonSeen, .grantOwner p i⟩
  | .promote =>
    if departing then bounce .notMember
    else if !right.covers .write then bounce .denied
    else ⟨.grant tag g .owner t.result.readData t.poisonSeen, .grantOwner p i⟩
  | .peek => ⟨.ack tag g .ok t.result.dataBody t.poisonSeen, .unlock i⟩
  | .poke _ _ => ⟨.ack tag g .ok .none t.poisonSeen, .unlock i⟩
  | .atomic _ => ⟨atomicAnswer tag g t.result, .unlock i⟩
  | .returnDirty _ => ⟨.ack tag g .ok .none false, .unlock i⟩
  | .release => ⟨.ack tag g .ok .none false, .unlock i⟩

/-- The slot becomes FREE and leaves the head of its chain (03 R55 steps 3 and 4, without the next activation). -/
def State.freeHead (s : State) (i : SlotId) (g : Granule) : State := (s.setTxn i none).leaveChain i g

/-- The end of a transaction at reply time, as one change up to the activation of the next slot of the chain: a
member's answer, a service slot's result, nothing for the sweep slot (03 R55, R60, R61). -/
def State.endTxn (s : State) (i : SlotId) : State :=
  match s.txn i with
  | none => s
  | some t =>
    let unlocked := fun s : State => (s.changeEntry t.granule (.unlock i)).freeHead i t.granule
    match t.kind with
    | .member r =>
      match slotPort i with
      | none => unlocked s
      | some p =>
        let reply := s.replyOf i p t r
        (((s.send p reply.frame).changeEntry t.granule reply.change)).freeHead i t.granule
    | .memPeek => unlocked (s.setResult (.done .peek t.granule t.result.readData t.poisonSeen))
    | .memPoke _ _ => unlocked (s.setResult (.done .poke t.granule none t.poisonSeen))
    | .sweepDepart _ => unlocked s
    | .sweepRecheck => unlocked s
    | .sweepWithdrawn => unlocked s

/-- The end of a transaction at activation with a bounce (03 R49), up to the activation of the next slot. -/
def State.endWithBounce (s : State) (i : SlotId) (reason : Reason) : State :=
  match s.txn i, slotPort i with
  | some t, some p =>
    ((s.send p (.bounce (slotTag i) t.granule reason)).changeEntry t.granule (.unlock i)).freeHead i t.granule
  | some t, none => (s.changeEntry t.granule (.unlock i)).freeHead i t.granule
  | none, _ => s

/-! ### The memory phase -/

/-- The operation by which a POKE or MEM_POKE writes, by its mask (04 R77). -/
def pokeOperation (d : GranuleData) (m : Mask) : Option MemKind :=
  if m = 0 then none else if m = fullMask then some (.writeFull d) else some (.writePartial d m)

/-- The transaction's own memory operation on taking MEMORY (03 R52, R60, R61, 04 R67, R70, R72, R76, R77, R82). -/
def State.ownOperation (s : State) (i : SlotId) (t : Txn) : Option MemKind :=
  match t.kind with
  | .member .readShare => some .read
  | .member .readOwn => some .read
  | .member .promote => if (slotPort i).any fun p => s.holds p t.granule then none else some .read
  | .member .peek => some .read
  | .member (.poke d m) => pokeOperation d m
  | .member (.atomic b) => some (.atomicRmw b)
  | .member (.returnDirty _) => none
  | .member .release => none
  | .sweepDepart _ => none
  | .sweepRecheck => none
  | .sweepWithdrawn => none
  | .memPeek => some .read
  | .memPoke d m => pokeOperation d m

/-- The transaction takes phase MEMORY and offers its own operation; with nothing outstanding it reaches reply time at
once. The second part says whether it ended (03 R52). -/
def State.enterMemory (s : State) (i : SlotId) : State × Bool :=
  match s.txn i with
  | none => (s, false)
  | some t =>
    let s' := s.setTxn i (some { t with phase := .memory, victim := none, deadline := none })
    let s' :=
      match s.ownOperation i t with
      | some k => s'.offer ⟨k, t.granule, .slot i⟩
      | none => s'
    if s'.outstanding i = 0 then (s'.endTxn i, true) else (s', false)

/-! ### Activation of a transaction that needs no new entry -/

/-- Steps 4 to 6 of activation: fenced holders removed, the recall set sent or MEMORY taken. The second part says
whether the transaction ended (03 R48). -/
def State.recallPhase (s : State) (i : SlotId) : State × Bool :=
  match s.txn i with
  | none => (s, false)
  | some t =>
    let s' := s.dropFencedHolders t.granule i true
    match ((s'.entry t.granule).map (s'.recallSet i t.kind)).getD [] with
    | [] => s'.enterMemory i
    | r :: rs => ((s'.issueRecalls i t.granule (r :: rs)).modifyTxn i fun t => { t with phase := .recalling }, false)

/-- Steps 2 to 6 of activation where no entry is to be allocated: the zero-mask end, the busy lock on the granule's
entry if it has one, recalls or MEMORY (03 R48, R60, R61). -/
def State.activateInPlace (s : State) (i : SlotId) : State × Bool :=
  match s.txn i with
  | none => (s, false)
  | some t =>
    if t.kind.zeroMask then (s.endTxn i, true) else (s.changeEntry t.granule (.lockBusy i)).recallPhase i

end Sys2Proof.Machine
end

