-- ==== Sys2Proof/Machine/SweepEngine.lean ====
section
/-! DEFINITION. The sweep engine (chapter 8): the sweep queue, the walk and its visits. -/

namespace Sys2Proof.Machine

/-! ### The queue and the position -/

/-- A job joins the tail of the sweep queue; in an empty queue it is the running job at once, and its walk starts
(08 R159, R161). -/
def State.queueJob (s : State) (j : Job) : State :=
  match s.sweep.jobs with
  | [] => s.setSweep { s.sweep with jobs := [j], walk := .start }
  | js => s.setSweep { s.sweep with jobs := js ++ [j] }

/-- The pause of the walk (08 R157). -/
def State.setPause (s : State) (p : Pause) : State :=
  s.setSweep { s.sweep with walk := { s.sweep.walk with pause := p } }

/-- The report of a completed job, for the kinds that have one (08 R171). -/
def Job.report : Job → List Report
  | .depart p => [.depart p]
  | .fence p => [.fence p]
  | .recheck => []
  | .clear => [.clear]

/-- The running job completes: it leaves the queue, its report is on its way, the next job's walk starts, or SWEEP_IDLE
is raised (08 R170, R172, R176). -/
def State.completeJob (s : State) : State :=
  match s.sweep.jobs with
  | [] => s
  | [j] =>
    (s.setSweep { jobs := [], walk := .start, reports := s.sweep.reports ++ j.report }).raise .sweepIdle
  | j :: js => s.setSweep { jobs := js, walk := .start, reports := s.sweep.reports ++ j.report }

/-- The position after a way of a set, if the walk has one (08 R161). -/
def Walk.next (w : Walk) : Option Walk :=
  if w.way.val < 7 then some ⟨w.set, w.way + 1, .none⟩
  else if w.set.val < 1023 then some ⟨w.set + 1, 0, .none⟩
  else none

/-- The walk moves to the next entry, or ends and completes its job (08 R161, R170). -/
def State.moveOn (s : State) : State :=
  match s.sweep.walk.next with
  | some w => s.setSweep { s.sweep with walk := w }
  | none => s.completeJob

/-- The entry at the walk's position (08 R157). -/
def State.currentEntry (s : State) : Option Entry :=
  (s.dirSet s.sweep.walk.set.val).ways.get s.sweep.walk.way

/-! ### Visits -/

/-- The FENCE and CLEAR actions: the given holders removed directly, whatever the lock, and a POISON_SET with origin
SWEEP where the entry was in OWNER mode; an offer that is pending pauses the walk (08 R162, R163, R168). An offer left
pending by a walk that HUB_CLEAR stopped does not keep the CLEAR walk from making its own (log 29). -/
def State.removeDirectly (s : State) (e : Entry) (ps : List Port) : State :=
  match ps.filter e.holders.get with
  | [] => s.moveOn
  | held =>
    let s' := held.foldl (fun s p => s.changeEntry e.granule (.remove p)) s
    match e.mode with
    | .readers => s'.moveOn
    | .owner =>
      let s' := s'.offer ⟨.poisonSet, e.granule, .sweep⟩
      if s'.mem.waiting = [] then s'.moveOn else s'.setPause .memory

/-- The sweep slot placed for a granule with its action: it joins the chain, and is activated when it is the head. The
walk takes pause SLOT, and moves on at once if the slot ends at once (03 R60, 08 R164 to R166). -/
def State.placeSweep (s : State) (k : TxnKind) (g : Granule) : State :=
  let chain := s.chain g
  let s' := ((s.setTxn sweepSlot (some (newTxn k g))).setChain g (chain ++ [sweepSlot])).setPause .slot
  match chain with
  | [] =>
    let r := s'.activateInPlace sweepSlot
    if r.2 then r.1.moveOn else r.1
  | _ :: _ => s'

/-- A visit that needs the sweep slot waits while the slot is still in use from a stopped job (08 R169). -/
def State.needSlot (s : State) (k : TxnKind) (g : Granule) : State :=
  if (s.txn sweepSlot).isSome then s.setPause .slotInUse else s.placeSweep k g

/-- An entry with an evicting lock holds a DEPART or RECHECK walk (08 R167). -/
def Lock.isEvicting : Lock → Bool
  | .evicting _ => true
  | .busy _ => false
  | .none => false

/-- The walk visits the entry at its position with the action of the running job (08 R161 to R165). -/
def State.visit (s : State) : State :=
  match s.sweep.jobs with
  | [] => s
  | job :: _ =>
    match s.currentEntry with
    | none => s.moveOn
    | some e =>
      match job with
      | .fence p => s.removeDirectly e [p]
      | .clear => s.removeDirectly e Port.all
      | .depart p =>
        if e.lock.isEvicting then s.setPause .evicting
        else if e.holders.get p then s.needSlot (.sweepDepart p) e.granule
        else s.moveOn
      | .recheck =>
        if e.lock.isEvicting then s.setPause .evicting
        else if s.recheckRecalls e = [] then s.moveOn
        else s.needSlot .sweepRecheck e.granule

/-- A wait of the walk ends, and the entry is visited at once (08 R167, R169). -/
def State.visitAfresh (s : State) : State := (s.setPause .none).visit

/-! ### What ends a pause -/

/-- The sweep engine is told that the sweep slot is FREE: a walk that used it moves on, and a walk that waits for it
visits its entry afresh (03 R60, 08 R166, R169, R174). -/
def State.sweepSlotFreed (s : State) : State :=
  match s.sweep.walk.pause with
  | .slot => s.moveOn
  | .slotInUse => s.visitAfresh
  | .none => s
  | .evicting => s
  | .memory => s

/-- A pending offer with origin SWEEP has entered the memory queue: the walk that waits for it moves on when none of
them is pending any more (08 R168, R173; offers enter in order). -/
def State.sweepOfferEntered (s : State) : State :=
  if s.sweep.walk.pause = .memory ∧ ∀ op ∈ s.mem.waiting, op.origin ≠ .sweep then s.moveOn else s

/-! ### Requests of the other blocks -/

/-- The port's DEPART job is running, and its walk waits at an entry without a slot of its own: for an eviction, or for a
sweep slot still in use from a stopped job. Its conversion ends that wait (08 R160). -/
def State.departWaits (s : State) (p : Port) : Bool :=
  s.sweep.jobs.head? == some (.depart p) && (s.sweep.walk.pause == .evicting || s.sweep.walk.pause == .slotInUse)

/-- A FENCE request for a port: by its member job a FENCE job at the tail, the queued DEPART job replaced, or the
running one converted, which ends the waits of R160; a FENCE job already there takes the request (07 R145, 08 R159, R160).
The visit that follows such a wait is `State.fenceMember`'s. -/
def State.requestFence (s : State) (p : Port) : State :=
  match s.sweep.jobs with
  | [] => s.queueJob (.fence p)
  | j :: js =>
    if j = .fence p ∨ .fence p ∈ js then s
    else if j = .depart p then
      let s' := s.setSweep { s.sweep with jobs := .fence p :: js }
      if s.departWaits p then s'.setPause .none else s'
    else if .depart p ∈ js then
      s.setSweep { s.sweep with jobs := j :: js.map fun x => if x = .depart p then .fence p else x }
    else s.queueJob (.fence p)

/-- A RECHECK request: one job at the tail, or nothing when one already waits (06 R122). -/
def State.requestRecheck (s : State) : State :=
  if Job.recheck ∈ s.sweep.jobs.tail then s else s.queueJob .recheck

/-- HUB_CLEAR: the waiting jobs discarded and the running one stopped at its entry, with its pause; an offer of its walk
that is pending stays (08 R173; log 29). -/
def State.stopSweep (s : State) : State := s.setSweep { s.sweep with jobs := [], walk := .start }

/-- HUB_CLEAR: the action of a WAITING sweep slot withdrawn, the CLEAR job queued, its walk at its start (08 R173,
R174). -/
def State.requestClear (s : State) : State :=
  let s' := s.modifyTxn sweepSlot fun t => if t.phase = .waiting then { t with kind := .sweepWithdrawn } else t
  s'.setSweep { s'.sweep with jobs := [.clear], walk := .start }

end Sys2Proof.Machine
end

