-- ==== Sys2Proof/Machine/Chains.lean ====
section
/-! DEFINITION. The transaction table, second part (chapters 2, 3 and 5): eviction, activation, the advance of a chain,
the end of recalls, abandonment and the delivery of completions. -/

namespace Sys2Proof.Machine

/-! ### What an evicting lock holds back -/

/-- The service slot starts or joins the chain of its granule (02 R26, 03 R61). -/
def State.startService (s : State) : State :=
  match s.txn serviceSlot with
  | none => s
  | some t =>
    let chain := s.chain t.granule
    let s' := s.setChain t.granule (chain ++ [serviceSlot])
    match chain with
    | [] => (s'.activateInPlace serviceSlot).1
    | _ :: _ => s'

/-- The service slot waits outside any chain for this granule's evicting lock (03 R61). -/
def State.serviceHeldBack (s : State) (g : Granule) : Bool :=
  (s.txn serviceSlot).any fun t => t.phase == .waiting && t.granule == g && !(s.chain g).contains serviceSlot

/-- The walk waits at this granule's entry for its evicting lock (08 R167). -/
def State.walkHeldBack (s : State) (g : Granule) : Bool :=
  s.sweep.walk.pause == .evicting && s.currentEntry.any fun e => e.granule == g

/-- The parties that an evicting lock on this granule's entry holds back, each of which proceeds in the change that
releases it (02 R26). -/
def State.heldBack (s : State) (g : Granule) : List (State → State) :=
  (if s.serviceHeldBack g then [State.startService] else []) ++ (if s.walkHeldBack g then [State.visitAfresh] else [])

/-! ### Eviction -/

/-- The eviction completes: the victim's way passes to the requester's granule, the transaction takes MEMORY, and the
held-back parties proceed, in an order that the manual leaves open (02 R32, R26, 03 R50; 11, section 11.6). -/
def State.completeEviction (s : State) (i : SlotId) : State :=
  match s.txn i with
  | none => s
  | some t =>
    match t.victim with
    | none => s
    | some v =>
      ((s.replaceVictim v t.granule i).modifyTxn i fun t =>
        { t with phase := .memory, victim := none, deadline := none }).inFreeOrder
        ((fun s => (s.enterMemory i).1) :: s.heldBack v)

/-- The eviction of slot `i` completes when the victim has no holders and no yield is awaited (02 R32). -/
def State.checkEviction (s : State) (i : SlotId) : State :=
  match s.txn i with
  | none => s
  | some t =>
    match t.phase, t.victim with
    | .evicting, some v => if noneAwaited t.awaited && s.unheld v then s.completeEviction i else s
    | _, _ => s

/-- The eviction begins: the victim is locked evicting, its fenced holders are removed, the others receive a REVOKE; with
nothing to await it completes at once (02 R30, 05 R92). -/
def State.startEviction (s : State) (i : SlotId) (v : Granule) : State :=
  let s := (s.changeEntry v (.lockEvicting i)).modifyTxn i fun t => { t with phase := .evicting, victim := some v }
  let s := s.dropFencedHolders v i false
  match ((s.entry v).map revokeAll).getD [] with
  | [] => s.checkEviction i
  | r :: rs => s.issueRecalls i v (r :: rs)

/-! ### Activation and the advance of a chain -/

/-- The victim's granule in the set of `g` (02 R29). -/
def State.victimFor (s : State) (g : Granule) : Option Granule :=
  let d := s.dirSet (setOf g)
  d.victimWay.bind fun w => (d.ways.get w).map Entry.granule

/-- The head of a chain is activated. The second part says whether the transaction ended, so that the next slot of the
chain becomes head (03 R48, R49). -/
def State.activate (s : State) (i : SlotId) : State × Bool :=
  match s.txn i with
  | none => (s, false)
  | some t =>
    if t.kind.judgedAtActivation && !((slotPort i).all fun p => (s.right p t.granule).covers .write) then
      (s.endWithBounce i .denied, true)
    else if t.kind.allocates && (s.entry t.granule).isNone then
      match (s.dirSet (setOf t.granule)).invalidWay with
      | some _ => (s.allocateEntry t.granule i).recallPhase i
      | none =>
        match s.victimFor t.granule with
        | some v => (s.startEviction i v, false)
        | none => (s.endWithBounce i .busy, true)
    else s.activateInPlace i

/-- After the end of a slot's transaction the sweep engine is told of the sweep slot (03 R60). -/
def State.afterEnd (s : State) (i : SlotId) : State := if i = sweepSlot then s.sweepSlotFreed else s

/-- The slots of a chain from its new head on: each becomes head when the one before it has ended (03 R47). -/
def State.advance : List SlotId → State → State
  | [], s => s
  | i :: rest, s =>
    let r := s.activate i
    if r.2 then (State.advance rest r.1).afterEnd i else r.1

/-- The rest of a granule's chain advances after slot `i` has left its head (03 R47, R55 step 4). -/
def State.advanceAfter (s : State) (i : SlotId) (g : Granule) : State := (State.advance (s.chain g) s).afterEnd i

/-- Reply time of the head of a chain, with the activation of the next slot (03 R55). -/
def State.finish (s : State) (i : SlotId) : State :=
  match s.txn i with
  | none => s
  | some t => (s.endTxn i).advanceAfter i t.granule

/-- The transaction takes MEMORY, and the chain advances if that ends it (03 R52). -/
def State.takeMemory (s : State) (i : SlotId) : State :=
  match s.txn i with
  | none => s
  | some t =>
    let r := s.enterMemory i
    if r.2 then r.1.advanceAfter i t.granule else r.1

/-- A chain kind placed: appended to its granule's chain, and activated in the same change when the chain was empty
(03 R46). -/
def State.place (s : State) (i : SlotId) (k : TxnKind) (g : Granule) : State :=
  let chain := s.chain g
  let s' := (s.setTxn i (some (newTxn k g))).setChain g (chain ++ [i])
  match chain with
  | [] => (s'.activate i).1
  | _ :: _ => s'

/-! ### The end of recalls -/

/-- What follows when the awaited set has become empty: the deadline is removed, a RECALLING transaction takes MEMORY,
an EVICTING one waits for its victim to be empty (05 R99). -/
def State.recallsEnded (s : State) (i : SlotId) : State :=
  match s.txn i with
  | none => s
  | some t =>
    if noneAwaited t.awaited then
      let s' := s.setTxn i (some { t with deadline := none })
      match t.phase with
      | .recalling => s'.takeMemory i
      | .evicting => s'.checkEviction i
      | .waiting => s'
      | .memory => s'
      | .bypass => s'
      | .draining => s'
    else s

/-- A port leaves the awaited set of slot `i` (05 R93, R99). -/
def State.unawait (s : State) (i : SlotId) (p : Port) : State :=
  (s.modifyTxn i fun t => { t with awaited := t.awaited.set p none }).recallsEnded i

/-- The port is resolved as ABSENT in slot `i`, with a POISON_SET where a fenced port owned the recalled entry
(05 R101, R102, 02 R37). -/
def State.resolveAbsent (p : Port) (fenced : Bool) (i : SlotId) (s : State) : State :=
  match s.txn i with
  | none => s
  | some t =>
    if (t.awaited.get p).isSome then
      let g := t.recalled
      ((if fenced && s.owns p g then s.offerPoison g i t.victim.isNone else s).changeEntry g (.remove p)).unawait i p
    else s

/-! ### Abandonment -/

/-- The record of an abandoned slot: DRAINING while it has memory outstanding, else FREE (03 R58, R59). -/
def State.drained (s : State) (i : SlotId) (t : Txn) : Option Txn :=
  if s.outstanding i = 0 then none
  else some { t with phase := .draining, victim := none, awaited := .const none, deadline := none }

/-- A slot of a fenced port is abandoned, by its phase (03 R58, 02 R33). -/
def State.abandon (i : SlotId) (s : State) : State :=
  match s.txn i with
  | none => s
  | some t =>
    let g := t.granule
    match t.phase with
    | .waiting => s.freeHead i g
    | .recalling | .memory =>
      (((s.setTxn i (s.drained i t)).changeEntry g (.unlock i)).leaveChain i g).advanceAfter i g
    | .evicting =>
      let v := t.recalled
      ((((s.setTxn i (s.drained i t)).changeEntry v (.unlock i)).leaveChain i g).inFreeOrder (s.heldBack v)).advanceAfter
        i g
    | .bypass => s.setTxn i (s.drained i t)
    | .draining => s

/-! ### Completions at their origin -/

/-- What a completion leaves in the slot (03 R53). -/
def Txn.note (t : Txn) : Completion → Txn
  | .done => t
  | .read d poison => { t with result := .data d poison, poisonSeen := t.poisonSeen || poison }
  | .partialWrite poison => { t with poisonSeen := t.poisonSeen || poison }
  | .rmw st old => { t with result := .word st old, poisonSeen := t.poisonSeen || st == .poisoned }

/-- A completion returned to slot `i` (01 R5, 03 R50 to R53, R56, R59). -/
def State.deliverToSlot (s : State) (i : SlotId) (c : Completion) : State :=
  match s.txn i with
  | none => s
  | some t =>
    let last := s.outstanding i = 0
    match t.phase with
    | .draining => if last then s.setTxn i none else s
    | .bypass =>
      if last then
        match slotPort i with
        | some p => (s.send p (.ack (slotTag i) t.granule .ok .none false)).setTxn i none
        | none => s.setTxn i none
      else s
    | .memory => if last then (s.setTxn i (some (t.note c))).finish i else s.setTxn i (some (t.note c))
    | .waiting => s.setTxn i (some (t.note c))
    | .evicting => s.setTxn i (some (t.note c))
    | .recalling => s.setTxn i (some (t.note c))

/-- The queue and the pending list after the oldest operation has left: the oldest pending offer enters at the tail
(01 R3, R4). -/
def MemController.popped (m : MemController) : MemController :=
  match m.waiting with
  | [] => { m with queue := m.queue.tail }
  | op :: rest => { m with queue := m.queue.tail ++ [op], waiting := rest }

/-- The party that waited for this offer to enter goes on (01 R17, 08 R168). -/
def State.entered (s : State) (op : MemOp) : State :=
  match op.origin with
  | .slot _ => s
  | .sweep => s.sweepOfferEntered
  | .initializer => s.offerInits 17

/-- The oldest operation leaves the queue and the oldest pending offer enters (01 R3, R4). -/
def State.leaveQueue (s : State) : State :=
  match s.mem.waiting with
  | [] => s.setMem s.mem.popped
  | op :: _ => (s.setMem s.mem.popped).entered op

/-- A completion returned to its origin (01 R5): the sweep engine discards its own (08 R168), and the INIT of granule
G−1 ends initialization (01 R17). -/
def State.deliver (s : State) (op : MemOp) (c : Completion) : State :=
  match op.origin with
  | .slot i => s.deliverToSlot i c
  | .sweep => s
  | .initializer => if op.granule.toNat + 1 = s.mem.granuleCount then s.endInitialization else s

end Sys2Proof.Machine
end

