-- ==== Sys2Proof/Machine/Membership.lean ====
section
/-! DEFINITION. The port membership controller (chapter 7): fence entry, the passage to PARKED and the exit from FENCING,
line events, joining and leaving, membership commands, expiries and reports. -/

namespace Sys2Proof.Machine

/-! ### The record of a port -/

/-- The record of a port rewritten by a function of it. -/
def State.modifyPort (s : State) (p : Port) (f : PortRec → PortRec) : State := s.setPort p (f (s.ctl.ports.get p))

/-- A port moved to another state. -/
def State.movePort (s : State) (p : Port) (st : PortState) : State := s.modifyPort p fun r => { r with state := st }

/-! ### Leaving DEPARTING and FENCING -/

/-- The slots whose transactions await a port. -/
def State.awaiting (s : State) (p : Port) : List SlotId :=
  allSlots.filter fun i => (s.txn i).any fun t => (t.awaited.get p).isSome

/-- The passage from DEPARTING to PARKED (07 R141, 05 R102). -/
def State.passToParked (s : State) (p : Port) : State :=
  let s := s.modifyPort p fun r =>
    { r with state := .parked, deadline := none, leaveAsked := false, sweepFinished := false, joinedEpoch := none }
  let s := s.bumpEpoch
  let s := s.inFreeOrder ((s.awaiting p).map (State.resolveAbsent p false))
  (s.sendNotice s.activePorts (.memberDown p none)).raise .parked

/-- The exit from FENCING, to FENCED or EMPTY by the present field (07 R147). -/
def State.exitFencing (s : State) (p : Port) : State :=
  let s := s.modifyPort p fun r =>
    { r with state := if r.present then .fenced else .empty, sweepFinished := false, joinedEpoch := none }
  let s := s.bumpEpoch
  (s.sendNotice s.activePorts (.memberDown p (s.ctl.ports.get p).fenceReason)).raise .fenced

/-- The port has a slot in DRAINING. -/
def State.draining (s : State) (p : Port) : Bool :=
  (portSlots p).any fun i => (s.txn i).any fun t => t.phase == .draining

/-- The condition of R141 for a port in DEPARTING, and of R147 for a port in FENCING. -/
def State.mayLeave (s : State) (p : Port) : Bool :=
  (s.portState p == .departing && (s.ctl.ports.get p).sweepFinished && s.occupied p == 0)
    || (s.portState p == .fencing && (s.ctl.ports.get p).sweepFinished && !s.draining p)

/-- The passage or the exit, for a port whose condition is true. -/
def State.leaveIfReady (p : Port) (s : State) : State :=
  if s.mayLeave p then (if s.portState p == .departing then s.passToParked p else s.exitFencing p) else s

/-- The tests of R141 and R147 with the changes they bring, ports that are ready together going in an order that the
manual leaves open; the first argument bounds the rounds (log 19). -/
def State.settleRounds : Nat → State → State
  | 0, s => s
  | n + 1, s =>
    match Port.all.filter s.mayLeave with
    | [] => s
    | p :: ps => State.settleRounds n (s.inFreeOrder ((p :: ps).map State.leaveIfReady))

/-- The tests of R141 and R147 at the end of a change that may have freed a slot or finished a walk. Four rounds are
enough: a port leaves at most once (log 19). -/
def State.settle (s : State) : State := s.settleRounds 4

/-! ### Fence entry -/

/-- The parts of fence entry at the port record and at the member port interface (07 R144 parts 1 and 5, part 4's
clearing of sweep finished; the frames that wait in the link layer meet step 0 of intake, log 11). -/
def State.enterFencing (reason : FenceReason) (s : State) (p : Port) : State :=
  let s := s.modifyPort p fun r =>
    { r with
      state := .fencing, fenceReason := some reason, deadline := none, leaveAsked := false, sweepFinished := false }
  s.setIface p { s.ifaces.get p with outq := [], waiting := [] }

/-- Slot `i` is a member slot of one of these ports. -/
def ownedBy (ps : List Port) (i : SlotId) : Bool := (slotPort i).any fun p => ps.contains p

/-- A slot in WAITING leaves its chain and is FREE (03 R58). -/
def State.dropIfWaiting (s : State) (i : SlotId) : State :=
  match s.txn i with
  | none => s
  | some t => if t.phase = .waiting then s.freeHead i t.granule else s

/-- What fence entry of these ports does to slot `i`, if anything: abandonment of their own slots (R58), resolution in
the others (05 R101). -/
def State.fenceTask (s : State) (ps : List Port) (i : SlotId) : Option (State → State) :=
  match s.txn i with
  | none => none
  | some t =>
    if ownedBy ps i then some (State.abandon i)
    else if ps.any fun p => (t.awaited.get p).isSome then
      some fun s => ps.foldl (fun s p => State.resolveAbsent p true i s) s
    else none

/-- Fence entry of these ports at their records, queues and slots, with the resolutions: all of it but the sweep jobs
(07 R144, R153; logs 9 and 27). -/
def State.fenceEntries (s : State) (ps : List Port) (reason : FenceReason) : State :=
  let s := ps.foldl (State.enterFencing reason) s
  let s := (allSlots.filter (ownedBy ps)).foldl State.dropIfWaiting s
  s.inFreeOrder (allSlots.filterMap (s.fenceTask ps))

/-- A cause of R143 taken for a port: a member is fenced, any other port is unchanged. The port's sweep job is judged as it
stands at fence entry, before a slot that the entry brings to an end can complete it (07 R145); the entry at which a
converted walk waited is visited when the port has been resolved everywhere (08 R160, R162; log 27). -/
def State.fenceMember (s : State) (p : Port) (reason : FenceReason) : State :=
  if (s.portState p).isMember then
    let t := (s.requestFence p).fenceEntries [p] reason
    (if s.departWaits p then t.visit else t).settle
  else s

/-! ### Seating, admission and line events -/

/-- Admission: by the hold flag first and ADMIT_MODE second (07 R132). -/
def State.admission (s : State) (p : Port) : State :=
  if (s.ctl.ports.get p).holdFlag || s.ctl.admitMode == .managed then (s.movePort p .held).raise .admitWait
  else s.movePort p .joinable

/-- The place of a seated card by its latch: admission when closed, PARKED when open (07 R131, R148). -/
def State.placeCard (s : State) (p : Port) : State :=
  if (s.ctl.ports.get p).latchClosed then s.admission p else s.movePort p .parked

/-- A presence event: the field is updated, then the rules of the port's state apply (07 R127, R131, R134, R137, R146,
R148). A level that the field already shows is no change of the line (log 3). -/
def State.presence (p : Port) (asserted : Bool) (s : State) : State :=
  if (s.ctl.ports.get p).present = asserted then s
  else
    let s := s.modifyPort p fun r => { r with present := asserted }
    match asserted, s.portState p with
    | true, .empty => (s.placeCard p).raise .seated
    | true, _ => s
    | false, .parked => s.movePort p .empty
    | false, .held => s.movePort p .empty
    | false, .joinable => s.movePort p .empty
    | false, .fenced => s.movePort p .empty
    | false, .active => s.fenceMember p .removed
    | false, .departing => s.fenceMember p .removed
    | false, .empty => s
    | false, .fencing => s

/-- A latch event (07 R127, R131, R134, R137, R146, R148). -/
def State.latch (p : Port) (closed : Bool) (s : State) : State :=
  if (s.ctl.ports.get p).latchClosed = closed then s
  else
    let s := s.modifyPort p fun r => { r with latchClosed := closed }
    match closed, s.portState p with
    | true, .parked => s.admission p
    | true, .active =>
      (s.modifyPort p fun r => { r with leaveAsked := false }).sendNotice [p] (.leaveWithdrawn p)
    | false, .active =>
      ((s.modifyPort p fun r => { r with leaveAsked := true }).sendNotice [p] (.leaveAskedLatch p)).raise .leaveAsked
    | false, .held => s.movePort p .parked
    | false, .joinable => s.movePort p .parked
    | _, _ => s

/-! ### Joining and leaving -/

/-- The BOUNCE to a JOIN or LEAVE: tag 15, the granule field copied from the frame (09 R182; log 20). -/
def State.bounce15 (s : State) (p : Port) (g : Granule) (reason : Reason) : State := s.send p (.bounce 15 g reason)

/-- An accepted JOIN (07 R136). -/
def State.joinAccepted (s : State) (p : Port) : State :=
  let s := s.bumpEpoch
  let s := s.modifyPort p fun r => { r with state := .active, joinedEpoch := some s.ctl.epoch, fenceReason := none }
  let s := s.send p (.ack 15 0 .ok (.value (s.ctl.epoch.setWidth 64)) false)
  (s.sendNotice s.activePorts (.memberUp p)).raise .joined

/-- A JOIN at the controller (07 R135). -/
def State.joinFrame (s : State) (p : Port) (g : Granule) : State :=
  match s.portState p with
  | .joinable =>
    match s.svc.hubState with
    | .running => s.joinAccepted p
    | .initializing => s.bounce15 p g .starting
    | .clearing => s.bounce15 p g .busy
  | .empty => s.bounce15 p g .notMember
  | .parked => s.bounce15 p g .notMember
  | .held => s.bounce15 p g .notMember
  | .active => s.bounce15 p g .refused
  | .departing => s.bounce15 p g .refused
  | .fencing => s
  | .fenced => s

/-- A WAITING slot of a departing port leaves its chain, answered BOUNCE NOT_MEMBER (03 R57). -/
def State.bounceIfWaiting (p : Port) (i : SlotId) (s : State) : State :=
  match s.txn i with
  | none => s
  | some t =>
    if t.phase = .waiting then (s.send p (.bounce (slotTag i) t.granule .notMember)).freeHead i t.granule else s

/-- The departure deadline set now (07 R139). -/
def State.departureDeadline (s : State) : Option Nat :=
  if s.ctl.departLimit = 0 then none else some (s.now + 1000 * s.ctl.departLimit.toNat)

/-- The entry into DEPARTING, without the NOTICE of an EJECT (07 R139). -/
def State.enterDeparting (s : State) (p : Port) : State :=
  let s := s.movePort p .departing
  let s := s.inFreeOrder
    (((portSlots p).filter fun i => (s.txn i).any fun t => t.phase == .waiting).map (State.bounceIfWaiting p))
  let s := s.queueJob (.depart p)
  s.modifyPort p fun r => { r with sweepFinished := false, deadline := s.departureDeadline }

/-- A LEAVE at the controller (07 R138). -/
def State.leaveFrame (s : State) (p : Port) (g : Granule) : State :=
  match s.portState p with
  | .active =>
    if s.occupied p = 0 then (s.send p (.ack 15 0 .ok .none false)).enterDeparting p else s.bounce15 p g .busy
  | .departing => s.bounce15 p g .refused
  | .empty => s.bounce15 p g .notMember
  | .parked => s.bounce15 p g .notMember
  | .held => s.bounce15 p g .notMember
  | .joinable => s.bounce15 p g .notMember
  | .fencing => s
  | .fenced => s

/-! ### Membership commands -/

/-- The six membership commands (07 R149). -/
inductive MemberCommand where
  | admission | eject | fence | release | holdOn | holdOff
deriving DecidableEq, Repr

/-- The states in which a command applies (07 R149). -/
def MemberCommand.applies (c : MemberCommand) (r : PortRec) : Bool :=
  match c with
  | .admission => r.state == .held && !r.holdFlag
  | .eject => r.state == .active
  | .fence => r.state.isMember
  | .release => r.state == .fenced
  | .holdOn => true
  | .holdOff => true

/-- The port that a command names, if the command is accepted; else the reason of its refusal (07 R149). -/
def State.judgeMember (s : State) (c : MemberCommand) (port : Byte) : Except Reason Port :=
  match portOfNumber port.toNat with
  | none => .error .badArgument
  | some p => if c.applies (s.ctl.ports.get p) then .ok p else .error .wrongState

/-- HOLD_ON: the flag set, then by the port's state (07 R150). -/
def State.holdOn (s : State) (p : Port) : State :=
  let s := s.modifyPort p fun r => { r with holdFlag := true }
  match s.portState p with
  | .active => s.fenceMember p .hold
  | .departing => s.fenceMember p .hold
  | .joinable => s.movePort p .held
  | .empty => s
  | .parked => s
  | .held => s
  | .fencing => s
  | .fenced => s

/-- The effect of an accepted command (07 R148 to R151). -/
def State.applyMember (c : MemberCommand) (p : Port) (s : State) : State :=
  match c with
  | .admission => s.movePort p .joinable
  | .eject => (s.enterDeparting p).sendNotice [p] (.leaveAskedEject p)
  | .fence => s.fenceMember p .manager
  | .release => s.placeCard p
  | .holdOn => s.holdOn p
  | .holdOff => s.modifyPort p fun r => { r with holdFlag := false }

/-! ### Events from inside the part -/

/-- LINK_LOST taken at the controller (07 R143, 09 R178). Nothing where no report is on its way (log 3). -/
def State.linkLostTaken (p : Port) (s : State) : State :=
  match s.ctl.linkLost.get p with
  | 0 => s
  | n + 1 => ({ s with ctl := { s.ctl with linkLost := s.ctl.linkLost.set p n } } : State).fenceMember p .linkLost

/-- A fence request taken at the controller (05 R106). -/
def State.fenceRequestTaken (p : Port) (s : State) : State :=
  if s.ctl.fenceRequests.contains p then
    ({ s with ctl := { s.ctl with fenceRequests := s.ctl.fenceRequests.erase p } } : State).fenceMember p .recallTimeout
  else s

/-- An awaited port whose answer is still waiting becomes timed out (05 R105). -/
def timeOut (a : Option Awaited) : Option Awaited := a.map fun w => { w with timedOut := true }

/-- The awaited ports with answer state waiting (05 R105). -/
def Txn.stillWaiting (t : Txn) : List Port := Port.all.filter fun p => (t.awaited.get p).any fun w => !w.timedOut

/-- The recall deadline of a slot expires (05 R105). The time base has then reached the deadline (log 12). -/
def State.recallExpiry (i : SlotId) (s : State) : State :=
  match s.txn i with
  | none => s
  | some t =>
    match t.deadline with
    | none => s
    | some d =>
      let a := t.awaited
      let s := s.setTxn i
        (some { t with deadline := none, awaited := ⟨timeOut a.p0, timeOut a.p1, timeOut a.p2, timeOut a.p3⟩ })
      { s with
        now := max s.now d
        ctl := { s.ctl with fenceRequests := s.ctl.fenceRequests ++ t.stillWaiting } }

/-- The departure deadline of a port expires (07 R142; log 12). -/
def State.departureExpiry (p : Port) (s : State) : State :=
  match s.portState p, (s.ctl.ports.get p).deadline with
  | .departing, some d => ({ s with now := max s.now d } : State).fenceMember p .departTimeout
  | _, _ => s

/-- The oldest completion report taken off the list. -/
def State.dropReport (s : State) : State := s.setSweep { s.sweep with reports := s.sweep.reports.tail }

/-- A DEPART or FENCE report taken at the controller (08 R171). -/
def State.sweepReportTaken (s : State) : State :=
  match s.sweep.reports with
  | .depart p :: _ =>
    let s := s.dropReport
    if s.portState p = .departing then (s.modifyPort p fun r => { r with sweepFinished := true }).settle else s
  | .fence p :: _ =>
    let s := s.dropReport
    if s.portState p = .fencing then (s.modifyPort p fun r => { r with sweepFinished := true }).settle else s
  | _ => s

/-- Sweep finished set for a port in FENCING (07 R153). -/
def State.finishFenced (s : State) (p : Port) : State :=
  if s.portState p = .fencing then s.modifyPort p fun r => { r with sweepFinished := true } else s

/-- The CLEAR report taken (08 R175, 07 R153, 10 R204). -/
def State.clearReportTaken (s : State) : State :=
  match s.sweep.reports with
  | .clear :: _ =>
    let s := (Port.all.foldl State.finishFenced s.dropReport).settle
    ({ s with svc := { s.svc with hubState := .running } } : State).raise .clearDone
  | _ => s

/-- HUB_CLEAR at the controller and at the sweep engine (07 R153, 10 R212). The sweep queue is emptied and the walk
stopped before the fence entries of the same change, so that nothing which they bring to an end moves a job that is being
discarded, reports it or raises SWEEP_IDLE (08 R172, R173, R174; log 31). -/
def State.clearMembers (s : State) : State :=
  ((s.stopSweep.fenceEntries (Port.all.filter fun p => (s.portState p).isMember) .clear).requestClear).settle

/-! ### Commands -/

/-- PRESENCE_EVENT (07 R127). -/
def execPresenceEvent (p : Port) (asserted : Bool) (s : State) : Host.Outcome State Fault Refusal :=
  change (State.presence p asserted) s

/-- LATCH_EVENT (07 R127). -/
def execLatchEvent (p : Port) (closed : Bool) (s : State) : Host.Outcome State Fault Refusal :=
  change (State.latch p closed) s

/-- LINK_LOST_AT_CONTROLLER (07 R143). -/
def execLinkLostAtController (p : Port) (s : State) : Host.Outcome State Fault Refusal :=
  change (State.linkLostTaken p) s

/-- RECALL_DEADLINE_EXPIRY (05 R105). -/
def execRecallDeadlineExpiry (i : SlotId) (s : State) : Host.Outcome State Fault Refusal :=
  change (State.recallExpiry i) s

/-- FENCE_REQUEST (05 R106). -/
def execFenceRequest (p : Port) (s : State) : Host.Outcome State Fault Refusal := change (State.fenceRequestTaken p) s

/-- DEPARTURE_DEADLINE_EXPIRY (07 R142). -/
def execDepartureDeadlineExpiry (p : Port) (s : State) : Host.Outcome State Fault Refusal :=
  change (State.departureExpiry p) s

/-- SWEEP_REPORT (08 R171). -/
def execSweepReport (s : State) : Host.Outcome State Fault Refusal := change State.sweepReportTaken s

/-- CLEAR_REPORT (08 R175). -/
def execClearReport (s : State) : Host.Outcome State Fault Refusal := change State.clearReportTaken s

end Sys2Proof.Machine
end

