-- ==== Sys2Proof/Machine/Completions.lean ====
section
/-! DEFINITION. Hub reset, the completions of the memory controller, walk visits and bits in error (chapters 1 and 8). -/

namespace Sys2Proof.Machine

/-! ### Hub reset -/

/-- Hub reset is taken: everything is at its reset state; the commands that wait, the model's draws and the time base go
on (01 R16; log 21). -/
def State.enterReset (s : State) : State :=
  { State.reset with pending := s.pending, freeDraws := s.freeDraws, now := s.now }

/-- G by the two MEM_SIZE straps; both asserted is reserved and taken as the least (01 R1). -/
def granuleCountOf (first second : Bool) : Nat :=
  match first, second with
  | true, false => 4194304
  | false, true => 8388608
  | false, false => 2097152
  | true, true => 2097152

/-- The straps sampled and the LATCH lines taken (01 R1, 06 R114, 07 R127, R133). A selection that is open now is not taken:
where its request is complete it gives no command any more, and else one, which `transfer` drops (10 R200; log 17). -/
def State.sampleLines (s : State) (l : ResetLines) : State :=
  let g := granuleCountOf l.firstMemSize l.secondMemSize
  let rec0 := fun p : Port => { s.ctl.ports.get p with latchClosed := l.latch.get p }
  { s with
    inReset := false
    mem := { s.mem with granuleCount := g }
    windows := resetWindows g
    ctl :=
      { s.ctl with
        admitMode := if l.admitMode then .managed else .auto
        ports := ⟨rec0 .p0, rec0 .p1, rec0 .p2, rec0 .p3⟩ }
    svc := { s.svc with staleSelection := l.selection.any requestOpen } }

/-- Hub reset ends: straps and lines taken, cards that are present seated, the initializer started (01 R1, R16, R17, 07
R127). -/
def State.leaveReset (s : State) (l : ResetLines) : State :=
  let s := s.sampleLines l
  let s := (Port.all.filter l.present.get).foldl (fun s p => State.presence p true s) s
  s.offerInits 17

/-! ### Completions -/

/-- The oldest operation is performed and completes: it leaves the queue, a pending offer enters, its completion is
returned to its origin (01 R3 to R5), and the tests of R141 and R147 follow. -/
def State.completeOldest (s : State) (op : MemOp) : State :=
  let r := s.perform op
  ((r.1.leaveQueue).deliver op r.2).settle

/-- The completion of the oldest operation, if it is of the kind that the command names; otherwise the event has not
come about (log 3). An operation on a granule that is not installed faults (log 15). -/
def complete (kind : MemKind → Bool) (s : State) : Host.Outcome State Fault Refusal :=
  if s.inReset then .next s
  else
    match s.mem.queue with
    | [] => .next s
    | op :: _ =>
      if !kind op.kind then .next s
      else if op.granule.toNat < s.mem.granuleCount then .next (s.completeOldest op)
      else .fault .noSuchGranule

def MemKind.isRead : MemKind → Bool
  | .read => true
  | .writeFull _ => false
  | .writePartial _ _ => false
  | .atomicRmw _ => false
  | .poisonSet => false
  | .init => false

def MemKind.isWriteFull : MemKind → Bool
  | .read => false
  | .writeFull _ => true
  | .writePartial _ _ => false
  | .atomicRmw _ => false
  | .poisonSet => false
  | .init => false

def MemKind.isWritePartial : MemKind → Bool
  | .read => false
  | .writeFull _ => false
  | .writePartial _ _ => true
  | .atomicRmw _ => false
  | .poisonSet => false
  | .init => false

def MemKind.isAtomicRmw : MemKind → Bool
  | .read => false
  | .writeFull _ => false
  | .writePartial _ _ => false
  | .atomicRmw _ => true
  | .poisonSet => false
  | .init => false

def MemKind.isPoisonSet : MemKind → Bool
  | .read => false
  | .writeFull _ => false
  | .writePartial _ _ => false
  | .atomicRmw _ => false
  | .poisonSet => true
  | .init => false

def MemKind.isInit : MemKind → Bool
  | .read => false
  | .writeFull _ => false
  | .writePartial _ _ => false
  | .atomicRmw _ => false
  | .poisonSet => false
  | .init => true

/-! ### Bits in error -/

/-- Stored bits of a word come to be in error (01 R7; log 7). -/
def State.bitsInError (g : Granule) (w : Fin 8) (bits : StoredBits) (s : State) : State :=
  if g.toNat < s.mem.granuleCount then
    s.setMem
      { s.mem with bitErrors := Sparse.set 0 s.mem.bitErrors (wordKey g w) (s.mem.errors g w ||| bits) }
  else s

/-! ### The walk -/

/-- The walk visits the entry at its position, unless it is paused (08 R161). -/
def State.walkVisit (s : State) : State := if s.sweep.walk.pause = .none then s.visit else s

/-! ### Commands -/

/-- HUB_RESET (01 R16). -/
def execHubReset (s : State) : Host.Outcome State Fault Refusal := .next s.enterReset

/-- HUB_RESET_END (01 R1, R16). Nothing where hub reset is not being taken (log 3). -/
def execHubResetEnd (lines : ResetLines) (s : State) : Host.Outcome State Fault Refusal :=
  .next (if s.inReset then s.leaveReset lines else s)

/-- READ_COMPLETE (01 R12). -/
def execReadComplete (s : State) : Host.Outcome State Fault Refusal := complete MemKind.isRead s

/-- WRITE_FULL_COMPLETE (01 R12). -/
def execWriteFullComplete (s : State) : Host.Outcome State Fault Refusal := complete MemKind.isWriteFull s

/-- WRITE_PARTIAL_COMPLETE (01 R13). -/
def execWritePartialComplete (s : State) : Host.Outcome State Fault Refusal := complete MemKind.isWritePartial s

/-- ATOMIC_RMW_COMPLETE (01 R14). -/
def execAtomicRmwComplete (s : State) : Host.Outcome State Fault Refusal := complete MemKind.isAtomicRmw s

/-- POISON_SET_COMPLETE (01 R15). -/
def execPoisonSetComplete (s : State) : Host.Outcome State Fault Refusal := complete MemKind.isPoisonSet s

/-- INIT_COMPLETE (01 R17). -/
def execInitComplete (s : State) : Host.Outcome State Fault Refusal := complete MemKind.isInit s

/-- WALK_VISIT (08 R161). -/
def execWalkVisit (s : State) : Host.Outcome State Fault Refusal := change State.walkVisit s

/-- DRAM_BITS_IN_ERROR (01 R7). -/
def execDramBitsInError (g : Granule) (word : Fin 8) (bits : StoredBits) (s : State) :
    Host.Outcome State Fault Refusal :=
  change (State.bitsInError g word bits) s

end Sys2Proof.Machine
end

