-- ==== Sys2Proof/Machine/Registers.lean ====
section
/-! DEFINITION. Register writes and window writes, from the service port and from CONTROL frames (06 R119 to R122, 07
R152, 09 R194, 10 R203). -/

namespace Sys2Proof.Machine

/-! ### Register writes -/

/-- Where a command comes from. -/
inductive Source where
  | service | card
deriving DecidableEq, Repr

/-- EVENT_STATUS: the events whose bit is one are cleared (10 R213). -/
def State.clearEvents (s : State) (v : Word) : State :=
  { s with svc := { s.svc with eventStatus := s.svc.eventStatus &&& ~~~(v.setWidth 11) } }

/-- EVENT_ENABLE: bits 10 to 0 stored (10 R203, R214). -/
def State.storeEnable (s : State) (v : Word) : State := { s with svc := { s.svc with eventEnable := v.setWidth 11 } }

/-- PORT_CONTROL: the indicator forced flag from bit 1, and from the service port the control grant from bit 0
(07 R152). -/
def State.storePortControl (s : State) (src : Source) (p : Port) (v : Word) : State :=
  match src with
  | .service => s.modifyPort p fun r => { r with controlGrant := v.getLsbD 0, indicatorForced := v.getLsbD 1 }
  | .card => s.modifyPort p fun r => { r with indicatorForced := v.getLsbD 1 }

/-- ADMIT_MODE: bit 0 stored (07 R133). -/
def State.storeAdmitMode (s : State) (v : Word) : State :=
  { s with ctl := { s.ctl with admitMode := if v.getLsbD 0 then .managed else .auto } }

/-- RECALL_LIMIT: bits 15 to 0, a value below 10 stored as 10 (05 R103). -/
def State.storeRecallLimit (s : State) (v : Word) : State :=
  { s with table := { s.table with recallLimit := BitVec.ofNat 16 (max 10 (v.setWidth 16 : BitVec 16).toNat) } }

/-- DEPART_LIMIT: bits 15 to 0 stored (07 R140). -/
def State.storeDepartLimit (s : State) (v : Word) : State :=
  { s with ctl := { s.ctl with departLimit := v.setWidth 16 } }

/-- CORRECTED set to 0 (01 R9). -/
def State.clearCorrected (s : State) : State := s.setMem { s.mem with corrected := 0 }

/-- UNCORRECTED set to 0 (01 R9). -/
def State.clearUncorrected (s : State) : State := s.setMem { s.mem with uncorrected := 0 }

/-- FIRST_FAULT emptied (01 R10). -/
def State.clearFirstFault (s : State) : State := s.setMem { s.mem with firstFault := none }

/-- PROTO_ERRORS of a port set to 0 (09 R191). -/
def State.clearProtoErrors (s : State) (p : Port) : State := s.setIface p { s.ifaces.get p with protoErrors := 0 }

/-- A register write judged and taken at its owner (09 R194, 10 R203). -/
def State.writeRegister (s : State) (src : Source) (r : Reg) (v : Word) : Except Reason State :=
  match r with
  | .hubState => .error .badArgument
  | .epoch => .error .badArgument
  | .memGranules => .error .badArgument
  | .sweepState => .error .badArgument
  | .portStatus _ => .error .badArgument
  | .window _ => .error .badArgument
  | .eventStatus =>
    match src with
    | .service => .ok (s.clearEvents v)
    | .card => .error .refused
  | .eventEnable => .ok (s.storeEnable v)
  | .portControl p => .ok (s.storePortControl src p v)
  | .admitMode => .ok (s.storeAdmitMode v)
  | .recallLimit => .ok (s.storeRecallLimit v)
  | .departLimit => .ok (s.storeDepartLimit v)
  | .corrected => .ok s.clearCorrected
  | .uncorrected => .ok s.clearUncorrected
  | .firstFault => .ok s.clearFirstFault
  | .protoErrors p => .ok (s.clearProtoErrors p)

/-! ### Window writes -/

/-- The entry that a SET_WINDOW names, if its arguments are in range (06 R119). -/
def State.judgeWindow (s : State) (index : Byte) (base limit : Granule) : Option (Fin 8) :=
  if h : index.toNat < 8 then
    if base ≤ limit ∧ limit.toNat < s.mem.granuleCount then some ⟨index.toNat, h⟩ else none
  else none

/-- The entry that a SET_WINDOW writes (06 R120, 10 R198). -/
def windowOf (valid : Byte) (base limit : Granule) (rights : Byte) : Window :=
  ⟨valid != 0, base, limit, rightsOfByte rights⟩

/-- The entry replaced and a RECHECK queued or merged (06 R120 steps 1 and 2, R122). -/
def State.replaceWindow (s : State) (k : Fin 8) (w : Window) : State :=
  ({ s with windows := s.windows.set k.val w k.isLt } : State).requestRecheck

/-- RIGHTS_CHANGED on the link of every port in ACTIVE (06 R120 step 3, R121). -/
def State.announceWindow (s : State) (k : Fin 8) : State := s.sendNotice s.activePorts (.rightsChanged k)

end Sys2Proof.Machine
end

