-- ==== Sys2Proof/Machine/Intake.lean ====
section
/-! DEFINITION. Member port interfaces (chapter 9): the link, the frames that arrive and the checks of intake, bypass
frames, YIELD matching and CONTROL. -/

namespace Sys2Proof.Machine

/-! ### Bypass frames -/

/-- An eviction of the granule's entry completes if the change has made that possible (02 R31, R32). -/
def State.recheckVictim (s : State) (g : Granule) : State :=
  match s.entry g with
  | none => s
  | some e =>
    match e.lock with
    | .evicting j => s.checkEviction j
    | .busy _ => s
    | .none => s

/-- RETURN_DIRTY taken at arrival in slot `i` (03 R56, 04 R85). -/
def State.takeReturn (s : State) (i : SlotId) (p : Port) (g : Granule) (data : GranuleData) : State :=
  if s.soleOwner p g then
    let s := s.setTxn i (some { newTxn (.member (.returnDirty data)) g with phase := .bypass })
    ((s.changeEntry g (.remove p)).offer ⟨.writeFull data, g, .slot i⟩).recheckVictim g
  else s.send p (.ack (slotTag i) g .stale .none false)

/-- RELEASE taken at arrival in slot `i` (03 R56, 04 R86). -/
def State.takeRelease (s : State) (i : SlotId) (p : Port) (g : Granule) : State :=
  if s.holds p g then
    ((s.changeEntry g (.remove p)).send p (.ack (slotTag i) g .ok .none false)).recheckVictim g
  else s.send p (.ack (slotTag i) g .stale .none false)

/-! ### Requests -/

/-- What the checks of intake make of a request. -/
inductive Judgment where
  | bounce (r : Reason)
  | error
  | accepted (i : SlotId)
deriving DecidableEq, Repr

/-- Steps 5 to 7 for a request whose slot is FREE: address, right, evicting lock (09 R190). -/
def State.judgeGranule (s : State) (p : Port) (i : SlotId) (g : Granule) (r : Request) : Judgment :=
  if s.mem.granuleCount ≤ g.toNat then .bounce .badAddress
  else if r.bypass then .accepted i
  else if !(s.right p g).covers r.need then .bounce .denied
  else if s.evictingEntry g then .bounce .busy
  else .accepted i

/-- Steps 3 to 7 of intake (09 R189, R190). -/
def State.judgeSlot (s : State) (p : Port) (tag : Tag) (g : Granule) (r : Request) : Judgment :=
  match s.svc.hubState with
  | .initializing => .bounce .starting
  | .clearing => .bounce .busy
  | .running =>
    match memberSlot p tag with
    | none => .error
    | some i => if (s.txn i).isSome then .error else s.judgeGranule p i g r

/-- Steps 1 to 7 of intake for a request (09 R187 to R190). -/
def State.judgeRequest (s : State) (p : Port) (tag : Tag) (g : Granule) (r : Request) : Judgment :=
  if 14 ≤ tag.toNat then .error
  else
    match s.portState p with
    | .active => s.judgeSlot p tag g r
    | .departing => if r.bypass then s.judgeSlot p tag g r else .bounce .notMember
    | .empty => .bounce .notMember
    | .parked => .bounce .notMember
    | .held => .bounce .notMember
    | .joinable => .bounce .notMember
    | .fencing => .bounce .notMember
    | .fenced => .bounce .notMember

/-- Step 8: a chain kind joins its granule's chain, a bypass frame is taken at once (09 R190, 03 R46, R56). -/
def State.placeRequest (s : State) (i : SlotId) (p : Port) (g : Granule) (r : Request) : State :=
  match r with
  | .returnDirty data => s.takeReturn i p g data
  | .release => s.takeRelease i p g
  | .readShare => s.place i (.member r) g
  | .readOwn => s.place i (.member r) g
  | .promote => s.place i (.member r) g
  | .peek => s.place i (.member r) g
  | .poke _ _ => s.place i (.member r) g
  | .atomic _ => s.place i (.member r) g

/-- A request from a port that is not fenced, through steps 1 to 8 of intake (09 R187 to R191). -/
def State.takeRequest (s : State) (p : Port) (tag : Tag) (g : Granule) (r : Request) : State :=
  match s.judgeRequest p tag g r with
  | .bounce reason => s.send p (.bounce tag g reason)
  | .error => s.protocolError p
  | .accepted i => (s.placeRequest i p g r).settle

/-! ### Yields -/

/-- The change of the recalled entry that a matched YIELD brings, if any (05 R96, R97). -/
def State.yieldChange (s : State) (p : Port) (g : Granule) (k : RecallKind) (o : YieldOutcome) : State :=
  match k, o with
  | .revoke, _ => s.changeEntry g (.remove p)
  | .demote, .absent => s.changeEntry g (.remove p)
  | .demote, .dirty _ => if s.holds p g then s.changeEntry g .demote else s
  | .demote, .clean => if s.holds p g then s.changeEntry g .demote else s

/-- The data of a DIRTY answer offered as a WRITE_FULL with the recalling slot as origin (05 R98). -/
def State.offerYielded (s : State) (i : SlotId) (g : Granule) (o : YieldOutcome) : State :=
  match o with
  | .dirty d => s.offer ⟨.writeFull d, g, .slot i⟩
  | .clean => s
  | .absent => s

/-- The awaited record that a YIELD from `p` with this recall id and granule meets (05 R95). -/
def State.awaitedBy (s : State) (p : Port) (recallId : Byte) (g : Granule) : Option (SlotId × Awaited) :=
  match slotOfRecallId recallId with
  | none => none
  | some i =>
    match s.txn i with
    | none => none
    | some t => if t.recalled = g then (t.awaited.get p).map fun w => (i, w) else none

/-- A YIELD of a member at the transaction table (05 R95 to R100). -/
def State.matchYield (s : State) (p : Port) (g : Granule) (recallId : Byte) (o : YieldOutcome) : State :=
  match s.awaitedBy p recallId g with
  | none => s.protocolError p
  | some (i, w) =>
    if w.timedOut then s else (((s.yieldChange p g w.kind o).offerYielded i g o).unawait i p).settle

/-- A YIELD from a port that is not fenced (09 R188). -/
def State.takeYield (s : State) (p : Port) (tag : Tag) (g : Granule) (recallId : Byte) (o : YieldOutcome) : State :=
  if (s.portState p).isMember then s.matchYield p g recallId o else s.send p (.bounce tag g .notMember)

/-! ### CONTROL -/

/-- The commands of a control block (09 R185). -/
inductive ControlCommand where
  | regRead | regWrite
  | member (c : MemberCommand)
  | setWindow
deriving DecidableEq, Repr

/-- The command of a code (09 R185). -/
def controlCommand (code : Byte) : Option ControlCommand :=
  match code.toNat with
  | 1 => some .regRead
  | 2 => some .regWrite
  | 3 => some (.member .admission)
  | 4 => some (.member .eject)
  | 5 => some (.member .fence)
  | 6 => some (.member .release)
  | 7 => some (.member .holdOn)
  | 8 => some (.member .holdOff)
  | 9 => some .setWindow
  | _ => none

/-- The ACK OK to a CONTROL frame, with its value block (09 R182, R193). -/
def State.controlAck (s : State) (p : Port) (v : Word) : State := s.send p (.ack 14 0 .ok (.value v) false)

/-- The BOUNCE to a CONTROL frame: the granule field copied (09 R182; log 20). -/
def State.controlBounce (s : State) (p : Port) (g : Granule) (reason : Reason) : State :=
  s.send p (.bounce 14 g reason)

/-- REG_READ in a CONTROL frame (09 R194). -/
def State.controlRead (s : State) (p : Port) (g : Granule) (offset : BitVec 16) : State :=
  match Reg.ofOffset offset with
  | none => s.controlBounce p g .badArgument
  | some r => s.controlAck p (readRegister s r)

/-- REG_WRITE in a CONTROL frame (09 R194). -/
def State.controlWrite (s : State) (p : Port) (g : Granule) (offset : BitVec 16) (v : Word) : State :=
  match Reg.ofOffset offset with
  | none => s.controlBounce p g .badArgument
  | some r =>
    match s.writeRegister .card r v with
    | .error reason => s.controlBounce p g reason
    | .ok s' => s'.controlAck p 0

/-- A membership command in a CONTROL frame: the answer and the effect in one change, their order on the sender's link
being open (07 R149, 09 R193; log 13). -/
def State.controlMember (s : State) (p : Port) (g : Granule) (c : MemberCommand) (port : Byte) : State :=
  match s.judgeMember c port with
  | .error reason => s.controlBounce p g reason
  | .ok q => s.inFreeOrder [fun s => s.controlAck p 0, State.applyMember c q]

/-- SET_WINDOW in a CONTROL frame: the ACK ahead of the notice (06 R119, R120). -/
def State.controlWindow (s : State) (p : Port) (g : Granule) (b : ControlBlock) : State :=
  match s.judgeWindow b.arg b.base (ControlBlock.limit b) with
  | none => s.controlBounce p g .badArgument
  | some k =>
    ((s.replaceWindow k (windowOf b.valid b.base (ControlBlock.limit b) (ControlBlock.rights b))).controlAck p 0).announceWindow k

/-- A CONTROL frame of a member, after step 2 of intake: the grant, the command code, the owner (09 R193). -/
def State.controlJudged (s : State) (p : Port) (g : Granule) (b : ControlBlock) : State :=
  if !(s.ctl.ports.get p).controlGrant then s.controlBounce p g .refused
  else
    match controlCommand b.code with
    | none => s.controlBounce p g .badArgument
    | some .regRead => s.controlRead p g b.offset
    | some .regWrite => s.controlWrite p g b.offset b.value
    | some (.member c) => s.controlMember p g c b.arg
    | some .setWindow => s.controlWindow p g b

/-- A CONTROL frame from a port that is not fenced (09 R188, R193). -/
def State.takeControl (s : State) (p : Port) (g : Granule) (b : ControlBlock) : State :=
  if (s.portState p).isMember then s.controlJudged p g b else s.controlBounce p g .notMember

/-! ### Arrival -/

/-- One frame through intake (09 R187, R188). A frame from a port in FENCING or FENCED is discarded silently. -/
def State.takeFrame (p : Port) (s : State) (f : Frame) : State :=
  if (s.portState p).isFenced then s
  else
    match f with
    | .request tag g r => s.takeRequest p tag g r
    | .yield tag g recallId o => s.takeYield p tag g recallId o
    | .join g => s.joinFrame p g
    | .leave g => s.leaveFrame p g
    | .control g b => s.takeControl p g b
    | .malformed => s.protocolError p

/-- A frame arrives on a port's link: nothing arrives on a link that is DOWN, and a frame waits in the link layer while
the outbound frame queue holds 32 frames or more (09 R178, R179). -/
def State.arrive (p : Port) (f : Frame) (s : State) : State :=
  let i := s.ifaces.get p
  if !i.linkUp then s
  else if i.outq.length < Config.intakeLimit ∧ i.waiting = [] then s.takeFrame p f
  else s.setIface p { i with waiting := i.waiting ++ [f] }

/-- Intake resumes with the frames that waited, as long as the outbound frame queue holds fewer than 32 (09 R179). They
are taken in the change of the sending that lets intake resume (log 30, the model's choice). -/
def State.resumeIntake (p : Port) : List Frame → State → State
  | [], s => s
  | f :: fs, s =>
    if (s.ifaces.get p).outq.length < Config.intakeLimit then State.resumeIntake p fs (s.takeFrame p f)
    else s.setIface p { s.ifaces.get p with waiting := f :: fs }

/-! ### The link -/

/-- LINK_UP (09 R178). -/
def State.linkUp (p : Port) (s : State) : State := s.setIface p { s.ifaces.get p with linkUp := true }

/-- How many of the waiting frames the lost link still delivers (log 11). -/
def State.lateFrames (s : State) (p : Port) : Nat :=
  Config.framesTakenAtLinkLost s.freeDraws % ((s.ifaces.get p).waiting.length + 1)

/-- LINK_LOST at the interface (09 R178, R179; log 11). A link that is DOWN cannot be lost (log 3). -/
def State.linkLost (p : Port) (s : State) : State :=
  let i := s.ifaces.get p
  if !i.linkUp then s
  else
    let late := i.waiting.take (s.lateFrames p)
    let s := s.setIface p { i with linkUp := false, outq := [], waiting := [] }
    let s : State :=
      { s with
        freeDraws := s.freeDraws + 1
        ctl := { s.ctl with linkLost := s.ctl.linkLost.set p (s.ctl.linkLost.get p + 1) } }
    late.foldl (State.takeFrame p) s

/-- The head of the outbound frame queue is taken for sending, and intake resumes (09 R179). -/
def State.frameSent (p : Port) (s : State) : State :=
  let i := s.ifaces.get p
  match i.outq with
  | [] => s
  | _ :: rest => State.resumeIntake p i.waiting (s.setIface p { i with outq := rest, waiting := [] })

/-! ### Commands -/

/-- LINK_UP (09 R178). -/
def execLinkUp (p : Port) (s : State) : Host.Outcome State Fault Refusal := change (State.linkUp p) s

/-- LINK_LOST (09 R178). -/
def execLinkLost (p : Port) (s : State) : Host.Outcome State Fault Refusal := change (State.linkLost p) s

/-- FRAME_SENT (09 R179). -/
def execFrameSent (p : Port) (s : State) : Host.Outcome State Fault Refusal := change (State.frameSent p) s

/-- READ_SHARE (04 R66). -/
def execReadShare (p : Port) (tag : Tag) (g : Granule) (s : State) : Host.Outcome State Fault Refusal :=
  change (State.arrive p (.request tag g .readShare)) s

/-- READ_OWN (04 R69). -/
def execReadOwn (p : Port) (tag : Tag) (g : Granule) (s : State) : Host.Outcome State Fault Refusal :=
  change (State.arrive p (.request tag g .readOwn)) s

/-- PROMOTE (04 R71). -/
def execPromote (p : Port) (tag : Tag) (g : Granule) (s : State) : Host.Outcome State Fault Refusal :=
  change (State.arrive p (.request tag g .promote)) s

/-- PEEK (04 R75). -/
def execPeek (p : Port) (tag : Tag) (g : Granule) (s : State) : Host.Outcome State Fault Refusal :=
  change (State.arrive p (.request tag g .peek)) s

/-- POKE (04 R77). -/
def execPoke (p : Port) (tag : Tag) (g : Granule) (data : GranuleData) (mask : Mask) (s : State) :
    Host.Outcome State Fault Refusal :=
  change (State.arrive p (.request tag g (.poke data mask))) s

/-- ATOMIC (04 R82). -/
def execAtomic (p : Port) (tag : Tag) (g : Granule) (block : AtomicBlock) (s : State) :
    Host.Outcome State Fault Refusal :=
  change (State.arrive p (.request tag g (.atomic block))) s

/-- RETURN_DIRTY (04 R85). -/
def execReturnDirty (p : Port) (tag : Tag) (g : Granule) (data : GranuleData) (s : State) :
    Host.Outcome State Fault Refusal :=
  change (State.arrive p (.request tag g (.returnDirty data))) s

/-- RELEASE (04 R86). -/
def execRelease (p : Port) (tag : Tag) (g : Granule) (s : State) : Host.Outcome State Fault Refusal :=
  change (State.arrive p (.request tag g .release)) s

/-- YIELD (05 R95). -/
def execYield (p : Port) (tag : Tag) (g : Granule) (recallId : Byte) (o : YieldOutcome) (s : State) :
    Host.Outcome State Fault Refusal :=
  change (State.arrive p (.yield tag g recallId o)) s

/-- JOIN (07 R135). -/
def execJoin (p : Port) (g : Granule) (s : State) : Host.Outcome State Fault Refusal :=
  change (State.arrive p (.join g)) s

/-- LEAVE (07 R138). -/
def execLeave (p : Port) (g : Granule) (s : State) : Host.Outcome State Fault Refusal :=
  change (State.arrive p (.leave g)) s

/-- CONTROL (09 R193). -/
def execControl (p : Port) (g : Granule) (block : ControlBlock) (s : State) : Host.Outcome State Fault Refusal :=
  change (State.arrive p (.control g block)) s

/-- MALFORMED_FRAME: a frame given by its bytes (09 R187). -/
def execMalformedFrame (p : Port) (bytes : List Byte) (s : State) : Host.Outcome State Fault Refusal :=
  change (State.arrive p (Frame.ofBytes bytes)) s

end Sys2Proof.Machine
end

