-- ==== Sys2Proof/Machine/ServicePort.lean ====
section
/-! DEFINITION. The service port (chapter 10): registers, membership and window commands, HUB_CLEAR and the service
slot. -/

namespace Sys2Proof.Machine

/-! ### Registers -/

/-- REG_READ: the value, or zeros in its place when the offset is not in the table (10 R198, R203). -/
def State.serviceRead (offset : BitVec 16) (s : State) : State :=
  match Reg.ofOffset offset with
  | none => s.respond (some .badArgument) (List.replicate 8 0)
  | some r => s.respond none (beBytes 8 (readRegister s r).toNat)

/-- A write to a register, answered (10 R203). -/
def State.serviceWrite (r : Reg) (v : Word) (s : State) : State :=
  match s.writeRegister .service r v with
  | .error reason => s.respond (some reason) []
  | .ok s' => s'.respond none []

/-- REG_WRITE by offset (10 R203). -/
def State.serviceWriteAt (offset : BitVec 16) (v : Word) (s : State) : State :=
  match Reg.ofOffset offset with
  | none => s.respond (some .badArgument) []
  | some r => s.serviceWrite r v

/-! ### Membership and window commands -/

/-- A membership command from the service port (10 R205). -/
def State.serviceMember (c : MemberCommand) (port : Byte) (s : State) : State :=
  match s.judgeMember c port with
  | .error reason => s.respond (some reason) []
  | .ok p => (s.applyMember c p).respond none []

/-- SET_WINDOW from the service port (06 R119, R120, 10 R205). -/
def State.serviceWindow (index valid : Byte) (base limit : Granule) (rights : Byte) (s : State) : State :=
  match s.judgeWindow index base limit with
  | none => s.respond (some .badArgument) []
  | some k => ((s.replaceWindow k (windowOf valid base limit rights)).announceWindow k).respond none []

/-! ### The service slot -/

/-- The result record is PENDING (10 R206). -/
def SlotResult.isPending : SlotResult → Bool
  | .pending _ _ => true
  | .idle => false
  | .done _ _ _ _ => false
  | .badAddress _ _ => false

/-- The memory commands as transaction kinds, and their record kinds. -/
def TxnKind.memCommand : TxnKind → MemCommand
  | .memPoke _ _ => .poke
  | .memPeek => .peek
  | .member _ => .peek
  | .sweepDepart _ => .peek
  | .sweepRecheck => .peek
  | .sweepWithdrawn => .peek

/-- Slot 49 placed: at the tail of its granule's chain, or outside any chain while an evicting lock stands and the
granule has no chain (10 R208, 03 R61; log 14). -/
def State.placeService (s : State) (k : TxnKind) (g : Granule) : State :=
  if s.chain g = [] ∧ s.evictingEntry g then s.setTxn serviceSlot (some (newTxn k g)) else s.place serviceSlot k g

/-- MEM_PEEK and MEM_POKE (10 R207). -/
def State.memoryCommand (k : TxnKind) (g : Granule) (s : State) : State :=
  if s.svc.hubState = .initializing ∨ s.svc.result.isPending then s.respond (some .busy) []
  else if s.mem.granuleCount ≤ g.toNat then
    (s.setResult (.badAddress k.memCommand g)).respond (some .badAddress) []
  else ((s.setResult (.pending k.memCommand g)).placeService k g).respond none []

/-- The kind bit of SLOT_STATUS (10 R209). -/
def MemCommand.bit : MemCommand → Nat
  | .peek => 0
  | .poke => 2

/-- The 69 response bytes of SLOT_STATUS (10 R209). -/
def SlotResult.bytes : SlotResult → List Byte
  | .idle => List.replicate 69 0
  | .pending c g => [1, BitVec.ofNat 8 c.bit] ++ beBytes 3 g.toNat ++ List.replicate 64 0
  | .done c g data poison =>
    [2, BitVec.ofNat 8 (c.bit + if poison then 1 else 0)] ++ beBytes 3 g.toNat
      ++ (data.map dataBytes).getD (List.replicate 64 0)
  | .badAddress c g => [3, BitVec.ofNat 8 c.bit] ++ beBytes 3 g.toNat ++ List.replicate 64 0

/-- What SLOT_STATUS leaves of the record: DONE and BAD_ADDRESS become IDLE (10 R209). -/
def SlotResult.afterRead : SlotResult → SlotResult
  | .pending c g => .pending c g
  | .idle => .idle
  | .done _ _ _ _ => .idle
  | .badAddress _ _ => .idle

/-- SLOT_STATUS (10 R209). -/
def State.readSlot (s : State) : State := (s.setResult s.svc.result.afterRead).respond none s.svc.result.bytes

/-! ### HUB_CLEAR -/

/-- HUB_CLEAR (10 R211, R212). -/
def State.hubClear (s : State) : State :=
  if s.svc.hubState = .initializing ∨ s.svc.hubState = .clearing ∨ s.svc.result.isPending then
    s.respond (some .busy) []
  else (({ s with svc := { s.svc with hubState := .clearing } } : State).clearMembers).respond none []

/-! ### Commands -/

/-- REG_READ (10 R203). -/
def execRegRead (offset : BitVec 16) (s : State) : Host.Outcome State Fault Refusal :=
  transfer (State.serviceRead offset) s

/-- REG_WRITE (10 R203). -/
def execRegWrite (offset : BitVec 16) (v : Word) (s : State) : Host.Outcome State Fault Refusal :=
  transfer (State.serviceWriteAt offset v) s

/-- EVENT_STATUS_WRITE (10 R213). -/
def execEventStatusWrite (v : Word) (s : State) : Host.Outcome State Fault Refusal :=
  transfer (State.serviceWrite .eventStatus v) s

/-- EVENT_ENABLE_WRITE (10 R214). -/
def execEventEnableWrite (v : Word) (s : State) : Host.Outcome State Fault Refusal :=
  transfer (State.serviceWrite .eventEnable v) s

/-- PORT_CONTROL_WRITE (07 R152). -/
def execPortControlWrite (p : Port) (v : Word) (s : State) : Host.Outcome State Fault Refusal :=
  transfer (State.serviceWrite (.portControl p) v) s

/-- ADMIT_MODE_WRITE (07 R133). -/
def execAdmitModeWrite (v : Word) (s : State) : Host.Outcome State Fault Refusal :=
  transfer (State.serviceWrite .admitMode v) s

/-- RECALL_LIMIT_WRITE (05 R103). -/
def execRecallLimitWrite (v : Word) (s : State) : Host.Outcome State Fault Refusal :=
  transfer (State.serviceWrite .recallLimit v) s

/-- DEPART_LIMIT_WRITE (07 R140). -/
def execDepartLimitWrite (v : Word) (s : State) : Host.Outcome State Fault Refusal :=
  transfer (State.serviceWrite .departLimit v) s

/-- CORRECTED_WRITE (01 R9). -/
def execCorrectedWrite (v : Word) (s : State) : Host.Outcome State Fault Refusal :=
  transfer (State.serviceWrite .corrected v) s

/-- UNCORRECTED_WRITE (01 R9). -/
def execUncorrectedWrite (v : Word) (s : State) : Host.Outcome State Fault Refusal :=
  transfer (State.serviceWrite .uncorrected v) s

/-- FIRST_FAULT_WRITE (01 R10). -/
def execFirstFaultWrite (v : Word) (s : State) : Host.Outcome State Fault Refusal :=
  transfer (State.serviceWrite .firstFault v) s

/-- PROTO_ERRORS_WRITE (09 R191). -/
def execProtoErrorsWrite (p : Port) (v : Word) (s : State) : Host.Outcome State Fault Refusal :=
  transfer (State.serviceWrite (.protoErrors p) v) s

/-- ADMIT (07 R149). -/
def execAdmitPort (port : Byte) (s : State) : Host.Outcome State Fault Refusal :=
  transfer (State.serviceMember .admission port) s

/-- EJECT (07 R149). -/
def execEjectPort (port : Byte) (s : State) : Host.Outcome State Fault Refusal :=
  transfer (State.serviceMember .eject port) s

/-- FENCE (07 R149). -/
def execFencePort (port : Byte) (s : State) : Host.Outcome State Fault Refusal :=
  transfer (State.serviceMember .fence port) s

/-- RELEASE_CMD (07 R148). -/
def execReleasePort (port : Byte) (s : State) : Host.Outcome State Fault Refusal :=
  transfer (State.serviceMember .release port) s

/-- HOLD_ON (07 R150). -/
def execHoldOn (port : Byte) (s : State) : Host.Outcome State Fault Refusal :=
  transfer (State.serviceMember .holdOn port) s

/-- HOLD_OFF (07 R151). -/
def execHoldOff (port : Byte) (s : State) : Host.Outcome State Fault Refusal :=
  transfer (State.serviceMember .holdOff port) s

/-- SET_WINDOW (06 R120). -/
def execSetWindow (index valid : Byte) (base limit : Granule) (rights : Byte) (s : State) :
    Host.Outcome State Fault Refusal :=
  transfer (State.serviceWindow index valid base limit rights) s

/-- HUB_CLEAR (10 R212). -/
def execHubClear (s : State) : Host.Outcome State Fault Refusal := transfer State.hubClear s

/-- MEM_PEEK (10 R207). -/
def execMemPeek (g : Granule) (s : State) : Host.Outcome State Fault Refusal :=
  transfer (State.memoryCommand .memPeek g) s

/-- MEM_POKE (10 R207). -/
def execMemPoke (g : Granule) (data : GranuleData) (mask : Mask) (s : State) : Host.Outcome State Fault Refusal :=
  transfer (State.memoryCommand (.memPoke data mask) g) s

/-- SLOT_STATUS (10 R209). -/
def execSlotStatus (s : State) : Host.Outcome State Fault Refusal := transfer State.readSlot s

/-- INCOMPLETE_SELECTION: the bytes are discarded and no owner is reached (10 R197). -/
def execIncompleteSelection (_bytes : List Byte) (s : State) : Host.Outcome State Fault Refusal := transfer id s

/-- UNKNOWN_SERVICE_COMMAND (10 R197). -/
def execUnknownServiceCommand (_code : Byte) (s : State) : Host.Outcome State Fault Refusal :=
  transfer (fun s => s.respond (some .badArgument) []) s

end Sys2Proof.Machine
end

