-- ==== Sys2Proof/Machine/Dispatch.lean ====
section
/-! DEFINITION. The meaning of every command: one arm per constructor of Instr. -/

namespace Sys2Proof.Machine

/-- The effect of a command on everything but the queue of commands. -/
def exec (i : Instr) (s : State) : Host.Outcome State Fault Refusal :=
  match i with
  | .hubReset => Sys2Proof.Machine.execHubReset s
  | .hubResetEnd lines => Sys2Proof.Machine.execHubResetEnd lines s
  | .presenceEvent p asserted => Sys2Proof.Machine.execPresenceEvent p asserted s
  | .latchEvent p closed => Sys2Proof.Machine.execLatchEvent p closed s
  | .linkUp p => Sys2Proof.Machine.execLinkUp p s
  | .linkLost p => Sys2Proof.Machine.execLinkLost p s
  | .linkLostAtController p => Sys2Proof.Machine.execLinkLostAtController p s
  | .frameSent p => Sys2Proof.Machine.execFrameSent p s
  | .readShare p tag g => Sys2Proof.Machine.execReadShare p tag g s
  | .readOwn p tag g => Sys2Proof.Machine.execReadOwn p tag g s
  | .promote p tag g => Sys2Proof.Machine.execPromote p tag g s
  | .peek p tag g => Sys2Proof.Machine.execPeek p tag g s
  | .poke p tag g data mask => Sys2Proof.Machine.execPoke p tag g data mask s
  | .atomic p tag g block => Sys2Proof.Machine.execAtomic p tag g block s
  | .returnDirty p tag g data => Sys2Proof.Machine.execReturnDirty p tag g data s
  | .release p tag g => Sys2Proof.Machine.execRelease p tag g s
  | .yield p tag g recallId outcome => Sys2Proof.Machine.execYield p tag g recallId outcome s
  | .join p g => Sys2Proof.Machine.execJoin p g s
  | .leave p g => Sys2Proof.Machine.execLeave p g s
  | .control p g block => Sys2Proof.Machine.execControl p g block s
  | .malformedFrame p bytes => Sys2Proof.Machine.execMalformedFrame p bytes s
  | .readComplete => Sys2Proof.Machine.execReadComplete s
  | .writeFullComplete => Sys2Proof.Machine.execWriteFullComplete s
  | .writePartialComplete => Sys2Proof.Machine.execWritePartialComplete s
  | .atomicRmwComplete => Sys2Proof.Machine.execAtomicRmwComplete s
  | .poisonSetComplete => Sys2Proof.Machine.execPoisonSetComplete s
  | .initComplete => Sys2Proof.Machine.execInitComplete s
  | .recallDeadlineExpiry slot => Sys2Proof.Machine.execRecallDeadlineExpiry slot s
  | .fenceRequest p => Sys2Proof.Machine.execFenceRequest p s
  | .departureDeadlineExpiry p => Sys2Proof.Machine.execDepartureDeadlineExpiry p s
  | .walkVisit => Sys2Proof.Machine.execWalkVisit s
  | .sweepReport => Sys2Proof.Machine.execSweepReport s
  | .clearReport => Sys2Proof.Machine.execClearReport s
  | .regRead offset => Sys2Proof.Machine.execRegRead offset s
  | .regWrite offset value => Sys2Proof.Machine.execRegWrite offset value s
  | .eventStatusWrite value => Sys2Proof.Machine.execEventStatusWrite value s
  | .eventEnableWrite value => Sys2Proof.Machine.execEventEnableWrite value s
  | .portControlWrite p value => Sys2Proof.Machine.execPortControlWrite p value s
  | .admitModeWrite value => Sys2Proof.Machine.execAdmitModeWrite value s
  | .recallLimitWrite value => Sys2Proof.Machine.execRecallLimitWrite value s
  | .departLimitWrite value => Sys2Proof.Machine.execDepartLimitWrite value s
  | .correctedWrite value => Sys2Proof.Machine.execCorrectedWrite value s
  | .uncorrectedWrite value => Sys2Proof.Machine.execUncorrectedWrite value s
  | .firstFaultWrite value => Sys2Proof.Machine.execFirstFaultWrite value s
  | .protoErrorsWrite p value => Sys2Proof.Machine.execProtoErrorsWrite p value s
  | .admitPort port => Sys2Proof.Machine.execAdmitPort port s
  | .ejectPort port => Sys2Proof.Machine.execEjectPort port s
  | .fencePort port => Sys2Proof.Machine.execFencePort port s
  | .releasePort port => Sys2Proof.Machine.execReleasePort port s
  | .holdOn port => Sys2Proof.Machine.execHoldOn port s
  | .holdOff port => Sys2Proof.Machine.execHoldOff port s
  | .setWindow index valid base limit rights => Sys2Proof.Machine.execSetWindow index valid base limit rights s
  | .hubClear => Sys2Proof.Machine.execHubClear s
  | .memPeek g => Sys2Proof.Machine.execMemPeek g s
  | .memPoke g data mask => Sys2Proof.Machine.execMemPoke g data mask s
  | .slotStatus => Sys2Proof.Machine.execSlotStatus s
  | .dramBitsInError g word bits => Sys2Proof.Machine.execDramBitsInError g word bits s
  | .incompleteSelection bytes => Sys2Proof.Machine.execIncompleteSelection bytes s
  | .unknownServiceCommand code => Sys2Proof.Machine.execUnknownServiceCommand code s

end Sys2Proof.Machine
end

