-- ==== Sys2Proof/Machine/Step.lean ====
section
/-! DEFINITION. One step: the command at the front of the queue, or a tick of the time base. -/

namespace Sys2Proof.Machine

/-- The recall deadlines that have been reached at time `t` (05 R104, R105). -/
def State.dueRecalls (s : State) (t : Nat) : List Instr :=
  (allSlots.filter fun i => (s.txn i).any fun x => x.deadline.any fun d => d ≤ t).map Instr.recallDeadlineExpiry

/-- The departure deadlines that have been reached at time `t` (07 R139, R142). -/
def State.dueDepartures (s : State) (t : Nat) : List Instr :=
  (Port.all.filter fun p => (s.ctl.ports.get p).deadline.any fun d => d ≤ t).map Instr.departureDeadlineExpiry

/-- What happens while no command waits: the 1 µs time base advances by one, and the expiries of the deadlines reached
by then are queued, in an order that the manual leaves open (log 2, DESIGN CHOICE). -/
def State.tick (s : State) : State :=
  let due := s.dueRecalls (s.now + 1) ++ s.dueDepartures (s.now + 1)
  { s with
    now := s.now + 1
    pending := Config.freeOrder due.length s.freeDraws due
    freeDraws := s.freeDraws + due.length }

/-- One step: the front command of the queue is taken and executed; with an empty queue the time base ticks (log 2). -/
def step (s : State) : Host.Outcome State Fault Refusal :=
  match s.pending with
  | [] => .next s.tick
  | c :: rest => exec c { s with pending := rest }

/-- `s` with the command that a word of the table's bits spells at the front of its queue; no row has bits, so every
word leaves `s` as it is. -/
def State.withFetchWord (s : State) (nbits w : Nat) : State :=
  match decodeTableWord nbits w with
  | none => s
  | some c => { s with pending := c :: s.pending }

end Sys2Proof.Machine
end

