-- ==== Sys2Proof/Safety.lean ====
section
/-! DEFINITION. The laws of the part that every command keeps, and the conditions under which a port's frames and the
service port's transfers are taken. -/

namespace Sys2Proof.Machine

/-! ### Laws -/

/-- Every sparse table is in its one canonical form. -/
def State.tablesCanonical (s : State) : Prop :=
  Memory.wf s.mem.dram ∧ Sparse.wf 0 s.mem.bitErrors ∧ Sparse.wf false s.mem.poison ∧ Sparse.wf [] s.table.chains
    ∧ Sparse.wf DirSet.empty s.dir

/-- The memory queue holds at most 16 operations, and offers wait only while it is full (01 R3, R4). -/
def MemController.lawful (m : MemController) : Prop :=
  m.queue.length ≤ Config.memoryQueueCapacity ∧ (m.waiting ≠ [] → m.queue.length = Config.memoryQueueCapacity)

/-- An entry in OWNER mode has at most one holder, and an entry without holder carries a lock (02 R21, R22, R39). -/
def Entry.lawful (e : Entry) : Prop :=
  (e.mode = .owner → (members e.holders).length ≤ 1) ∧ (e.lock = .none → noMember e.holders = false)

/-- A set holds entries of its own granules, each granule in at most one way, and its allocation order lists its valid
ways, each once (02 R20, R23). -/
structure DirSet.Lawful (d : DirSet) (k : Nat) : Prop where
  place : ∀ w e, d.ways.get w = some e → setOf e.granule = k ∧ e.lawful
  once : ∀ v w e f, d.ways.get v = some e → d.ways.get w = some f → e.granule = f.granule → v = w
  nodup : d.order.Nodup
  listed : ∀ w, w ∈ d.order ↔ (d.ways.get w).isSome

/-- Every set of the directory is lawful. -/
def State.directoryLawful (s : State) : Prop := Sparse.wf DirSet.empty s.dir ∧ ∀ k, (s.dirSet k).Lawful k

/-- A state of a port that has a card in it: every one but EMPTY, and FENCING, which outlasts its card (07 R130,
R147, R148). -/
def PortState.seated : PortState → Bool
  | .parked => true
  | .held => true
  | .joinable => true
  | .active => true
  | .departing => true
  | .fenced => true
  | .empty => false
  | .fencing => false

/-- A port record that shows a card in its state has its present field yes (07 R130, R148), and one that is a member or
may join has its hold flag clear (07 R130, R132). -/
def PortRec.lawful (r : PortRec) : Prop :=
  (r.state.seated = true → r.present = true) ∧ (r.state.isMember = true ∨ r.state = .joinable → r.holdFlag = false)

/-- The laws of the port records, the two of R130 among them: no port is a member while its HOLD line is asserted. -/
def State.portsLawful (s : State) : Prop :=
  ∀ p, (s.ctl.ports.get p).lawful ∧ ((s.portState p).isMember = true → s.holdLine p = false)

/-- RECALL_LIMIT is 10 or more (05 R103). -/
def State.recallLimitLawful (s : State) : Prop := 10 ≤ s.table.recallLimit.toNat

/-- A slot record names installed granules only. -/
def Txn.installed (n : Nat) (t : Txn) : Prop := t.granule.toNat < n ∧ ∀ v, t.victim = some v → v.toNat < n

/-- While hub reset is taken, the part stands at its reset state (01 R16). -/
def State.resetLawful (s : State) : Prop := s.inReset = true → s.enterReset = s

/-- Every granule that an operation, a slot record or a directory entry names is installed (01 R1); nothing names one while
hub reset is taken, whose end samples the granule count anew. -/
def State.granulesInstalled (s : State) : Prop :=
  s.resetLawful ∧ Sparse.wf DirSet.empty s.dir ∧ s.mem.nextInit ≤ s.mem.granuleCount ∧ s.mem.granuleCount ≤ 2 ^ 23
    ∧ (∀ op ∈ s.mem.queue ++ s.mem.waiting, op.granule.toNat < s.mem.granuleCount)
    ∧ (∀ i t, s.txn i = some t → t.installed s.mem.granuleCount)
    ∧ ∀ k w e, (s.dirSet k).ways.get w = some e → e.granule.toNat < s.mem.granuleCount

/-! ### Laws of the transaction table and the sweep queue -/

/-- The phases of a granule-active transaction (03 R45). -/
def Phase.active : Phase → Bool
  | .evicting => true
  | .recalling => true
  | .memory => true
  | .waiting => false
  | .bypass => false
  | .draining => false

/-- The lock of the granule's entry, if the granule has one (02 R21). -/
def State.lockOf (s : State) (g : Granule) : Option Lock := (s.entry g).map Entry.lock

/-- The slot's kind is one of its origin: requests in the member slots, walk actions in the sweep slot, memory commands in
the service slot; only a member slot is in BYPASS or DRAINING, only a slot in EVICTING has a victim, and RETURN_DIRTY and
RELEASE join no chain (03 R41, R43). -/
def Txn.seatedIn (x : Txn) (i : SlotId) : Prop :=
  (x.phase = .bypass ∨ x.phase = .draining → i.val < 48) ∧ (x.phase ≠ .evicting → x.victim = none)
    ∧ match x.kind with
      | .member r => i.val < 48 ∧ (x.phase = .waiting ∨ x.phase.active = true → r.bypass = false)
      | .sweepDepart _ => i = sweepSlot
      | .sweepRecheck => i = sweepSlot
      | .sweepWithdrawn => i = sweepSlot
      | .memPeek => i = serviceSlot
      | .memPoke _ _ => i = serviceSlot

/-- The memory command of a transaction of the service slot, as the result record names it while it is under way (10
R206). -/
def Txn.underWay (x : Txn) : SlotResult :=
  match x.kind with
  | .memPoke _ _ => .pending .poke x.granule
  | _ => .pending .peek x.granule

/-- The laws of slots, chains, locks and the result record. `between` names the granules whose chain has lost its old head
and whose next one is not yet active: none between two commands. -/
structure TableLaw (between : Granule → Prop) (slot : SlotId → Option Txn) (chain : Granule → List SlotId)
    (lock : Granule → Option Lock) (result : SlotResult) : Prop where
  /-- A slot stands at most once in a chain, and only in the chain of its own granule (03 R45). -/
  nodup : ∀ g, (chain g).Nodup
  inChain : ∀ g i, i ∈ chain g → ∃ x, slot i = some x ∧ x.granule = g ∧ (x.phase.active = true ∨ x.phase = .waiting)
  /-- The head of a chain is granule-active, and the slots behind it are WAITING (03 R45). -/
  head : ∀ g i rest, chain g = i :: rest →
    (¬between g → ∃ x, slot i = some x ∧ x.phase.active = true)
      ∧ ∀ j ∈ rest, ∃ x, slot j = some x ∧ x.phase = .waiting
  /-- Every active and every WAITING transaction stands in its chain, but for a service slot that an evicting lock holds
  back (03 R45, R61). -/
  placed : ∀ i x, slot i = some x → x.phase.active = true ∨ x.phase = .waiting ∧ i ≠ serviceSlot → i ∈ chain x.granule
  seated : ∀ i x, slot i = some x → x.seatedIn i
  /-- A busy lock is held by a granule-active transaction of its granule, and each of them holds the busy lock of its
  granule's entry, if there is one (02 R25). -/
  busy : ∀ g i, lock g = some (.busy i) →
    ∃ x, slot i = some x ∧ x.granule = g ∧ (x.phase = .recalling ∨ x.phase = .memory)
  locked : ∀ i x l, slot i = some x → x.phase = .recalling ∨ x.phase = .memory → lock x.granule = some l → l = .busy i
  /-- An evicting lock is held by the transaction in EVICTING whose victim the entry is; that one's own granule has no
  entry yet, and lies in the victim's set (02 R29, R30). -/
  evicting : ∀ g i, lock g = some (.evicting i) → ∃ x, slot i = some x ∧ x.phase = .evicting ∧ x.victim = some g
  evicts : ∀ i x, slot i = some x → x.phase = .evicting →
    lock x.granule = none ∧ x.kind.allocates = true
      ∧ ∃ v, x.victim = some v ∧ setOf v = setOf x.granule ∧ lock v = some (.evicting i)
  /-- The result record is PENDING exactly while the service slot is not FREE (10 R206). -/
  result : (∀ x, slot serviceSlot = some x → result = x.underWay)
    ∧ (slot serviceSlot = none → ∀ c g, result ≠ .pending c g)
  /-- Between two heads every slot of the chain is WAITING, and the granule's entry is not locked (03 R47, 02 R27). -/
  opened : ∀ g, between g →
    (∀ i ∈ chain g, ∃ x, slot i = some x ∧ x.phase = .waiting) ∧ ∀ l, lock g = some l → l = .none

/-- The laws of the transaction table, with those of the directory that they rest on. -/
structure State.transactionsLawful (s : State) : Prop where
  canonical : s.tablesCanonical
  directory : s.directoryLawful
  table : TableLaw (fun _ => False) s.txn s.chain s.lockOf s.svc.result
  /-- Only a transaction in EVICTING or RECALLING awaits yields (05 R90, R93). -/
  awaiting : ∀ i x, s.txn i = some x → x.phase ≠ .evicting → x.phase ≠ .recalling → x.awaited = .const none

/-- The job is a member job of the port (08 R157). -/
def Job.concerns (p : Port) (j : Job) : Bool := j == .depart p || j == .fence p

/-- The report is one of a member job of the port (08 R171). -/
def Report.concerns (p : Port) (r : Report) : Bool := r == .depart p || r == .fence p

/-- The reports on their way, and behind them those of the jobs in the queue, in the order in which they will be taken
(08 R170, R171). -/
def Sweep.line (w : Sweep) : List Report := w.reports ++ w.jobs.flatMap Job.report

/-- The bounds of the sweep queue: at most one member job for each port, at most one RECHECK that waits, at most one CLEAR,
which is never there together with a member job, and at most six jobs (08 R157). -/
def Sweep.queueLawful (w : Sweep) : Prop :=
  (∀ p, w.jobs.countP (Job.concerns p) ≤ 1) ∧ w.jobs.tail.count .recheck ≤ 1 ∧ w.jobs.count .clear ≤ 1
    ∧ (.clear ∈ w.jobs → ∀ p, w.jobs.countP (Job.concerns p) = 0) ∧ w.jobs.length ≤ 6

/-- What a port's state says of the reports of its member jobs that are still to be taken: none outside DEPARTING and
FENCING and once its sweep is finished; a DEPART report in DEPARTING; in FENCING a FENCE report, behind a DEPART report
that came too late, or neither while a CLEAR report is to come (08 R171, R175). -/
def PortRec.awaits (r : PortRec) (p : Port) (clearing : Prop) (l : List Report) : Prop :=
  if r.state = .departing ∧ r.sweepFinished = false then l = [.depart p]
  else if r.state = .fencing ∧ r.sweepFinished = false then
    l = [.fence p] ∨ l = [.depart p, .fence p] ∨ clearing ∧ (l = [] ∨ l = [.depart p])
  else l = []

/-- The granules of the initializer's operations in the memory queue and the pending list, in their order (01 R17). -/
def MemController.inits (m : MemController) : List Nat :=
  ((m.queue ++ m.waiting).filter fun op => op.origin == .initializer).map fun op => op.granule.toNat

/-- The laws of the sweep queue while the hub is in the state `hub`, with what they rest on: the reports that each port
still awaits, no member while the hub is clearing, and initialization before everything else. -/
structure State.SweepLaw (s : State) (hub : HubState) : Prop where
  jobs : ∀ p, s.sweep.jobs.countP (Job.concerns p) ≤ 1
  rechecks : s.sweep.jobs.tail.count .recheck ≤ 1
  port : ∀ p, (s.ctl.ports.get p).awaits p (.clear ∈ s.sweep.line) (s.sweep.line.filter (Report.concerns p))
  /-- While the hub is clearing, the CLEAR report is the last, no port is a member and no member job is queued. -/
  clearing : hub = .clearing →
    (∃ a, s.sweep.line = a ++ [.clear] ∧ .clear ∉ a) ∧ (∀ p, (s.portState p).isMember = false)
      ∧ ∀ p, s.sweep.jobs.countP (Job.concerns p) = 0
  noClear : hub ≠ .clearing → .clear ∉ s.sweep.line
  /-- The initializer offers its granules in ascending order, and only while the hub initializes. -/
  initializing : s.mem.inits ≠ [] → hub = .initializing
  ascending : s.mem.inits.Pairwise (· < ·) ∧ (∀ n ∈ s.mem.inits, n < s.mem.nextInit)
    ∧ s.mem.nextInit ≤ s.mem.granuleCount ∧ s.mem.granuleCount ≤ 2 ^ 23
  reset : s.resetLawful

/-- The laws of the sweep queue (08 R157). -/
def State.sweepLawful (s : State) : Prop := s.SweepLaw s.svc.hubState

/-! ### Conditions -/

/-- The service port takes the next transfer: no hub reset, and no selection that was open when it ended (10 R200). -/
def State.serves (s : State) : Prop := s.inReset = false ∧ s.svc.staleSelection = false

/-- Intake takes the next frame of the port: no hub reset, the link UP, fewer than 32 frames queued, none waiting (09
R178, R179). -/
def State.receives (s : State) (p : Port) : Prop :=
  s.inReset = false ∧ (s.ifaces.get p).linkUp = true ∧ (s.ifaces.get p).outq.length < Config.intakeLimit
    ∧ (s.ifaces.get p).waiting = []

/-- No port waits to leave DEPARTING or FENCING: the tests of R141 and R147 have been made (07 R141, R147). -/
def State.settled (s : State) : Prop := ∀ p, s.mayLeave p = false

/-- Intake admits a request of port `p` and places it in slot `i`: it passes steps 0 to 7 (09 R187 to R190). -/
structure State.Admits (s : State) (p : Port) (tag : Tag) (g : Granule) (r : Request) (i : SlotId) : Prop where
  receives : s.receives p
  member : s.portState p = .active ∨ (s.portState p = .departing ∧ r.bypass = true)
  running : s.svc.hubState = .running
  credit : tag.toNat < 12
  slot : i.val = 12 * p.number + tag.toNat
  free : s.txn i = none
  installed : g.toNat < s.mem.granuleCount
  right : r.bypass = true ∨ ((s.right p g).covers r.need = true ∧ s.evictingEntry g = false)

/-! ### Commands -/

/-- The command of a membership command with its port byte (10 R198). -/
def MemberCommand.instr : MemberCommand → Byte → Instr
  | .admission => .admitPort
  | .eject => .ejectPort
  | .fence => .fencePort
  | .release => .releasePort
  | .holdOn => .holdOn
  | .holdOff => .holdOff

/-- The command of a request frame (09 R181). -/
def Request.instr (p : Port) (tag : Tag) (g : Granule) : Request → Instr
  | .readShare => .readShare p tag g
  | .readOwn => .readOwn p tag g
  | .promote => .promote p tag g
  | .peek => .peek p tag g
  | .poke d m => .poke p tag g d m
  | .atomic b => .atomic p tag g b
  | .returnDirty d => .returnDirty p tag g d
  | .release => .release p tag g

/-- The command of a frame (09 R181); the empty frame stands for every malformed one. -/
def Frame.instr (p : Port) : Frame → Instr
  | .request tag g r => r.instr p tag g
  | .yield tag g recallId o => .yield p tag g recallId o
  | .join g => .join p g
  | .leave g => .leave p g
  | .control g b => .control p g b
  | .malformed => .malformedFrame p []

/-- The offset of a register (10 R201). -/
def Reg.offset : Reg → Nat
  | .hubState => 0x00
  | .epoch => 0x08
  | .memGranules => 0x10
  | .admitMode => 0x18
  | .recallLimit => 0x20
  | .departLimit => 0x28
  | .eventStatus => 0x30
  | .eventEnable => 0x38
  | .corrected => 0x40
  | .uncorrected => 0x48
  | .firstFault => 0x50
  | .sweepState => 0x58
  | .portStatus p => 0x60 + 8 * p.number
  | .portControl p => 0x80 + 8 * p.number
  | .protoErrors p => 0xA0 + 8 * p.number
  | .window k => 0xC0 + 8 * k.val

/-- The read-only registers (10 R203). -/
def Reg.readOnly : Reg → Bool
  | .hubState => true
  | .epoch => true
  | .memGranules => true
  | .sweepState => true
  | .portStatus _ => true
  | .window _ => true
  | .admitMode => false
  | .recallLimit => false
  | .departLimit => false
  | .eventStatus => false
  | .eventEnable => false
  | .corrected => false
  | .uncorrected => false
  | .firstFault => false
  | .portControl _ => false
  | .protoErrors _ => false

/-! ### States that a command leaves -/

/-- The state with another response on the service port (10 R197). -/
def State.responding (s : State) (r : List Byte) : State := { s with svc := { s.svc with response := r } }

/-- The state with a frame queued behind the others of a port (09 R179). -/
def State.queued (s : State) (p : Port) (f : HubFrame) : State :=
  { s with ifaces := s.ifaces.set p { s.ifaces.get p with outq := (s.ifaces.get p).outq ++ [f] } }

/-- The state with an event latched (10 R213). -/
def State.latched (s : State) (e : Event) : State :=
  { s with svc := { s.svc with eventStatus := s.svc.eventStatus ||| BitVec.ofNat 11 (2 ^ e.bit) } }

/-- The state with another record of a port (07 R126). -/
def State.withPort (s : State) (p : Port) (r : PortRec) : State :=
  { s with ctl := { s.ctl with ports := s.ctl.ports.set p r } }

/-- The state with a protocol error of a port counted and raised (09 R191). -/
def State.wronged (s : State) (p : Port) : State :=
  State.latched
    { s with
      ifaces :=
        s.ifaces.set p
          { s.ifaces.get p with
            protoErrors :=
              if (s.ifaces.get p).protoErrors = 255 then 255 else (s.ifaces.get p).protoErrors + 1 } }
    .protocol

/-- The memory controller with an operation offered: in the queue while it has a free place and no offer is pending, else
pending (01 R4). -/
def MemController.offered (m : MemController) (op : MemOp) : MemController :=
  if m.queue.length < 16 ∧ m.waiting = [] then { m with queue := m.queue ++ [op] }
  else { m with waiting := m.waiting ++ [op] }

/-- The state after the walk has passed its position: it stands at the next way, or at the next set, or its job has left
the queue and is reported, with SWEEP_IDLE where the queue is then empty (08 R161, R170, R172). -/
def State.passed (s : State) : State :=
  let walk := s.sweep.walk
  if walk.way.val < 7 then { s with sweep := { s.sweep with walk := ⟨walk.set, walk.way + 1, .none⟩ } }
  else if walk.set.val < 1023 then { s with sweep := { s.sweep with walk := ⟨walk.set + 1, 0, .none⟩ } }
  else
    match s.sweep.jobs with
    | [] => s
    | job :: jobs =>
      let report : List Report :=
        match job with
        | .depart p => [.depart p]
        | .fence p => [.fence p]
        | .recheck => []
        | .clear => [.clear]
      let ended : State := { s with sweep := ⟨jobs, .start, s.sweep.reports ++ report⟩ }
      if jobs = [] then ended.latched .sweepIdle else ended

/-- A slot record with nothing awaited, no victim, no deadline and no result (03 R43). -/
def Txn.plain (phase : Phase) (kind : TxnKind) (g : Granule) : Txn where
  phase := phase
  kind := kind
  granule := g
  victim := none
  awaited := .const none
  deadline := none
  poisonSeen := false
  result := .none

/-- From `s` to `t` slot `i` comes to hold `x`, and every other slot and RECALL_LIMIT stay. -/
def State.slotBecomes (s t : State) (i : SlotId) (x : Option Txn) : Prop :=
  (∀ j, t.txn j = if j = i then x else s.txn j) ∧ t.table.recallLimit = s.table.recallLimit

/-- From `s` to `t` the chain of `g` comes to be `c`, and every other chain stays. -/
def State.chainBecomes (s t : State) (g : Granule) (c : List SlotId) : Prop :=
  ∀ h, t.chain h = if h = g then c else s.chain h

/-- The granule's entry stands in way `w` of its set, and in no other way (02 R20). -/
def State.EntryAt (s : State) (g : Granule) (w : Fin 8) (e : Entry) : Prop :=
  (s.dirSet (setOf g)).ways.get w = some e ∧ e.granule = g
    ∧ ∀ v f, (s.dirSet (setOf g)).ways.get v = some f → f.granule = g → v = w

/-- The granule has no entry (02 R25). -/
def State.NoEntry (s : State) (g : Granule) : Prop :=
  ∀ w e, (s.dirSet (setOf g)).ways.get w = some e → e.granule ≠ g

/-- From `s` to `t` way `w` of the granule's set comes to hold `e`, or is freed and leaves the allocation order; the rest
of the directory stays (02 R21, R23). -/
def State.wayBecomes (s t : State) (g : Granule) (w : Fin 8) (e : Option Entry) : Prop :=
  ∀ k, t.dirSet k =
    if k = setOf g then
      ⟨(s.dirSet k).ways.set w.val e w.isLt,
        if e = none then (s.dirSet k).order.filter fun v => v != w else (s.dirSet k).order⟩
    else s.dirSet k

/-- The form of a frame from a card: a kind code, and the tag class, length, outcome and operation code of its kind (09
R180, R181, R183, R187). -/
def wellFormed (bytes : List Byte) : Prop :=
  let kind := (bytes.getD 0 0).toNat
  let tag := ((bytes.getD 1 0).extractLsb' 0 4).toNat
  let outcome := ((bytes.getD 6 0).extractLsb' 0 2).toNat
  let op := (bytes.getD 8 0).toNat
  (kind = 1 ∨ kind = 2 ∨ kind = 3 ∨ kind = 4 ∨ kind = 8) ∧ bytes.length = 8 ∧ tag ≤ 13
    ∨ kind = 5 ∧ bytes.length = 80 ∧ tag ≤ 13
    ∨ kind = 6 ∧ bytes.length = 32 ∧ tag ≤ 13 ∧ (op = 1 ∨ op = 2 ∨ op = 3)
    ∨ kind = 7 ∧ bytes.length = 72 ∧ tag ≤ 13
    ∨ kind = 9 ∧ (outcome = 1 ∧ bytes.length = 72 ∨ (outcome = 2 ∨ outcome = 3) ∧ bytes.length = 8)
    ∨ (kind = 10 ∨ kind = 11) ∧ bytes.length = 8 ∧ tag = 15
    ∨ kind = 12 ∧ bytes.length = 24 ∧ tag = 14

/-- The port's recalls by one transaction queued on the links that are UP (05 R90, 09 R179). -/
def State.recallsQueued (s t : State) (g : Granule) (i : SlotId) (asks : Port → Option RecallKind) : Prop :=
  ∀ q, t.ifaces.get q =
    { s.ifaces.get q with
      outq :=
        (s.ifaces.get q).outq
          ++ if (s.ifaces.get q).linkUp then ((asks q).map fun k => HubFrame.recall k g i).toList else [] }

/-- The awaited set of a transaction that has sent these recalls (05 R93). -/
def awaiting (asks : Port → Option RecallKind) : PerPort (Option Awaited) :=
  ⟨(asks .p0).map (⟨·, false⟩), (asks .p1).map (⟨·, false⟩), (asks .p2).map (⟨·, false⟩), (asks .p3).map (⟨·, false⟩)⟩

end Sys2Proof.Machine

namespace Sys2Proof

/-- The port byte that names a port (10 R205). -/
def Port.byte (p : Port) : Byte := BitVec.ofNat 8 p.number

end Sys2Proof
end

