-- ==== Sys2Proof/Certificates/Slice0/Obligations.lean ====
section
/-! DEFINITION. The statements for the provers, from the numbered rules of the manual. -/

open Sys2Proof Sys2Proof.Machine

/-! ### The queue of commands, hub reset and the time base -/

/-- A step with a command at the front of the queue is that command's effect on the state with the queue's rest. -/
def Obligations.StepRunsFrontCommand : Prop :=
  ∀ (c : Instr) (rest : List Instr) (s : State),
    s.pending = c :: rest → step s = exec c { s with pending := rest }

/-- With an empty queue the time base advances by one and the expiries of exactly the deadlines reached by then are
queued, each once (log 2, a choice of the model; 05 R104, 07 R142). -/
def Obligations.EmptyQueueTicks : Prop :=
  ∀ s : State, s.pending = [] →
    ∃ t, step s = .next t ∧ t = { s with now := s.now + 1, pending := t.pending, freeDraws := t.freeDraws }
      ∧ t.pending.Nodup
      ∧ ∀ c, c ∈ t.pending ↔
        (∃ i x d, c = .recallDeadlineExpiry i ∧ s.txn i = some x ∧ x.deadline = some d ∧ d ≤ s.now + 1)
          ∨ ∃ p d, c = .departureDeadlineExpiry p ∧ (s.ctl.ports.get p).deadline = some d ∧ d ≤ s.now + 1

/-- No command changes the queue of commands, and none takes an operation out of the memory queue or changes its order, but
for the completion of the oldest one; hub reset alone discards them. -/
def Obligations.QueuesKeepTheirOrder : Prop :=
  ∀ (c : Instr) (s t : State), exec c s = .next t →
    t.pending = s.pending
      ∧ (c ≠ .hubReset →
        ∃ ops,
          t.mem.queue ++ t.mem.waiting = s.mem.queue ++ s.mem.waiting ++ ops
            ∨ (c = .readComplete ∨ c = .writeFullComplete ∨ c = .writePartialComplete ∨ c = .atomicRmwComplete
                ∨ c = .poisonSetComplete ∨ c = .initComplete)
              ∧ ∃ op, op :: (t.mem.queue ++ t.mem.waiting) = s.mem.queue ++ s.mem.waiting ++ ops)

/-- Every command has a next state, but for the completion of an operation on a granule that does not exist (log 15); no
operation names such a granule where `granulesInstalled` holds. -/
def Obligations.EveryCommandCompletes : Prop :=
  ∀ (c : Instr) (s : State),
    (s.granulesInstalled → ∃ t, exec c s = .next t)
      ∧ ((∃ t, exec c s = .next t) ∨
        (exec c s = .fault .noSuchGranule
          ∧ ∃ op rest, s.mem.queue = op :: rest ∧ s.mem.granuleCount ≤ op.granule.toNat))

/-- Hub reset puts everything at its reset state, but for the queue of commands and the model's draws, and the time base,
which goes on (log 21, a choice of the model); while it is taken, nothing but hub reset and its end has an effect. -/
def Obligations.HubResetIsTaken : Prop :=
  ∀ s : State,
    exec .hubReset s = .next { State.reset with pending := s.pending, freeDraws := s.freeDraws, now := s.now }
      ∧ ∀ c, s.inReset = true → c ≠ .hubReset → (∀ l, c ≠ .hubResetEnd l) → exec c s = .next s

/-- What hub reset leaves: every register, line, slot, chain, directory entry, queue and link, and each port record whole.
MEM_GRANULES, ADMIT_MODE and the limit of window 0 stand as for deasserted straps until the straps are sampled (log 4, a
choice of the model). -/
def Obligations.HubResetLeaves : Prop :=
  let s := State.reset
  readRegister s .hubState = 0 ∧ readRegister s .epoch = 0 ∧ readRegister s .recallLimit = 500
    ∧ readRegister s .departLimit = 200 ∧ readRegister s .eventStatus = 0 ∧ readRegister s .eventEnable = 0
    ∧ readRegister s .corrected = 0 ∧ readRegister s .uncorrected = 0 ∧ readRegister s .firstFault = 0
    ∧ readRegister s .sweepState = 0
    ∧ readRegister s .memGranules = 2097152 ∧ readRegister s .admitMode = 0
    ∧ (∀ p, s.ctl.ports.get p
        = { state := .empty, present := false, latchClosed := false, holdFlag := false, controlGrant := false,
            indicatorForced := false, fenceReason := none, leaveAsked := false, sweepFinished := false,
            deadline := none, joinedEpoch := none }
      ∧ readRegister s (.portStatus p) = 0
      ∧ readRegister s (.portControl p) = 0 ∧ readRegister s (.protoErrors p) = 0
      ∧ s.holdLine p = true ∧ s.indicatorLine p = false
      ∧ (s.ifaces.get p).linkUp = false ∧ (s.ifaces.get p).outq = [])
    ∧ s.windows.get 0 = ⟨true, 0, 2097151, .const .write⟩ ∧ (∀ k : Fin 8, k ≠ 0 → s.windows.get k = ⟨false, 0, 0, .const .none⟩)
    ∧ s.alert = false ∧ s.mem.queue = [] ∧ s.mem.waiting = [] ∧ s.sweep.jobs = [] ∧ s.svc.result = .idle
    ∧ (∀ i, s.txn i = none) ∧ (∀ g, s.chain g = [] ∧ s.entry g = none)

/-- Hub reset ends: G and ADMIT_MODE come from the straps, window 0 covers the pool, each port's present and latch fields
come from its lines and a seated card is placed, and the initializer's first operations fill the memory queue. A selection that
is open then is not taken: where its request is not complete, the flag of the model (log 17) stands for the one command that
it can still give. -/
def Obligations.HubResetEndTakesTheLines : Prop :=
  ∀ (s : State) (l : ResetLines), s.inReset = true → s.enterReset = s →
    let g : Nat :=
      if l.firstMemSize = true ∧ l.secondMemSize = false then 4194304
      else if l.firstMemSize = false ∧ l.secondMemSize = true then 8388608 else 2097152
    let place : Port → PortRec := fun p =>
      { PortRec.reset with
        present := l.present.get p
        latchClosed := l.latch.get p
        state :=
          if l.present.get p = false then .empty else if l.latch.get p = false then .parked
          else if l.admitMode then .held else .joinable }
    let anySeated := l.present.p0 || l.present.p1 || l.present.p2 || l.present.p3
    let anyHeld :=
      l.admitMode && (l.present.p0 && l.latch.p0 || l.present.p1 && l.latch.p1 || l.present.p2 && l.latch.p2
        || l.present.p3 && l.latch.p3)
    let arguments : Byte → Nat := fun code =>
      match code.toNat with
      | 1 => 2 | 2 => 10 | 3 => 1 | 4 => 1 | 5 => 1 | 6 => 1 | 7 => 1 | 8 => 1 | 9 => 9 | 11 => 3 | 12 => 75
      | _ => 0
    exec (.hubResetEnd l) s = .next
      { s with
        inReset := false
        mem :=
          { s.mem with
            granuleCount := g
            queue := (List.range 16).map fun n => ⟨.init, BitVec.ofNat 23 n, .initializer⟩
            waiting := [⟨.init, 16, .initializer⟩]
            nextInit := 17 }
        windows :=
          #v[⟨true, 0, BitVec.ofNat 23 (g - 1), .const .write⟩, ⟨false, 0, 0, .const .none⟩,
            ⟨false, 0, 0, .const .none⟩, ⟨false, 0, 0, .const .none⟩, ⟨false, 0, 0, .const .none⟩,
            ⟨false, 0, 0, .const .none⟩, ⟨false, 0, 0, .const .none⟩, ⟨false, 0, 0, .const .none⟩]
        ctl :=
          { s.ctl with
            admitMode := if l.admitMode then .managed else .auto
            ports := ⟨place .p0, place .p1, place .p2, place .p3⟩ }
        svc :=
          { s.svc with
            eventStatus := (if anySeated then 1 else 0) ||| (if anyHeld then 2 else 0)
            staleSelection :=
              match l.selection with
              | none => false
              | some [] => true
              | some (code :: rest) => rest.length < arguments code } }

/-! ### Registers -/

/-- REG_READ answers OK and the value of the register at the offset, most significant byte first, or BAD_ARGUMENT and
zeros at an offset outside the table; REG_WRITE to a read-only register or outside the table is refused BAD_ARGUMENT.
Nothing else changes. -/
def Obligations.RegistersAreNamedByOffset : Prop :=
  ∀ (offset : BitVec 16) (s : State), s.serves →
    (∀ r : Reg, offset.toNat = r.offset →
      exec (.regRead offset) s =
        .next (s.responding (0 :: (List.range 8).map fun k => (readRegister s r).extractLsb' (56 - 8 * k) 8)))
      ∧ ((∀ r : Reg, offset.toNat ≠ r.offset) →
        exec (.regRead offset) s = .next (s.responding [8, 0, 0, 0, 0, 0, 0, 0, 0]))
      ∧ ∀ v, (∀ r : Reg, offset.toNat = r.offset → r.readOnly = true) →
        exec (.regWrite offset v) s = .next (s.responding [8])

/-- The writes of the service port: a setting stores its bits; EVENT_STATUS loses the events whose bit is one, and the
counts and FIRST_FAULT are emptied, whatever the value. Each answers OK. A REG_WRITE at the register's offset is taken as
the row of that register. -/
def Obligations.RegisterWritesAreTaken : Prop :=
  ∀ (v : Word) (s : State), s.serves →
    let takes : Instr → Reg → State → Prop := fun c r t =>
      exec c s = .next t ∧ ∀ offset : BitVec 16, offset.toNat = r.offset → exec (.regWrite offset v) s = .next t
    takes (.eventEnableWrite v) .eventEnable
        { s with svc := { s.svc with eventEnable := v.extractLsb' 0 11, response := [0] } }
      ∧ takes (.admitModeWrite v) .admitMode
        (({ s with ctl := { s.ctl with admitMode := if v.getLsbD 0 then .managed else .auto } } : State).responding [0])
      ∧ takes (.recallLimitWrite v) .recallLimit
        (({ s with table := { s.table with
            recallLimit := if (v.extractLsb' 0 16).toNat < 10 then 10 else v.extractLsb' 0 16 } } : State).responding [0])
      ∧ takes (.departLimitWrite v) .departLimit
        (({ s with ctl := { s.ctl with departLimit := v.extractLsb' 0 16 } } : State).responding [0])
      ∧ (∀ p, takes (.portControlWrite p v) (.portControl p)
        ((s.withPort p
          { s.ctl.ports.get p with controlGrant := v.getLsbD 0, indicatorForced := v.getLsbD 1 }).responding [0]))
      ∧ (∃ events : BitVec 11,
        takes (.eventStatusWrite v) .eventStatus
          { s with svc := { s.svc with eventStatus := events, response := [0] } }
        ∧ ∀ n, events.getLsbD n = (s.svc.eventStatus.getLsbD n && !v.getLsbD n))
      ∧ takes (.correctedWrite v) .corrected (({ s with mem := { s.mem with corrected := 0 } } : State).responding [0])
      ∧ takes (.uncorrectedWrite v) .uncorrected
        (({ s with mem := { s.mem with uncorrected := 0 } } : State).responding [0])
      ∧ takes (.firstFaultWrite v) .firstFault
        (({ s with mem := { s.mem with firstFault := none } } : State).responding [0])
      ∧ ∀ p, takes (.protoErrorsWrite p v) (.protoErrors p)
        (({ s with ifaces := s.ifaces.set p { s.ifaces.get p with protoErrors := 0 } } : State).responding [0])

/-- PORT_STATUS shows the port record, the link and the count of occupied slots in the bits and the codes of R202. -/
def Obligations.PortStatusFields : Prop :=
  ∀ (s : State) (p : Port),
    let v := readRegister s (.portStatus p)
    let r := s.ctl.ports.get p
    let stateCode : BitVec 3 :=
      match r.state with
      | .empty => 0 | .parked => 1 | .held => 2 | .joinable => 3
      | .active => 4 | .departing => 5 | .fencing => 6 | .fenced => 7
    let reasonCode : BitVec 4 :=
      match r.fenceReason with
      | none => 0 | some .recallTimeout => 1 | some .departTimeout => 2 | some .linkLost => 3
      | some .removed => 4 | some .hold => 5 | some .manager => 6 | some .clear => 7
    v.extractLsb' 0 3 = stateCode ∧ v.getLsbD 3 = false ∧ v.getLsbD 4 = r.present
      ∧ v.getLsbD 5 = r.latchClosed ∧ v.getLsbD 6 = r.leaveAsked ∧ v.getLsbD 7 = r.holdFlag
      ∧ v.getLsbD 8 = (s.ifaces.get p).linkUp ∧ v.extractLsb' 9 3 = 0
      ∧ v.extractLsb' 12 4 = reasonCode
      ∧ (v.extractLsb' 16 4).toNat = s.occupied p ∧ v.extractLsb' 20 11 = 0 ∧ v.getLsbD 31 = r.joinedEpoch.isSome
      ∧ v.extractLsb' 32 16 = r.joinedEpoch.getD 0 ∧ v.extractLsb' 48 16 = 0

/-- The other registers show their values in the bits and the codes of R202. -/
def Obligations.RegisterFields : Prop :=
  ∀ s : State,
    let rightCode : Right → BitVec 2 := fun r => match r with | .none => 0 | .read => 1 | .write => 2
    let jobCode : BitVec 3 :=
      match s.sweep.jobs with
      | [] => 0 | .depart _ :: _ => 1 | .fence _ :: _ => 2 | .recheck :: _ => 3 | .clear :: _ => 4
    let portCode : Port → BitVec 2 := fun p => match p with | .p0 => 0 | .p1 => 1 | .p2 => 2 | .p3 => 3
    let jobPort : BitVec 2 :=
      match s.sweep.jobs with
      | .depart p :: _ => portCode p
      | .fence p :: _ => portCode p
      | _ => 0
    let pauseCode : BitVec 2 :=
      match s.sweep.walk.pause with
      | .none => 0 | .slot => 1 | .slotInUse => 1 | .evicting => 2 | .memory => 3
    readRegister s .hubState = (match s.svc.hubState with | .initializing => 0 | .running => 1 | .clearing => 2)
      ∧ (∀ k : Fin 8,
        let v := readRegister s (.window k)
        let w := s.windows.get k
        v.extractLsb' 0 23 = w.base ∧ v.getLsbD 23 = false ∧ v.extractLsb' 24 23 = w.limit ∧ v.getLsbD 47 = false
          ∧ v.extractLsb' 48 2 = rightCode w.rights.p0 ∧ v.extractLsb' 50 2 = rightCode w.rights.p1
          ∧ v.extractLsb' 52 2 = rightCode w.rights.p2 ∧ v.extractLsb' 54 2 = rightCode w.rights.p3
          ∧ v.extractLsb' 56 7 = 0 ∧ v.getLsbD 63 = w.valid)
      ∧ (s.mem.firstFault = none → readRegister s .firstFault = 0)
      ∧ (∀ f, s.mem.firstFault = some f →
        let v := readRegister s .firstFault
        v.extractLsb' 0 23 = f.granule ∧ v.getLsbD 23 = false ∧ v.extractLsb' 24 3 = BitVec.ofNat 3 f.word.val
          ∧ v.extractLsb' 27 4 = 0 ∧ v.getLsbD 31 = true ∧ v.extractLsb' 32 32 = 0)
      ∧ (let v := readRegister s .sweepState
        let slot := s.txn sweepSlot
        v.extractLsb' 0 3 = jobCode ∧ v.getLsbD 3 = false
          ∧ v.extractLsb' 4 2 = jobPort
          ∧ v.extractLsb' 6 2 = 0 ∧ v.extractLsb' 8 10 = BitVec.ofNat 10 s.sweep.walk.set.val ∧ v.extractLsb' 18 2 = 0
          ∧ v.extractLsb' 20 3 = BitVec.ofNat 3 s.sweep.walk.way.val ∧ v.getLsbD 23 = false
          ∧ v.extractLsb' 24 2 = pauseCode ∧ v.extractLsb' 26 2 = 0
          ∧ (slot = none → v.extractLsb' 28 2 = 0)
          ∧ (∀ x, slot = some x → (x.phase = .waiting → v.extractLsb' 28 2 = 1)
            ∧ (x.phase = .recalling → v.extractLsb' 28 2 = 2) ∧ (x.phase = .memory → v.extractLsb' 28 2 = 3))
          ∧ v.getLsbD 30 = false
          ∧ (v.getLsbD 31 = true ↔ ∃ t p, slot = some t ∧ (t.awaited.get p).isSome = true)
          ∧ v.extractLsb' 32 3 = BitVec.ofNat 3 s.sweep.jobs.length ∧ v.extractLsb' 35 29 = 0)
      ∧ (s.mem.granuleCount < 2 ^ 24 → (readRegister s .memGranules).toNat = s.mem.granuleCount)
      ∧ (readRegister s .admitMode = if s.ctl.admitMode = .managed then 1 else 0)
      ∧ (∀ p, readRegister s (.portControl p)
        = (if (s.ctl.ports.get p).controlGrant then 1 else 0) ||| if (s.ctl.ports.get p).indicatorForced then 2 else 0)
      ∧ readRegister s .epoch = s.ctl.epoch.setWidth 64 ∧ readRegister s .recallLimit = s.table.recallLimit.setWidth 64
      ∧ readRegister s .departLimit = s.ctl.departLimit.setWidth 64
      ∧ readRegister s .eventStatus = s.svc.eventStatus.setWidth 64
      ∧ readRegister s .eventEnable = s.svc.eventEnable.setWidth 64
      ∧ readRegister s .corrected = s.mem.corrected.setWidth 64
      ∧ readRegister s .uncorrected = s.mem.uncorrected.setWidth 64
      ∧ ∀ p, readRegister s (.protoErrors p) = (s.ifaces.get p).protoErrors.setWidth 64

/-- INDICATOR is asserted in PARKED, in FENCED and while forced, and in no other case. -/
def Obligations.IndicatorLine : Prop :=
  ∀ (s : State) (p : Port),
    (s.indicatorLine p = true ↔
      s.portState p = .parked ∨ s.portState p = .fenced ∨ (s.ctl.ports.get p).indicatorForced = true)
      ∧ ∀ t, exec .hubReset s = .next t → t.indicatorLine p = false

/-- HOLD is asserted until initialization ends, in FENCED and while the hold flag is set; ALERT while an event is both
latched and enabled. -/
def Obligations.HoldAndAlertLines : Prop :=
  ∀ s : State,
    (∀ p, s.holdLine p = true ↔
      s.svc.hubState = .initializing ∨ s.portState p = .fenced ∨ (s.ctl.ports.get p).holdFlag = true)
      ∧ (s.alert = true ↔
        ∃ e : Event, s.svc.eventStatus.getLsbD e.bit = true ∧ s.svc.eventEnable.getLsbD e.bit = true)

/-! ### The service port -/

/-- SLOT_STATUS answers OK and the 69 bytes of the result record, and returns DONE and BAD_ADDRESS to IDLE. -/
def Obligations.SlotStatusReturnsTheRecord : Prop :=
  ∀ s : State, s.serves →
    let kindBit : MemCommand → Nat := fun c => match c with | .peek => 0 | .poke => 2
    let address : Granule → List Byte := fun g => [g.extractLsb' 16 8, g.extractLsb' 8 8, g.extractLsb' 0 8]
    let answer : List Byte → SlotResult → State := fun bytes r =>
      { s with svc := { s.svc with result := r, response := 0 :: bytes } }
    (s.svc.result = .idle → exec .slotStatus s = .next (answer (List.replicate 69 0) .idle))
      ∧ (∀ c g, s.svc.result = .pending c g →
        exec .slotStatus s
          = .next (answer ([1, BitVec.ofNat 8 (kindBit c)] ++ address g ++ List.replicate 64 0) (.pending c g)))
      ∧ (∀ c g data poison, s.svc.result = .done c g data poison →
        exec .slotStatus s
          = .next (answer ([2, BitVec.ofNat 8 (kindBit c + if poison then 1 else 0)] ++ address g
              ++ ((data.map fun d => (List.range 64).map (byteOf d)).getD (List.replicate 64 0))) .idle))
      ∧ ∀ c g, s.svc.result = .badAddress c g →
        exec .slotStatus s
          = .next (answer ([3, BitVec.ofNat 8 (kindBit c)] ++ address g ++ List.replicate 64 0) .idle)

/-- An unknown command code is answered BAD_ARGUMENT and reaches no owner; a selection that ends before its request is
complete has no effect; and the selection that was open when hub reset ended is not taken, whatever it carries: any row of
the service port that its request spells, or its end (log 17, a choice of the model). SPI_OUT is not driven outside a selection; in one it carries zero while
the request and the turnaround byte are clocked, then the response, then zero. -/
def Obligations.TransfersThatReachNoOwner : Prop :=
  ∀ s : State,
    (s.serves →
      (∀ code, exec (.unknownServiceCommand code) s = .next (s.responding [8]))
        ∧ ∀ bytes, exec (.incompleteSelection bytes) s = .next s)
      ∧ (s.inReset = false → s.svc.staleSelection = true →
        ∀ (code : Byte) (bytes : List Byte) (offset : BitVec 16) (v : Word) (p : Port) (m : MemberCommand)
          (port index valid rights : Byte) (base limit g : Granule) (data : GranuleData) (mask : Mask) (c : Instr),
          c ∈ [.unknownServiceCommand code, .incompleteSelection bytes, .regRead offset, .regWrite offset v,
              .eventStatusWrite v, .eventEnableWrite v, .portControlWrite p v, .admitModeWrite v, .recallLimitWrite v,
              .departLimitWrite v, .correctedWrite v, .uncorrectedWrite v, .firstFaultWrite v, .protoErrorsWrite p v,
              m.instr port, .setWindow index valid base limit rights, .hubClear, .memPeek g, .memPoke g data mask,
              .slotStatus] →
          exec c s = .next { s with svc := { s.svc with staleSelection := false } })
      ∧ ∀ n : Nat, s.spiOut none n = none
        ∧ ∀ (code : Byte) (rest : List Byte),
          let arguments : Nat :=
            match code.toNat with
            | 1 => 2 | 2 => 10 | 3 => 1 | 4 => 1 | 5 => 1 | 6 => 1 | 7 => 1 | 8 => 1 | 9 => 9 | 11 => 3 | 12 => 75
            | _ => 0
          s.spiOut (some (code :: rest)) n
            = some (if n ≤ 1 + arguments then 0 else s.svc.response.getD (n - arguments - 2) 0)

/-! ### Membership commands -/

/-- A membership command whose port byte names no port is refused BAD_ARGUMENT, and one in a state where it does not apply
WRONG_STATE; neither changes anything but the response. -/
def Obligations.MembershipCommandsAreRefused : Prop :=
  ∀ (c : MemberCommand) (s : State), s.serves →
    (∀ port : Byte, 4 ≤ port.toNat → exec (c.instr port) s = .next (s.responding [8]))
      ∧ ∀ p : Port,
        (c = .admission ∧ ¬(s.portState p = .held ∧ (s.ctl.ports.get p).holdFlag = false)
          ∨ c = .eject ∧ s.portState p ≠ .active
          ∨ c = .fence ∧ s.portState p ≠ .active ∧ s.portState p ≠ .departing
          ∨ c = .release ∧ s.portState p ≠ .fenced) →
        exec (c.instr p.byte) s = .next (s.responding [9])

/-- ADMIT takes a HELD port with its hold flag clear to JOINABLE. RELEASE takes a FENCED port to PARKED when its latch is
open, else to admission: HELD with ADMIT_WAIT when the hold flag is set or ADMIT_MODE is MANAGED, JOINABLE otherwise. -/
def Obligations.PortsAreAdmittedAndReleased : Prop :=
  ∀ (p : Port) (s : State), s.serves →
    let r := s.ctl.ports.get p
    let moved : PortState → State := fun st => (s.withPort p { r with state := st }).responding [0]
    (s.portState p = .held → r.holdFlag = false → exec (.admitPort p.byte) s = .next (moved .joinable))
      ∧ (s.portState p = .fenced →
        (r.latchClosed = false → exec (.releasePort p.byte) s = .next (moved .parked))
          ∧ (r.latchClosed = true → r.holdFlag = true ∨ s.ctl.admitMode = .managed →
            exec (.releasePort p.byte) s = .next ((moved .held).latched .admitWait))
          ∧ (r.latchClosed = true → r.holdFlag = false → s.ctl.admitMode = .auto →
            exec (.releasePort p.byte) s = .next (moved .joinable)))

/-- A port enters DEPARTING from ACTIVE by an accepted LEAVE, answered ACK OK, or by EJECT, with its walk queued and its
deadline set. An EJECT frees the port's WAITING slots, each bounced NOT_MEMBER, and they leave their chains, whose other
slots keep their order; the port's other slots run on, and LEAVE_ASKED (EJECT) stands behind the bounces on its link. -/
def Obligations.PortsEnterDeparting : Prop :=
  ∀ (p : Port) (s : State), s.portState p = .active →
    let left : Membership :=
      { s.ctl with
        ports := s.ctl.ports.set p
          { s.ctl.ports.get p with
            state := .departing
            sweepFinished := false
            deadline := if s.ctl.departLimit = 0 then none else some (s.now + 1000 * s.ctl.departLimit.toNat) } }
    let sweep : Sweep :=
      { s.sweep with
        jobs := s.sweep.jobs ++ [.depart p], walk := if s.sweep.jobs = [] then .start else s.sweep.walk }
    let wait : SlotId → Bool := fun i => slotPort i == some p && (s.txn i).any fun t => t.phase == .waiting
    (s.receives p → s.occupied p = 0 → ∀ g,
      exec (.leave p g) s = .next { s.queued p (.ack 15 0 .ok .none false) with ctl := left, sweep := sweep })
      ∧ (s.serves → (s.ifaces.get p).linkUp = true →
        ∃ (t : State) (bounces : List HubFrame), exec (.ejectPort p.byte) s = .next t
          ∧ t = { s with
              freeDraws := t.freeDraws
              table := t.table
              ctl := left
              ifaces := s.ifaces.set p
                { s.ifaces.get p with
                  outq := (s.ifaces.get p).outq ++ bounces ++ [.notice (.leaveAskedEject p) s.ctl.epoch] }
              sweep := sweep
              svc := { s.svc with response := [0] } }
          ∧ t.table.recallLimit = s.table.recallLimit ∧ (∀ i, t.txn i = if wait i then none else s.txn i)
          ∧ (s.transactionsLawful → ∀ g, t.chain g = (s.chain g).filter fun i => !wait i)
          ∧ bounces.Perm ((allSlots.filter wait).filterMap fun i =>
              (s.txn i).map fun x => .bounce (slotTag i) x.granule .notMember))

/-- HOLD_ON sets the hold flag and asserts HOLD in every state: JOINABLE becomes HELD, a member is fenced with reason
HOLD, and every other port keeps its state. -/
def Obligations.HoldOnHolds : Prop :=
  ∀ (p : Port) (s : State), s.serves →
    let r := s.ctl.ports.get p
    (s.portState p = .joinable →
      exec (.holdOn p.byte) s = .next ((s.withPort p { r with holdFlag := true, state := .held }).responding [0]))
      ∧ (s.portState p = .empty ∨ s.portState p = .parked ∨ s.portState p = .held ∨ s.portState p = .fencing
          ∨ s.portState p = .fenced →
        exec (.holdOn p.byte) s = .next ((s.withPort p { r with holdFlag := true }).responding [0]))
      ∧ (s.portState p = .active ∨ s.portState p = .departing →
        ∃ t, exec (.holdOn p.byte) s = .next t ∧ t.svc.response = [0]
          ∧ t.ctl.ports.get p =
            { r with
              holdFlag := true, state := .fencing, fenceReason := some .hold, deadline := none, leaveAsked := false,
              sweepFinished := false })
      ∧ ∀ t, exec (.holdOn p.byte) s = .next t → t.holdLine p = true

/-- HOLD_OFF, from the service port and from a granted member, clears the hold flag in every state and leaves the state;
HOLD then stays asserted only in FENCED and during initialization. The service port answers OK; the member's CONTROL frame
is answered ACK OK with tag 14 and value 0 in the same change, whose granule field 0 is the model's inference (log 20). -/
def Obligations.HoldOffReleases : Prop :=
  ∀ (p : Port) (s : State),
    let cleared := s.withPort p { s.ctl.ports.get p with holdFlag := false }
    let released : State → Prop := fun t =>
      t.portState p = s.portState p ∧ (t.ctl.ports.get p).holdFlag = false
        ∧ (t.holdLine p = true ↔ s.portState p = .fenced ∨ s.svc.hubState = .initializing)
    (s.serves → ∃ t, exec (.holdOff p.byte) s = .next t ∧ t = cleared.responding [0] ∧ released t)
      ∧ ∀ (q : Port) (g : Granule) (b : ControlBlock), s.receives q →
        s.portState q = .active ∨ s.portState q = .departing → (s.ctl.ports.get q).controlGrant = true →
        b.code.toNat = 8 → b.arg = p.byte →
        ∃ t, exec (.control q g b) s = .next t
          ∧ t = { cleared.queued q (.ack 14 0 .ok (.value 0) false) with freeDraws := t.freeDraws } ∧ released t

/-! ### Fencing -/

/-- The causes that fence a member: each is taken whole for a member whose slots are FREE and which no transaction awaits.
The record, the outbound queue and the sweep queue change as R144 and R145 say: the FENCE job is queued, or takes the place
of the port's DEPART job. A converted walk that waited for an eviction or for a slot of a stopped job visits its entry with
the FENCE action in the same change. That the frames waiting in the link layer are dropped at fence entry is the model's
choice (log 11). -/
def Obligations.IdleMemberIsFenced : Prop :=
  ∀ (p : Port) (s : State) (w : Sweep),
    let waits : Bool :=
      s.sweep.jobs.head? == some (.depart p) && (s.sweep.walk.pause == .evicting || s.sweep.walk.pause == .slotInUse)
    s.serves → s.settled → s.portState p = .active ∨ s.portState p = .departing → s.occupied p = 0 →
    (∀ i x, s.txn i = some x → x.awaited.get p = none) →
    (.depart p ∉ s.sweep.jobs ∧ .fence p ∉ s.sweep.jobs
        ∧ w = { s.sweep with
          jobs := s.sweep.jobs ++ [.fence p], walk := if s.sweep.jobs = [] then .start else s.sweep.walk }
      ∨ ∃ a b, s.sweep.jobs = a ++ .depart p :: b ∧ .depart p ∉ a ++ b ∧ .fence p ∉ a ++ b
        ∧ w = { s.sweep with
          jobs := a ++ .fence p :: b
          walk := if waits then { s.sweep.walk with pause := .none } else s.sweep.walk }) →
    let r := s.ctl.ports.get p
    let gone : FenceReason → PortRec → PortRec := fun reason r =>
      { r with
        state := .fencing, fenceReason := some reason, deadline := none, leaveAsked := false, sweepFinished := false }
    let fenced : PortRec → Membership → State := fun r c =>
      { s with
        ctl := { c with ports := s.ctl.ports.set p r }
        ifaces := s.ifaces.set p { s.ifaces.get p with outq := [], waiting := [] }
        sweep := w }
    let leaves : Instr → State → Prop := fun c t => exec c s = if waits then exec .walkVisit t else .next t
    leaves (.fencePort p.byte) ((fenced (gone .manager r) s.ctl).responding [0])
      ∧ leaves (.holdOn p.byte) ((fenced (gone .hold { r with holdFlag := true }) s.ctl).responding [0])
      ∧ (r.present = true →
        leaves (.presenceEvent p false) (fenced (gone .removed { r with present := false }) s.ctl))
      ∧ (∀ n, s.ctl.linkLost.get p = n + 1 →
        leaves (.linkLostAtController p) (fenced (gone .linkLost r) { s.ctl with linkLost := s.ctl.linkLost.set p n }))
      ∧ (p ∈ s.ctl.fenceRequests →
        leaves (.fenceRequest p)
          (fenced (gone .recallTimeout r) { s.ctl with fenceRequests := s.ctl.fenceRequests.erase p }))
      ∧ ∀ d, s.portState p = .departing → r.deadline = some d →
        leaves (.departureDeadlineExpiry p) { fenced (gone .departTimeout r) s.ctl with now := max s.now d }

/-- Whatever slots and recalls it has, a fenced member's record shows the reason of the first cause, its deadline and leave
request are gone, and the frames queued for it are discarded; that those waiting from it in the link layer are dropped in
the same change is the model's choice (log 11). Its own slots are abandoned: they hold no
lock, stand in no chain, and are FREE or, while they have memory outstanding, DRAINING. In the other slots it is resolved
as ABSENT: no one awaits it, it holds the recalled granule no more, and a granule that it owned is poisoned. -/
def Obligations.EveryMemberIsFenced : Prop :=
  ∀ (p : Port) (s : State), s.serves → s.portState p = .active ∨ s.portState p = .departing →
    let r := s.ctl.ports.get p
    let fencedAs : Instr → FenceReason → PortRec → Prop := fun c reason r =>
      ∃ t, exec c s = .next t
        ∧ t.ctl.ports.get p =
          { r with
            state := .fencing, fenceReason := some reason, deadline := none, leaveAsked := false,
            sweepFinished := false }
        ∧ t.ifaces.get p = { s.ifaces.get p with outq := [], waiting := [] }
        ∧ t.windows = s.windows ∧ t.ctl.admitMode = s.ctl.admitMode ∧ t.ctl.departLimit = s.ctl.departLimit
        ∧ t.svc.eventEnable = s.svc.eventEnable ∧ t.table.recallLimit = s.table.recallLimit
        ∧ t.mem.dram = s.mem.dram ∧ t.mem.bitErrors = s.mem.bitErrors ∧ t.mem.poison = s.mem.poison
        ∧ (∃ ops, t.mem.queue ++ t.mem.waiting = s.mem.queue ++ s.mem.waiting ++ ops)
        ∧ (s.transactionsLawful →
          (∀ i x, slotPort i = some p → s.txn i = some x →
            (∀ h, i ∉ t.chain h ∧ t.lockOf h ≠ some (.busy i) ∧ t.lockOf h ≠ some (.evicting i))
              ∧ (x.phase = .draining → t.txn i = some x)
              ∧ (x.phase ≠ .draining → x.phase = .waiting ∨ s.outstanding i = 0 → t.txn i = none)
              ∧ (x.phase ≠ .draining → x.phase ≠ .waiting → 0 < s.outstanding i →
                t.txn i = some
                  { x with phase := .draining, victim := none, awaited := .const none, deadline := none }))
            ∧ ∀ i, (∀ q, slotPort i = some q → t.portState q ≠ .fencing) →
              (∀ x, t.txn i = some x → x.awaited.get p = none)
                ∧ ∀ x h, s.txn i = some x → (x.awaited.get p).isSome = true →
                  x.phase = .recalling ∧ x.victim = none ∧ h = x.granule ∨ x.phase = .evicting ∧ x.victim = some h →
                  t.holds p h = false
                    ∧ (s.owns p h = true → ⟨.poisonSet, h, .slot i⟩ ∈ t.mem.queue ++ t.mem.waiting))
    fencedAs (.fencePort p.byte) .manager r
      ∧ fencedAs (.holdOn p.byte) .hold { r with holdFlag := true }
      ∧ (r.present = true → fencedAs (.presenceEvent p false) .removed { r with present := false })
      ∧ (0 < s.ctl.linkLost.get p → fencedAs (.linkLostAtController p) .linkLost r)
      ∧ (p ∈ s.ctl.fenceRequests → fencedAs (.fenceRequest p) .recallTimeout r)
      ∧ (s.portState p = .departing → r.deadline.isSome = true →
        fencedAs (.departureDeadlineExpiry p) .departTimeout r)
      ∧ (s.svc.hubState = .running → s.svc.result.isPending = false → fencedAs .hubClear .clear r)

/-! ### Line events -/

/-- A presence event: a card seated in EMPTY is placed by its latch and SEATED is raised; a lost card leaves PARKED, HELD,
JOINABLE and FENCED for EMPTY; every other change is recorded. -/
def Obligations.PresenceEvents : Prop :=
  ∀ (p : Port) (s : State), s.inReset = false →
    let r := s.ctl.ports.get p
    (r.present = false → s.portState p = .empty →
      let seated : PortState → State := fun st => (s.withPort p { r with present := true, state := st }).latched .seated
      (r.latchClosed = false → exec (.presenceEvent p true) s = .next (seated .parked))
        ∧ (r.latchClosed = true → r.holdFlag = false → s.ctl.admitMode = .auto →
          exec (.presenceEvent p true) s = .next (seated .joinable))
        ∧ (r.latchClosed = true → r.holdFlag = true ∨ s.ctl.admitMode = .managed →
          exec (.presenceEvent p true) s
            = .next (((s.withPort p { r with present := true, state := .held }).latched .admitWait).latched .seated)))
      ∧ (r.present = false → s.portState p ≠ .empty →
        exec (.presenceEvent p true) s = .next (s.withPort p { r with present := true }))
      ∧ (r.present = true →
        s.portState p = .parked ∨ s.portState p = .held ∨ s.portState p = .joinable ∨ s.portState p = .fenced →
        exec (.presenceEvent p false) s = .next (s.withPort p { r with present := false, state := .empty }))
      ∧ (r.present = true → s.portState p = .empty ∨ s.portState p = .fencing →
        exec (.presenceEvent p false) s = .next (s.withPort p { r with present := false }))

/-- A latch event: the latch closing in PARKED is taken to admission, the latch opening in HELD or JOINABLE leads to
PARKED, in ACTIVE the leave request is made or withdrawn, and in every other state the field alone is recorded. -/
def Obligations.LatchEvents : Prop :=
  ∀ (p : Port) (s : State), s.inReset = false →
    let r := s.ctl.ports.get p
    let recorded : Bool → PortState → State := fun b st => s.withPort p { r with latchClosed := b, state := st }
    (r.latchClosed = false → s.portState p = .parked →
      (r.holdFlag = false → s.ctl.admitMode = .auto →
        exec (.latchEvent p true) s = .next (recorded true .joinable))
        ∧ (r.holdFlag = true ∨ s.ctl.admitMode = .managed →
          exec (.latchEvent p true) s = .next ((recorded true .held).latched .admitWait)))
      ∧ (r.latchClosed = false → s.portState p = .active →
        exec (.latchEvent p true) s
          = .next ((s.withPort p { r with latchClosed := true, leaveAsked := false }).send p
              (.notice (.leaveWithdrawn p) s.ctl.epoch)))
      ∧ (r.latchClosed = false → s.portState p ≠ .parked → s.portState p ≠ .active →
        exec (.latchEvent p true) s = .next (recorded true r.state))
      ∧ (r.latchClosed = true → s.portState p = .held ∨ s.portState p = .joinable →
        exec (.latchEvent p false) s = .next (recorded false .parked))
      ∧ (r.latchClosed = true → s.portState p = .active →
        exec (.latchEvent p false) s
          = .next (((s.withPort p { r with latchClosed := false, leaveAsked := true }).send p
              (.notice (.leaveAskedLatch p) s.ctl.epoch)).latched .leaveAsked))
      ∧ (r.latchClosed = true → s.portState p ≠ .held → s.portState p ≠ .joinable → s.portState p ≠ .active →
        exec (.latchEvent p false) s = .next (recorded false r.state))

/-! ### Joining and leaving -/

/-- An accepted JOIN: the port is ACTIVE under the new epoch, which its ACK carries, and MEMBER_UP stands behind the ACK
and goes to every other ACTIVE port. -/
def Obligations.JoinIsAccepted : Prop :=
  ∀ (p : Port) (g : Granule) (s : State), s.receives p → s.portState p = .joinable → s.svc.hubState = .running →
    let up : HubFrame := .notice (.memberUp p) (s.ctl.epoch + 1)
    ∃ t, exec (.join p g) s = .next t
      ∧ t = { s with
          ctl := { s.ctl with
            epoch := s.ctl.epoch + 1
            ports := s.ctl.ports.set p
              { s.ctl.ports.get p with
                state := .active, joinedEpoch := some (s.ctl.epoch + 1), fenceReason := none } }
          ifaces := t.ifaces
          svc := { s.svc with eventStatus := s.svc.eventStatus ||| BitVec.ofNat 11 (2 ^ Event.joined.bit) } }
      ∧ ∀ q, t.ifaces.get q =
        { s.ifaces.get q with
          outq := (s.ifaces.get q).outq
            ++ (if q = p then [.ack 15 0 .ok (.value ((s.ctl.epoch + 1).setWidth 64)) false, up]
              else if s.portState q = .active ∧ (s.ifaces.get q).linkUp = true then [up] else []) }

/-- The other answers to JOIN and LEAVE, by the port's state and the hub's; nothing but the answer comes of them. -/
def Obligations.JoinAndLeaveAreAnswered : Prop :=
  ∀ (p : Port) (g : Granule) (s : State), s.receives p →
    let bounced : Reason → State := fun reason => s.queued p (.bounce 15 g reason)
    (s.portState p = .joinable → s.svc.hubState = .initializing → exec (.join p g) s = .next (bounced .starting))
      ∧ (s.portState p = .joinable → s.svc.hubState = .clearing → exec (.join p g) s = .next (bounced .busy))
      ∧ (s.portState p = .empty ∨ s.portState p = .parked ∨ s.portState p = .held →
        exec (.join p g) s = .next (bounced .notMember))
      ∧ (s.portState p = .active ∨ s.portState p = .departing → exec (.join p g) s = .next (bounced .refused))
      ∧ (s.portState p = .active → 0 < s.occupied p → exec (.leave p g) s = .next (bounced .busy))
      ∧ (s.portState p = .departing → exec (.leave p g) s = .next (bounced .refused))
      ∧ (s.portState p = .empty ∨ s.portState p = .parked ∨ s.portState p = .held ∨ s.portState p = .joinable →
        exec (.leave p g) s = .next (bounced .notMember))

/-! ### Intake -/

/-- No frame arrives on a link that is DOWN; a frame waits in the link layer while 32 frames or more are queued; and a
frame from a port in FENCING or FENCED is discarded silently, whatever it is. -/
def Obligations.FramesThatAreNotTaken : Prop :=
  ∀ (p : Port) (f : Frame) (s : State), s.inReset = false →
    let i := s.ifaces.get p
    (i.linkUp = false → exec (f.instr p) s = .next s)
      ∧ (i.linkUp = true → 32 ≤ i.outq.length ∨ i.waiting ≠ [] →
        exec (f.instr p) s = .next { s with ifaces := s.ifaces.set p { i with waiting := i.waiting ++ [f] } })
      ∧ (s.receives p → s.portState p = .fencing ∨ s.portState p = .fenced →
        exec (f.instr p) s = .next s ∧ ∀ bytes, exec (.malformedFrame p bytes) s = .next s)

/-- The protocol errors: a malformed frame (R187), a request with tag 12 or 13 or a tag whose slot is occupied (R189), and a
YIELD that no slot awaits (R95, R100). Each is counted and raised (R191), and changes nothing else. -/
def Obligations.ProtocolErrors : Prop :=
  ∀ (p : Port) (s : State), s.receives p → s.portState p ≠ .fencing → s.portState p ≠ .fenced →
    let member : Request → Prop := fun r =>
      s.svc.hubState = .running ∧ (s.portState p = .active ∨ s.portState p = .departing ∧ r.bypass = true)
    (∀ bytes, ¬wellFormed bytes → exec (.malformedFrame p bytes) s = .next (s.wronged p))
      ∧ (∀ tag g r, member r → tag.toNat = 12 ∨ tag.toNat = 13 → exec (Request.instr p tag g r) s = .next (s.wronged p))
      ∧ (∀ (tag : Tag) g r (i : SlotId), member r → tag.toNat < 12 → i.val = 12 * p.number + tag.toNat →
        (s.txn i).isSome = true → exec (Request.instr p tag g r) s = .next (s.wronged p))
      ∧ ∀ tag g (recallId : Byte) o, s.portState p = .active ∨ s.portState p = .departing →
        (∀ (i : SlotId) x, i.val = recallId.toNat → s.txn i = some x → (x.awaited.get p).isSome = true →
          x.victim.getD x.granule ≠ g) →
        exec (.yield p tag g recallId o) s = .next (s.wronged p)

/-- The checks of intake in their order: the port's state, the hub's state, the address, the right and the evicting lock.
A refused frame is answered BOUNCE and changes nothing else. -/
def Obligations.RefusedFramesAreBounced : Prop :=
  ∀ (p : Port) (tag : Tag) (g : Granule) (s : State), s.receives p →
    let bounced : Tag → Reason → State := fun tag reason => s.queued p (.bounce tag g reason)
    let outside := s.portState p = .empty ∨ s.portState p = .parked ∨ s.portState p = .held ∨ s.portState p = .joinable
    (outside →
      (∀ recallId o, exec (.yield p tag g recallId o) s = .next (bounced tag .notMember))
        ∧ ∀ block, exec (.control p g block) s = .next (bounced 14 .notMember))
      ∧ ∀ r : Request, tag.toNat ≤ 13 →
        (outside ∨ s.portState p = .departing ∧ r.bypass = false →
          exec (r.instr p tag g) s = .next (bounced tag .notMember))
          ∧ (s.portState p = .active ∨ s.portState p = .departing ∧ r.bypass = true →
            (s.svc.hubState = .initializing → exec (r.instr p tag g) s = .next (bounced tag .starting))
              ∧ (s.svc.hubState = .clearing → exec (r.instr p tag g) s = .next (bounced tag .busy))
              ∧ ∀ i : SlotId, s.svc.hubState = .running → tag.toNat < 12 → i.val = 12 * p.number + tag.toNat →
                s.txn i = none →
                (s.mem.granuleCount ≤ g.toNat → exec (r.instr p tag g) s = .next (bounced tag .badAddress))
                  ∧ (g.toNat < s.mem.granuleCount → r.bypass = false →
                    ((s.right p g).covers r.need = false → exec (r.instr p tag g) s = .next (bounced tag .denied))
                      ∧ ((s.right p g).covers r.need = true →
                        (∃ w e j, s.EntryAt g w e ∧ e.lock = .evicting j) →
                        exec (r.instr p tag g) s = .next (bounced tag .busy))))

/-- The right of a port for a granule is the one in the first valid window that covers the granule, and NONE where no
valid window covers it. -/
def Obligations.RightIsTheFirstCoveringWindows : Prop :=
  ∀ (s : State) (p : Port) (g : Granule),
    let covers : Fin 8 → Prop := fun k =>
      (s.windows.get k).valid = true ∧ (s.windows.get k).base ≤ g ∧ g ≤ (s.windows.get k).limit
    (∀ k, covers k → (∀ j, j < k → ¬covers j) → s.right p g = (s.windows.get k).rights.get p)
      ∧ ((∀ k, ¬covers k) → s.right p g = .none)

/-! ### Requests placed -/

/-- A chain kind whose granule has a chain joins its tail and waits. -/
def Obligations.RequestsJoinTheirChain : Prop :=
  ∀ (p : Port) (tag : Tag) (g : Granule) (r : Request) (i : SlotId) (s : State),
    s.settled → s.Admits p tag g r i → r.bypass = false → s.chain g ≠ [] →
    ∃ t, exec (r.instr p tag g) s = .next t ∧ t = { s with table := t.table }
      ∧ s.slotBecomes t i (some (.plain .waiting (.member r) g)) ∧ s.chainBecomes t g (s.chain g ++ [i])

/-- READ_SHARE, READ_OWN and PROMOTE of a granule without entry: the lowest-numbered invalid way is allocated, an empty
READERS entry locked busy that joins the tail of the allocation order, and a READ is offered in phase MEMORY. -/
def Obligations.ReadsAllocate : Prop :=
  ∀ (p : Port) (tag : Tag) (g : Granule) (r : Request) (i : SlotId) (w : Fin 8) (s : State),
    s.settled → s.Admits p tag g r i → r = .readShare ∨ r = .readOwn ∨ r = .promote → s.chain g = [] → s.NoEntry g →
    (s.dirSet (setOf g)).ways.get w = none → (∀ v, v < w → (s.dirSet (setOf g)).ways.get v ≠ none) →
    ∃ t, exec (r.instr p tag g) s = .next t
      ∧ t = { s with table := t.table, dir := t.dir, mem := s.mem.offered ⟨.read, g, .slot i⟩ }
      ∧ s.slotBecomes t i (some (.plain .memory (.member r) g)) ∧ s.chainBecomes t g [i]
      ∧ ∀ k, t.dirSet k =
        if k = setOf g then
          ⟨(s.dirSet k).ways.set w.val (some ⟨g, .readers, .const false, .busy i⟩) w.isLt, (s.dirSet k).order ++ [w]⟩
        else s.dirSet k

/-- PEEK, POKE and ATOMIC of a granule without entry: no way is allocated and no lock taken, and the kind's operation is
offered in phase MEMORY. READ_SHARE and PEEK of an entry in READERS mode, which need no recall, lock the entry busy and
offer their READ at once. -/
def Obligations.AccessesDoNotAllocate : Prop :=
  ∀ (p : Port) (tag : Tag) (g : Granule) (r : Request) (i : SlotId) (s : State),
    s.settled → s.tablesCanonical → s.Admits p tag g r i → s.chain g = [] →
    (∀ k : MemKind, s.NoEntry g →
      r = .peek ∧ k = .read
          ∨ (∃ d, r = .poke d (BitVec.allOnes 64) ∧ k = .writeFull d)
          ∨ (∃ d m, r = .poke d m ∧ m ≠ 0 ∧ m ≠ BitVec.allOnes 64 ∧ k = .writePartial d m)
          ∨ (∃ b, r = .atomic b ∧ k = .atomicRmw b) →
      ∃ t, exec (r.instr p tag g) s = .next t
        ∧ t = { s with table := t.table, mem := s.mem.offered ⟨k, g, .slot i⟩ }
        ∧ s.slotBecomes t i (some (.plain .memory (.member r) g)) ∧ s.chainBecomes t g [i])
      ∧ ∀ w e, s.EntryAt g w e → e.lock = .none → e.mode = .readers → r = .readShare ∨ r = .peek →
        (∀ q, e.holders.get q = true → s.portState q ≠ .fencing) →
        ∃ t, exec (r.instr p tag g) s = .next t
          ∧ t = { s with table := t.table, dir := t.dir, mem := s.mem.offered ⟨.read, g, .slot i⟩ }
          ∧ s.slotBecomes t i (some (.plain .memory (.member r) g)) ∧ s.chainBecomes t g [i]
          ∧ s.wayBecomes t g w (some { e with lock := .busy i })

/-- A request whose granule is held sends its recalls in one change: the entry is locked busy, the recalled ports are
awaited, the deadline is set and each recall is queued where the link is UP. Holders in FENCING are removed without a
recall, a POISON_SET standing in for the owner's data, and the transaction goes on to MEMORY. -/
def Obligations.HeldGranulesAreRecalled : Prop :=
  ∀ (p : Port) (tag : Tag) (g : Granule) (r : Request) (i : SlotId) (w : Fin 8) (e : Entry) (s : State),
    s.settled → s.Admits p tag g r i → r.bypass = false → (∀ d, r ≠ .poke d 0) → s.chain g = [] →
    s.EntryAt g w e → e.lock = .none →
    let asks : Port → Option RecallKind := fun q =>
      if e.holders.get q = false then none
      else
        match r with
        | .readShare => if e.mode = .owner then some .demote else none
        | .peek => if e.mode = .owner then some .demote else none
        | .promote => if e.holders.get p = true ∧ (e.mode = .owner ∨ q = p) then none else some .revoke
        | _ => some .revoke
    ((∀ q, e.holders.get q = true → s.portState q = .active ∨ s.portState q = .departing) → (∃ q, asks q ≠ none) →
      ∃ t, exec (r.instr p tag g) s = .next t
        ∧ t = { s with table := t.table, dir := t.dir, ifaces := t.ifaces }
        ∧ s.slotBecomes t i (some
          { Txn.plain .recalling (.member r) g with
            awaited := awaiting asks, deadline := some (s.now + s.table.recallLimit.toNat) })
        ∧ s.chainBecomes t g [i] ∧ s.wayBecomes t g w (some { e with lock := .busy i }) ∧ s.recallsQueued t g i asks)
      ∧ ∀ k : MemKind, (∀ q, e.holders.get q = true → s.portState q = .fencing) →
        (e.mode = .owner → ∃ q, ∀ j, e.holders.get j = true ↔ j = q) →
        (r = .readShare ∨ r = .readOwn ∨ r = .promote ∨ r = .peek) ∧ k = .read
          ∨ (∃ d, r = .poke d (BitVec.allOnes 64) ∧ k = .writeFull d)
          ∨ (∃ d m, r = .poke d m ∧ m ≠ BitVec.allOnes 64 ∧ k = .writePartial d m)
          ∨ (∃ b, r = .atomic b ∧ k = .atomicRmw b) →
        let poisoned := if e.mode = .owner then s.mem.offered ⟨.poisonSet, g, .slot i⟩ else s.mem
        ∃ t, exec (r.instr p tag g) s = .next t
          ∧ t = { s with table := t.table, dir := t.dir, mem := poisoned.offered ⟨k, g, .slot i⟩ }
          ∧ s.slotBecomes t i (some { Txn.plain .memory (.member r) g with poisonSeen := e.mode = .owner })
          ∧ s.chainBecomes t g [i] ∧ s.wayBecomes t g w (some { e with holders := .const false, lock := .busy i })

/-- The requests that are answered at activation: a POKE whose mask has no flag set is acknowledged, and a PROMOTE by the
only holder is granted without data. -/
def Obligations.RequestsAnsweredAtActivation : Prop :=
  ∀ (p : Port) (tag : Tag) (g : Granule) (i : SlotId) (s : State), s.settled → s.tablesCanonical → s.chain g = [] →
    (∀ d, s.Admits p tag g (.poke d 0) i →
      s.NoEntry g ∨ (∃ w e, s.EntryAt g w e ∧ e.lock = .none ∧ ∃ q, e.holders.get q = true) →
      exec (.poke p tag g d 0) s = .next (s.queued p (.ack tag g .ok .none false)))
      ∧ ∀ w e, s.Admits p tag g .promote i → s.EntryAt g w e → e.lock = .none →
        (∀ q, e.holders.get q = true ↔ q = p) → s.outstanding i = 0 →
        ∃ t, exec (.promote p tag g) s = .next t
          ∧ t = { s.queued p (.grant tag g .owner none false) with dir := t.dir }
          ∧ s.wayBecomes t g w (some { e with mode := .owner })

/-- A request that needs an entry in a set whose ways are all valid: the oldest entry without lock becomes the victim, is
locked evicting and revoked from its holders; with every way locked the request is bounced BUSY. -/
def Obligations.FullSetEvicts : Prop :=
  ∀ (p : Port) (tag : Tag) (g : Granule) (r : Request) (i : SlotId) (s : State),
    s.settled → s.tablesCanonical → s.Admits p tag g r i → r = .readShare ∨ r = .readOwn ∨ r = .promote →
    s.chain g = [] → s.NoEntry g → (s.dirSet (setOf g)).Lawful (setOf g) →
    (∀ w, (s.dirSet (setOf g)).ways.get w ≠ none) →
    let locked : Fin 8 → Prop := fun w => ∀ e, (s.dirSet (setOf g)).ways.get w = some e → e.lock ≠ .none
    ((∀ w, locked w) → exec (r.instr p tag g) s = .next (s.queued p (.bounce tag g .busy)))
      ∧ ∀ older w younger v, (s.dirSet (setOf g)).order = older ++ w :: younger → (∀ x, x ∈ older → locked x) →
        (s.dirSet (setOf g)).ways.get w = some v → v.lock = .none →
        (∀ q, v.holders.get q = true → s.portState q = .active ∨ s.portState q = .departing) →
        let asks : Port → Option RecallKind := fun q => if v.holders.get q = true then some .revoke else none
        ∃ t, exec (r.instr p tag g) s = .next t
          ∧ t = { s with table := t.table, dir := t.dir, ifaces := t.ifaces }
          ∧ s.slotBecomes t i (some
            { Txn.plain .evicting (.member r) g with
              victim := some v.granule
              awaited := awaiting asks
              deadline := some (s.now + s.table.recallLimit.toNat) })
          ∧ s.chainBecomes t g [i] ∧ s.wayBecomes t g w (some { v with lock := .evicting i })
          ∧ s.recallsQueued t v.granule i asks

/-- RELEASE and RETURN_DIRTY are taken at arrival: STALE where the test fails, else the port is removed, and the data are
offered as a WRITE_FULL. -/
def Obligations.BypassFramesAreTaken : Prop :=
  ∀ (p : Port) (tag : Tag) (g : Granule) (i : SlotId) (s : State), s.settled → s.tablesCanonical →
    (s.Admits p tag g .release i →
      (s.NoEntry g ∨ (∃ w e, s.EntryAt g w e ∧ e.holders.get p = false) →
        exec (.release p tag g) s = .next (s.queued p (.ack tag g .stale .none false)))
        ∧ ∀ w e, s.EntryAt g w e → e.holders.get p = true → (∀ j, e.lock ≠ .evicting j) →
          ∃ t, exec (.release p tag g) s = .next t
            ∧ t = { s.queued p (.ack tag g .ok .none false) with dir := t.dir }
            ∧ s.wayBecomes t g w
              (if e.lock = .none ∧ e.holders.set p false = .const false then none
                else some { e with holders := e.holders.set p false }))
      ∧ ∀ data, s.Admits p tag g (.returnDirty data) i →
        (s.NoEntry g
            ∨ (∃ w e, s.EntryAt g w e ∧ ¬(e.mode = .owner ∧ ∀ q, e.holders.get q = true ↔ q = p)) →
          exec (.returnDirty p tag g data) s = .next (s.queued p (.ack tag g .stale .none false)))
          ∧ ∀ w e, s.EntryAt g w e → e.mode = .owner → (∀ q, e.holders.get q = true ↔ q = p) →
            (∀ j, e.lock ≠ .evicting j) →
            ∃ t, exec (.returnDirty p tag g data) s = .next t
              ∧ t = { s with
                  table := { s.table with slots := t.table.slots }
                  dir := t.dir
                  mem := s.mem.offered ⟨.writeFull data, g, .slot i⟩ }
              ∧ s.slotBecomes t i (some (.plain .bypass (.member (.returnDirty data)) g))
              ∧ s.wayBecomes t g w (if e.lock = .none then none else some { e with holders := .const false })

/-! ### Yields -/

/-- A YIELD that a slot awaits changes the recalled entry by the recall and the outcome, and offers DIRTY data; the port
leaves the awaited set, and the last one takes a recalling transaction to MEMORY with its own operation. A PROMOTE whose
port is still a holder has no operation, and ends with GRANT OWNER without data. The last holder of a victim completes the
eviction: its way, at the tail of the allocation order, passes to the requester's granule, whose READ is offered. A YIELD
of a port that is timed out changes nothing. -/
def Obligations.MatchedYieldsAreTaken : Prop :=
  ∀ (p : Port) (tag : Tag) (g : Granule) (recallId : Byte) (o : YieldOutcome) (i : SlotId) (x : Txn) (a : Awaited)
    (s : State),
    s.settled → s.tablesCanonical → s.receives p → s.portState p = .active ∨ s.portState p = .departing →
    i.val = recallId.toNat → s.txn i = some x → x.awaited.get p = some a → x.victim.getD x.granule = g →
    (a.timedOut = true → exec (.yield p tag g recallId o) s = .next s)
      ∧ ∀ w e, a.timedOut = false → s.EntryAt g w e → e.lock ≠ .none →
        let left : Entry :=
          match a.kind, o with
          | .revoke, _ => { e with holders := e.holders.set p false }
          | .demote, .absent => { e with holders := e.holders.set p false }
          | .demote, _ => if e.holders.get p = true then { e with mode := .readers } else e
        let written : MemController :=
          match o with
          | .dirty d => s.mem.offered ⟨.writeFull d, g, .slot i⟩
          | _ => s.mem
        let rest := x.awaited.set p none
        (rest ≠ .const none →
          ∃ t, exec (.yield p tag g recallId o) s = .next t
            ∧ t = { s with table := { s.table with slots := t.table.slots }, dir := t.dir, mem := written }
            ∧ s.slotBecomes t i (some { x with awaited := rest }) ∧ s.wayBecomes t g w (some left))
          ∧ (rest = .const none → x.phase = .recalling →
            ∀ k,
              (x.kind = .member .readShare ∨ x.kind = .member .readOwn ∨ x.kind = .member .peek ∨ x.kind = .memPeek
                      ∨ x.kind = .member .promote ∧ x.granule = g
                        ∧ ∀ q, slotPort i = some q → left.holders.get q = false)
                    ∧ k = MemKind.read
                ∨ (∃ d, (x.kind = .member (.poke d (BitVec.allOnes 64)) ∨ x.kind = .memPoke d (BitVec.allOnes 64))
                    ∧ k = .writeFull d)
                ∨ (∃ d m, (x.kind = .member (.poke d m) ∨ x.kind = .memPoke d m) ∧ m ≠ 0 ∧ m ≠ BitVec.allOnes 64
                    ∧ k = .writePartial d m)
                ∨ (∃ b, x.kind = .member (.atomic b) ∧ k = .atomicRmw b) →
              ∃ t, exec (.yield p tag g recallId o) s = .next t
                ∧ t = { s with
                    table := { s.table with slots := t.table.slots }
                    dir := t.dir
                    mem := written.offered ⟨k, x.granule, .slot i⟩ }
                ∧ s.slotBecomes t i
                  (some { x with phase := .memory, awaited := .const none, victim := none, deadline := none })
                ∧ s.wayBecomes t g w (some left))
          ∧ (rest = .const none → x.phase = .recalling → x.kind = .member .promote → x.granule = g → x.result = .none →
            e.lock = .busy i →
            (∀ d, o ≠ .dirty d) → s.outstanding i = 0 → s.chain g = [i] →
            ∀ (q : Port) (c : Tag), c.toNat < 12 → i.val = 12 * q.number + c.toNat → left.holders.get q = true →
              s.portState q = .active → (s.right q g).covers .write = true → (s.ifaces.get q).linkUp = true →
              ∃ t, exec (.yield p tag g recallId o) s = .next t
                ∧ t = { s.queued q (.grant c g .owner none x.poisonSeen) with table := t.table, dir := t.dir }
                ∧ s.slotBecomes t i none ∧ s.chainBecomes t g []
                ∧ s.wayBecomes t g w
                  (some { e with mode := .owner, holders := (PerPort.const false).set q true, lock := .none }))
          ∧ (rest = .const none → x.phase = .evicting → x.victim = some g → left.holders = .const false →
            x.kind = .member .readShare ∨ x.kind = .member .readOwn ∨ x.kind = .member .promote →
            setOf x.granule = setOf g → s.NoEntry x.granule →
            (∀ y, s.txn serviceSlot = some y → y.phase ≠ .waiting ∨ y.granule ≠ g) → s.sweep.walk.pause ≠ .evicting →
            ∃ t, exec (.yield p tag g recallId o) s = .next t
              ∧ t = { s with
                  table := { s.table with slots := t.table.slots }
                  dir := t.dir
                  mem := written.offered ⟨.read, x.granule, .slot i⟩ }
              ∧ s.slotBecomes t i
                (some { x with phase := .memory, awaited := .const none, victim := none, deadline := none })
              ∧ ∀ k, t.dirSet k =
                if k = setOf g then
                  ⟨(s.dirSet k).ways.set w.val (some ⟨x.granule, .readers, .const false, .busy i⟩) w.isLt,
                    ((s.dirSet k).order.filter fun v => v != w) ++ [w]⟩
                else s.dirSet k)

/-- The recall deadline of a slot expires: it is removed, the awaited ports that have not answered are timed out and
stay awaited, and a fence request is sent for each; the time base has reached the deadline (log 12). -/
def Obligations.RecallDeadlineExpires : Prop :=
  ∀ (i : SlotId) (x : Txn) (d : Nat) (s : State), s.inReset = false → s.txn i = some x → x.deadline = some d →
    let out : Option Awaited → Option Awaited := fun a => a.map fun w => { w with timedOut := true }
    let asked : Port → List Port := fun p => if (x.awaited.get p).any fun w => !w.timedOut then [p] else []
    ∃ t, exec (.recallDeadlineExpiry i) s = .next t
      ∧ t = { s with
          now := max s.now d
          table := { s.table with slots := t.table.slots }
          ctl := { s.ctl with
            fenceRequests := s.ctl.fenceRequests ++ (asked .p0 ++ asked .p1 ++ asked .p2 ++ asked .p3) } }
      ∧ s.slotBecomes t i (some
        { x with
          deadline := none
          awaited := ⟨out x.awaited.p0, out x.awaited.p1, out x.awaited.p2, out x.awaited.p3⟩ })

/-! ### Reply time -/

/-- The READ that ends a transaction: at reply time the requester's state and right decide the answer, the grant is
recorded and the lock released, and the slot and its chain end. The data of a word with one bit in error are corrected,
those of a word with two are as they were read, and then the poison flag is set. A PEEK of a granule without entry leaves
the directory, and its end activates the next slot of the chain in the same change. The READ of a MEM_PEEK leaves the
result DONE. -/
def Obligations.ReadsAreAnswered : Prop :=
  ∀ (g : Granule) (i : SlotId) (x : Txn) (data : GranuleData) (rest : List MemOp) (s : State),
    s.inReset = false → s.settled → s.tablesCanonical → s.mem.queue = ⟨.read, g, .slot i⟩ :: rest → s.mem.waiting = [] →
    g.toNat < s.mem.granuleCount → (∀ op, op ∈ rest → op.origin ≠ .slot i) →
    s.txn i = some x → x.phase = .memory → x.granule = g → (∀ v, bitCount (s.mem.errors g v) ≤ 2) →
    (∀ (v : Fin 8) b, b < 8 →
      byteOf data (8 * v.val + b) = Memory.byte s.mem.dram (64 * g.toNat + 8 * v.val + b)
        ^^^ if bitCount (s.mem.errors g v) = 2 then (s.mem.errors g v).extractLsb' (8 * b) 8 else 0) →
    let uncorrectable := (List.finRange 8).any fun v => bitCount (s.mem.errors g v) == 2
    let poison := x.poisonSeen || (s.mem.mark g || uncorrectable)
    let read : State → State → Prop := fun t u =>
      t = { u with
          mem := { u.mem with
            poison := t.mem.poison, corrected := t.mem.corrected, uncorrected := t.mem.uncorrected,
            firstFault := t.mem.firstFault }
          svc := { u.svc with eventStatus := t.svc.eventStatus } }
        ∧ ((∀ v, s.mem.errors g v = 0) → t = u)
    let taken : State := { s with mem := { s.mem with queue := rest } }
    (∀ (p : Port) (tag : Tag) (r : Request), tag.toNat < 12 → i.val = 12 * p.number + tag.toNat → x.kind = .member r →
      (s.ifaces.get p).linkUp = true →
      let active := s.portState p = .active
      let gone := s.portState p = .departing ∧ (s.ctl.ports.get p).sweepFinished = false
      let grants := r = .readShare ∨ r = .readOwn ∨ r = .promote
      (∀ (w : Fin 8) (e : Entry) (answer : HubFrame) (after : Option Entry),
        s.chain g = [i] → s.EntryAt g w e → e.lock = .busy i →
        let unlocked : Option Entry := if e.holders = .const false then none else some { e with lock := .none }
        (active ∧ r = .readShare ∧ (s.right p g).covers .read = true
              ∧ answer = .grant tag g .readers (some data) poison
              ∧ after = some { e with mode := .readers, holders := e.holders.set p true, lock := .none }
            ∨ active ∧ (r = .readOwn ∨ r = .promote) ∧ (s.right p g).covers .write = true
              ∧ answer = .grant tag g .owner (some data) poison
              ∧ after = some { e with mode := .owner, holders := (PerPort.const false).set p true, lock := .none }
            ∨ active ∧ grants ∧ (s.right p g).covers r.need = false ∧ answer = .bounce tag g .denied ∧ after = unlocked
            ∨ gone ∧ grants ∧ answer = .bounce tag g .notMember ∧ after = unlocked
            ∨ (active ∨ gone) ∧ r = .peek ∧ answer = .ack tag g .ok (.data data) poison ∧ after = unlocked) →
        ∃ t, exec .readComplete s = .next t
          ∧ read t { taken.queued p answer with table := t.table, dir := t.dir }
          ∧ s.slotBecomes t i none ∧ s.chainBecomes t g [] ∧ s.wayBecomes t g w after)
        ∧ (active ∨ gone → r = .peek → s.NoEntry g →
          let answered := taken.queued p (.ack tag g .ok (.data data) poison)
          (s.chain g = [i] →
            ∃ t, exec .readComplete s = .next t ∧ read t { answered with table := t.table }
              ∧ s.slotBecomes t i none ∧ s.chainBecomes t g [])
            ∧ ∀ (j : SlotId) (y : Txn) (more : List SlotId), s.chain g = i :: j :: more → i ≠ j → s.txn j = some y →
              y.kind = .member .peek → y.granule = g → (∀ v, s.mem.errors g v = 0) →
              ∃ t, exec .readComplete s = .next t
                ∧ t = { answered with
                    table := t.table
                    mem := MemController.offered { s.mem with queue := rest } ⟨.read, g, .slot j⟩ }
                ∧ t.table.recallLimit = s.table.recallLimit ∧ s.chainBecomes t g (j :: more)
                ∧ ∀ k, t.txn k =
                  if k = i then none
                  else if k = j then some { y with phase := .memory, victim := none, deadline := none } else s.txn k))
      ∧ (i = serviceSlot → x.kind = .memPeek → s.chain g = [i] →
        s.NoEntry g ∨ (∃ w e, s.EntryAt g w e ∧ e.lock = .busy i) →
        ∃ t, exec .readComplete s = .next t
          ∧ read t { taken with
              table := t.table, dir := t.dir, svc := { s.svc with result := .done .peek g (some data) poison } }
          ∧ s.slotBecomes t i none ∧ s.chainBecomes t g [] ∧ (s.NoEntry g → t.dir = s.dir)
          ∧ ∀ w e, s.EntryAt g w e →
            s.wayBecomes t g w (if e.holders = .const false then none else some { e with lock := .none }))

/-- The completion that ends a POKE, an ATOMIC or a RETURN_DIRTY: the answer is queued, the slot is FREE, and an entry
left without holder is freed; an ATOMIC whose word is uncorrectable is bounced POISONED. A MEM_POKE leaves the result DONE.
A slot in DRAINING is freed without an answer. -/
def Obligations.WritesAreAnswered : Prop :=
  ∀ (c : Instr) (g : Granule) (k : MemKind) (i : SlotId) (x : Txn) (rest : List MemOp) (s : State),
    s.inReset = false → s.settled → s.tablesCanonical → s.mem.queue = ⟨k, g, .slot i⟩ :: rest → s.mem.waiting = [] →
    g.toNat < s.mem.granuleCount → (∀ op, op ∈ rest → op.origin ≠ .slot i) → s.txn i = some x → x.granule = g →
    let word : Fin 8 → Nat → Byte := fun v b => Memory.byte s.mem.dram (64 * g.toNat + 8 * v.val + b)
    let mark := s.mem.mark g
    let clean := ∀ v, s.mem.errors g v = 0
    let memory := x.phase = .memory ∧ s.chain g = [i]
      ∧ (s.NoEntry g ∨ ∃ w e, s.EntryAt g w e ∧ e.lock = .busy i ∧ e.holders = .const false)
    let ended : State → Prop := fun t =>
      s.slotBecomes t i none ∧ s.chainBecomes t g [] ∧ t.mem.queue = rest ∧ t.mem.waiting = []
        ∧ (s.NoEntry g → t.dir = s.dir)
        ∧ ∀ w e, s.EntryAt g w e → e.lock = .busy i → e.holders = .const false → s.wayBecomes t g w none
    (∀ (p : Port) (tag : Tag), tag.toNat < 12 → i.val = 12 * p.number + tag.toNat →
      (s.portState p = .active → (s.ifaces.get p).linkUp = true →
        (memory →
          (clean → ∀ d m b answer old,
            (∀ n, n < 8 → (old : Word).extractLsb' (8 * n) 8 = word b.word n) →
            c = .writeFullComplete ∧ k = .writeFull d ∧ x.kind = .member (.poke d (BitVec.allOnes 64))
                  ∧ answer = .ack tag g .ok .none x.poisonSeen
                ∨ c = .writePartialComplete ∧ k = .writePartial d m ∧ x.kind = .member (.poke d m)
                  ∧ m ≠ BitVec.allOnes 64 ∧ answer = .ack tag g .ok .none (x.poisonSeen || mark)
                ∨ c = .atomicRmwComplete ∧ k = .atomicRmw b ∧ x.kind = .member (.atomic b)
                  ∧ (mark = true ∧ answer = .bounce tag g .poisoned
                    ∨ mark = false ∧ (b.op ≠ .compareSwap ∨ old = b.a) ∧ answer = .ack tag g .ok (.value old) false
                    ∨ mark = false ∧ b.op = .compareSwap ∧ old ≠ b.a
                      ∧ answer = .ack tag g .casFail (.value old) false) →
            ∃ t, exec c s = .next t ∧ t = { s.queued p answer with table := t.table, dir := t.dir, mem := t.mem }
              ∧ ended t)
            ∧ ∀ b, c = .atomicRmwComplete → k = .atomicRmw b → x.kind = .member (.atomic b) → mark = false →
              bitCount (s.mem.errors g b.word) = 2 →
              ∃ t, exec c s = .next t
                ∧ t = { (s.queued p (.bounce tag g .poisoned)).latched .uncorrectable with
                    table := t.table, dir := t.dir, mem := t.mem }
                ∧ ended t)
          ∧ ∀ d, c = .writeFullComplete → k = .writeFull d → x.phase = .bypass →
            ∃ t, exec c s = .next t
              ∧ t = { s.queued p (.ack tag g .ok .none false) with
                  table := { s.table with slots := t.table.slots }, mem := t.mem }
              ∧ s.slotBecomes t i none ∧ t.mem.queue = rest ∧ t.mem.waiting = [])
        ∧ (s.portState p = .fencing → (s.ctl.ports.get p).sweepFinished = false → x.phase = .draining → clean →
          ∀ d, c = .writeFullComplete ∧ k = .writeFull d ∨ c = .readComplete ∧ k = .read
                ∨ c = .poisonSetComplete ∧ k = .poisonSet →
            ∃ t, exec c s = .next t
              ∧ t = { s with table := { s.table with slots := t.table.slots }, mem := t.mem }
              ∧ s.slotBecomes t i none ∧ t.mem.queue = rest ∧ t.mem.waiting = []))
      ∧ (i = serviceSlot → memory → clean → ∀ d m,
        c = .writeFullComplete ∧ k = .writeFull d ∧ m = BitVec.allOnes 64
            ∨ c = .writePartialComplete ∧ k = .writePartial d m ∧ m ≠ BitVec.allOnes 64 →
        x.kind = .memPoke d m →
        ∃ t, exec c s = .next t
          ∧ t = { s with
              table := t.table
              dir := t.dir
              mem := t.mem
              svc := { s.svc with
                result := .done .poke g none (x.poisonSeen || (mark && m != BitVec.allOnes 64)) } }
          ∧ ended t)

/-! ### The memory -/

/-- Bits of a word come to be in error beside those that are (the model's DRAM has no word beyond the last granule, log
7). A READ changes no stored bit; it counts the words it corrects and those it cannot, and an uncorrectable word sets the
granule's mark, fills an empty FIRST_FAULT with the lowest such word and raises UNCORRECTABLE. A granule that is poisoned and
whose words are all correctable changes no counter: that this holds of CORRECTED too, against R7, is the model's reading of
R8 (log 28). -/
def Obligations.ErrorsAreKeptAndChecked : Prop :=
  ∀ (g : Granule) (s : State), s.inReset = false → s.tablesCanonical →
    let single := (List.finRange 8).countP fun v => bitCount (s.mem.errors g v) == 1
    let double := (List.finRange 8).countP fun v => bitCount (s.mem.errors g v) == 2
    (∀ v bits,
      (s.mem.granuleCount ≤ g.toNat → exec (.dramBitsInError g v bits) s = .next s)
        ∧ (g.toNat < s.mem.granuleCount →
          ∃ t, exec (.dramBitsInError g v bits) s = .next t
            ∧ t = { s with mem := { s.mem with bitErrors := t.mem.bitErrors } }
            ∧ ∀ h u, t.mem.errors h u = if h = g ∧ u = v then s.mem.errors g v ||| bits else s.mem.errors h u))
      ∧ ∀ o rest, s.mem.queue = ⟨.read, g, o⟩ :: rest → g.toNat < s.mem.granuleCount →
        (∀ v, bitCount (s.mem.errors g v) ≤ 2) →
        ∃ t, exec .readComplete s = .next t ∧ t.mem.dram = s.mem.dram ∧ t.mem.bitErrors = s.mem.bitErrors
          ∧ (∀ h, t.mem.mark h = (s.mem.mark h || (h == g && double != 0)))
          ∧ t.mem.corrected.toNat
            = min 65535 (s.mem.corrected.toNat + if s.mem.mark g = true ∧ double = 0 then 0 else single)
          ∧ t.mem.uncorrected.toNat = min 65535 (s.mem.uncorrected.toNat + double)
          ∧ (s.mem.firstFault ≠ none ∨ double = 0 → t.mem.firstFault = s.mem.firstFault)
          ∧ (s.mem.firstFault = none → ∀ v, bitCount (s.mem.errors g v) = 2 →
            (∀ u, u < v → bitCount (s.mem.errors g u) ≠ 2) → t.mem.firstFault = some ⟨g, v⟩)
          ∧ t.svc.eventStatus.getLsbD 7 = (s.svc.eventStatus.getLsbD 7 || double != 0)

/-- WRITE_FULL and INIT write all eight words of their granule with new check bits and clear its mark; they count
nothing. The INIT of the last granule ends initialization; while the initializer has granules to offer, each INIT that
completes lets the pending one enter the queue, and the next granule is offered. -/
def Obligations.FullWritesStore : Prop :=
  ∀ (c : Instr) (k : MemKind) (data : GranuleData) (g : Granule) (o : Origin) (rest : List MemOp) (s : State),
    s.inReset = false → s.tablesCanonical → s.mem.queue = ⟨k, g, o⟩ :: rest → g.toNat < s.mem.granuleCount →
    c = .writeFullComplete ∧ k = .writeFull data ∨ c = .initComplete ∧ k = .init ∧ data = 0 →
    ∃ t, exec c s = .next t
      ∧ (∀ a, Memory.byte t.mem.dram a
        = if a / 64 = g.toNat then byteOf data (a % 64) else Memory.byte s.mem.dram a)
      ∧ (∀ h v, t.mem.errors h v = if h = g then 0 else s.mem.errors h v)
      ∧ (∀ h, t.mem.mark h = (h != g && s.mem.mark h))
      ∧ t.mem.corrected = s.mem.corrected ∧ t.mem.uncorrected = s.mem.uncorrected
      ∧ t.mem.firstFault = s.mem.firstFault
      ∧ (o = .initializer →
        t.svc.hubState = (if g.toNat + 1 = s.mem.granuleCount then .running else s.svc.hubState)
          ∧ (g.toNat + 1 = s.mem.granuleCount → t.svc.eventStatus.getLsbD 9 = true))
      ∧ ∀ last n, s.settled → c = .initComplete → o = .initializer → rest.length = 15 →
        s.mem.waiting = [⟨.init, last, .initializer⟩] → s.mem.nextInit = n →
        t.mem.queue = rest ++ [⟨.init, last, .initializer⟩]
          ∧ t.mem.waiting = (if n < s.mem.granuleCount then [⟨.init, BitVec.ofNat 23 n, .initializer⟩] else [])
          ∧ t.mem.nextInit = if n < s.mem.granuleCount then n + 1 else n

/-- A WRITE_PARTIAL writes the bytes whose flags are set; the words that it merges are read and checked, keep their other
bytes as they were read, and have new check bits. What those reads find is counted and recorded as by a READ: an
uncorrectable word sets the mark, fills an empty FIRST_FAULT with the lowest such word and raises UNCORRECTABLE. A granule
that is poisoned changes no counter where no merged word is uncorrectable: that this holds of CORRECTED too, against R7, is
the model's reading of R8 (log 28). With every flag set it is a full write. -/
def Obligations.PartialWritesMerge : Prop :=
  ∀ (data : GranuleData) (m : Mask) (g : Granule) (o : Origin) (rest : List MemOp) (s : State),
    s.inReset = false → s.tablesCanonical → s.mem.queue = ⟨.writePartial data m, g, o⟩ :: rest →
    g.toNat < s.mem.granuleCount → (∀ v, bitCount (s.mem.errors g v) ≤ 2) →
    let flags : Fin 8 → Byte := fun v => m.extractLsb' (8 * v.val) 8
    let merged : Nat → Nat := fun n =>
      (List.finRange 8).countP fun v => flags v != 0 && flags v != 255 && bitCount (s.mem.errors g v) == n
    let asRead : Fin 8 → Nat → Byte := fun v b =>
      if bitCount (s.mem.errors g v) = 2 then (s.mem.errors g v).extractLsb' (8 * b) 8 else 0
    ∃ t, exec .writePartialComplete s = .next t
      ∧ (∀ a, a / 64 ≠ g.toNat → Memory.byte t.mem.dram a = Memory.byte s.mem.dram a)
      ∧ (∀ (v : Fin 8) b, b < 8 →
        let a := 64 * g.toNat + 8 * v.val + b
        Memory.byte t.mem.dram a =
          if m.getLsbD (8 * v.val + b) then byteOf data (8 * v.val + b)
          else if flags v = 0 then Memory.byte s.mem.dram a else Memory.byte s.mem.dram a ^^^ asRead v b)
      ∧ (∀ h v, t.mem.errors h v = if h = g ∧ flags v ≠ 0 then 0 else s.mem.errors h v)
      ∧ (∀ h, t.mem.mark h =
        if h = g then m != BitVec.allOnes 64 && (s.mem.mark g || merged 2 != 0) else s.mem.mark h)
      ∧ t.mem.corrected.toNat
        = min 65535 (s.mem.corrected.toNat + if s.mem.mark g = true ∧ merged 2 = 0 then 0 else merged 1)
      ∧ t.mem.uncorrected.toNat = min 65535 (s.mem.uncorrected.toNat + merged 2)
      ∧ (s.mem.firstFault ≠ none ∨ merged 2 = 0 → t.mem.firstFault = s.mem.firstFault)
      ∧ (s.mem.firstFault = none →
        let found : Fin 8 → Prop := fun v => flags v ≠ 0 ∧ flags v ≠ 255 ∧ bitCount (s.mem.errors g v) = 2
        ∀ v, found v → (∀ u, u < v → ¬found u) → t.mem.firstFault = some ⟨g, v⟩)
      ∧ t.svc.eventStatus.getLsbD 7 = (s.svc.eventStatus.getLsbD 7 || merged 2 != 0)

/-- An ATOMIC_RMW of a granule without mark replaces its word by the operation's result, or leaves it where a
COMPARE_SWAP fails; of a marked granule it changes nothing. A word that is uncorrectable stays as it is: the granule is
marked, and the word counted, recorded and raised as by a READ. A POISON_SET sets the mark and nothing else. -/
def Obligations.AtomicsAndPoisonSetsAct : Prop :=
  ∀ (b : AtomicBlock) (g : Granule) (o : Origin) (rest : List MemOp) (s : State),
    s.inReset = false → s.tablesCanonical → g.toNat < s.mem.granuleCount →
    let stored : State → Prop := fun t =>
      (∀ a, Memory.byte t.mem.dram a = Memory.byte s.mem.dram a) ∧ t.mem.bitErrors = s.mem.bitErrors
    let kept : State → Prop := fun t =>
      stored t ∧ t.mem.uncorrected = s.mem.uncorrected ∧ t.mem.firstFault = s.mem.firstFault
    (s.mem.queue = ⟨.poisonSet, g, o⟩ :: rest →
      ∃ t, exec .poisonSetComplete s = .next t ∧ kept t ∧ t.mem.corrected = s.mem.corrected
        ∧ ∀ h, t.mem.mark h = (h == g || s.mem.mark h))
      ∧ (s.mem.queue = ⟨.atomicRmw b, g, o⟩ :: rest →
        (s.mem.mark g = true →
          ∃ t, exec .atomicRmwComplete s = .next t ∧ kept t ∧ t.mem.corrected = s.mem.corrected
            ∧ ∀ h, t.mem.mark h = s.mem.mark h)
          ∧ (s.mem.mark g = false → bitCount (s.mem.errors g b.word) = 2 →
            ∃ t, exec .atomicRmwComplete s = .next t ∧ stored t ∧ t.mem.corrected = s.mem.corrected
              ∧ (∀ h, t.mem.mark h = (h == g || s.mem.mark h))
              ∧ t.mem.uncorrected.toNat = min 65535 (s.mem.uncorrected.toNat + 1)
              ∧ t.mem.firstFault = (if s.mem.firstFault = none then some ⟨g, b.word⟩ else s.mem.firstFault)
              ∧ t.svc.eventStatus.getLsbD 7 = true)
          ∧ ∀ old : Word, s.mem.mark g = false → bitCount (s.mem.errors g b.word) ≤ 1 →
            (∀ n, n < 8 → old.extractLsb' (8 * n) 8 = Memory.byte s.mem.dram (64 * g.toNat + 8 * b.word.val + n)) →
            let result : Option Word :=
              match b.op with
              | .fetchAdd => some (old + b.a)
              | .swap => some b.a
              | .compareSwap => if old = b.a then some b.b else none
            ∃ t, exec .atomicRmwComplete s = .next t ∧ (∀ h, t.mem.mark h = s.mem.mark h)
              ∧ t.mem.uncorrected = s.mem.uncorrected ∧ t.mem.firstFault = s.mem.firstFault
              ∧ t.mem.corrected.toNat = min 65535 (s.mem.corrected.toNat + bitCount (s.mem.errors g b.word))
              ∧ (result = none → kept t)
              ∧ ∀ new, result = some new →
                (∀ a, Memory.byte t.mem.dram a =
                  if a / 8 = 8 * g.toNat + b.word.val then new.extractLsb' (8 * (a % 8)) 8
                  else Memory.byte s.mem.dram a)
                  ∧ ∀ h v, t.mem.errors h v = if h = g ∧ v = b.word then 0 else s.mem.errors h v)

/-! ### Links -/

/-- LINK_UP; LINK_LOST, which empties the outbound queue and tells the controller; and the sending of the oldest frame,
after which intake takes the frame that waits while fewer than 32 are queued; that it is taken in the change of the sending
itself is the model's choice (log 30). -/
def Obligations.LinkEvents : Prop :=
  ∀ (p : Port) (s : State), s.inReset = false →
    let i := s.ifaces.get p
    exec (.linkUp p) s = .next { s with ifaces := s.ifaces.set p { i with linkUp := true } }
      ∧ (i.linkUp = true → i.waiting = [] →
        ∃ t, exec (.linkLost p) s = .next t
          ∧ t = { s with
              freeDraws := t.freeDraws
              ifaces := s.ifaces.set p { i with linkUp := false, outq := [] }
              ctl := { s.ctl with linkLost := s.ctl.linkLost.set p (s.ctl.linkLost.get p + 1) } })
      ∧ ∀ f fs, i.outq = f :: fs →
        let sent : State := { s with ifaces := s.ifaces.set p { i with outq := fs, waiting := [] } }
        (i.waiting = [] → exec (.frameSent p) s = .next sent)
          ∧ (32 ≤ fs.length → exec (.frameSent p) s = .next { s with ifaces := s.ifaces.set p { i with outq := fs } })
          ∧ ∀ w, i.linkUp = true → i.waiting = [w] → fs.length < 32 → exec (.frameSent p) s = exec (w.instr p) sent

/-! ### CONTROL frames and windows -/

/-- A CONTROL frame of a member is judged by its grant, its command code and its owner, and is answered on its own link:
a refusal changes nothing else. RELEASE, and HOLD_ON of a port that is no member, are stated whole. Of EJECT the record, the
DEPART job, the freed slots and the NOTICE are stated, and not the chains and the BOUNCEs; of FENCE, and of HOLD_ON of a
member, the record and the two outbound queues, and not the FENCE job and the slots. A card that fences itself receives no
answer. -/
def Obligations.ControlFramesAreAnswered : Prop :=
  ∀ (p : Port) (g : Granule) (b : ControlBlock) (s : State), s.receives p →
    s.portState p = .active ∨ s.portState p = .departing →
    let bounced : Reason → State := fun reason => s.queued p (.bounce 14 g reason)
    let acked : State → Word → State := fun t v => t.queued p (.ack 14 0 .ok (.value v) false)
    let granted := (s.ctl.ports.get p).controlGrant = true
    ((s.ctl.ports.get p).controlGrant = false → exec (.control p g b) s = .next (bounced .refused))
      ∧ (granted → b.code = 0 ∨ 10 ≤ b.code.toNat → exec (.control p g b) s = .next (bounced .badArgument))
      ∧ (granted → b.code.toNat = 1 → ∀ r : Reg, b.offset.toNat = r.offset →
        exec (.control p g b) s = .next (acked s (readRegister s r)))
      ∧ (granted → b.code.toNat = 1 ∨ b.code.toNat = 2 → (∀ r : Reg, b.offset.toNat ≠ r.offset) →
        exec (.control p g b) s = .next (bounced .badArgument))
      ∧ (granted → 3 ≤ b.code.toNat → b.code.toNat ≤ 8 → 4 ≤ b.arg.toNat →
        exec (.control p g b) s = .next (bounced .badArgument))
      ∧ (granted → b.code.toNat = 3 → ∀ q : Port, b.arg = q.byte →
        (s.portState q ≠ .held ∨ (s.ctl.ports.get q).holdFlag = true →
          exec (.control p g b) s = .next (bounced .wrongState))
          ∧ (s.portState q = .held → (s.ctl.ports.get q).holdFlag = false →
            ∃ t, exec (.control p g b) s = .next t
              ∧ t = { acked (s.withPort q { s.ctl.ports.get q with state := .joinable }) 0 with
                  freeDraws := t.freeDraws }))
      ∧ ∀ q : Port, granted → b.arg = q.byte →
        let r := s.ctl.ports.get q
        let ack : HubFrame := .ack 14 0 .ok (.value 0) false
        let gone : FenceReason → PortRec → PortRec := fun reason r =>
          { r with
            state := .fencing, fenceReason := some reason, deadline := none, leaveAsked := false,
            sweepFinished := false }
        let fenced : FenceReason → PortRec → Prop := fun reason r =>
          ∃ t, exec (.control p g b) s = .next t ∧ t.ctl.ports.get q = gone reason r
            ∧ (q = p → (t.ifaces.get p).outq = [])
            ∧ (q ≠ p → ack ∈ (t.ifaces.get p).outq ∧ (t.ifaces.get q).outq = [])
        let moved : State → Prop := fun u =>
          ∃ t, exec (.control p g b) s = .next t ∧ t = { acked u 0 with freeDraws := t.freeDraws }
        let wait : SlotId → Bool := fun i => slotPort i == some q && (s.txn i).any fun x => x.phase == .waiting
        (b.code.toNat = 4 ∧ s.portState q ≠ .active
            ∨ b.code.toNat = 5 ∧ s.portState q ≠ .active ∧ s.portState q ≠ .departing
            ∨ b.code.toNat = 6 ∧ s.portState q ≠ .fenced →
          exec (.control p g b) s = .next (bounced .wrongState))
          ∧ (b.code.toNat = 4 → s.portState q = .active →
            ∃ t, exec (.control p g b) s = .next t
              ∧ t = { s with
                  freeDraws := t.freeDraws
                  table := t.table
                  ctl := { s.ctl with
                    ports := s.ctl.ports.set q
                      { r with
                        state := .departing
                        sweepFinished := false
                        deadline :=
                          if s.ctl.departLimit = 0 then none else some (s.now + 1000 * s.ctl.departLimit.toNat) } }
                  ifaces := t.ifaces
                  sweep := { s.sweep with
                    jobs := s.sweep.jobs ++ [.depart q]
                    walk := if s.sweep.jobs = [] then .start else s.sweep.walk } }
              ∧ t.table.recallLimit = s.table.recallLimit ∧ (∀ i, t.txn i = if wait i then none else s.txn i)
              ∧ ack ∈ (t.ifaces.get p).outq
              ∧ ((s.ifaces.get q).linkUp = true → .notice (.leaveAskedEject q) s.ctl.epoch ∈ (t.ifaces.get q).outq)
              ∧ ∀ k, k ≠ p → k ≠ q → t.ifaces.get k = s.ifaces.get k)
          ∧ (b.code.toNat = 5 → s.portState q = .active ∨ s.portState q = .departing → fenced .manager r)
          ∧ (b.code.toNat = 6 → s.portState q = .fenced →
            (r.latchClosed = false → moved (s.withPort q { r with state := .parked }))
              ∧ (r.latchClosed = true → r.holdFlag = true ∨ s.ctl.admitMode = .managed →
                moved ((s.withPort q { r with state := .held }).latched .admitWait))
              ∧ (r.latchClosed = true → r.holdFlag = false → s.ctl.admitMode = .auto →
                moved (s.withPort q { r with state := .joinable })))
          ∧ (b.code.toNat = 7 →
            (s.portState q = .active ∨ s.portState q = .departing → fenced .hold { r with holdFlag := true })
              ∧ (s.portState q = .joinable → moved (s.withPort q { r with holdFlag := true, state := .held }))
              ∧ (s.portState q = .empty ∨ s.portState q = .parked ∨ s.portState q = .held ∨ s.portState q = .fencing
                  ∨ s.portState q = .fenced →
                moved (s.withPort q { r with holdFlag := true })))

/-- REG_WRITE in a CONTROL frame: read-only registers and EVENT_STATUS are refused, the control grant is left as it
stands, and the other registers are written as from the service port. -/
def Obligations.ControlFramesWriteRegisters : Prop :=
  ∀ (p : Port) (g : Granule) (b : ControlBlock) (r : Reg) (s : State), s.receives p →
    s.portState p = .active ∨ s.portState p = .departing → (s.ctl.ports.get p).controlGrant = true →
    b.code.toNat = 2 → b.offset.toNat = r.offset →
    let bounced : Reason → State := fun reason => s.queued p (.bounce 14 g reason)
    let done : State → State := fun t => t.queued p (.ack 14 0 .ok (.value 0) false)
    let v := b.value
    (r.readOnly = true → exec (.control p g b) s = .next (bounced .badArgument))
      ∧ (r = .eventStatus → exec (.control p g b) s = .next (bounced .refused))
      ∧ (∀ q, r = .portControl q → exec (.control p g b) s = .next (done (s.withPort q
        { s.ctl.ports.get q with indicatorForced := v.getLsbD 1 })))
      ∧ (r = .eventEnable → exec (.control p g b) s = .next (done
        { s with svc := { s.svc with eventEnable := v.extractLsb' 0 11 } }))
      ∧ (r = .admitMode → exec (.control p g b) s = .next (done
        { s with ctl := { s.ctl with admitMode := if v.getLsbD 0 then .managed else .auto } }))
      ∧ (r = .recallLimit → exec (.control p g b) s = .next (done
        { s with table := { s.table with
          recallLimit := if (v.extractLsb' 0 16).toNat < 10 then 10 else v.extractLsb' 0 16 } }))
      ∧ (r = .departLimit → exec (.control p g b) s = .next (done
        { s with ctl := { s.ctl with departLimit := v.extractLsb' 0 16 } }))
      ∧ (r = .corrected → exec (.control p g b) s = .next (done { s with mem := { s.mem with corrected := 0 } }))
      ∧ (r = .uncorrected → exec (.control p g b) s = .next (done { s with mem := { s.mem with uncorrected := 0 } }))
      ∧ (r = .firstFault → exec (.control p g b) s = .next (done { s with mem := { s.mem with firstFault := none } }))
      ∧ ∀ q, r = .protoErrors q → exec (.control p g b) s = .next (done
        { s with ifaces := s.ifaces.set q { s.ifaces.get q with protoErrors := 0 } })

/-- SET_WINDOW, from the service port and from a granted member: refused when its arguments are out of range, else the
entry is replaced whole, a RECHECK is queued unless one waits, and RIGHTS_CHANGED is queued for every ACTIVE port, behind
the answer to the sender. -/
def Obligations.SetWindowReplacesTheEntry : Prop :=
  ∀ (index valid : Byte) (base limit : Granule) (rights : Byte) (s : State),
    let right : Nat → Right := fun n =>
      if rights.getLsbD (2 * n + 1) then .write else if rights.getLsbD (2 * n) then .read else .none
    let jobs := if Job.recheck ∈ s.sweep.jobs.tail then s.sweep.jobs else s.sweep.jobs ++ [.recheck]
    let sweep : Sweep := { s.sweep with jobs := jobs, walk := if s.sweep.jobs = [] then .start else s.sweep.walk }
    let inRange := index.toNat < 8 ∧ base ≤ limit ∧ limit.toNat < s.mem.granuleCount
    let told : Fin 8 → Port → List HubFrame := fun k q =>
      if s.portState q = .active ∧ (s.ifaces.get q).linkUp = true then [.notice (.rightsChanged k) s.ctl.epoch] else []
    let changed : Fin 8 → State := fun k =>
      { s with
        windows := s.windows.set k.val ⟨valid != 0, base, limit, ⟨right 0, right 1, right 2, right 3⟩⟩ k.isLt
        sweep := sweep }
    (s.serves →
      (¬inRange → exec (.setWindow index valid base limit rights) s = .next (s.responding [8]))
        ∧ (inRange → ∀ k : Fin 8, k.val = index.toNat →
          ∃ t, exec (.setWindow index valid base limit rights) s = .next t
            ∧ t = { (changed k).responding [0] with ifaces := t.ifaces }
            ∧ ∀ q, t.ifaces.get q = { s.ifaces.get q with outq := (s.ifaces.get q).outq ++ told k q }))
      ∧ ∀ (p : Port) (g : Granule) (b : ControlBlock), s.receives p →
        s.portState p = .active ∨ s.portState p = .departing → (s.ctl.ports.get p).controlGrant = true →
        b.code.toNat = 9 → b.arg = index → b.valid = valid → b.base = base → b.value.extractLsb' 0 23 = limit →
        b.value.extractLsb' 24 8 = rights →
        (¬inRange → exec (.control p g b) s = .next (s.queued p (.bounce 14 g .badArgument)))
          ∧ (inRange → ∀ k : Fin 8, k.val = index.toNat →
            ∃ t, exec (.control p g b) s = .next t ∧ t = { changed k with ifaces := t.ifaces }
              ∧ ∀ q, t.ifaces.get q = { s.ifaces.get q with
                outq :=
                  (s.ifaces.get q).outq ++ (if q = p then [.ack 14 0 .ok (.value 0) false] else []) ++ told k q })

/-! ### The sweep engine -/

/-- A visit of the walk: without a job, or while it is paused, nothing happens; an invalid way or an entry that the action
does not concern is passed; an entry locked evicting holds a DEPART or RECHECK; FENCE and CLEAR remove their holders and
poison an owned granule. After the last way of the last set the job leaves the queue and is reported, and the next job's
walk starts, or SWEEP_IDLE is raised. Pause MEMORY ends when the pending POISON_SET enters the queue; pause EVICTING ends
with the eviction, whose new entry the walk passes. -/
def Obligations.WalkVisits : Prop :=
  ∀ (s : State), s.inReset = false → s.tablesCanonical →
    let walk := s.sweep.walk
    let paused : Pause → Sweep := fun p => { s.sweep with walk := { walk with pause := p } }
    (s.sweep.jobs = [] ∨ walk.pause ≠ .none → exec .walkVisit s = .next s)
      ∧ (∀ job jobs, s.sweep.jobs = job :: jobs → walk.pause = .none →
        (s.currentEntry = none → exec .walkVisit s = .next s.passed)
          ∧ ∀ e, s.currentEntry = some e →
            ((∃ j, e.lock = .evicting j) → job = .recheck ∨ (∃ p, job = .depart p) →
              exec .walkVisit s = .next { s with sweep := paused .evicting })
              ∧ ((∀ j, e.lock ≠ .evicting j) →
                (∃ p, job = .depart p ∧ e.holders.get p = false)
                  ∨ job = .recheck ∧ (∀ p, e.holders.get p = true →
                    s.right p e.granule = .write ∨ s.right p e.granule = .read ∧ e.mode = .readers) →
                exec .walkVisit s = .next s.passed)
              ∧ ((∃ p, job = .fence p ∧ e.holders.get p = false) ∨ job = .clear ∧ e.holders = .const false →
                exec .walkVisit s = .next s.passed)
              ∧ ∀ kept : PerPort Bool,
                (∃ p, job = .fence p ∧ e.holders.get p = true ∧ kept = e.holders.set p false)
                  ∨ job = .clear ∧ e.holders ≠ .const false ∧ kept = .const false →
                s.EntryAt e.granule walk.way e →
                let mem := if e.mode = .owner then s.mem.offered ⟨.poisonSet, e.granule, .sweep⟩ else s.mem
                ∃ t, exec .walkVisit s = .next t
                  ∧ (let removed : State := { s with dir := t.dir, mem := mem }
                    t = if e.mode = .readers ∨ mem.waiting = [] then removed.passed
                      else { removed with sweep := paused .memory })
                  ∧ s.wayBecomes t e.granule walk.way
                    (if e.lock = .none ∧ kept = .const false then none else some { e with holders := kept }))
      ∧ (∀ (g h : Granule) (rest : List MemOp), s.settled → walk.pause = .memory →
        s.mem.queue = ⟨.poisonSet, g, .sweep⟩ :: rest → s.mem.waiting = [⟨.poisonSet, h, .sweep⟩] →
        g.toNat < s.mem.granuleCount →
        ∃ t, exec .poisonSetComplete s = .next t
          ∧ t = State.passed
            { s with
              mem := { s.mem with
                queue := rest ++ [⟨.poisonSet, h, .sweep⟩], waiting := [], poison := t.mem.poison } })
      ∧ ∀ (job : Job) (jobs : List Job) (p : Port) (tag : Tag) (g : Granule) (recallId : Byte) (i : SlotId) (x : Txn)
          (w : Fin 8) (e : Entry),
        s.settled → s.receives p → s.portState p = .active ∨ s.portState p = .departing →
        i.val = recallId.toNat → s.txn i = some x → x.phase = .evicting → x.victim = some g →
        x.kind = .member .readShare ∨ x.kind = .member .readOwn ∨ x.kind = .member .promote →
        x.awaited = (PerPort.const none).set p (some ⟨.revoke, false⟩) →
        s.EntryAt g w e → e.lock = .evicting i → e.holders = (PerPort.const false).set p true →
        setOf x.granule = setOf g → s.NoEntry x.granule →
        (∀ y, s.txn serviceSlot = some y → y.phase ≠ .waiting ∨ y.granule ≠ g) →
        s.sweep.jobs = job :: jobs → job = .recheck ∨ (∃ q, job = .depart q) →
        walk.pause = .evicting → walk.set.val = setOf g → walk.way = w →
        ∃ t, exec (.yield p tag g recallId .clean) s = .next t
          ∧ t = State.passed
            { s with
              freeDraws := t.freeDraws
              table := { s.table with slots := t.table.slots }
              dir := t.dir
              mem := s.mem.offered ⟨.read, x.granule, .slot i⟩ }
          ∧ s.slotBecomes t i
            (some { x with phase := .memory, awaited := .const none, victim := none, deadline := none })
          ∧ (t.dirSet (setOf g)).ways.get w = some ⟨x.granule, .readers, .const false, .busy i⟩

/-- A DEPART visit of an entry that its port holds, and a RECHECK visit of an entry with a holder whose right is too low,
place the sweep slot, which recalls the port; the walk waits for the slot. In a chain that is not empty the slot waits at
the tail; while it is still in use for a job that was stopped, it is not placed. When its transaction ends, the walk that
used it moves on, and a walk that waits for it visits its entry afresh. -/
def Obligations.WalkRecallsThroughTheSweepSlot : Prop :=
  ∀ (s : State), s.inReset = false →
    (∀ (job : Job) (jobs : List Job) (kind : TxnKind) (e : Entry),
      s.sweep.jobs = job :: jobs → s.sweep.walk.pause = .none → s.currentEntry = some e →
      s.EntryAt e.granule s.sweep.walk.way e → (∀ j, e.lock ≠ .evicting j) →
      let asks : Port → Option RecallKind := fun q =>
        if e.holders.get q = false then none
        else
          match job with
          | .depart p => if q = p then some .revoke else none
          | _ =>
            if s.right q e.granule = .none then some .revoke
            else if s.right q e.granule = .read ∧ e.mode = .owner then some .demote else none
      (∃ p, job = .depart p ∧ kind = .sweepDepart p) ∨ job = .recheck ∧ kind = .sweepRecheck →
      (∃ q, asks q ≠ none) →
      let paused : Pause → Sweep := fun p => { s.sweep with walk := { s.sweep.walk with pause := p } }
      (s.txn sweepSlot = none → s.chain e.granule = [] → e.lock = .none →
        (∀ q, e.holders.get q = true → s.portState q = .active ∨ s.portState q = .departing) →
        ∃ t, exec .walkVisit s = .next t
          ∧ t = { s with table := t.table, dir := t.dir, ifaces := t.ifaces, sweep := paused .slot }
          ∧ s.slotBecomes t sweepSlot (some
            { Txn.plain .recalling kind e.granule with
              awaited := awaiting asks, deadline := some (s.now + s.table.recallLimit.toNat) })
          ∧ s.chainBecomes t e.granule [sweepSlot]
          ∧ s.wayBecomes t e.granule s.sweep.walk.way (some { e with lock := .busy sweepSlot })
          ∧ s.recallsQueued t e.granule sweepSlot asks)
        ∧ (s.txn sweepSlot = none → s.chain e.granule ≠ [] →
          ∃ t, exec .walkVisit s = .next t ∧ t = { s with table := t.table, sweep := paused .slot }
            ∧ s.slotBecomes t sweepSlot (some (.plain .waiting kind e.granule))
            ∧ s.chainBecomes t e.granule (s.chain e.granule ++ [sweepSlot]))
        ∧ (s.txn sweepSlot ≠ none → exec .walkVisit s = .next { s with sweep := paused .slotInUse }))
      ∧ ∀ (p : Port) (tag : Tag) (g : Granule) (recallId : Byte) (o : YieldOutcome) (x : Txn) (kind : RecallKind)
          (w : Fin 8) (e : Entry),
        s.settled → s.tablesCanonical → s.receives p → s.portState p = .active ∨ s.portState p = .departing →
        recallId.toNat = 48 → s.txn sweepSlot = some x → x.phase = .recalling → x.granule = g → x.victim = none →
        x.kind = .sweepRecheck ∨ x.kind = .sweepWithdrawn ∨ (∃ q, x.kind = .sweepDepart q) →
        x.awaited = (PerPort.const none).set p (some ⟨kind, false⟩) → s.outstanding sweepSlot = 0 →
        s.chain g = [sweepSlot] → s.EntryAt g w e → e.lock = .busy sweepSlot → o = .clean ∨ o = .absent →
        let gone : PerPort Bool := e.holders.set p false
        let left : Option Entry :=
          if kind = .demote ∧ o = .clean then
            if e.holders = .const false then none
            else some { e with mode := if e.holders.get p = true then .readers else e.mode, lock := .none }
          else if gone = .const false then none
          else some { e with holders := gone, lock := .none }
        let freed : State → Prop := fun t =>
          s.slotBecomes t sweepSlot none ∧ s.chainBecomes t g [] ∧ s.wayBecomes t g w left
        (s.sweep.walk.pause = .slot →
          ∃ t, exec (.yield p tag g recallId o) s = .next t
            ∧ t = State.passed { s with table := t.table, dir := t.dir } ∧ freed t)
          ∧ (s.sweep.walk.pause = .slotInUse →
            ∃ u, exec (.yield p tag g recallId o) s = exec .walkVisit u
              ∧ u = { s with
                  table := u.table
                  dir := u.dir
                  sweep := { s.sweep with walk := { s.sweep.walk with pause := .none } } }
              ∧ freed u)

/-- The reports: a DEPART or FENCE report sets sweep finished where its port is in DEPARTING or FENCING, which leaves when
its slots allow it; a CLEAR report finishes every port in FENCING and ends the clear. -/
def Obligations.ReportsAreTaken : Prop :=
  ∀ (s : State) (rest : List Report), s.inReset = false → s.settled →
    let dropped : State := { s with sweep := { s.sweep with reports := rest } }
    (∀ p, s.sweep.reports = .depart p :: rest ∧ s.portState p ≠ .departing
          ∨ s.sweep.reports = .fence p :: rest ∧ s.portState p ≠ .fencing →
      exec .sweepReport s = .next dropped)
      ∧ (∀ p, s.sweep.reports = .depart p :: rest ∧ s.portState p = .departing ∧ 0 < s.occupied p
          ∨ s.sweep.reports = .fence p :: rest ∧ s.portState p = .fencing ∧ s.draining p = true →
        exec .sweepReport s = .next (dropped.withPort p { s.ctl.ports.get p with sweepFinished := true }))
      ∧ (∀ p, s.sweep.reports = .depart p :: rest → s.portState p = .departing → s.occupied p = 0 →
        (∀ i x, s.txn i = some x → x.awaited.get p = none) →
        ∃ t, exec .sweepReport s = .next t
          ∧ t = { (dropped.withPort p
                { s.ctl.ports.get p with
                  state := .parked, deadline := none, leaveAsked := false, sweepFinished := false,
                  joinedEpoch := none }).latched .parked with
              ctl := t.ctl, ifaces := t.ifaces }
          ∧ t.ctl = { s.ctl with
              epoch := s.ctl.epoch + 1
              ports := s.ctl.ports.set p
                { s.ctl.ports.get p with
                  state := .parked, deadline := none, leaveAsked := false, sweepFinished := false,
                  joinedEpoch := none } }
          ∧ ∀ q, t.ifaces.get q = { s.ifaces.get q with
              outq := (s.ifaces.get q).outq
                ++ if s.portState q = .active ∧ (s.ifaces.get q).linkUp = true then
                    [.notice (.memberDown p none) (s.ctl.epoch + 1)] else [] })
      ∧ (∀ p, s.sweep.reports = .fence p :: rest → s.portState p = .fencing → s.draining p = false →
        ∃ t, exec .sweepReport s = .next t
          ∧ t = { dropped.latched .fenced with ctl := t.ctl, ifaces := t.ifaces }
          ∧ t.ctl = { s.ctl with
              epoch := s.ctl.epoch + 1
              ports := s.ctl.ports.set p
                { s.ctl.ports.get p with
                  state := if (s.ctl.ports.get p).present then .fenced else .empty
                  sweepFinished := false
                  joinedEpoch := none } }
          ∧ ∀ q, t.ifaces.get q = { s.ifaces.get q with
              outq := (s.ifaces.get q).outq
                ++ if s.portState q = .active ∧ (s.ifaces.get q).linkUp = true then
                    [.notice (.memberDown p (s.ctl.ports.get p).fenceReason) (s.ctl.epoch + 1)] else [] })
      ∧ (s.sweep.reports = .clear :: rest → (∀ p, s.portState p = .fencing → s.draining p = true) →
        ∃ t, exec .clearReport s = .next t
          ∧ t = { dropped.latched .clearDone with
              ctl := { s.ctl with ports := t.ctl.ports }
              svc := { (dropped.latched .clearDone).svc with hubState := .running } }
          ∧ ∀ p, t.ctl.ports.get p =
            if s.portState p = .fencing then { s.ctl.ports.get p with sweepFinished := true } else s.ctl.ports.get p)

/-! ### HUB_CLEAR and the service slot -/

/-- HUB_CLEAR is refused BUSY while the hub initializes or clears or a memory command is pending; accepted, it fences every
member with reason CLEAR, and leaves every other port as it stands, but for one in FENCING that its sweep and its slots no
longer keep there. The CLEAR job is alone in the sweep queue, at the start of its walk, and the jobs that it replaces are
neither reported nor followed by SWEEP_IDLE. -/
def Obligations.HubClearFencesEveryMember : Prop :=
  ∀ (s : State), s.serves →
    let pending := ∃ c g, s.svc.result = .pending c g
    (s.svc.hubState ≠ .running ∨ pending → exec .hubClear s = .next (s.responding [3]))
      ∧ (s.svc.hubState = .running → ¬pending →
        ∃ t, exec .hubClear s = .next t ∧ t.svc.response = [0] ∧ t.svc.hubState = .clearing
          ∧ (s.txn serviceSlot = none → t.svc.result = s.svc.result)
          ∧ t.sweep = { s.sweep with jobs := [.clear], walk := .start }
          ∧ t.svc.eventStatus.getLsbD 8 = s.svc.eventStatus.getLsbD 8
          ∧ (∀ p, s.portState p = .active ∨ s.portState p = .departing →
            t.ctl.ports.get p =
              { s.ctl.ports.get p with
                state := .fencing, fenceReason := some .clear, deadline := none, leaveAsked := false,
                sweepFinished := false })
          ∧ (∀ p, s.portState p ≠ .active → s.portState p ≠ .departing →
            (s.portState p = .fencing → (s.ctl.ports.get p).sweepFinished = true → t.draining p = true) →
            t.ctl.ports.get p = s.ctl.ports.get p)
          ∧ (s.settled → (∀ p, s.portState p ≠ .active ∧ s.portState p ≠ .departing) →
            (∀ x, s.txn sweepSlot = some x → x.phase ≠ .waiting) →
            t = { s with
              sweep := { s.sweep with jobs := [.clear], walk := .start }
              svc := { s.svc with hubState := .clearing, response := [0] } }))

/-- MEM_PEEK and MEM_POKE: refused BUSY or BAD_ADDRESS, else the result is PENDING and the service slot is placed: at the
tail of a chain, or, of a granule without chain and entry, in MEMORY with its operation offered, or, of a granule that is
held, recalling the holders that stand in its way, under its own recall id; a MEM_POKE without mask flags is DONE at once;
and an evicting lock holds the slot outside any chain (log 14 for a mask without flags). -/
def Obligations.MemoryCommandsArePlaced : Prop :=
  ∀ (c : Instr) (kind : TxnKind) (command : MemCommand) (op : Option MemKind) (g : Granule) (s : State), s.serves →
    (∃ _ : Unit, c = .memPeek g ∧ kind = .memPeek ∧ command = .peek ∧ op = some .read)
        ∨ (∃ d m, c = .memPoke g d m ∧ kind = .memPoke d m ∧ command = .poke
          ∧ op = if m = 0 then none else if m = BitVec.allOnes 64 then some (.writeFull d) else some (.writePartial d m)) →
    let busy := s.svc.hubState = .initializing ∨ ∃ c g, s.svc.result = .pending c g
    let pending : State := State.responding { s with svc := { s.svc with result := .pending command g } } [0]
    (busy → exec c s = .next (s.responding [3]))
      ∧ (¬busy → s.mem.granuleCount ≤ g.toNat →
        exec c s = .next (State.responding { s with svc := { s.svc with result := .badAddress command g } } [4]))
      ∧ (¬busy → g.toNat < s.mem.granuleCount →
        (s.chain g ≠ [] →
          ∃ t, exec c s = .next t ∧ t = { pending with table := t.table }
            ∧ s.slotBecomes t serviceSlot (some (.plain .waiting kind g))
            ∧ s.chainBecomes t g (s.chain g ++ [serviceSlot]))
          ∧ (s.chain g = [] → (∃ w e j, s.EntryAt g w e ∧ e.lock = .evicting j) →
            ∃ t, exec c s = .next t ∧ t = { pending with table := { s.table with slots := t.table.slots } }
              ∧ s.slotBecomes t serviceSlot (some (.plain .waiting kind g)))
          ∧ (s.chain g = [] → s.NoEntry g → s.tablesCanonical → ∀ k, op = some k →
            ∃ t, exec c s = .next t
              ∧ t = { pending with table := t.table, mem := s.mem.offered ⟨k, g, .slot serviceSlot⟩ }
              ∧ s.slotBecomes t serviceSlot (some (.plain .memory kind g)) ∧ s.chainBecomes t g [serviceSlot])
          ∧ (s.chain g = [] → s.NoEntry g → s.tablesCanonical → s.txn serviceSlot = none → op = none →
            exec c s = .next
              (State.responding { s with svc := { s.svc with result := .done .poke g none false } } [0]))
          ∧ ∀ w e, s.chain g = [] → s.EntryAt g w e → e.lock = .none → op ≠ none →
            (∀ q, e.holders.get q = true → s.portState q = .active ∨ s.portState q = .departing) →
            let asks : Port → Option RecallKind := fun q =>
              if e.holders.get q = false then none
              else if command = .poke then some .revoke
              else if e.mode = .owner then some .demote else none
            (∃ q, asks q ≠ none) →
            ∃ t, exec c s = .next t ∧ t = { pending with table := t.table, dir := t.dir, ifaces := t.ifaces }
              ∧ s.slotBecomes t serviceSlot (some
                { Txn.plain .recalling kind g with
                  awaited := awaiting asks, deadline := some (s.now + s.table.recallLimit.toNat) })
              ∧ s.chainBecomes t g [serviceSlot]
              ∧ s.wayBecomes t g w (some { e with lock := .busy serviceSlot })
              ∧ s.recallsQueued t g serviceSlot asks)

/-! ### Laws that every step keeps -/

/-- Reset leaves a state that has every law. -/
def Obligations.ResetIsLawful : Prop :=
  State.reset.tablesCanonical ∧ State.reset.mem.lawful ∧ State.reset.directoryLawful ∧ State.reset.portsLawful
    ∧ State.reset.granulesInstalled ∧ State.reset.recallLimitLawful ∧ State.reset.settled
    ∧ State.reset.transactionsLawful ∧ State.reset.sweepLawful

/-- Every step keeps the canonical form of the tables, the law of the memory queue and RECALL_LIMIT at 10 or more. -/
def Obligations.StepKeepsTables : Prop :=
  ∀ s t : State, step s = .next t →
    (s.tablesCanonical → t.tablesCanonical) ∧ (s.mem.lawful → t.mem.lawful)
      ∧ (s.recallLimitLawful → t.recallLimitLawful)

/-- Every step keeps the laws of the directory: each entry stands in its own set and in one way, the allocation order
lists the valid ways once each, OWNER mode has at most one holder, and an entry without holder is locked. Every step keeps
those of the transaction table with them: a chain has a granule-active head and waiting slots behind it, and a lock is held
by exactly the active slot that needs it; only a slot in EVICTING or RECALLING awaits yields; the result record is PENDING
exactly while the service slot is not FREE. And every step keeps those of the sweep queue: at most one member job for each
port, at most one RECHECK that waits, a CLEAR never together with a member job, and at most six jobs. -/
def Obligations.StepKeepsDirectoryLaws : Prop :=
  ∀ s t : State, step s = .next t →
    (s.directoryLawful → t.directoryLawful)
      ∧ (s.transactionsLawful → s.sweepLawful →
        t.transactionsLawful ∧ t.sweepLawful ∧ t.sweep.queueLawful)

/-- Every step keeps the laws of the port records: a card stands behind every seated state, and no member's HOLD line is
asserted. -/
def Obligations.StepKeepsPortLaws : Prop := ∀ s t : State, step s = .next t → s.portsLawful → t.portsLawful

/-- Every step keeps every granule that an operation, a slot or an entry names below G, and the part at its reset state
while hub reset is taken, so that no step faults. -/
def Obligations.StepKeepsGranulesInstalled : Prop :=
  ∀ s : State, s.granulesInstalled → ∃ t, step s = .next t ∧ t.granulesInstalled

/-- Every step leaves no port waiting to leave DEPARTING or FENCING: the tests of R141 and R147 have been made. -/
def Obligations.StepKeepsPortsSettled : Prop := ∀ s t : State, step s = .next t → s.settled → t.settled
end

