-- ==== Sys2Proof/Laws/Sparse.lean ====
section
/-! SUPPORT. The laws of sparse tables: every write keeps the canonical form, a read after a write to the same key
gives the value written, a write leaves every other key alone, and canonical tables that read alike are equal. -/

namespace Sys2Proof.Sparse

variable {α : Type} [DecidableEq α] {d : α}

omit [DecidableEq α] in
theorem get_of_lt {m : List (Nat × α)} {k : Nat} (h : ∀ e ∈ m, k < e.1) : get d m k = d := by
  induction m with
  | nil => rfl
  | cons x m ih =>
    obtain ⟨a, v⟩ := x
    have ha : k < a := h (a, v) (by simp)
    simp only [get]
    rw [if_neg (by omega), ih fun e he => h e (List.mem_cons_of_mem _ he)]

theorem mem_set {m : List (Nat × α)} {k : Nat} {v : α} {e : Nat × α} (h : e ∈ set d m k v) :
    e = (k, v) ∧ v ≠ d ∨ e ∈ m := by
  induction m with
  | nil =>
    simp only [set] at h
    split at h
    · simp at h
    · exact .inl ⟨by simpa using h, ‹_›⟩
  | cons x m ih =>
    obtain ⟨a, w⟩ := x
    simp only [set] at h
    split at h
    · split at h
      · exact .inr h
      · rcases List.mem_cons.1 h with h | h
        · exact .inl ⟨h, ‹_›⟩
        · exact .inr h
    · split at h
      · split at h
        · exact .inr (List.mem_cons_of_mem _ h)
        · rcases List.mem_cons.1 h with h | h
          · exact .inl ⟨h, ‹_›⟩
          · exact .inr (List.mem_cons_of_mem _ h)
      · rcases List.mem_cons.1 h with h | h
        · exact .inr (h ▸ List.mem_cons_self)
        · rcases ih h with h | h
          · exact .inl h
          · exact .inr (List.mem_cons_of_mem _ h)

theorem wf_nil : wf d ([] : List (Nat × α)) := ⟨.nil, by simp⟩

/-- Every write keeps the canonical form. -/
theorem wf_set {m : List (Nat × α)} (h : wf d m) (k : Nat) (v : α) : wf d (set d m k v) := by
  refine ⟨?_, fun e he => ?_⟩
  · obtain ⟨hs, -⟩ := h
    induction m with
    | nil => simp only [set]; split <;> simp
    | cons x m ih =>
      obtain ⟨a, w⟩ := x
      obtain ⟨ha, hm⟩ := List.pairwise_cons.1 hs
      simp only [set]
      split
      · split
        · exact hs
        · refine List.pairwise_cons.2 ⟨fun e he => ?_, hs⟩
          rcases List.mem_cons.1 he with he | he
          · subst he; assumption
          · exact lt_trans ‹_› (ha e he)
      · split
        · split
          · exact hm
          · rename_i hk _
            subst hk
            exact List.pairwise_cons.2 ⟨ha, hm⟩
        · refine List.pairwise_cons.2 ⟨fun e he => ?_, ih hm⟩
          rcases mem_set he with ⟨rfl, -⟩ | he
          · simp only; omega
          · exact ha e he
  · rcases mem_set he with ⟨rfl, hv⟩ | he
    · exact hv
    · exact h.2 e he

/-- A read after a write to the same key gives the value written. -/
theorem get_set_same {m : List (Nat × α)} (h : wf d m) (k : Nat) (v : α) : get d (set d m k v) k = v := by
  obtain ⟨hs, -⟩ := h
  induction m with
  | nil =>
    simp only [set]
    split
    · simp_all [get]
    · simp [get]
  | cons x m ih =>
    obtain ⟨a, w⟩ := x
    obtain ⟨ha, hm⟩ := List.pairwise_cons.1 hs
    simp only [set]
    split
    · rename_i hlt
      split
      · rename_i hv
        rw [hv]
        refine get_of_lt fun e he => ?_
        rcases List.mem_cons.1 he with he | he
        · subst he; exact hlt
        · exact lt_trans hlt (ha e he)
      · simp [get]
    · split
      · rename_i hk
        split
        · rename_i hv
          rw [hv]
          exact get_of_lt fun e he => hk ▸ ha e he
        · simp [get]
      · simp only [get]
        rw [if_neg (by omega), ih hm]

/-- A write leaves every other key alone. -/
theorem get_set_other {m : List (Nat × α)} {k j : Nat} {v : α} (h : j ≠ k) : get d (set d m k v) j = get d m j := by
  induction m with
  | nil =>
    simp only [set]
    split
    · rfl
    · simp [get, h.symm]
  | cons x m ih =>
    obtain ⟨a, w⟩ := x
    simp only [set]
    split
    · split
      · rfl
      · simp [get, h.symm]
    · split
      · rename_i hk
        split
        · simp [get, ← hk, h.symm]
        · simp [get, ← hk, h.symm]
      · simp only [get, ih]

theorem get_set {m : List (Nat × α)} (h : wf d m) (k j : Nat) (v : α) :
    get d (set d m k v) j = if j = k then v else get d m j := by
  split
  · rename_i hj; rw [hj, get_set_same h]
  · rename_i hj; exact get_set_other hj

/-- A value other than the default is read back whatever the table's form. -/
theorem get_set_of_ne {m : List (Nat × α)} {k : Nat} {v : α} (hv : v ≠ d) (j : Nat) :
    get d (set d m k v) j = if j = k then v else get d m j := by
  split
  · subst j
    induction m with
    | nil => simp [set, get, hv]
    | cons e m ih =>
      obtain ⟨a, w⟩ := e
      simp only [set, if_neg hv]
      split
      · simp [get]
      · split
        · simp [get]
        · rename_i h1 h2
          simp only [get]
          rw [if_neg (fun h => h2 h.symm)]
          exact ih
  · exact get_set_other ‹_›

theorem get_eq_of_mem {m : List (Nat × α)} (h : wf d m) {e : Nat × α} (he : e ∈ m) : get d m e.1 = e.2 := by
  obtain ⟨hs, -⟩ := h
  induction m with
  | nil => simp at he
  | cons x m ih =>
    obtain ⟨ha, hm⟩ := List.pairwise_cons.1 hs
    rcases List.mem_cons.1 he with he | he
    · subst he; simp [get]
    · have := ha e he
      simp only [get]
      rw [if_neg (by omega), ih he hm]

/-- Canonical tables that read alike at every key are equal data. -/
theorem ext_get {m n : List (Nat × α)} (hm : wf d m) (hn : wf d n) (h : ∀ k, get d m k = get d n k) : m = n := by
  induction m generalizing n with
  | nil =>
    cases n with
    | nil => rfl
    | cons y n =>
      have := h y.1
      rw [get_eq_of_mem hn List.mem_cons_self] at this
      exact absurd this.symm (hn.2 y List.mem_cons_self)
  | cons x m ih =>
    cases n with
    | nil =>
      have := h x.1
      rw [get_eq_of_mem hm List.mem_cons_self] at this
      exact absurd this (hm.2 x List.mem_cons_self)
    | cons y n =>
      obtain ⟨hx, hm'⟩ := List.pairwise_cons.1 hm.1
      obtain ⟨hy, hn'⟩ := List.pairwise_cons.1 hn.1
      have hkey : x.1 = y.1 := by
        rcases lt_trichotomy x.1 y.1 with hlt | heq | hlt
        · have h1 := h x.1
          rw [get_eq_of_mem hm List.mem_cons_self, get_of_lt (d := d) (m := y :: n)] at h1
          · exact absurd h1 (hm.2 x List.mem_cons_self)
          · intro e he
            rcases List.mem_cons.1 he with he | he
            · subst he; exact hlt
            · exact lt_trans hlt (hy e he)
        · exact heq
        · have h1 := h y.1
          rw [get_eq_of_mem hn List.mem_cons_self, get_of_lt (d := d) (m := x :: m)] at h1
          · exact absurd h1.symm (hn.2 y List.mem_cons_self)
          · intro e he
            rcases List.mem_cons.1 he with he | he
            · subst he; exact hlt
            · exact lt_trans hlt (hx e he)
      have hval : x.2 = y.2 := by
        have h1 := h x.1
        rw [get_eq_of_mem hm List.mem_cons_self, hkey, get_eq_of_mem hn List.mem_cons_self] at h1
        exact h1
      have hhead : x = y := Prod.ext hkey hval
      subst hhead
      congr 1
      refine ih ⟨hm', fun e he => hm.2 e (List.mem_cons_of_mem _ he)⟩
        ⟨hn', fun e he => hn.2 e (List.mem_cons_of_mem _ he)⟩ fun k => ?_
      by_cases hk : x.1 = k
      · subst hk
        rw [get_of_lt hx, get_of_lt hy]
      · have h1 := h k
        simpa [get, hk] using h1

/-- Writing what is there leaves a canonical table as it is. -/
theorem set_self {m : List (Nat × α)} (h : wf d m) (k : Nat) : set d m k (get d m k) = m := by
  refine ext_get (wf_set h _ _) h fun j => ?_
  rw [get_set h]
  split
  · rename_i hj; rw [hj]
  · rfl

end Sys2Proof.Sparse
end

