-- ==== Sys2Proof/Laws/State.lean ====
section
/-! SUPPORT. One lemma for each field and each named update of the state: the field that the update writes, and every
field that it leaves alone. -/

namespace Sys2Proof.Machine

variable (s : State)

/-! ### setTxn -/

@[simp] theorem setTxn_slots (i : SlotId) (t : Option Txn) :
    (s.setTxn i t).table.slots = s.table.slots.set i.val t i.isLt := rfl

@[simp] theorem setTxn_chains (i : SlotId) (t : Option Txn) : (s.setTxn i t).table.chains = s.table.chains := rfl

@[simp] theorem setTxn_recallLimit (i : SlotId) (t : Option Txn) :
    (s.setTxn i t).table.recallLimit = s.table.recallLimit := rfl

@[simp] theorem setTxn_pending (i : SlotId) (t : Option Txn) : (s.setTxn i t).pending = s.pending := rfl

@[simp] theorem setTxn_freeDraws (i : SlotId) (t : Option Txn) : (s.setTxn i t).freeDraws = s.freeDraws := rfl

@[simp] theorem setTxn_inReset (i : SlotId) (t : Option Txn) : (s.setTxn i t).inReset = s.inReset := rfl

@[simp] theorem setTxn_now (i : SlotId) (t : Option Txn) : (s.setTxn i t).now = s.now := rfl

@[simp] theorem setTxn_mem (i : SlotId) (t : Option Txn) : (s.setTxn i t).mem = s.mem := rfl

@[simp] theorem setTxn_dir (i : SlotId) (t : Option Txn) : (s.setTxn i t).dir = s.dir := rfl

@[simp] theorem setTxn_windows (i : SlotId) (t : Option Txn) : (s.setTxn i t).windows = s.windows := rfl

@[simp] theorem setTxn_ctl (i : SlotId) (t : Option Txn) : (s.setTxn i t).ctl = s.ctl := rfl

@[simp] theorem setTxn_ifaces (i : SlotId) (t : Option Txn) : (s.setTxn i t).ifaces = s.ifaces := rfl

@[simp] theorem setTxn_sweep (i : SlotId) (t : Option Txn) : (s.setTxn i t).sweep = s.sweep := rfl

@[simp] theorem setTxn_svc (i : SlotId) (t : Option Txn) : (s.setTxn i t).svc = s.svc := rfl

/-! ### setChain -/

@[simp] theorem setChain_slots (g : Granule) (c : List SlotId) : (s.setChain g c).table.slots = s.table.slots := rfl

@[simp] theorem setChain_chains (g : Granule) (c : List SlotId) :
    (s.setChain g c).table.chains = Sparse.set [] s.table.chains g.toNat c := rfl

@[simp] theorem setChain_recallLimit (g : Granule) (c : List SlotId) :
    (s.setChain g c).table.recallLimit = s.table.recallLimit := rfl

@[simp] theorem setChain_pending (g : Granule) (c : List SlotId) : (s.setChain g c).pending = s.pending := rfl

@[simp] theorem setChain_freeDraws (g : Granule) (c : List SlotId) : (s.setChain g c).freeDraws = s.freeDraws := rfl

@[simp] theorem setChain_inReset (g : Granule) (c : List SlotId) : (s.setChain g c).inReset = s.inReset := rfl

@[simp] theorem setChain_now (g : Granule) (c : List SlotId) : (s.setChain g c).now = s.now := rfl

@[simp] theorem setChain_mem (g : Granule) (c : List SlotId) : (s.setChain g c).mem = s.mem := rfl

@[simp] theorem setChain_dir (g : Granule) (c : List SlotId) : (s.setChain g c).dir = s.dir := rfl

@[simp] theorem setChain_windows (g : Granule) (c : List SlotId) : (s.setChain g c).windows = s.windows := rfl

@[simp] theorem setChain_ctl (g : Granule) (c : List SlotId) : (s.setChain g c).ctl = s.ctl := rfl

@[simp] theorem setChain_ifaces (g : Granule) (c : List SlotId) : (s.setChain g c).ifaces = s.ifaces := rfl

@[simp] theorem setChain_sweep (g : Granule) (c : List SlotId) : (s.setChain g c).sweep = s.sweep := rfl

@[simp] theorem setChain_svc (g : Granule) (c : List SlotId) : (s.setChain g c).svc = s.svc := rfl

/-! ### setDirSet -/

@[simp] theorem setDirSet_dir (k : Nat) (d : DirSet) : (s.setDirSet k d).dir = Sparse.set .empty s.dir k d := rfl

@[simp] theorem setDirSet_pending (k : Nat) (d : DirSet) : (s.setDirSet k d).pending = s.pending := rfl

@[simp] theorem setDirSet_freeDraws (k : Nat) (d : DirSet) : (s.setDirSet k d).freeDraws = s.freeDraws := rfl

@[simp] theorem setDirSet_inReset (k : Nat) (d : DirSet) : (s.setDirSet k d).inReset = s.inReset := rfl

@[simp] theorem setDirSet_now (k : Nat) (d : DirSet) : (s.setDirSet k d).now = s.now := rfl

@[simp] theorem setDirSet_mem (k : Nat) (d : DirSet) : (s.setDirSet k d).mem = s.mem := rfl

@[simp] theorem setDirSet_table (k : Nat) (d : DirSet) : (s.setDirSet k d).table = s.table := rfl

@[simp] theorem setDirSet_windows (k : Nat) (d : DirSet) : (s.setDirSet k d).windows = s.windows := rfl

@[simp] theorem setDirSet_ctl (k : Nat) (d : DirSet) : (s.setDirSet k d).ctl = s.ctl := rfl

@[simp] theorem setDirSet_ifaces (k : Nat) (d : DirSet) : (s.setDirSet k d).ifaces = s.ifaces := rfl

@[simp] theorem setDirSet_sweep (k : Nat) (d : DirSet) : (s.setDirSet k d).sweep = s.sweep := rfl

@[simp] theorem setDirSet_svc (k : Nat) (d : DirSet) : (s.setDirSet k d).svc = s.svc := rfl

/-! ### setPort -/

@[simp] theorem setPort_ports (p : Port) (r : PortRec) : (s.setPort p r).ctl.ports = s.ctl.ports.set p r := rfl

@[simp] theorem setPort_epoch (p : Port) (r : PortRec) : (s.setPort p r).ctl.epoch = s.ctl.epoch := rfl

@[simp] theorem setPort_admitMode (p : Port) (r : PortRec) : (s.setPort p r).ctl.admitMode = s.ctl.admitMode := rfl

@[simp] theorem setPort_departLimit (p : Port) (r : PortRec) : (s.setPort p r).ctl.departLimit = s.ctl.departLimit := rfl

@[simp] theorem setPort_linkLost (p : Port) (r : PortRec) : (s.setPort p r).ctl.linkLost = s.ctl.linkLost := rfl

@[simp] theorem setPort_fenceRequests (p : Port) (r : PortRec) : (s.setPort p r).ctl.fenceRequests = s.ctl.fenceRequests := rfl

@[simp] theorem setPort_pending (p : Port) (r : PortRec) : (s.setPort p r).pending = s.pending := rfl

@[simp] theorem setPort_freeDraws (p : Port) (r : PortRec) : (s.setPort p r).freeDraws = s.freeDraws := rfl

@[simp] theorem setPort_inReset (p : Port) (r : PortRec) : (s.setPort p r).inReset = s.inReset := rfl

@[simp] theorem setPort_now (p : Port) (r : PortRec) : (s.setPort p r).now = s.now := rfl

@[simp] theorem setPort_mem (p : Port) (r : PortRec) : (s.setPort p r).mem = s.mem := rfl

@[simp] theorem setPort_dir (p : Port) (r : PortRec) : (s.setPort p r).dir = s.dir := rfl

@[simp] theorem setPort_table (p : Port) (r : PortRec) : (s.setPort p r).table = s.table := rfl

@[simp] theorem setPort_windows (p : Port) (r : PortRec) : (s.setPort p r).windows = s.windows := rfl

@[simp] theorem setPort_ifaces (p : Port) (r : PortRec) : (s.setPort p r).ifaces = s.ifaces := rfl

@[simp] theorem setPort_sweep (p : Port) (r : PortRec) : (s.setPort p r).sweep = s.sweep := rfl

@[simp] theorem setPort_svc (p : Port) (r : PortRec) : (s.setPort p r).svc = s.svc := rfl

/-! ### modifyPort -/

@[simp] theorem modifyPort_ports (p : Port) (f : PortRec → PortRec) :
    (s.modifyPort p f).ctl.ports = s.ctl.ports.set p (f (s.ctl.ports.get p)) := rfl

@[simp] theorem modifyPort_epoch (p : Port) (f : PortRec → PortRec) : (s.modifyPort p f).ctl.epoch = s.ctl.epoch := rfl

@[simp] theorem modifyPort_admitMode (p : Port) (f : PortRec → PortRec) : (s.modifyPort p f).ctl.admitMode = s.ctl.admitMode := rfl

@[simp] theorem modifyPort_departLimit (p : Port) (f : PortRec → PortRec) : (s.modifyPort p f).ctl.departLimit = s.ctl.departLimit := rfl

@[simp] theorem modifyPort_linkLost (p : Port) (f : PortRec → PortRec) : (s.modifyPort p f).ctl.linkLost = s.ctl.linkLost := rfl

@[simp] theorem modifyPort_fenceRequests (p : Port) (f : PortRec → PortRec) : (s.modifyPort p f).ctl.fenceRequests = s.ctl.fenceRequests := rfl

@[simp] theorem modifyPort_pending (p : Port) (f : PortRec → PortRec) : (s.modifyPort p f).pending = s.pending := rfl

@[simp] theorem modifyPort_freeDraws (p : Port) (f : PortRec → PortRec) : (s.modifyPort p f).freeDraws = s.freeDraws := rfl

@[simp] theorem modifyPort_inReset (p : Port) (f : PortRec → PortRec) : (s.modifyPort p f).inReset = s.inReset := rfl

@[simp] theorem modifyPort_now (p : Port) (f : PortRec → PortRec) : (s.modifyPort p f).now = s.now := rfl

@[simp] theorem modifyPort_mem (p : Port) (f : PortRec → PortRec) : (s.modifyPort p f).mem = s.mem := rfl

@[simp] theorem modifyPort_dir (p : Port) (f : PortRec → PortRec) : (s.modifyPort p f).dir = s.dir := rfl

@[simp] theorem modifyPort_table (p : Port) (f : PortRec → PortRec) : (s.modifyPort p f).table = s.table := rfl

@[simp] theorem modifyPort_windows (p : Port) (f : PortRec → PortRec) : (s.modifyPort p f).windows = s.windows := rfl

@[simp] theorem modifyPort_ifaces (p : Port) (f : PortRec → PortRec) : (s.modifyPort p f).ifaces = s.ifaces := rfl

@[simp] theorem modifyPort_sweep (p : Port) (f : PortRec → PortRec) : (s.modifyPort p f).sweep = s.sweep := rfl

@[simp] theorem modifyPort_svc (p : Port) (f : PortRec → PortRec) : (s.modifyPort p f).svc = s.svc := rfl

/-! ### movePort -/

@[simp] theorem movePort_ports (p : Port) (st : PortState) :
    (s.movePort p st).ctl.ports = s.ctl.ports.set p { s.ctl.ports.get p with state := st } := rfl

@[simp] theorem movePort_epoch (p : Port) (st : PortState) : (s.movePort p st).ctl.epoch = s.ctl.epoch := rfl

@[simp] theorem movePort_admitMode (p : Port) (st : PortState) : (s.movePort p st).ctl.admitMode = s.ctl.admitMode := rfl

@[simp] theorem movePort_departLimit (p : Port) (st : PortState) : (s.movePort p st).ctl.departLimit = s.ctl.departLimit := rfl

@[simp] theorem movePort_linkLost (p : Port) (st : PortState) : (s.movePort p st).ctl.linkLost = s.ctl.linkLost := rfl

@[simp] theorem movePort_fenceRequests (p : Port) (st : PortState) : (s.movePort p st).ctl.fenceRequests = s.ctl.fenceRequests := rfl

@[simp] theorem movePort_pending (p : Port) (st : PortState) : (s.movePort p st).pending = s.pending := rfl

@[simp] theorem movePort_freeDraws (p : Port) (st : PortState) : (s.movePort p st).freeDraws = s.freeDraws := rfl

@[simp] theorem movePort_inReset (p : Port) (st : PortState) : (s.movePort p st).inReset = s.inReset := rfl

@[simp] theorem movePort_now (p : Port) (st : PortState) : (s.movePort p st).now = s.now := rfl

@[simp] theorem movePort_mem (p : Port) (st : PortState) : (s.movePort p st).mem = s.mem := rfl

@[simp] theorem movePort_dir (p : Port) (st : PortState) : (s.movePort p st).dir = s.dir := rfl

@[simp] theorem movePort_table (p : Port) (st : PortState) : (s.movePort p st).table = s.table := rfl

@[simp] theorem movePort_windows (p : Port) (st : PortState) : (s.movePort p st).windows = s.windows := rfl

@[simp] theorem movePort_ifaces (p : Port) (st : PortState) : (s.movePort p st).ifaces = s.ifaces := rfl

@[simp] theorem movePort_sweep (p : Port) (st : PortState) : (s.movePort p st).sweep = s.sweep := rfl

@[simp] theorem movePort_svc (p : Port) (st : PortState) : (s.movePort p st).svc = s.svc := rfl

/-! ### bumpEpoch -/

@[simp] theorem bumpEpoch_epoch : s.bumpEpoch.ctl.epoch = s.ctl.epoch + 1 := rfl

@[simp] theorem bumpEpoch_ports : s.bumpEpoch.ctl.ports = s.ctl.ports := rfl

@[simp] theorem bumpEpoch_admitMode : (s.bumpEpoch).ctl.admitMode = s.ctl.admitMode := rfl

@[simp] theorem bumpEpoch_departLimit : (s.bumpEpoch).ctl.departLimit = s.ctl.departLimit := rfl

@[simp] theorem bumpEpoch_linkLost : (s.bumpEpoch).ctl.linkLost = s.ctl.linkLost := rfl

@[simp] theorem bumpEpoch_fenceRequests : (s.bumpEpoch).ctl.fenceRequests = s.ctl.fenceRequests := rfl

@[simp] theorem bumpEpoch_pending : (s.bumpEpoch).pending = s.pending := rfl

@[simp] theorem bumpEpoch_freeDraws : (s.bumpEpoch).freeDraws = s.freeDraws := rfl

@[simp] theorem bumpEpoch_inReset : (s.bumpEpoch).inReset = s.inReset := rfl

@[simp] theorem bumpEpoch_now : (s.bumpEpoch).now = s.now := rfl

@[simp] theorem bumpEpoch_mem : (s.bumpEpoch).mem = s.mem := rfl

@[simp] theorem bumpEpoch_dir : (s.bumpEpoch).dir = s.dir := rfl

@[simp] theorem bumpEpoch_table : (s.bumpEpoch).table = s.table := rfl

@[simp] theorem bumpEpoch_windows : (s.bumpEpoch).windows = s.windows := rfl

@[simp] theorem bumpEpoch_ifaces : (s.bumpEpoch).ifaces = s.ifaces := rfl

@[simp] theorem bumpEpoch_sweep : (s.bumpEpoch).sweep = s.sweep := rfl

@[simp] theorem bumpEpoch_svc : (s.bumpEpoch).svc = s.svc := rfl

/-! ### setIface -/

@[simp] theorem setIface_ifaces (p : Port) (f : Iface) : (s.setIface p f).ifaces = s.ifaces.set p f := rfl

@[simp] theorem setIface_pending (p : Port) (f : Iface) : (s.setIface p f).pending = s.pending := rfl

@[simp] theorem setIface_freeDraws (p : Port) (f : Iface) : (s.setIface p f).freeDraws = s.freeDraws := rfl

@[simp] theorem setIface_inReset (p : Port) (f : Iface) : (s.setIface p f).inReset = s.inReset := rfl

@[simp] theorem setIface_now (p : Port) (f : Iface) : (s.setIface p f).now = s.now := rfl

@[simp] theorem setIface_mem (p : Port) (f : Iface) : (s.setIface p f).mem = s.mem := rfl

@[simp] theorem setIface_dir (p : Port) (f : Iface) : (s.setIface p f).dir = s.dir := rfl

@[simp] theorem setIface_table (p : Port) (f : Iface) : (s.setIface p f).table = s.table := rfl

@[simp] theorem setIface_windows (p : Port) (f : Iface) : (s.setIface p f).windows = s.windows := rfl

@[simp] theorem setIface_ctl (p : Port) (f : Iface) : (s.setIface p f).ctl = s.ctl := rfl

@[simp] theorem setIface_sweep (p : Port) (f : Iface) : (s.setIface p f).sweep = s.sweep := rfl

@[simp] theorem setIface_svc (p : Port) (f : Iface) : (s.setIface p f).svc = s.svc := rfl

/-! ### setSweep -/

@[simp] theorem setSweep_sweep (w : Sweep) : (s.setSweep w).sweep = w := rfl

@[simp] theorem setSweep_pending (w : Sweep) : (s.setSweep w).pending = s.pending := rfl

@[simp] theorem setSweep_freeDraws (w : Sweep) : (s.setSweep w).freeDraws = s.freeDraws := rfl

@[simp] theorem setSweep_inReset (w : Sweep) : (s.setSweep w).inReset = s.inReset := rfl

@[simp] theorem setSweep_now (w : Sweep) : (s.setSweep w).now = s.now := rfl

@[simp] theorem setSweep_mem (w : Sweep) : (s.setSweep w).mem = s.mem := rfl

@[simp] theorem setSweep_dir (w : Sweep) : (s.setSweep w).dir = s.dir := rfl

@[simp] theorem setSweep_table (w : Sweep) : (s.setSweep w).table = s.table := rfl

@[simp] theorem setSweep_windows (w : Sweep) : (s.setSweep w).windows = s.windows := rfl

@[simp] theorem setSweep_ctl (w : Sweep) : (s.setSweep w).ctl = s.ctl := rfl

@[simp] theorem setSweep_ifaces (w : Sweep) : (s.setSweep w).ifaces = s.ifaces := rfl

@[simp] theorem setSweep_svc (w : Sweep) : (s.setSweep w).svc = s.svc := rfl

/-! ### setMem -/

@[simp] theorem setMem_mem (m : MemController) : (s.setMem m).mem = m := rfl

@[simp] theorem setMem_pending (m : MemController) : (s.setMem m).pending = s.pending := rfl

@[simp] theorem setMem_freeDraws (m : MemController) : (s.setMem m).freeDraws = s.freeDraws := rfl

@[simp] theorem setMem_inReset (m : MemController) : (s.setMem m).inReset = s.inReset := rfl

@[simp] theorem setMem_now (m : MemController) : (s.setMem m).now = s.now := rfl

@[simp] theorem setMem_dir (m : MemController) : (s.setMem m).dir = s.dir := rfl

@[simp] theorem setMem_table (m : MemController) : (s.setMem m).table = s.table := rfl

@[simp] theorem setMem_windows (m : MemController) : (s.setMem m).windows = s.windows := rfl

@[simp] theorem setMem_ctl (m : MemController) : (s.setMem m).ctl = s.ctl := rfl

@[simp] theorem setMem_ifaces (m : MemController) : (s.setMem m).ifaces = s.ifaces := rfl

@[simp] theorem setMem_sweep (m : MemController) : (s.setMem m).sweep = s.sweep := rfl

@[simp] theorem setMem_svc (m : MemController) : (s.setMem m).svc = s.svc := rfl

/-! ### setResult -/

@[simp] theorem setResult_svc (r : SlotResult) : (s.setResult r).svc = { s.svc with result := r } := rfl

@[simp] theorem setResult_pending (r : SlotResult) : (s.setResult r).pending = s.pending := rfl

@[simp] theorem setResult_freeDraws (r : SlotResult) : (s.setResult r).freeDraws = s.freeDraws := rfl

@[simp] theorem setResult_inReset (r : SlotResult) : (s.setResult r).inReset = s.inReset := rfl

@[simp] theorem setResult_now (r : SlotResult) : (s.setResult r).now = s.now := rfl

@[simp] theorem setResult_mem (r : SlotResult) : (s.setResult r).mem = s.mem := rfl

@[simp] theorem setResult_dir (r : SlotResult) : (s.setResult r).dir = s.dir := rfl

@[simp] theorem setResult_table (r : SlotResult) : (s.setResult r).table = s.table := rfl

@[simp] theorem setResult_windows (r : SlotResult) : (s.setResult r).windows = s.windows := rfl

@[simp] theorem setResult_ctl (r : SlotResult) : (s.setResult r).ctl = s.ctl := rfl

@[simp] theorem setResult_ifaces (r : SlotResult) : (s.setResult r).ifaces = s.ifaces := rfl

@[simp] theorem setResult_sweep (r : SlotResult) : (s.setResult r).sweep = s.sweep := rfl

/-! ### raise -/

@[simp] theorem raise_svc (e : Event) :
    (s.raise e).svc = { s.svc with eventStatus := latchEventBit s.svc.eventStatus e } := rfl

@[simp] theorem raise_pending (e : Event) : (s.raise e).pending = s.pending := rfl

@[simp] theorem raise_freeDraws (e : Event) : (s.raise e).freeDraws = s.freeDraws := rfl

@[simp] theorem raise_inReset (e : Event) : (s.raise e).inReset = s.inReset := rfl

@[simp] theorem raise_now (e : Event) : (s.raise e).now = s.now := rfl

@[simp] theorem raise_mem (e : Event) : (s.raise e).mem = s.mem := rfl

@[simp] theorem raise_dir (e : Event) : (s.raise e).dir = s.dir := rfl

@[simp] theorem raise_table (e : Event) : (s.raise e).table = s.table := rfl

@[simp] theorem raise_windows (e : Event) : (s.raise e).windows = s.windows := rfl

@[simp] theorem raise_ctl (e : Event) : (s.raise e).ctl = s.ctl := rfl

@[simp] theorem raise_ifaces (e : Event) : (s.raise e).ifaces = s.ifaces := rfl

@[simp] theorem raise_sweep (e : Event) : (s.raise e).sweep = s.sweep := rfl

/-! ### respond -/

@[simp] theorem respond_svc (st : Option Reason) (d : List Byte) :
    (s.respond st d).svc = { s.svc with response := statusByte st :: d } := rfl

@[simp] theorem respond_pending (st : Option Reason) (d : List Byte) : (s.respond st d).pending = s.pending := rfl

@[simp] theorem respond_freeDraws (st : Option Reason) (d : List Byte) : (s.respond st d).freeDraws = s.freeDraws := rfl

@[simp] theorem respond_inReset (st : Option Reason) (d : List Byte) : (s.respond st d).inReset = s.inReset := rfl

@[simp] theorem respond_now (st : Option Reason) (d : List Byte) : (s.respond st d).now = s.now := rfl

@[simp] theorem respond_mem (st : Option Reason) (d : List Byte) : (s.respond st d).mem = s.mem := rfl

@[simp] theorem respond_dir (st : Option Reason) (d : List Byte) : (s.respond st d).dir = s.dir := rfl

@[simp] theorem respond_table (st : Option Reason) (d : List Byte) : (s.respond st d).table = s.table := rfl

@[simp] theorem respond_windows (st : Option Reason) (d : List Byte) : (s.respond st d).windows = s.windows := rfl

@[simp] theorem respond_ctl (st : Option Reason) (d : List Byte) : (s.respond st d).ctl = s.ctl := rfl

@[simp] theorem respond_ifaces (st : Option Reason) (d : List Byte) : (s.respond st d).ifaces = s.ifaces := rfl

@[simp] theorem respond_sweep (st : Option Reason) (d : List Byte) : (s.respond st d).sweep = s.sweep := rfl

/-! ### One thing for each port -/

@[simp] theorem PerPort.get_set_same {α : Type} (m : PerPort α) (p : Port) (a : α) : (m.set p a).get p = a := by
  cases p <;> rfl

theorem PerPort.get_set_other {α : Type} (m : PerPort α) {p q : Port} (a : α) (h : q ≠ p) :
    (m.set p a).get q = m.get q := by
  cases p <;> cases q <;> first | rfl | exact absurd rfl h

theorem PerPort.get_set {α : Type} (m : PerPort α) (p q : Port) (a : α) :
    (m.set p a).get q = if q = p then a else m.get q := by
  cases p <;> cases q <;> rfl

@[simp] theorem PerPort.get_const {α : Type} (a : α) (p : Port) : (PerPort.const a).get p = a := by cases p <;> rfl

theorem PerPort.ext_get {α : Type} {m n : PerPort α} (h : ∀ p, m.get p = n.get p) : m = n := by
  cases m; cases n
  simp only [PerPort.mk.injEq]
  exact ⟨h .p0, h .p1, h .p2, h .p3⟩

@[simp] theorem PerPort.set_get {α : Type} (m : PerPort α) (p : Port) : m.set p (m.get p) = m := by cases p <;> rfl

@[simp] theorem PerPort.set_set {α : Type} (m : PerPort α) (p : Port) (a b : α) : (m.set p a).set p b = m.set p b := by
  cases p <;> rfl

@[simp] theorem mem_allPorts (p : Port) : p ∈ Port.all := by cases p <;> decide

/-! ### Slots, chains and sets read back -/

@[simp] theorem txn_setTxn_same (i : SlotId) (t : Option Txn) : (s.setTxn i t).txn i = t := by
  change (s.table.slots.set i.val t i.isLt)[i.val] = t
  simp

theorem txn_setTxn_other {i j : SlotId} (t : Option Txn) (h : j ≠ i) : (s.setTxn i t).txn j = s.txn j := by
  change (s.table.slots.set i.val t i.isLt)[j.val] = s.table.slots[j.val]
  exact Vector.getElem_set_ne i.isLt j.isLt fun e => h (Fin.ext e.symm)

theorem txn_setTxn (i j : SlotId) (t : Option Txn) : (s.setTxn i t).txn j = if j = i then t else s.txn j := by
  split
  · subst j; simp
  · exact txn_setTxn_other s t ‹_›

@[simp] theorem mem_allSlots (i : SlotId) : i ∈ allSlots := List.mem_finRange i

end Sys2Proof.Machine
end

