-- ==== Sys2Proof/Laws/Moves.lean ====
section
/-! SUPPORT. What the transaction table, the holder directory and the sweep engine can do to the state, said once: every
operation of those layers is a sequence of the moves below. A law that each move keeps is kept by all of them. `K` is a
property of granules: moves write only granules that have it, given a state whose records have it. -/

namespace Sys2Proof.Machine

/-- The granules of a slot record have the property `K`. -/
def Txn.inside (K : Granule → Prop) (t : Txn) : Prop := K t.granule ∧ ∀ v, t.victim = some v → K v

/-- One move of the transaction table, the directory or the sweep engine. Where `A` is false, a member slot that is FREE
stays FREE, and none comes to be DRAINING. -/
inductive Move (K : Granule → Prop) (A : Prop) : State → State → Prop
  | send (s : State) (p : Port) (f : HubFrame) : Move K A s (s.send p f)
  | offer (s : State) (op : MemOp) (h : K op.granule) : Move K A s (s.offer op)
  | txn (s : State) (i : SlotId) (t : Option Txn)
      (h : ∀ x, t = some x → x.inside K
        ∧ (A ∨ slotPort i = none ∨ ∃ y, s.txn i = some y ∧ (x.phase = .draining → y.phase = .draining))) :
      Move K A s (s.setTxn i t)
  | chain (s : State) (g : Granule) (c : List SlotId) : Move K A s (s.setChain g c)
  | entry (s : State) (g : Granule) (c : EntryChange) : Move K A s (s.changeEntry g c)
  | alloc (s : State) (g : Granule) (i : SlotId) (h : K g) : Move K A s (s.allocateEntry g i)
  | replace (s : State) (v g : Granule) (i : SlotId) (h : K g) : Move K A s (s.replaceVictim v g i)
  | result (s : State) (r : SlotResult) : Move K A s (s.setResult r)
  | sweep (s : State) (w : Sweep) : Move K A s (s.setSweep w)
  | sweepIdle (s : State) : Move K A s (s.raise .sweepIdle)
  | draws (s : State) (n : Nat) : Move K A s { s with freeDraws := s.freeDraws + n }

/-- A sequence of moves. -/
inductive Moves (K : Granule → Prop) (A : Prop) : State → State → Prop
  | refl (s : State) : Moves K A s s
  | tail {s t u : State} (h : Moves K A s t) (m : Move K A t u) : Moves K A s u

variable {K : Granule → Prop} {A : Prop} {s t u : State}

theorem Move.moves (m : Move K A s t) : Moves K A s t := .tail (.refl s) m

theorem Moves.trans (h : Moves K A s t) (k : Moves K A t u) : Moves K A s u := by
  induction k with
  | refl => exact h
  | tail _ m ih => exact .tail ih m

/-- A law that every move keeps is kept by a sequence of moves. -/
theorem Moves.keeps {P : State → Prop} (hP : ∀ {a b}, Move K A a b → P a → P b) (h : Moves K A s t) (hs : P s) : P t := by
  induction h with
  | refl => exact hs
  | tail _ m ih => exact hP m ih

/-! ### The directory after a change -/

/-- Every entry of a set that a change rewrites was there with the same granule, or is the new entry. -/
theorem DirSet.get_free {d : DirSet} {w x : Fin 8} {e : Entry} (h : (d.free w).ways.get x = some e) :
    d.ways.get x = some e := by
  change (d.ways.set w.val none w.isLt)[x.val] = some e at h
  rw [Vector.getElem_set] at h
  split at h
  · exact absurd h (by simp)
  · exact h

theorem DirSet.get_put {d : DirSet} {w x : Fin 8} {e f : Entry} (h : (d.put w f).ways.get x = some e) :
    (x = w ∧ e = f) ∨ (x ≠ w ∧ d.ways.get x = some e) := by
  change (d.ways.set w.val (some f) w.isLt)[x.val] = some e at h
  rw [Vector.getElem_set] at h
  split at h
  · exact .inl ⟨Fin.ext (by omega), (Option.some.inj h).symm⟩
  · exact .inr ⟨fun hx => by omega, h⟩

theorem Entry.apply_granule (e : Entry) (c : EntryChange) : (e.apply c).granule = e.granule := by cases c <;> rfl

theorem DirSet.get_change {d : DirSet} {g : Granule} {c : EntryChange} {x : Fin 8} {e : Entry}
    (h : (d.change g c).ways.get x = some e) : ∃ f, d.ways.get x = some f ∧ f.granule = e.granule := by
  unfold DirSet.change at h
  split at h
  · exact ⟨e, h, rfl⟩
  · split at h
    · exact ⟨e, h, rfl⟩
    · rename_i w _ f hf
      split at h
      · exact ⟨e, DirSet.get_free h, rfl⟩
      · rcases DirSet.get_put h with ⟨rfl, rfl⟩ | ⟨-, h⟩
        · exact ⟨f, hf, (f.apply_granule c).symm⟩
        · exact ⟨e, h, rfl⟩

/-! ### States whose records have the property -/

/-- The granules of the slot records and of the directory have the property, or every granule has it. -/
def Inside (K : Granule → Prop) (s : State) : Prop :=
  (∀ g, K g) ∨
    (Sparse.wf DirSet.empty s.dir ∧ (∀ i x, s.txn i = some x → x.inside K) ∧
      ∀ k w e, (s.dirSet k).ways.get w = some e → K e.granule)

theorem inside_of_all (h : ∀ g, K g) : Inside K s := .inl h

theorem Inside.txn (h : Inside K s) {i : SlotId} {x : Txn} (hx : s.txn i = some x) : x.inside K := by
  rcases h with h | ⟨-, h, -⟩
  · exact ⟨h _, fun v _ => h v⟩
  · exact h i x hx

theorem Inside.way (h : Inside K s) {k : Nat} {w : Fin 8} {e : Entry} (he : (s.dirSet k).ways.get w = some e) :
    K e.granule := by
  rcases h with h | ⟨-, -, h⟩
  · exact h _
  · exact h k w e he

theorem DirSet.granule_of_wayOf {d : DirSet} {g : Granule} {w : Fin 8} (h : d.wayOf g = some w) :
    ∃ e, d.ways.get w = some e ∧ e.granule = g := by
  have := List.find?_some h
  cases he : d.ways.get w with
  | none => simp [he] at this
  | some e => exact ⟨e, rfl, by simpa [he] using this⟩

theorem entry_some {g : Granule} {e : Entry} (h : s.entry g = some e) :
    ∃ w, (s.dirSet (setOf g)).wayOf g = some w ∧ (s.dirSet (setOf g)).ways.get w = some e ∧ e.granule = g := by
  unfold State.entry at h
  cases hw : (s.dirSet (setOf g)).wayOf g with
  | none => simp [hw] at h
  | some w =>
    obtain ⟨f, hf, hg⟩ := DirSet.granule_of_wayOf hw
    simp only [hw, Option.bind_some, hf, Option.some.injEq] at h
    subst h
    exact ⟨w, rfl, hf, hg⟩

theorem Inside.entry (h : Inside K s) {g : Granule} {e : Entry} (he : s.entry g = some e) : K g := by
  obtain ⟨w, -, hw, rfl⟩ := entry_some he
  exact h.way hw

theorem dirSet_setDirSet (h : Sparse.wf DirSet.empty s.dir) (k j : Nat) (d : DirSet) :
    (s.setDirSet k d).dirSet j = if j = k then d else s.dirSet j :=
  Sparse.get_set h k j d

/-- The write of one set keeps the property when the set's entries have it. -/
theorem Inside.setDirSet (h : Inside K s) {k : Nat} {d : DirSet} (hd : ∀ w e, d.ways.get w = some e → K e.granule) :
    Inside K (s.setDirSet k d) := by
  rcases h with h | ⟨hw, ht, he⟩
  · exact .inl h
  · refine .inr ⟨Sparse.wf_set hw _ _, ht, fun j w e hj => ?_⟩
    rw [dirSet_setDirSet hw] at hj
    split at hj
    · exact hd w e hj
    · exact he j w e hj

/-- A move that touches neither the slots nor the directory keeps the property. -/
theorem Inside.of_eq (h : Inside K s) (ht : ∀ i, t.txn i = s.txn i) (hd : t.dir = s.dir) : Inside K t := by
  rcases h with h | ⟨hw, hx, he⟩
  · exact .inl h
  · exact .inr ⟨hd ▸ hw, fun i x hi => hx i x (ht i ▸ hi), fun k w e hk => he k w e (by
      unfold State.dirSet at hk ⊢; rw [← hd]; exact hk)⟩

theorem Inside.setTxn (h : Inside K s) (i : SlotId) {x : Option Txn} (hx : ∀ y, x = some y → y.inside K) :
    Inside K (s.setTxn i x) := by
  rcases h with h | ⟨hw, ht, he⟩
  · exact .inl h
  · refine .inr ⟨hw, fun j y hj => ?_, he⟩
    rw [txn_setTxn] at hj
    split at hj
    · exact hx y hj
    · exact ht j y hj

@[simp] theorem send_txn (s : State) (p : Port) (f : HubFrame) (i : SlotId) : (s.send p f).txn i = s.txn i := by
  unfold State.send; dsimp only; split <;> rfl

@[simp] theorem send_dir (s : State) (p : Port) (f : HubFrame) : (s.send p f).dir = s.dir := by
  unfold State.send; dsimp only; split <;> rfl

@[simp] theorem offer_txn (s : State) (op : MemOp) (i : SlotId) : (s.offer op).txn i = s.txn i := by
  unfold State.offer; split <;> rfl

@[simp] theorem offer_dir (s : State) (op : MemOp) : (s.offer op).dir = s.dir := by
  unfold State.offer; split <;> rfl

theorem Inside.changeEntry (h : Inside K s) (g : Granule) (c : EntryChange) : Inside K (s.changeEntry g c) := by
  refine Inside.setDirSet h fun w e he => ?_
  obtain ⟨f, hf, hg⟩ := DirSet.get_change he
  exact hg ▸ h.way hf

theorem Inside.allocateEntry (h : Inside K s) {g : Granule} (hg : K g) (i : SlotId) :
    Inside K (s.allocateEntry g i) := by
  unfold State.allocateEntry
  dsimp only
  split
  · refine Inside.setDirSet h fun w e he => ?_
    rcases DirSet.get_put (f := newEntry g i) he with ⟨-, rfl⟩ | ⟨-, he⟩
    · exact hg
    · exact h.way he
  · exact h

theorem Inside.replaceVictim (h : Inside K s) (v : Granule) {g : Granule} (hg : K g) (i : SlotId) :
    Inside K (s.replaceVictim v g i) := by
  unfold State.replaceVictim
  dsimp only
  split
  · split
    · refine Inside.setDirSet h fun w e he => ?_
      rcases DirSet.get_put (f := newEntry g i) he with ⟨-, rfl⟩ | ⟨-, he⟩
      · exact hg
      · exact h.way (DirSet.get_free he)
    · exact h
  · exact h

/-- Every move keeps the property of the records. -/
theorem Move.inside (m : Move K A s t) (h : Inside K s) : Inside K t := by
  cases m with
  | send p f => exact h.of_eq (fun i => send_txn s p f i) (send_dir s p f)
  | offer op => exact h.of_eq (fun i => offer_txn s op i) (offer_dir s op)
  | txn i x hx => exact h.setTxn i fun y hy => (hx y hy).1
  | chain g c => exact h.of_eq (fun _ => rfl) rfl
  | entry g c => exact h.changeEntry g c
  | alloc g i hg => exact h.allocateEntry hg i
  | replace v g i hg => exact h.replaceVictim v hg i
  | result r => exact h.of_eq (fun _ => rfl) rfl
  | sweep w => exact h.of_eq (fun _ => rfl) rfl
  | sweepIdle => exact h.of_eq (fun _ => rfl) rfl
  | draws n => exact h.of_eq (fun _ => rfl) rfl

theorem Moves.inside (m : Moves K A s t) (h : Inside K s) : Inside K t := m.keeps Move.inside h

/-- The next operation after a sequence of moves. -/
theorem Moves.andThen (h : Moves K A s t) (hs : Inside K s) (hf : Inside K t → Moves K A t u) : Moves K A s u :=
  h.trans (hf (h.inside hs))

/-- A fold whose every step is a sequence of moves. -/
theorem moves_foldl {α : Type} {f : State → α → State} (hf : ∀ s a, Inside K s → Moves K A s (f s a)) (l : List α) :
    ∀ {s : State}, Inside K s → Moves K A s (l.foldl f s) := by
  induction l with
  | nil => exact fun _ => .refl _
  | cons a l ih => exact fun h => (hf _ a h).trans (ih ((hf _ a h).inside h))

/-! ### Parties in either order -/

theorem mem_freeOrder {α : Type} {x : α} (n c : Nat) (l : List α) (h : x ∈ Config.freeOrder n c l) : x ∈ l := by
  induction n generalizing c l with
  | zero => simpa [Config.freeOrder] using h
  | succ n ih =>
    match l with
    | [] => simp [Config.freeOrder] at h
    | [a] => simpa [Config.freeOrder] using h
    | a :: b :: l =>
      simp only [Config.freeOrder] at h
      split at h
      · rename_i z hz
        rcases List.mem_cons.1 h with rfl | h
        · exact List.mem_of_getElem? hz
        · exact List.mem_of_mem_eraseIdx (ih _ _ h)
      · exact h

/-- An open order is an order of the same parties. -/
theorem freeOrder_perm {α : Type} (n c : Nat) (l : List α) : (Config.freeOrder n c l).Perm l := by
  induction n generalizing c l with
  | zero => exact .refl _
  | succ n ih =>
    match l with
    | [] => exact .refl _
    | [x] => exact .refl _
    | x :: y :: xs =>
      simp only [Config.freeOrder]
      split
      · rename_i z hz
        obtain ⟨hk, rfl⟩ := List.getElem?_eq_some_iff.1 hz
        exact ((ih _ _).cons _).trans (List.getElem_cons_eraseIdx_perm hk)
      · exact .refl _

/-- What parties do in an open order is a sequence of moves when what each of them does is one. -/
theorem inFreeOrder_moves {fs : List (State → State)} (hf : ∀ f ∈ fs, ∀ s, Inside K s → Moves K A s (f s))
    (h : Inside K s) : Moves K A s (s.inFreeOrder fs) := by
  unfold State.inFreeOrder
  split
  · exact .refl _
  · exact hf _ (by simp) s h
  · generalize hl : Config.freeOrder fs.length s.freeDraws fs = l
    have hm : ∀ f ∈ l, ∀ s, Inside K s → Moves K A s (f s) := fun f hfl => by
      rw [← hl] at hfl
      exact hf f (mem_freeOrder _ _ _ hfl)
    refine Moves.trans (Move.draws s fs.length).moves ?_
    have h' := (Move.draws (K := K) (A := A) s fs.length).inside h
    clear hl hf h
    revert h'
    generalize ({ s with freeDraws := s.freeDraws + fs.length } : State) = s'
    induction l generalizing s' with
    | nil => exact fun _ => .refl _
    | cons f l ih =>
      intro h'
      have hfs := hm f (by simp) s' h'
      exact hfs.trans (ih (fun f hf => hm f (List.mem_cons_of_mem _ hf)) _ (hfs.inside h'))

end Sys2Proof.Machine
end

