-- ==== Sys2Proof/Laws/Transactions.lean ====
section
/-! SUPPORT. Each operation of the transaction table, the directory's users and the sweep engine as a sequence of moves. -/

namespace Sys2Proof.Machine

variable {K : Granule → Prop} {A : Prop} {s : State}

/-! ### The slot record -/

theorem newTxn_inside (k : TxnKind) {g : Granule} (hg : K g) : (newTxn k g).inside K :=
  ⟨hg, fun v hv => by simp [newTxn] at hv⟩

theorem setTxn_moves (i : SlotId) {t : Txn} (ht : t.inside K)
    (hA : A ∨ slotPort i = none ∨ ∃ y, s.txn i = some y ∧ (t.phase = .draining → y.phase = .draining)) :
    Moves K A s (s.setTxn i (some t)) :=
  (Move.txn s i _ fun x hx => by injection hx with hx; exact hx ▸ ⟨ht, hA⟩).moves

/-- The record of an occupied slot rewritten. -/
theorem rewriteTxn_moves {i : SlotId} {t y : Txn} (ht : t.inside K) (hy : s.txn i = some y)
    (hd : t.phase = .draining → y.phase = .draining) : Moves K A s (s.setTxn i (some t)) :=
  setTxn_moves i ht (.inr (.inr ⟨y, hy, hd⟩))

theorem freeTxn_moves (i : SlotId) : Moves K A s (s.setTxn i none) :=
  (Move.txn s i _ fun x hx => by simp at hx).moves

theorem modifyTxn_moves (h : Inside K s) (i : SlotId) {f : Txn → Txn} (hf : ∀ t, t.inside K → (f t).inside K)
    (hd : ∀ t, (f t).phase = .draining → t.phase = .draining := by exact fun _ h => h) :
    Moves K A s (s.modifyTxn i f) := by
  unfold State.modifyTxn
  split
  · exact .refl _
  · exact rewriteTxn_moves (hf _ (h.txn ‹_›)) ‹_› (hd _)

theorem leaveChain_moves (i : SlotId) (g : Granule) : Moves K A s (s.leaveChain i g) := (Move.chain s g _).moves

theorem freeHead_moves (i : SlotId) (g : Granule) : Moves K A s (s.freeHead i g) :=
  (freeTxn_moves i).trans (leaveChain_moves i g)

/-! ### Recalls -/

theorem offerPoison_moves (h : Inside K s) {g : Granule} (hg : K g) (i : SlotId) (own : Bool) :
    Moves K A s (s.offerPoison g i own) :=
  (Move.offer s ⟨.poisonSet, g, .slot i⟩ hg).moves.andThen h fun h => modifyTxn_moves h i fun _ ht => ht

theorem known_of_holds (h : Inside K s) {p : Port} {g : Granule} (hp : s.holds p g = true) : K g := by
  unfold State.holds at hp
  cases he : s.entry g with
  | none => simp [he] at hp
  | some e => exact h.entry he

theorem known_of_owns (h : Inside K s) {p : Port} {g : Granule} (hp : s.owns p g = true) : K g := by
  unfold State.owns at hp
  cases he : s.entry g with
  | none => simp [he] at hp
  | some e => exact h.entry he

theorem dropFencedHolder_moves (h : Inside K s) (g : Granule) (i : SlotId) (own : Bool) (p : Port) :
    Moves K A s (State.dropFencedHolder g i own s p) := by
  unfold State.dropFencedHolder
  split
  · split
    · exact (offerPoison_moves h (known_of_owns h ‹_›) i own).trans (Move.entry _ _ _).moves
    · exact (Move.entry _ _ _).moves
  · exact .refl _

theorem dropFencedHolders_moves (h : Inside K s) (g : Granule) (i : SlotId) (own : Bool) :
    Moves K A s (s.dropFencedHolders g i own) :=
  moves_foldl (fun _ p h => dropFencedHolder_moves h g i own p) Port.all h

theorem issueRecalls_moves (h : Inside K s) (i : SlotId) (g : Granule) (rs : List (Port × RecallKind)) :
    Moves K A s (s.issueRecalls i g rs) :=
  (moves_foldl (fun s (r : Port × RecallKind) _ => (Move.send s r.1 (.recall r.2 g i)).moves) rs h).andThen h
    fun h => modifyTxn_moves h i fun _ ht => ht

/-! ### Ends and the memory phase -/

theorem endTxn_moves (i : SlotId) : Moves K A s (s.endTxn i) := by
  unfold State.endTxn
  split
  · exact .refl _
  · dsimp only
    split
    · split
      · exact (Move.entry _ _ _).moves.trans (freeHead_moves _ _)
      · exact ((Move.send _ _ _).moves.trans (Move.entry _ _ _).moves).trans (freeHead_moves _ _)
    · exact ((Move.result _ _).moves.trans (Move.entry _ _ _).moves).trans (freeHead_moves _ _)
    · exact ((Move.result _ _).moves.trans (Move.entry _ _ _).moves).trans (freeHead_moves _ _)
    · exact (Move.entry _ _ _).moves.trans (freeHead_moves _ _)
    · exact (Move.entry _ _ _).moves.trans (freeHead_moves _ _)
    · exact (Move.entry _ _ _).moves.trans (freeHead_moves _ _)

theorem endWithBounce_moves (i : SlotId) (r : Reason) : Moves K A s (s.endWithBounce i r) := by
  unfold State.endWithBounce
  split
  · exact ((Move.send _ _ _).moves.trans (Move.entry _ _ _).moves).trans (freeHead_moves _ _)
  · exact (Move.entry _ _ _).moves.trans (freeHead_moves _ _)
  · exact .refl _

theorem enterMemory_moves (h : Inside K s) (i : SlotId) : Moves K A s (s.enterMemory i).1 := by
  unfold State.enterMemory
  split
  · exact .refl _
  · rename_i t ht
    have hK : K t.granule := (h.txn ht).1
    have h1 : Moves K A s (s.setTxn i (some { t with phase := .memory, victim := none, deadline := none })) :=
      rewriteTxn_moves ⟨hK, fun v hv => by simp at hv⟩ ht fun h => by cases h
    dsimp only
    split <;> split
    · exact (h1.trans (Move.offer _ _ hK).moves).trans (endTxn_moves i)
    · exact h1.trans (Move.offer _ _ hK).moves
    · exact h1.trans (endTxn_moves i)
    · exact h1

theorem recallPhase_moves (h : Inside K s) (i : SlotId) : Moves K A s (s.recallPhase i).1 := by
  unfold State.recallPhase
  split
  · exact .refl _
  · rename_i t ht
    have h1 := dropFencedHolders_moves (A := A) h t.granule i true
    dsimp only
    split
    · exact h1.andThen h fun h => enterMemory_moves h i
    · exact (h1.andThen h fun h => issueRecalls_moves h i _ _).andThen h fun h =>
        modifyTxn_moves h i (fun _ ht => ht) fun _ h => by cases h

theorem activateInPlace_moves (h : Inside K s) (i : SlotId) : Moves K A s (s.activateInPlace i).1 := by
  unfold State.activateInPlace
  split
  · exact .refl _
  · split
    · exact endTxn_moves i
    · exact (Move.entry _ _ _).moves.andThen h fun h => recallPhase_moves h i

/-! ### The sweep engine -/

theorem queueJob_moves (j : Job) : Moves K A s (s.queueJob j) := by
  unfold State.queueJob
  split <;> exact (Move.sweep _ _).moves

theorem setPause_moves (p : Pause) : Moves K A s (s.setPause p) := (Move.sweep _ _).moves

theorem completeJob_moves : Moves K A s s.completeJob := by
  unfold State.completeJob
  split
  · exact .refl _
  · exact (Move.sweep _ _).moves.trans (Move.sweepIdle _).moves
  · exact (Move.sweep _ _).moves

theorem moveOn_moves : Moves K A s s.moveOn := by
  unfold State.moveOn
  split
  · exact (Move.sweep _ _).moves
  · exact completeJob_moves

theorem removeDirectly_moves (h : Inside K s) {e : Entry} (he : K e.granule) (ps : List Port) :
    Moves K A s (s.removeDirectly e ps) := by
  unfold State.removeDirectly
  split
  · exact moveOn_moves
  · have h1 : Moves K A s ((ps.filter e.holders.get).foldl (fun s p => s.changeEntry e.granule (.remove p)) s) :=
      moves_foldl (fun s p _ => (Move.entry s e.granule (.remove p)).moves) _ h
    dsimp only
    split
    · exact h1.trans moveOn_moves
    · have h2 := h1.trans (Move.offer _ ⟨.poisonSet, e.granule, .sweep⟩ he).moves
      split
      · exact h2.trans moveOn_moves
      · exact h2.trans (setPause_moves _)

theorem placeSweep_moves (h : Inside K s) (k : TxnKind) {g : Granule} (hg : K g) : Moves K A s (s.placeSweep k g) := by
  unfold State.placeSweep
  have h1 : Moves K A s (((s.setTxn sweepSlot (some (newTxn k g))).setChain g (s.chain g ++ [sweepSlot])).setPause .slot) :=
    ((setTxn_moves sweepSlot (newTxn_inside k hg) (.inr (.inl rfl))).trans (Move.chain _ _ _).moves).trans (setPause_moves _)
  dsimp only
  split
  · rename_i hc
    rw [hc] at h1
    have h2 := h1.andThen h fun h => activateInPlace_moves h sweepSlot
    rw [hc]
    split
    · exact h2.trans moveOn_moves
    · exact h2
  · exact h1

theorem needSlot_moves (h : Inside K s) (k : TxnKind) {g : Granule} (hg : K g) : Moves K A s (s.needSlot k g) := by
  unfold State.needSlot
  split
  · exact setPause_moves _
  · exact placeSweep_moves h k hg

theorem currentEntry_known (h : Inside K s) {e : Entry} (he : s.currentEntry = some e) : K e.granule := h.way he

theorem visit_moves (h : Inside K s) : Moves K A s s.visit := by
  unfold State.visit
  split
  · exact .refl _
  · split
    · exact moveOn_moves
    · rename_i e he
      have hK := currentEntry_known h he
      split
      · exact removeDirectly_moves h hK _
      · exact removeDirectly_moves h hK _
      · split
        · exact setPause_moves _
        · split
          · exact needSlot_moves h _ hK
          · exact moveOn_moves
      · split
        · exact setPause_moves _
        · split
          · exact moveOn_moves
          · exact needSlot_moves h _ hK

theorem visitAfresh_moves (h : Inside K s) : Moves K A s s.visitAfresh :=
  (setPause_moves .none).andThen h fun h => visit_moves h

theorem sweepSlotFreed_moves (h : Inside K s) : Moves K A s s.sweepSlotFreed := by
  unfold State.sweepSlotFreed
  split
  · exact moveOn_moves
  · exact visitAfresh_moves h
  · exact .refl _
  · exact .refl _
  · exact .refl _

theorem sweepOfferEntered_moves : Moves K A s s.sweepOfferEntered := by
  unfold State.sweepOfferEntered
  split
  · exact moveOn_moves
  · exact .refl _

theorem requestFence_moves (p : Port) : Moves K A s (s.requestFence p) := by
  unfold State.requestFence
  split
  · exact queueJob_moves _
  · split
    · exact .refl _
    · split
      · dsimp only
        split
        · exact (Move.sweep _ _).moves.trans (setPause_moves _)
        · exact (Move.sweep _ _).moves
      · split
        · exact (Move.sweep _ _).moves
        · exact queueJob_moves _

theorem requestRecheck_moves : Moves K A s s.requestRecheck := by
  unfold State.requestRecheck
  split
  · exact .refl _
  · exact queueJob_moves _

theorem requestClear_moves (h : Inside K s) : Moves K A s s.requestClear :=
  (modifyTxn_moves h sweepSlot (fun t ht => by split <;> exact ht) fun t ht => by split at ht <;> exact ht).trans (Move.sweep _ _).moves

/-! ### Eviction -/

theorem startService_moves (h : Inside K s) : Moves K A s s.startService := by
  unfold State.startService
  split
  · exact .refl _
  · dsimp only
    split
    · exact (Move.chain _ _ _).moves.andThen h fun h => activateInPlace_moves h _
    · exact (Move.chain _ _ _).moves

theorem heldBack_moves (g : Granule) (s0 : State) : ∀ f ∈ s0.heldBack g, ∀ s, Inside K s → Moves K A s (f s) := by
  intro f hf s h
  unfold State.heldBack at hf
  rcases List.mem_append.1 hf with hf | hf
  · split at hf
    · rw [List.mem_singleton.1 hf]; exact startService_moves h
    · simp at hf
  · split at hf
    · rw [List.mem_singleton.1 hf]; exact visitAfresh_moves h
    · simp at hf

theorem completeEviction_moves (h : Inside K s) (i : SlotId) : Moves K A s (s.completeEviction i) := by
  unfold State.completeEviction
  split
  · exact .refl _
  · rename_i t ht
    split
    · exact .refl _
    · rename_i v _
      have h1 : Moves K A s ((s.replaceVictim v t.granule i).modifyTxn i fun t =>
          { t with phase := .memory, victim := none, deadline := none }) :=
        (Move.replace s v t.granule i (h.txn ht).1).moves.andThen h fun h =>
          modifyTxn_moves h i (fun t ht => ⟨ht.1, fun v hv => by simp at hv⟩) fun _ h => by cases h
      refine h1.andThen h fun h => inFreeOrder_moves ?_ h
      intro f hf s h
      rcases List.mem_cons.1 hf with rfl | hf
      · exact enterMemory_moves h i
      · exact heldBack_moves _ _ f hf s h

theorem checkEviction_moves (h : Inside K s) (i : SlotId) : Moves K A s (s.checkEviction i) := by
  unfold State.checkEviction
  split
  · exact .refl _
  · split
    · split
      · exact completeEviction_moves h i
      · exact .refl _
    · exact .refl _

theorem startEviction_moves (h : Inside K s) (i : SlotId) {v : Granule} (hv : K v) :
    Moves K A s (s.startEviction i v) := by
  unfold State.startEviction
  have h1 : Moves K A s ((s.changeEntry v (.lockEvicting i)).modifyTxn i fun t =>
      { t with phase := .evicting, victim := some v }) :=
    (Move.entry _ _ _).moves.andThen h fun h =>
      modifyTxn_moves h i (fun t ht => ⟨ht.1, fun w hw => by injection hw with hw; exact hw ▸ hv⟩) fun _ h => by cases h
  have h2 := h1.andThen h fun h => dropFencedHolders_moves h v i false
  dsimp only
  split
  · exact h2.andThen h fun h => checkEviction_moves h i
  · exact h2.andThen h fun h => issueRecalls_moves h i _ _

/-! ### Activation and the advance of a chain -/

theorem victimFor_known (h : Inside K s) {g v : Granule} (hv : s.victimFor g = some v) : K v := by
  unfold State.victimFor at hv
  cases hw : (s.dirSet (setOf g)).victimWay with
  | none => simp [hw] at hv
  | some w =>
    cases he : (s.dirSet (setOf g)).ways.get w with
    | none => simp [hw, he] at hv
    | some e =>
      simp only [hw, he, Option.bind_some, Option.map_some, Option.some.injEq] at hv
      exact hv ▸ h.way he

theorem activate_moves (h : Inside K s) (i : SlotId) : Moves K A s (s.activate i).1 := by
  unfold State.activate
  split
  · exact .refl _
  · rename_i t ht
    split
    · exact endWithBounce_moves i _
    · split
      · split
        · exact (Move.alloc _ _ _ (h.txn ht).1).moves.andThen h fun h => recallPhase_moves h i
        · split
          · rename_i v hv
            dsimp only
            exact startEviction_moves h i (victimFor_known h hv)
          · exact endWithBounce_moves i .busy
      · exact activateInPlace_moves h i

theorem afterEnd_moves (h : Inside K s) (i : SlotId) : Moves K A s (s.afterEnd i) := by
  unfold State.afterEnd
  split
  · exact sweepSlotFreed_moves h
  · exact .refl _

theorem advance_moves (l : List SlotId) : ∀ {s : State}, Inside K s → Moves K A s (State.advance l s) := by
  induction l with
  | nil => exact fun _ => .refl _
  | cons i l ih =>
    intro s h
    have h1 := activate_moves (A := A) h i
    simp only [State.advance]
    split
    · exact (h1.andThen h fun h => ih h).andThen h fun h => afterEnd_moves h i
    · exact h1

theorem advanceAfter_moves (h : Inside K s) (i : SlotId) (g : Granule) : Moves K A s (s.advanceAfter i g) :=
  (advance_moves _ h).andThen h fun h => afterEnd_moves h i

theorem finish_moves (h : Inside K s) (i : SlotId) : Moves K A s (s.finish i) := by
  unfold State.finish
  split
  · exact .refl _
  · exact (endTxn_moves i).andThen h fun h => advanceAfter_moves h i _

theorem takeMemory_moves (h : Inside K s) (i : SlotId) : Moves K A s (s.takeMemory i) := by
  unfold State.takeMemory
  split
  · exact .refl _
  · have h1 := enterMemory_moves (A := A) h i
    dsimp only
    split
    · exact h1.andThen h fun h => advanceAfter_moves h i _
    · exact h1

theorem place_moves (h : Inside K s) (i : SlotId) (k : TxnKind) {g : Granule} (hg : K g)
    (hA : A ∨ slotPort i = none) : Moves K A s (s.place i k g) := by
  unfold State.place
  have h1 : Moves K A s ((s.setTxn i (some (newTxn k g))).setChain g (s.chain g ++ [i])) :=
    (setTxn_moves i (newTxn_inside k hg) (hA.imp_right .inl)).trans (Move.chain _ _ _).moves
  dsimp only
  split
  · rename_i hc
    rw [hc] at h1
    rw [hc]
    exact h1.andThen h fun h => activate_moves h i
  · exact h1

/-! ### The end of recalls, abandonment and completions -/

theorem recallsEnded_moves (h : Inside K s) (i : SlotId) : Moves K A s (s.recallsEnded i) := by
  unfold State.recallsEnded
  split
  · exact .refl _
  · rename_i t ht
    split
    · have h0 : t.inside K := h.txn ht
      have h1 : Moves K A s (s.setTxn i (some { t with deadline := none })) :=
        rewriteTxn_moves h0 ht id
      dsimp only
      split
      · exact h1.andThen h fun h => takeMemory_moves h i
      · exact h1.andThen h fun h => checkEviction_moves h i
      all_goals exact h1
    · exact .refl _

theorem unawait_moves (h : Inside K s) (i : SlotId) (p : Port) : Moves K A s (s.unawait i p) := by
  have h1 : Moves K A s (s.modifyTxn i fun t => { t with awaited := t.awaited.set p none }) :=
    modifyTxn_moves h i fun _ ht => ht
  exact h1.andThen h fun h => recallsEnded_moves h i

theorem resolveAbsent_moves (h : Inside K s) (p : Port) (fenced : Bool) (i : SlotId) :
    Moves K A s (State.resolveAbsent p fenced i s) := by
  unfold State.resolveAbsent
  split
  · exact .refl _
  · split
    · dsimp only
      split
      · rename_i ho
        have hK := known_of_owns h (Bool.and_eq_true_iff.1 ho).2
        exact ((offerPoison_moves h hK i _).trans (Move.entry _ _ _).moves).andThen h fun h => unawait_moves h i p
      · exact (Move.entry _ _ _).moves.andThen h fun h => unawait_moves h i p
    · exact .refl _

theorem drained_inside {i : SlotId} {t x : Txn} (ht : t.inside K) (hx : s.drained i t = some x) : x.inside K := by
  unfold State.drained at hx
  split at hx
  · simp at hx
  · injection hx with hx
    subst hx
    exact ⟨ht.1, fun v hv => by simp at hv⟩

theorem abandon_moves (h : Inside K s) (hA : A) (i : SlotId) : Moves K A s (State.abandon i s) := by
  unfold State.abandon
  split
  · exact .refl _
  · rename_i t ht
    have hd : Moves K A s (s.setTxn i (s.drained i t)) :=
      (Move.txn s i _ fun x hx => ⟨drained_inside (h.txn ht) hx, .inl hA⟩).moves
    dsimp only
    split
    · exact freeHead_moves _ _
    · exact ((hd.trans (Move.entry _ _ _).moves).trans (leaveChain_moves _ _)).andThen h fun h =>
        advanceAfter_moves h i _
    · exact ((hd.trans (Move.entry _ _ _).moves).trans (leaveChain_moves _ _)).andThen h fun h =>
        advanceAfter_moves h i _
    · exact (((hd.trans (Move.entry _ _ _).moves).trans (leaveChain_moves _ _)).andThen h fun h =>
        inFreeOrder_moves (heldBack_moves _ _) h).andThen h fun h => advanceAfter_moves h i _
    · exact hd
    · exact .refl _

theorem note_inside {t : Txn} (ht : t.inside K) (c : Completion) : (t.note c).inside K := by cases c <;> exact ht

theorem deliverToSlot_moves (h : Inside K s) (i : SlotId) (c : Completion) : Moves K A s (s.deliverToSlot i c) := by
  unfold State.deliverToSlot
  split
  · exact .refl _
  · rename_i t ht
    have h1 : Moves K A s (s.setTxn i (some (t.note c))) :=
      rewriteTxn_moves (note_inside (h.txn ht) c) ht fun h => by cases c <;> exact h
    dsimp only
    split
    · split
      · exact freeTxn_moves i
      · exact .refl _
    · split
      · split
        · exact (Move.send _ _ _).moves.trans (freeTxn_moves i)
        · exact freeTxn_moves i
      · exact .refl _
    · split
      · exact h1.andThen h fun h => finish_moves h i
      · exact h1
    all_goals exact h1

end Sys2Proof.Machine
end

