-- ==== Sys2Proof/Laws/Directory.lean ====
section
/-! SUPPORT. The directory's laws: every change of chapter 2 keeps every set lawful. -/

namespace Sys2Proof.Machine

variable {K : Granule → Prop} {A : Prop} {s t : State}

theorem getElem_ways_set (d : DirSet) (w x : Fin 8) (o : Option Entry) :
    (d.ways.set w.val o w.isLt).get x = if x = w then o else d.ways.get x := by
  change (d.ways.set w.val o w.isLt)[x.val] = _
  rw [Vector.getElem_set]
  by_cases h : x = w
  · subst h; simp
  · rw [if_neg (fun e => h (Fin.ext e.symm)), if_neg h]; rfl

theorem get_empty (w : Fin 8) : DirSet.empty.ways.get w = none := by
  change (Vector.replicate 8 (none : Option Entry))[w.val] = none
  simp

theorem DirSet.lawful_empty (k : Nat) : DirSet.empty.Lawful k where
  place w e h := by simp [get_empty] at h
  once v w e f h := by simp [get_empty] at h
  nodup := by simp [DirSet.empty]
  listed w := by simp [DirSet.empty]

theorem members_set_owner (p : Port) : (members ((PerPort.const false).set p true)).length = 1 := by cases p <;> rfl

theorem noMember_set_true (m : PerPort Bool) (p : Port) : noMember (m.set p true) = false := by
  cases p <;> simp [noMember, PerPort.set]

theorem members_remove (m : PerPort Bool) (p : Port) (h : (members m).length ≤ 1) :
    (members (m.set p false)).length ≤ 1 := by
  revert h
  obtain ⟨a, b, c, d⟩ := m
  revert a b c d
  cases p <;> decide

theorem members_none : (members (PerPort.const false)).length ≤ 1 := by decide

/-- A change leaves an entry lawful, or frees it. -/
theorem Entry.lawful_apply {e : Entry} (h : e.lawful) (c : EntryChange) (hf : (e.apply c).freed = false) :
    (e.apply c).lawful := by
  have hn : (e.apply c).lock = .none → noMember (e.apply c).holders = false := by
    intro hl
    simp only [Entry.freed, hl, beq_self_eq_true, Bool.and_true] at hf
    exact hf
  refine ⟨fun hm => ?_, hn⟩
  cases c with
  | lockBusy i => exact h.1 hm
  | lockEvicting i => exact h.1 hm
  | unlock i => exact h.1 hm
  | remove p => exact members_remove _ p (h.1 hm)
  | removeAll => exact members_none
  | demote => simp [Entry.apply] at hm
  | grantReader p i => simp [Entry.apply] at hm
  | grantOwner p i => exact (members_set_owner p).le

theorem DirSet.Lawful.free {d : DirSet} {k : Nat} (h : d.Lawful k) (w : Fin 8) : (d.free w).Lawful k where
  place x e hx := h.place x e (DirSet.get_free hx)
  once v x e f hv hx hg := h.once v x e f (DirSet.get_free hv) (DirSet.get_free hx) hg
  nodup := h.nodup.filter _
  listed x := by
    change x ∈ d.order.filter (fun y => y != w) ↔ ((d.ways.set w.val none w.isLt).get x).isSome
    rw [getElem_ways_set, List.mem_filter, h.listed]
    by_cases hx : x = w <;> simp [hx]

theorem DirSet.Lawful.put {d : DirSet} {k : Nat} (h : d.Lawful k) {w : Fin 8} {e f : Entry}
    (he : d.ways.get w = some e) (hg : f.granule = e.granule) (hf : f.lawful) : (d.put w f).Lawful k where
  place x y hx := by
    rcases DirSet.get_put hx with ⟨rfl, rfl⟩ | ⟨-, hx⟩
    · exact ⟨hg ▸ (h.place x e he).1, hf⟩
    · exact h.place x y hx
  once v x y z hv hx hyz := by
    rcases DirSet.get_put hv with ⟨rfl, rfl⟩ | ⟨hvw, hv⟩ <;> rcases DirSet.get_put hx with ⟨rfl, rfl⟩ | ⟨hxw, hx⟩
    · rfl
    · exact h.once v x e z he hx (hg ▸ hyz)
    · exact h.once v _ y e (by assumption) he (hyz.trans hg)
    · exact h.once v x y z hv hx hyz
  nodup := h.nodup
  listed x := by
    change x ∈ d.order ↔ ((d.ways.set w.val (some f) w.isLt).get x).isSome
    rw [getElem_ways_set, h.listed]
    by_cases hx : x = w
    · subst hx; simp [he]
    · simp [hx]

theorem DirSet.Lawful.change {d : DirSet} {k : Nat} (h : d.Lawful k) (g : Granule) (c : EntryChange) :
    (d.change g c).Lawful k := by
  unfold DirSet.change
  split
  · exact h
  · rename_i w _
    split
    · exact h
    · rename_i e he
      split
      · exact h.free w
      · rename_i hf
        exact h.put he (e.apply_granule c) (Entry.lawful_apply (h.place w e he).2 c (by simpa using hf))

theorem newEntry_lawful (g : Granule) (i : SlotId) : (newEntry g i).lawful :=
  ⟨fun h => by simp [newEntry] at h, fun h => by simp [newEntry] at h⟩

/-- A way that is invalid is allocated for a granule of the set that has no entry. -/
theorem DirSet.Lawful.allocate {d : DirSet} {k : Nat} (h : d.Lawful k) {w : Fin 8} {g : Granule} (i : SlotId)
    (hw : d.ways.get w = none) (hg : setOf g = k) (hn : ∀ x e, d.ways.get x = some e → e.granule ≠ g) :
    (d.allocate w g i).Lawful k where
  place x y hx := by
    rcases DirSet.get_put (d := d) hx with ⟨rfl, rfl⟩ | ⟨-, hx⟩
    · exact ⟨hg, newEntry_lawful g i⟩
    · exact h.place x y hx
  once v x y z hv hx hyz := by
    rcases DirSet.get_put (d := d) hv with ⟨rfl, rfl⟩ | ⟨hvw, hv⟩ <;>
      rcases DirSet.get_put (d := d) hx with ⟨rfl, rfl⟩ | ⟨hxw, hx⟩
    · rfl
    · exact absurd hyz.symm (hn x z hx)
    · exact absurd hyz (hn v y (by assumption))
    · exact h.once v x y z hv hx hyz
  nodup := by
    refine List.nodup_append.2 ⟨h.nodup, by simp, fun a ha b hb => ?_⟩
    rw [List.mem_singleton.1 hb]
    rintro rfl
    simpa [hw] using (h.listed a).1 ha
  listed x := by
    change x ∈ d.order ++ [w] ↔ ((d.ways.set w.val (some (newEntry g i)) w.isLt).get x).isSome
    rw [getElem_ways_set, List.mem_append, h.listed]
    by_cases hx : x = w <;> simp [hx]

theorem mem_allWays (w : Fin 8) : w ∈ allWays := by revert w; decide

theorem DirSet.none_of_wayOf {d : DirSet} {g : Granule} (h : d.wayOf g = none) (x : Fin 8) (e : Entry)
    (he : d.ways.get x = some e) : e.granule ≠ g := by
  intro hg
  have := List.find?_eq_none.1 h x (mem_allWays x)
  simp [he, hg] at this

theorem DirSet.get_invalidWay {d : DirSet} {w : Fin 8} (h : d.invalidWay = some w) : d.ways.get w = none := by
  have := List.find?_some h
  simpa using this

theorem State.directoryLawful_setDirSet (h : s.directoryLawful) {k : Nat} {d : DirSet} (hd : d.Lawful k) :
    (s.setDirSet k d).directoryLawful := by
  refine ⟨Sparse.wf_set h.1 _ _, fun j => ?_⟩
  rw [dirSet_setDirSet h.1]
  split
  · subst j; exact hd
  · exact h.2 j

theorem Move.directoryLawful (m : Move K A s t) (h : s.directoryLawful) : t.directoryLawful := by
  cases m with
  | send p f => unfold State.send; dsimp only; split <;> exact h
  | offer op => unfold State.offer; split <;> exact h
  | entry g c => exact State.directoryLawful_setDirSet h ((h.2 _).change g c)
  | alloc g i =>
    unfold State.allocateEntry
    dsimp only
    split
    · rename_i hg hw
      exact State.directoryLawful_setDirSet h
        ((h.2 _).allocate i (DirSet.get_invalidWay hw) rfl (DirSet.none_of_wayOf hg))
    · exact h
  | replace v g i =>
    unfold State.replaceVictim
    dsimp only
    split
    · rename_i w hv hg
      split
      · rename_i hs
        refine State.directoryLawful_setDirSet h (((h.2 _).free w).allocate i ?_ hs fun x e hx => ?_)
        · change ((s.dirSet (setOf v)).ways.set w.val none w.isLt).get w = none
          rw [getElem_ways_set, if_pos rfl]
        · exact DirSet.none_of_wayOf hg x e (DirSet.get_free hx)
      · exact h
    · exact h
  | _ => exact h

theorem Moves.directoryLawful (m : Moves K A s t) (h : s.directoryLawful) : t.directoryLawful :=
  m.keeps (P := fun s => s.directoryLawful) Move.directoryLawful h

/-! ### Canonical tables -/

theorem Move.tablesCanonical (m : Move K A s t) (h : s.tablesCanonical) : t.tablesCanonical := by
  cases m with
  | send p f => unfold State.send; dsimp only; split <;> exact h
  | offer op => unfold State.offer; split <;> exact h
  | chain g c => exact ⟨h.1, h.2.1, h.2.2.1, Sparse.wf_set h.2.2.2.1 _ _, h.2.2.2.2⟩
  | entry g c => exact ⟨h.1, h.2.1, h.2.2.1, h.2.2.2.1, Sparse.wf_set h.2.2.2.2 _ _⟩
  | alloc g i =>
    unfold State.allocateEntry
    dsimp only
    split
    · exact ⟨h.1, h.2.1, h.2.2.1, h.2.2.2.1, Sparse.wf_set h.2.2.2.2 _ _⟩
    · exact h
  | replace v g i =>
    unfold State.replaceVictim
    dsimp only
    split
    · split
      · exact ⟨h.1, h.2.1, h.2.2.1, h.2.2.2.1, Sparse.wf_set h.2.2.2.2 _ _⟩
      · exact h
    · exact h
  | _ => exact h

theorem Moves.tablesCanonical (m : Moves K A s t) (h : s.tablesCanonical) : t.tablesCanonical :=
  m.keeps (P := fun s => s.tablesCanonical) Move.tablesCanonical h

end Sys2Proof.Machine
end

