-- ==== Sys2Proof/Laws/Quiet.lean ====
section
/-! SUPPORT. What no move touches: the controller, the windows, the contents of memory, the counts and settings of every
block; and how the memory queue and the outbound frame queues may grow. -/

namespace Sys2Proof.Machine

/-- What a sequence of moves leaves alone, and how the queues grow. -/
structure Quiet (K : Granule → Prop) (s t : State) : Prop where
  pending : t.pending = s.pending
  inReset : t.inReset = s.inReset
  now : t.now = s.now
  windows : t.windows = s.windows
  ctl : t.ctl = s.ctl
  recallLimit : t.table.recallLimit = s.table.recallLimit
  /-- Of the memory controller only the queue and the pending list change. -/
  mem : { t.mem with queue := s.mem.queue, waiting := s.mem.waiting } = s.mem
  /-- Of the service port only the result record and EVENT_STATUS change. -/
  svc : { t.svc with result := s.svc.result, eventStatus := s.svc.eventStatus } = s.svc
  /-- Of an interface only the outbound frame queue changes. -/
  iface : ∀ p, { t.ifaces.get p with outq := (s.ifaces.get p).outq } = s.ifaces.get p
  /-- Operations are offered behind those that were there. -/
  offers : ∃ ops, t.mem.queue ++ t.mem.waiting = s.mem.queue ++ s.mem.waiting ++ ops ∧ ∀ op ∈ ops, K op.granule
  /-- Frames are queued behind those that were there. -/
  frames : ∀ p, ∃ fs, (t.ifaces.get p).outq = (s.ifaces.get p).outq ++ fs
  /-- No frame is queued on a link that is DOWN, or for a fenced port. -/
  silent : ∀ p, ((s.ifaces.get p).linkUp = false ∨ (s.portState p).isFenced = true) →
    (t.ifaces.get p).outq = (s.ifaces.get p).outq

variable {K : Granule → Prop} {A : Prop} {s t u : State}

theorem Quiet.refl (s : State) : Quiet K s s where
  pending := rfl
  inReset := rfl
  now := rfl
  windows := rfl
  ctl := rfl
  recallLimit := rfl
  mem := rfl
  svc := rfl
  iface _ := rfl
  offers := ⟨[], by simp⟩
  frames _ := ⟨[], by simp⟩
  silent _ _ := rfl

theorem Quiet.linkUp (h : Quiet K s t) (p : Port) : (t.ifaces.get p).linkUp = (s.ifaces.get p).linkUp := by
  have := congrArg Iface.linkUp (h.iface p)
  exact this

theorem Quiet.portState (h : Quiet K s t) (p : Port) : t.portState p = s.portState p := by
  unfold State.portState; rw [h.ctl]

theorem Quiet.trans (h : Quiet K s t) (k : Quiet K t u) : Quiet K s u where
  pending := k.pending.trans h.pending
  inReset := k.inReset.trans h.inReset
  now := k.now.trans h.now
  windows := k.windows.trans h.windows
  ctl := k.ctl.trans h.ctl
  recallLimit := k.recallLimit.trans h.recallLimit
  mem := by
    have := h.mem
    rw [← k.mem] at this
    exact this
  svc := by
    have := h.svc
    rw [← k.svc] at this
    exact this
  iface p := by
    have := h.iface p
    rw [← k.iface p] at this
    exact this
  offers := by
    obtain ⟨a, ha, hK⟩ := h.offers
    obtain ⟨b, hb, hL⟩ := k.offers
    refine ⟨a ++ b, by rw [hb, ha, List.append_assoc], fun op ho => ?_⟩
    rcases List.mem_append.1 ho with ho | ho
    · exact hK op ho
    · exact hL op ho
  frames p := by
    obtain ⟨a, ha⟩ := h.frames p
    obtain ⟨b, hb⟩ := k.frames p
    exact ⟨a ++ b, by rw [hb, ha, List.append_assoc]⟩
  silent p hp := by
    rw [k.silent p (by rw [h.linkUp, h.portState]; exact hp), h.silent p hp]

theorem send_quiet (s : State) (p : Port) (f : HubFrame) : Quiet K s (s.send p f) := by
  by_cases hc : (!(s.ifaces.get p).linkUp || (s.portState p).isFenced) = true
  · have : s.send p f = s := if_pos hc
    rw [this]
    exact .refl s
  · have hs : s.send p f = s.setIface p { s.ifaces.get p with outq := (s.ifaces.get p).outq ++ [f] } := if_neg hc
    rw [hs]
    refine ⟨rfl, rfl, rfl, rfl, rfl, rfl, rfl, rfl, fun q => ?_, ⟨[], by simp⟩, fun q => ?_, fun q hq => ?_⟩
    · rw [setIface_ifaces, PerPort.get_set]
      split
      · subst q; rfl
      · rfl
    · rw [setIface_ifaces, PerPort.get_set]
      split
      · subst q; exact ⟨[f], rfl⟩
      · exact ⟨[], by simp⟩
    · rw [setIface_ifaces, PerPort.get_set]
      split
      · subst q
        rcases hq with hq | hq <;> simp [hq] at hc
      · rfl

theorem offer_queues (s : State) (op : MemOp) :
    (s.offer op).mem.queue ++ (s.offer op).mem.waiting = s.mem.queue ++ s.mem.waiting ++ [op] := by
  unfold State.offer
  split
  · rename_i h
    simp [h.2]
  · simp

theorem offer_quiet (s : State) (op : MemOp) (h : K op.granule) : Quiet K s (s.offer op) := by
  have hq := offer_queues s op
  have ho : ∃ ops, (s.offer op).mem.queue ++ (s.offer op).mem.waiting = s.mem.queue ++ s.mem.waiting ++ ops ∧
      ∀ op ∈ ops, K op.granule := ⟨[op], hq, fun x hx => by rw [List.mem_singleton.1 hx]; exact h⟩
  clear hq
  revert ho
  unfold State.offer
  split <;> exact fun ho => ⟨rfl, rfl, rfl, rfl, rfl, rfl, rfl, rfl, fun _ => rfl, ho, fun _ => ⟨[], by simp⟩, fun _ _ => rfl⟩

/-- A move that leaves the interfaces and the memory controller alone. -/
theorem Quiet.of_eq (h1 : t.pending = s.pending) (h2 : t.inReset = s.inReset) (h3 : t.now = s.now)
    (h4 : t.windows = s.windows) (h5 : t.ctl = s.ctl) (h6 : t.table.recallLimit = s.table.recallLimit)
    (h7 : t.mem = s.mem) (h8 : { t.svc with result := s.svc.result, eventStatus := s.svc.eventStatus } = s.svc)
    (h9 : t.ifaces = s.ifaces) : Quiet K s t where
  pending := h1
  inReset := h2
  now := h3
  windows := h4
  ctl := h5
  recallLimit := h6
  mem := by rw [h7]
  svc := h8
  iface p := by rw [h9]
  offers := ⟨[], by simp [h7]⟩
  frames p := ⟨[], by simp [h9]⟩
  silent p _ := by rw [h9]

theorem Move.quiet (m : Move K A s t) : Quiet K s t := by
  cases m with
  | send p f => exact send_quiet s p f
  | offer op h => exact offer_quiet s op h
  | alloc g i h =>
    unfold State.allocateEntry
    dsimp only
    split
    · exact .of_eq rfl rfl rfl rfl rfl rfl rfl rfl rfl
    · exact .refl s
  | replace v g i h =>
    unfold State.replaceVictim
    dsimp only
    split
    · split
      · exact .of_eq rfl rfl rfl rfl rfl rfl rfl rfl rfl
      · exact .refl s
    · exact .refl s
  | _ => exact .of_eq rfl rfl rfl rfl rfl rfl rfl rfl rfl

/-- What a sequence of moves leaves alone. -/
theorem Moves.quiet (m : Moves K A s t) : Quiet K s t := by
  induction m with
  | refl => exact .refl s
  | tail _ m ih => exact ih.trans m.quiet

/-! ### The memory queue -/

theorem offer_lawful (s : State) (op : MemOp) (h : s.mem.lawful) : (s.offer op).mem.lawful := by
  unfold State.offer
  split
  · rename_i hc
    exact ⟨by simp only [setMem_mem, List.length_append, List.length_singleton]; omega, fun hw => absurd hc.2 hw⟩
  · rename_i hc
    refine ⟨h.1, fun _ => ?_⟩
    by_cases hw : s.mem.waiting = []
    · have := h.1
      by_contra hne
      exact hc ⟨by simp only [setMem_mem] at hne; omega, hw⟩
    · exact h.2 hw

theorem Move.memLawful (m : Move K A s t) (h : s.mem.lawful) : t.mem.lawful := by
  cases m with
  | send p f =>
    unfold State.send
    dsimp only
    split <;> exact h
  | offer op => exact offer_lawful s op h
  | alloc g i => unfold State.allocateEntry; dsimp only; split <;> exact h
  | replace v g i =>
    unfold State.replaceVictim
    dsimp only
    split
    · split <;> exact h
    · exact h
  | _ => exact h

theorem Moves.memLawful (m : Moves K A s t) (h : s.mem.lawful) : t.mem.lawful :=
  m.keeps (P := fun s => s.mem.lawful) Move.memLawful h

end Sys2Proof.Machine
end

