-- ==== Sys2Proof/Laws/Acts.lean ====
section
/-! SUPPORT. What the port membership controller can do beside the moves of the other blocks, said once, and each of its
operations as a sequence of such acts. -/

namespace Sys2Proof.Machine

/-- A step of a port record that leaves the line fields and the settings alone and keeps the record lawful; a port
becomes a member only while the hub runs (07 R130, R136). -/
structure PortStep (hub : HubState) (old new : PortRec) : Prop where
  present : new.present = old.present
  latchClosed : new.latchClosed = old.latchClosed
  holdFlag : new.holdFlag = old.holdFlag
  controlGrant : new.controlGrant = old.controlGrant
  indicatorForced : new.indicatorForced = old.indicatorForced
  lawful : old.lawful → new.lawful
  member : new.state.isMember = true → old.state.isMember = true ∨ hub = .running

/-- One act: a move, a step of a port record, the epoch, an event, or the clearing of an interface's two queues. -/
inductive Act (K : Granule → Prop) : State → State → Prop
  | move {s t : State} (m : Move K True s t) : Act K s t
  | port (s : State) (p : Port) (r : PortRec) (h : PortStep s.svc.hubState (s.ctl.ports.get p) r) :
      Act K s (s.setPort p r)
  | epoch (s : State) : Act K s s.bumpEpoch
  | event (s : State) (e : Event) : Act K s (s.raise e)
  | clear (s : State) (p : Port) : Act K s (s.setIface p { s.ifaces.get p with outq := [], waiting := [] })

/-- A sequence of acts. -/
inductive Acts (K : Granule → Prop) : State → State → Prop
  | refl (s : State) : Acts K s s
  | tail {s t u : State} (h : Acts K s t) (m : Act K t u) : Acts K s u

variable {K : Granule → Prop} {s t u : State}

theorem Act.acts (m : Act K s t) : Acts K s t := .tail (.refl s) m

theorem Acts.trans (h : Acts K s t) (k : Acts K t u) : Acts K s u := by
  induction k with
  | refl => exact h
  | tail _ m ih => exact .tail ih m

theorem Moves.acts (h : Moves K True s t) : Acts K s t := by
  induction h with
  | refl => exact .refl _
  | tail _ m ih => exact .tail ih (.move m)

theorem Acts.keeps {P : State → Prop} (hP : ∀ {a b}, Act K a b → P a → P b) (h : Acts K s t) (hs : P s) : P t := by
  induction h with
  | refl => exact hs
  | tail _ m ih => exact hP m ih

theorem Act.inside (m : Act K s t) (h : Inside K s) : Inside K t := by
  cases m with
  | move m => exact m.inside h
  | port p r _ => exact h.of_eq (fun _ => rfl) rfl
  | epoch => exact h.of_eq (fun _ => rfl) rfl
  | event e => exact h.of_eq (fun _ => rfl) rfl
  | clear p => exact h.of_eq (fun _ => rfl) rfl

theorem Acts.inside (m : Acts K s t) (h : Inside K s) : Inside K t := m.keeps Act.inside h

theorem Acts.andThen (h : Acts K s t) (hs : Inside K s) (hf : Inside K t → Acts K t u) : Acts K s u :=
  h.trans (hf (h.inside hs))

theorem acts_foldl {α : Type} {f : State → α → State} (hf : ∀ s a, Inside K s → Acts K s (f s a)) (l : List α) :
    ∀ {s : State}, Inside K s → Acts K s (l.foldl f s) := by
  induction l with
  | nil => exact fun _ => .refl _
  | cons a l ih => exact fun h => (hf _ a h).trans (ih ((hf _ a h).inside h))

/-- What parties do in an open order is a sequence of acts when what each of them does is one. -/
theorem inFreeOrder_acts {fs : List (State → State)} (hf : ∀ f ∈ fs, ∀ s, Inside K s → Acts K s (f s))
    (h : Inside K s) : Acts K s (s.inFreeOrder fs) := by
  unfold State.inFreeOrder
  split
  · exact .refl _
  · exact hf _ (by simp) s h
  · generalize hl : Config.freeOrder fs.length s.freeDraws fs = l
    have hm : ∀ f ∈ l, ∀ s, Inside K s → Acts K s (f s) := fun f hfl => by
      rw [← hl] at hfl
      exact hf f (mem_freeOrder _ _ _ hfl)
    refine Acts.trans (Move.draws s fs.length).moves.acts ?_
    have h' := (Move.draws (K := K) (A := True) s fs.length).inside h
    clear hl hf h
    revert h'
    generalize ({ s with freeDraws := s.freeDraws + fs.length } : State) = s'
    induction l generalizing s' with
    | nil => exact fun _ => .refl _
    | cons f l ih =>
      intro h'
      have hfs := hm f (by simp) s' h'
      exact hfs.trans (ih (fun f hf => hm f (List.mem_cons_of_mem _ hf)) _ (hfs.inside h'))

/-! ### Notices -/

theorem sendNotice_moves {A : Prop} (ps : List Port) (n : Notice) (h : Inside K s) : Moves K A s (s.sendNotice ps n) :=
  moves_foldl (fun s p _ => (Move.send s p (.notice n s.ctl.epoch)).moves) ps h

/-! ### Leaving DEPARTING and FENCING -/

theorem modifyPort_acts {p : Port} {f : PortRec → PortRec}
    (h : PortStep s.svc.hubState (s.ctl.ports.get p) (f (s.ctl.ports.get p))) : Acts K s (s.modifyPort p f) :=
  (Act.port s p _ h).acts

theorem passToParked_acts (h : Inside K s) {p : Port} (hp : s.portState p = .departing) :
    Acts K s (s.passToParked p) := by
  have h1 : Acts K s (s.modifyPort p fun r =>
      { r with state := .parked, deadline := none, leaveAsked := false, sweepFinished := false,
               joinedEpoch := none }) := by
    refine modifyPort_acts ⟨rfl, rfl, rfl, rfl, rfl, fun hl => ⟨fun _ => hl.1 ?_, fun hm => ?_⟩, fun hm => ?_⟩
    · change (s.portState p).seated = true
      rw [hp]; rfl
    · simp [PortState.isMember] at hm
    · simp [PortState.isMember] at hm
  unfold State.passToParked
  dsimp only
  refine Acts.trans (((h1.trans (Act.epoch _).acts).andThen h fun h => inFreeOrder_acts ?_ h).andThen h
    fun h => (sendNotice_moves _ _ h).acts) (Act.event _ _).acts
  intro f hf s h
  obtain ⟨i, -, rfl⟩ := List.mem_map.1 hf
  exact (resolveAbsent_moves h p false i).acts

theorem exitFencing_acts (h : Inside K s) (p : Port) : Acts K s (s.exitFencing p) := by
  have h1 : Acts K s (s.modifyPort p fun r =>
      { r with state := if r.present then .fenced else .empty, sweepFinished := false, joinedEpoch := none }) := by
    refine modifyPort_acts ⟨rfl, rfl, rfl, rfl, rfl, fun hl => ⟨fun hs => ?_, fun hm => ?_⟩, fun hm => ?_⟩
    all_goals cases hq : (s.ctl.ports.get p).present <;> simp_all [PortState.seated, PortState.isMember]
  unfold State.exitFencing
  exact ((h1.trans (Act.epoch _).acts).andThen h fun h => (sendNotice_moves _ _ h).acts).trans (Act.event _ _).acts

theorem leaveIfReady_acts (h : Inside K s) (p : Port) : Acts K s (State.leaveIfReady p s) := by
  unfold State.leaveIfReady
  split
  · split
    · exact passToParked_acts h (by simpa using ‹(s.portState p == PortState.departing) = true›)
    · exact exitFencing_acts h p
  · exact .refl _

theorem settleRounds_acts (n : Nat) : ∀ {s : State}, Inside K s → Acts K s (s.settleRounds n) := by
  induction n with
  | zero => exact fun _ => .refl _
  | succ n ih =>
    intro s h
    simp only [State.settleRounds]
    split
    · exact .refl _
    · refine (inFreeOrder_acts ?_ h).andThen h fun h => ih h
      intro f hf s h
      obtain ⟨q, -, rfl⟩ := List.mem_map.1 hf
      exact leaveIfReady_acts h q

theorem settle_acts (h : Inside K s) : Acts K s s.settle := settleRounds_acts 4 h

/-! ### Fence entry -/

theorem enterFencing_acts (reason : FenceReason) (p : Port) : Acts K s (State.enterFencing reason s p) := by
  unfold State.enterFencing
  refine Acts.trans (modifyPort_acts ⟨rfl, rfl, rfl, rfl, rfl, fun _ => ⟨fun hs => ?_, fun hm => ?_⟩, fun hm => ?_⟩)
    (Act.clear _ p).acts
  all_goals simp_all [PortState.seated, PortState.isMember]

theorem dropIfWaiting_moves (i : SlotId) : Moves K True s (s.dropIfWaiting i) := by
  unfold State.dropIfWaiting
  split
  · exact .refl _
  · split
    · exact freeHead_moves _ _
    · exact .refl _

theorem fenceTask_acts {ps : List Port} {i : SlotId} {s0 : State} {f : State → State} (hf : s0.fenceTask ps i = some f)
    (h : Inside K s) : Acts K s (f s) := by
  unfold State.fenceTask at hf
  split at hf
  · simp at hf
  · split at hf
    · injection hf with hf; subst hf; exact (abandon_moves h trivial i).acts
    · split at hf
      · injection hf with hf; subst hf
        exact acts_foldl (fun s p h => (resolveAbsent_moves h p true i).acts) ps h
      · simp at hf

theorem fenceEntries_acts (h : Inside K s) (ps : List Port) (reason : FenceReason) :
    Acts K s (s.fenceEntries ps reason) := by
  have h1 : Acts K s (ps.foldl (State.enterFencing reason) s) :=
    acts_foldl (fun _ p _ => enterFencing_acts reason p) ps h
  have h2 : Acts K s ((allSlots.filter (ownedBy ps)).foldl State.dropIfWaiting (ps.foldl (State.enterFencing reason) s)) :=
    h1.andThen h fun h => acts_foldl (fun _ i _ => (dropIfWaiting_moves i).acts) _ h
  unfold State.fenceEntries
  dsimp only
  exact h2.andThen h fun h => inFreeOrder_acts (fs := allSlots.filterMap
      (State.fenceTask ((allSlots.filter (ownedBy ps)).foldl State.dropIfWaiting
        (ps.foldl (State.enterFencing reason) s)) ps)) (fun f hf s h => by
      obtain ⟨i, -, hi⟩ := List.mem_filterMap.1 hf
      exact fenceTask_acts hi h) h

theorem fenceMember_acts (h : Inside K s) (p : Port) (reason : FenceReason) : Acts K s (s.fenceMember p reason) := by
  unfold State.fenceMember
  split
  · have request : Moves K True s (s.requestFence p) := requestFence_moves p
    have entry := request.acts.andThen h fun h => fenceEntries_acts h [p] reason
    dsimp only
    refine Acts.andThen ?_ h settle_acts
    split
    · exact entry.andThen h fun h => (visit_moves h).acts
    · exact entry
  · exact .refl _

theorem clearMembers_acts (h : Inside K s) : Acts K s s.clearMembers := by
  have stop : Moves K True s s.stopSweep := (Move.sweep s _).moves
  exact ((stop.acts.andThen h fun h => fenceEntries_acts h _ .clear).andThen h
    fun h => (requestClear_moves h).acts).andThen h settle_acts

/-! ### Admission, joining and leaving -/

theorem movePort_acts {p : Port} {st : PortState} (h1 : st.seated = true → (s.portState p).seated = true)
    (h2 : (s.ctl.ports.get p).lawful → st.isMember = true ∨ st = .joinable → (s.ctl.ports.get p).holdFlag = false)
    (h3 : st.isMember = true → (s.portState p).isMember = true) : Acts K s (s.movePort p st) :=
  modifyPort_acts (f := fun r => { r with state := st })
    ⟨rfl, rfl, rfl, rfl, rfl, fun hl => ⟨fun hs => hl.1 (h1 hs), h2 hl⟩, fun hm => .inl (h3 hm)⟩

/-- A move to a state that is neither a member's nor JOINABLE, of a port that has a card in it. -/
theorem movePort_acts_idle {p : Port} {st : PortState} (hp : (s.portState p).seated = true)
    (h1 : st.isMember = false) (h2 : st ≠ .joinable) : Acts K s (s.movePort p st) :=
  movePort_acts (fun _ => hp) (fun _ h => by rcases h with h | h <;> simp_all) fun h => by simp_all

/-- Admission of a port that has a card in it. -/
theorem admission_acts {p : Port} (hp : (s.portState p).seated = true) : Acts K s (s.admission p) := by
  unfold State.admission
  split
  · exact (movePort_acts_idle hp rfl (by simp)).trans (Act.event _ _).acts
  · rename_i h
    exact movePort_acts (fun _ => hp) (fun _ _ => by simp at h; exact h.1) (fun h => by simp [PortState.isMember] at h)

theorem placeCard_acts {p : Port} (hp : (s.portState p).seated = true) : Acts K s (s.placeCard p) := by
  unfold State.placeCard
  split
  · exact admission_acts hp
  · exact movePort_acts_idle hp rfl (by simp)

theorem joinAccepted_acts (h : Inside K s) {p : Port} (hp : s.portState p = .joinable)
    (hr : s.svc.hubState = .running) : Acts K s (s.joinAccepted p) := by
  unfold State.joinAccepted
  dsimp only
  have h1 : Acts K s (s.bumpEpoch.modifyPort p fun r =>
      { r with state := .active, joinedEpoch := some s.bumpEpoch.ctl.epoch, fenceReason := none }) := by
    refine (Act.epoch s).acts.trans (modifyPort_acts ⟨rfl, rfl, rfl, rfl, rfl, fun hl => ⟨fun _ => hl.1 ?_,
      fun _ => hl.2 (.inr hp)⟩, fun _ => .inr hr⟩)
    change (s.portState p).seated = true
    rw [hp]; rfl
  exact ((h1.trans (Move.send _ _ _).moves.acts).andThen h fun h => (sendNotice_moves _ _ h).acts).trans
    (Act.event _ _).acts

theorem joinFrame_acts (h : Inside K s) (p : Port) (g : Granule) : Acts K s (s.joinFrame p g) := by
  unfold State.joinFrame
  split
  · split
    · exact joinAccepted_acts h ‹_› ‹_›
    · exact (Move.send _ _ _).moves.acts
    · exact (Move.send _ _ _).moves.acts
  all_goals first | exact (Move.send _ _ _).moves.acts | exact .refl _

theorem bounceIfWaiting_moves (p : Port) (i : SlotId) : Moves K True s (State.bounceIfWaiting p i s) := by
  unfold State.bounceIfWaiting
  split
  · exact .refl _
  · split
    · exact (Move.send _ _ _).moves.trans (freeHead_moves _ _)
    · exact .refl _

theorem enterDeparting_acts (h : Inside K s) {p : Port} (hp : s.portState p = .active) :
    Acts K s (s.enterDeparting p) := by
  unfold State.enterDeparting
  dsimp only
  have h1 : Acts K s (s.movePort p .departing) :=
    movePort_acts (fun _ => by rw [hp]; rfl)
      (fun hl _ => hl.2 (.inl (by change (s.portState p).isMember = true; rw [hp]; rfl))) (fun _ => by rw [hp]; rfl)
  refine ((h1.andThen h fun h => inFreeOrder_acts ?_ h).trans (queueJob_moves _).acts).trans
    (modifyPort_acts ⟨rfl, rfl, rfl, rfl, rfl, id, fun hm => .inl hm⟩)
  intro f hf s h
  obtain ⟨i, -, rfl⟩ := List.mem_map.1 hf
  exact (bounceIfWaiting_moves p i).acts

theorem leaveFrame_acts (h : Inside K s) (p : Port) (g : Granule) : Acts K s (s.leaveFrame p g) := by
  unfold State.leaveFrame
  split
  · rename_i hp
    split
    · refine (Move.send s p (.ack 15 0 .ok .none false)).moves.acts.andThen h fun h => enterDeparting_acts h ?_
      rw [(send_quiet (K := fun _ => True) s p _).portState]
      exact hp
    · exact (Move.send _ _ _).moves.acts
  all_goals first | exact (Move.send _ _ _).moves.acts | exact .refl _

/-! ### What no act touches -/

/-- What a sequence of acts leaves alone. -/
structure Steady (K : Granule → Prop) (s t : State) : Prop where
  pending : t.pending = s.pending
  inReset : t.inReset = s.inReset
  now : t.now = s.now
  windows : t.windows = s.windows
  recallLimit : t.table.recallLimit = s.table.recallLimit
  mem : { t.mem with queue := s.mem.queue, waiting := s.mem.waiting } = s.mem
  svc : { t.svc with result := s.svc.result, eventStatus := s.svc.eventStatus } = s.svc
  ctl : { t.ctl with ports := s.ctl.ports, epoch := s.ctl.epoch } = s.ctl
  /-- The line fields and the settings of a port record stay. -/
  port : ∀ p,
    { s.ctl.ports.get p with
      state := (t.ctl.ports.get p).state, fenceReason := (t.ctl.ports.get p).fenceReason,
      leaveAsked := (t.ctl.ports.get p).leaveAsked, sweepFinished := (t.ctl.ports.get p).sweepFinished,
      deadline := (t.ctl.ports.get p).deadline, joinedEpoch := (t.ctl.ports.get p).joinedEpoch } = t.ctl.ports.get p
  link : ∀ p, (t.ifaces.get p).linkUp = (s.ifaces.get p).linkUp
  protoErrors : ∀ p, (t.ifaces.get p).protoErrors = (s.ifaces.get p).protoErrors
  offers : ∃ ops, t.mem.queue ++ t.mem.waiting = s.mem.queue ++ s.mem.waiting ++ ops ∧ ∀ op ∈ ops, K op.granule
  /-- The laws of the port records are kept. -/
  lawful : s.portsLawful → t.portsLawful

theorem Steady.refl (s : State) : Steady K s s where
  pending := rfl
  inReset := rfl
  now := rfl
  windows := rfl
  recallLimit := rfl
  mem := rfl
  svc := rfl
  ctl := rfl
  port _ := rfl
  link _ := rfl
  protoErrors _ := rfl
  offers := ⟨[], by simp⟩
  lawful := id

theorem Quiet.steady (h : Quiet K s t) : Steady K s t where
  pending := h.pending
  inReset := h.inReset
  now := h.now
  windows := h.windows
  recallLimit := h.recallLimit
  mem := h.mem
  svc := h.svc
  ctl := by rw [h.ctl]
  port p := by rw [h.ctl]
  link := h.linkUp
  protoErrors p := by
    have := congrArg Iface.protoErrors (h.iface p)
    exact this
  offers := h.offers
  lawful hl p := by
    have hh : t.svc.hubState = s.svc.hubState := by
      have := congrArg ServicePort.hubState h.svc
      exact this
    have := hl p
    unfold State.holdLine State.portState at this ⊢
    rw [h.ctl, hh]
    exact this

theorem Steady.trans (h : Steady K s t) (k : Steady K t u) : Steady K s u where
  pending := k.pending.trans h.pending
  inReset := k.inReset.trans h.inReset
  now := k.now.trans h.now
  windows := k.windows.trans h.windows
  recallLimit := k.recallLimit.trans h.recallLimit
  mem := by
    have := h.mem
    rw [← k.mem] at this
    exact this
  svc := by
    have := h.svc
    rw [← k.svc] at this
    exact this
  ctl := by
    have := h.ctl
    rw [← k.ctl] at this
    exact this
  port p := by
    have := k.port p
    rw [← h.port p] at this
    exact this
  link p := (k.link p).trans (h.link p)
  protoErrors p := (k.protoErrors p).trans (h.protoErrors p)
  offers := by
    obtain ⟨a, ha, hK⟩ := h.offers
    obtain ⟨b, hb, hL⟩ := k.offers
    refine ⟨a ++ b, by rw [hb, ha, List.append_assoc], fun op ho => ?_⟩
    rcases List.mem_append.1 ho with ho | ho
    · exact hK op ho
    · exact hL op ho
  lawful hl := k.lawful (h.lawful hl)

/-- A HOLD line is asserted while the hub initializes. -/
theorem member_running {p : Port} (hh : s.holdLine p = false) : s.svc.hubState ≠ .initializing := by
  intro hi
  simp [State.holdLine, hi] at hh

theorem holdLine_of_member {p : Port} (hm : (s.portState p).isMember = true) (hr : s.svc.hubState ≠ .initializing)
    (hf : (s.ctl.ports.get p).holdFlag = false) : s.holdLine p = false := by
  unfold State.holdLine
  unfold State.portState at hm
  cases hst : (s.ctl.ports.get p).state <;> simp_all [PortState.isMember]

theorem setPort_portsLawful {p : Port} {r : PortRec} (h : PortStep s.svc.hubState (s.ctl.ports.get p) r)
    (hl : s.portsLawful) : (s.setPort p r).portsLawful := by
  intro q
  by_cases hq : q = p
  · subst hq
    have hrec : (s.setPort q r).ctl.ports.get q = r := by simp
    have hr : r.lawful := h.lawful (hl q).1
    refine ⟨by rw [hrec]; exact hr, fun hm => ?_⟩
    unfold State.portState at hm
    rw [hrec] at hm
    refine holdLine_of_member (s := s.setPort q r) (by unfold State.portState; rw [hrec]; exact hm) ?_ (by
      rw [hrec]; exact hr.2 (.inl hm))
    rcases h.member hm with ho | ho
    · exact member_running (s := s) ((hl q).2 ho)
    · change s.svc.hubState ≠ .initializing
      rw [ho]; simp
  · have hrec : (s.setPort p r).ctl.ports.get q = s.ctl.ports.get q := by
      rw [setPort_ports, PerPort.get_set_other _ _ hq]
    have := hl q
    unfold State.holdLine State.portState at this ⊢
    rw [hrec]
    exact this

theorem Act.steady (m : Act K s t) : Steady K s t := by
  cases m with
  | move m => exact m.quiet.steady
  | port p r h =>
    refine ⟨rfl, rfl, rfl, rfl, rfl, rfl, rfl, rfl, fun q => ?_, fun _ => rfl, fun _ => rfl, ⟨[], by simp⟩,
      setPort_portsLawful h⟩
    rw [setPort_ports, PerPort.get_set]
    split
    · subst q
      cases r
      have := h.present; have := h.latchClosed; have := h.holdFlag; have := h.controlGrant; have := h.indicatorForced
      simp_all
    · rfl
  | epoch =>
    exact ⟨rfl, rfl, rfl, rfl, rfl, rfl, rfl, rfl, fun _ => rfl, fun _ => rfl, fun _ => rfl, ⟨[], by simp⟩, id⟩
  | event e =>
    exact ⟨rfl, rfl, rfl, rfl, rfl, rfl, rfl, rfl, fun _ => rfl, fun _ => rfl, fun _ => rfl, ⟨[], by simp⟩, id⟩
  | clear p =>
    refine ⟨rfl, rfl, rfl, rfl, rfl, rfl, rfl, rfl, fun _ => rfl, fun q => ?_, fun q => ?_, ⟨[], by simp⟩, id⟩ <;>
    · rw [setIface_ifaces, PerPort.get_set]
      split
      · subst q; rfl
      · rfl

/-- What a sequence of acts leaves alone. -/
theorem Acts.steady (m : Acts K s t) : Steady K s t := by
  induction m with
  | refl => exact .refl s
  | tail _ m ih => exact ih.trans m.steady

theorem Act.memLawful (m : Act K s t) (h : s.mem.lawful) : t.mem.lawful := by
  cases m with
  | move m => exact m.memLawful h
  | _ => exact h

theorem Acts.memLawful (m : Acts K s t) (h : s.mem.lawful) : t.mem.lawful :=
  m.keeps (P := fun s => s.mem.lawful) Act.memLawful h

theorem Act.directoryLawful (m : Act K s t) (h : s.directoryLawful) : t.directoryLawful := by
  cases m with
  | move m => exact m.directoryLawful h
  | _ => exact h

theorem Acts.directoryLawful (m : Acts K s t) (h : s.directoryLawful) : t.directoryLawful :=
  m.keeps (P := fun s => s.directoryLawful) Act.directoryLawful h

theorem Act.tablesCanonical (m : Act K s t) (h : s.tablesCanonical) : t.tablesCanonical := by
  cases m with
  | move m => exact m.tablesCanonical h
  | _ => exact h

theorem Acts.tablesCanonical (m : Acts K s t) (h : s.tablesCanonical) : t.tablesCanonical :=
  m.keeps (P := fun s => s.tablesCanonical) Act.tablesCanonical h

end Sys2Proof.Machine
end

