-- ==== Sys2Proof/Laws/Deeds.lean ====
section
/-! SUPPORT. What any command but hub reset and the completions can do, said once: every one of them is a sequence of the
deeds below, and the laws of the other blocks are kept by each deed. -/

namespace Sys2Proof.Machine

/-- One deed: an act, or any change of the controller, the windows, an interface, the service port, the time base, the
counts, RECALL_LIMIT as its rule stores it, or the bits in error. -/
inductive Deed (K : Granule → Prop) : State → State → Prop
  | act {s t : State} (m : Act K s t) : Deed K s t
  | ctl (s : State) (c : Membership) : Deed K s { s with ctl := c }
  | windows (s : State) (w : Vector Window 8) : Deed K s { s with windows := w }
  | iface (s : State) (p : Port) (f : Iface) : Deed K s (s.setIface p f)
  | svc (s : State) (v : ServicePort) : Deed K s { s with svc := v }
  | now (s : State) (n : Nat) : Deed K s { s with now := n }
  | limit (s : State) (v : Word) : Deed K s (s.storeRecallLimit v)
  | counts (s : State) (c u : BitVec 16) (f : Option FaultLocation) :
      Deed K s (s.setMem { s.mem with corrected := c, uncorrected := u, firstFault := f })
  | bits (s : State) (k : Nat) (e : StoredBits) :
      Deed K s (s.setMem { s.mem with bitErrors := Sparse.set 0 s.mem.bitErrors k e })

/-- A sequence of deeds. -/
inductive Deeds (K : Granule → Prop) : State → State → Prop
  | refl (s : State) : Deeds K s s
  | tail {s t u : State} (h : Deeds K s t) (m : Deed K t u) : Deeds K s u

variable {K : Granule → Prop} {s t u : State}

theorem Deed.deeds (m : Deed K s t) : Deeds K s t := .tail (.refl s) m

theorem Deeds.trans (h : Deeds K s t) (k : Deeds K t u) : Deeds K s u := by
  induction k with
  | refl => exact h
  | tail _ m ih => exact .tail ih m

theorem Acts.deeds (h : Acts K s t) : Deeds K s t := by
  induction h with
  | refl => exact .refl _
  | tail _ m ih => exact .tail ih (.act m)

theorem Moves.deeds (h : Moves K True s t) : Deeds K s t := h.acts.deeds

theorem Deeds.keeps {P : State → Prop} (hP : ∀ {a b}, Deed K a b → P a → P b) (h : Deeds K s t) (hs : P s) : P t := by
  induction h with
  | refl => exact hs
  | tail _ m ih => exact hP m ih

/-- The records have the property, and so has every installed granule. -/
def Within (K : Granule → Prop) (s : State) : Prop := Inside K s ∧ ∀ g, g.toNat < s.mem.granuleCount → K g

theorem Deed.granuleCount (m : Deed K s t) : t.mem.granuleCount = s.mem.granuleCount := by
  cases m with
  | act m =>
    have := congrArg MemController.granuleCount m.steady.mem
    exact this
  | _ => rfl

theorem Deed.within (m : Deed K s t) (h : Within K s) : Within K t := by
  refine ⟨?_, fun g hg => h.2 g (by rwa [m.granuleCount] at hg)⟩
  cases m with
  | act m => exact m.inside h.1
  | limit v => exact h.1.of_eq (fun _ => rfl) rfl
  | _ => exact h.1.of_eq (fun _ => rfl) rfl

theorem Deeds.within (m : Deeds K s t) (h : Within K s) : Within K t := m.keeps Deed.within h

theorem Deeds.andThen (h : Deeds K s t) (hs : Within K s) (hf : Within K t → Deeds K t u) : Deeds K s u :=
  h.trans (hf (h.within hs))

/-! ### Changes that are deeds by their form -/

theorem modifyPort_deeds (p : Port) (f : PortRec → PortRec) : Deeds K s (s.modifyPort p f) := (Deed.ctl s _).deeds

theorem movePort_deeds (p : Port) (st : PortState) : Deeds K s (s.movePort p st) := (Deed.ctl s _).deeds

theorem respond_deeds (r : Option Reason) (d : List Byte) : Deeds K s (s.respond r d) := (Deed.svc s _).deeds

theorem raise_deeds (e : Event) : Deeds K s (s.raise e) := (Deed.svc s _).deeds

theorem setIface_deeds (p : Port) (f : Iface) : Deeds K s (s.setIface p f) := (Deed.iface s p f).deeds

theorem send_deeds (p : Port) (f : HubFrame) : Deeds K s (s.send p f) := (Move.send s p f).moves.deeds

theorem protocolError_deeds (p : Port) : Deeds K s (s.protocolError p) :=
  (setIface_deeds p _).trans (raise_deeds _)

theorem settle_deeds (h : Within K s) : Deeds K s s.settle := (settle_acts h.1).deeds

theorem fenceMember_deeds (h : Within K s) (p : Port) (r : FenceReason) : Deeds K s (s.fenceMember p r) :=
  (fenceMember_acts h.1 p r).deeds

theorem sendNotice_deeds (h : Within K s) (ps : List Port) (n : Notice) : Deeds K s (s.sendNotice ps n) :=
  (sendNotice_moves ps n h.1).deeds

/-! ### Line events and membership commands -/

theorem admission_deeds (p : Port) : Deeds K s (s.admission p) := by
  unfold State.admission
  split
  · exact (movePort_deeds p _).trans (raise_deeds _)
  · exact movePort_deeds p _

theorem placeCard_deeds (p : Port) : Deeds K s (s.placeCard p) := by
  unfold State.placeCard
  split
  · exact admission_deeds p
  · exact movePort_deeds p _

theorem presence_deeds (h : Within K s) (p : Port) (a : Bool) : Deeds K s (State.presence p a s) := by
  unfold State.presence
  split
  · exact .refl _
  · have h1 : Deeds K s (s.modifyPort p fun r => { r with present := a }) := modifyPort_deeds p _
    dsimp only
    split
    · exact (h1.trans (placeCard_deeds p)).trans (raise_deeds _)
    all_goals first
      | exact h1
      | exact h1.trans (movePort_deeds p _)
      | exact h1.andThen h fun h => fenceMember_deeds h p _

theorem latch_deeds (h : Within K s) (p : Port) (a : Bool) : Deeds K s (State.latch p a s) := by
  unfold State.latch
  split
  · exact .refl _
  · have h1 : Deeds K s (s.modifyPort p fun r => { r with latchClosed := a }) := modifyPort_deeds p _
    dsimp only
    split
    · exact h1.trans (admission_deeds p)
    · exact (h1.trans (modifyPort_deeds p _)).andThen h fun h => sendNotice_deeds h _ _
    · exact ((h1.trans (modifyPort_deeds p _)).andThen h fun h => sendNotice_deeds h _ _).trans (raise_deeds _)
    · exact h1.trans (movePort_deeds p _)
    · exact h1.trans (movePort_deeds p _)
    · exact h1

theorem enterDeparting_deeds (h : Within K s) (p : Port) : Deeds K s (s.enterDeparting p) := by
  unfold State.enterDeparting
  dsimp only
  refine (((movePort_deeds p _).andThen h fun h => (inFreeOrder_acts ?_ h.1).deeds).trans
    (queueJob_moves _).deeds).trans (modifyPort_deeds p _)
  intro f hf s h
  obtain ⟨i, -, rfl⟩ := List.mem_map.1 hf
  exact (bounceIfWaiting_moves p i).acts

theorem holdOn_deeds (h : Within K s) (p : Port) : Deeds K s (s.holdOn p) := by
  unfold State.holdOn
  have h1 : Deeds K s (s.modifyPort p fun r => { r with holdFlag := true }) := modifyPort_deeds p _
  dsimp only
  split
  all_goals first
    | exact h1.andThen h fun h => fenceMember_deeds h p _
    | exact h1.trans (movePort_deeds p _)
    | exact h1

theorem applyMember_deeds (h : Within K s) (c : MemberCommand) (p : Port) : Deeds K s (State.applyMember c p s) := by
  cases c with
  | admission => exact movePort_deeds p _
  | eject => exact (enterDeparting_deeds h p).andThen h fun h => sendNotice_deeds h _ _
  | fence => exact fenceMember_deeds h p _
  | release => exact placeCard_deeds p
  | holdOn => exact holdOn_deeds h p
  | holdOff => exact (Deed.ctl s _).deeds

/-! ### Events from inside the part -/

theorem linkLostTaken_deeds (h : Within K s) (p : Port) : Deeds K s (State.linkLostTaken p s) := by
  unfold State.linkLostTaken
  split
  · exact .refl _
  · exact (Deed.ctl s _).deeds.andThen h fun h => fenceMember_deeds h p _

theorem fenceRequestTaken_deeds (h : Within K s) (p : Port) : Deeds K s (State.fenceRequestTaken p s) := by
  unfold State.fenceRequestTaken
  split
  · exact (Deed.ctl s _).deeds.andThen h fun h => fenceMember_deeds h p _
  · exact .refl _

theorem recallExpiry_deeds (h : Within K s) (i : SlotId) : Deeds K s (State.recallExpiry i s) := by
  unfold State.recallExpiry
  split
  · exact .refl _
  · rename_i t ht
    split
    · exact .refl _
    · have h0 : t.inside K := h.1.txn ht
      have h1 : Deeds K s (s.setTxn i (some { t with
          deadline := none
          awaited := ⟨timeOut t.awaited.p0, timeOut t.awaited.p1, timeOut t.awaited.p2, timeOut t.awaited.p3⟩ })) := by
        refine (setTxn_moves i ?_ (.inl trivial)).deeds
        exact h0
      exact (h1.trans (Deed.ctl _ { s.ctl with fenceRequests := s.ctl.fenceRequests ++ t.stillWaiting }).deeds).trans
        (Deed.now _ _).deeds

theorem departureExpiry_deeds (h : Within K s) (p : Port) : Deeds K s (State.departureExpiry p s) := by
  unfold State.departureExpiry
  split
  · exact (Deed.now s _).deeds.andThen h fun h => fenceMember_deeds h p _
  · exact .refl _

theorem dropReport_deeds : Deeds K s s.dropReport := (Move.sweep s _).moves.deeds

theorem sweepReportTaken_deeds (h : Within K s) : Deeds K s s.sweepReportTaken := by
  unfold State.sweepReportTaken
  split
  · dsimp only
    split
    · exact (dropReport_deeds.trans (modifyPort_deeds _ _)).andThen h settle_deeds
    · exact dropReport_deeds
  · dsimp only
    split
    · exact (dropReport_deeds.trans (modifyPort_deeds _ _)).andThen h settle_deeds
    · exact dropReport_deeds
  · exact .refl _

theorem finishFenced_deeds (p : Port) : Deeds K s (s.finishFenced p) := by
  unfold State.finishFenced
  split
  · exact modifyPort_deeds p _
  · exact .refl _

theorem deeds_foldl {α : Type} {f : State → α → State} (hf : ∀ s a, Within K s → Deeds K s (f s a)) (l : List α) :
    ∀ {s : State}, Within K s → Deeds K s (l.foldl f s) := by
  induction l with
  | nil => exact fun _ => .refl _
  | cons a l ih => exact fun h => (hf _ a h).trans (ih ((hf _ a h).within h))

theorem clearReportTaken_deeds (h : Within K s) : Deeds K s s.clearReportTaken := by
  unfold State.clearReportTaken
  split
  · exact (((dropReport_deeds.andThen h fun h => deeds_foldl (fun _ p _ => finishFenced_deeds p) _ h).andThen h
      settle_deeds).trans (Deed.svc _ _).deeds).trans (raise_deeds _)
  · exact .refl _

theorem clearMembers_deeds (h : Within K s) : Deeds K s s.clearMembers := (clearMembers_acts h.1).deeds

/-! ### Registers and windows -/

theorem writeRegister_deeds {src : Source} {r : Reg} {v : Word} (h : s.writeRegister src r v = .ok t) :
    Deeds K s t := by
  unfold State.writeRegister at h
  cases r with
  | eventStatus =>
    cases src with
    | service => injection h with h; subst h; exact (Deed.svc s _).deeds
    | card => simp at h
  | eventEnable => injection h with h; subst h; exact (Deed.svc s _).deeds
  | portControl p =>
    injection h with h; subst h
    unfold State.storePortControl
    cases src <;> exact modifyPort_deeds p _
  | admitMode => injection h with h; subst h; exact (Deed.ctl s _).deeds
  | recallLimit => injection h with h; subst h; exact (Deed.limit s v).deeds
  | departLimit => injection h with h; subst h; exact (Deed.ctl s _).deeds
  | corrected => injection h with h; subst h; exact (Deed.counts s 0 s.mem.uncorrected s.mem.firstFault).deeds
  | uncorrected => injection h with h; subst h; exact (Deed.counts s s.mem.corrected 0 s.mem.firstFault).deeds
  | firstFault => injection h with h; subst h; exact (Deed.counts s s.mem.corrected s.mem.uncorrected none).deeds
  | protoErrors p => injection h with h; subst h; exact (Deed.iface s p _).deeds
  | _ => simp at h

theorem replaceWindow_deeds (k : Fin 8) (w : Window) : Deeds K s (s.replaceWindow k w) :=
  (Deed.windows s _).deeds.trans requestRecheck_moves.deeds

theorem announceWindow_deeds (h : Within K s) (k : Fin 8) : Deeds K s (s.announceWindow k) := sendNotice_deeds h _ _

/-! ### Intake -/

theorem recheckVictim_moves (h : Inside K s) (g : Granule) : Moves K True s (s.recheckVictim g) := by
  unfold State.recheckVictim
  split
  · exact .refl _
  · split
    · exact checkEviction_moves h _
    · exact .refl _
    · exact .refl _

theorem takeReturn_moves (h : Inside K s) (i : SlotId) (p : Port) {g : Granule} (hg : K g) (d : GranuleData) :
    Moves K True s (s.takeReturn i p g d) := by
  unfold State.takeReturn
  split
  · have h1 : Moves K True s (s.setTxn i (some { newTxn (.member (.returnDirty d)) g with phase := .bypass })) :=
      setTxn_moves i ⟨hg, fun v hv => by simp [newTxn] at hv⟩ (.inl trivial)
    exact ((h1.trans (Move.entry _ _ _).moves).trans (Move.offer _ _ hg).moves).andThen h fun h =>
      recheckVictim_moves h g
  · exact (Move.send _ _ _).moves

theorem takeRelease_moves (h : Inside K s) (i : SlotId) (p : Port) (g : Granule) :
    Moves K True s (s.takeRelease i p g) := by
  unfold State.takeRelease
  split
  · exact ((Move.entry _ _ _).moves.trans (Move.send _ _ _).moves).andThen h fun h => recheckVictim_moves h g
  · exact (Move.send _ _ _).moves

theorem placeRequest_moves (h : Inside K s) (i : SlotId) (p : Port) {g : Granule} (hg : K g) (r : Request) :
    Moves K True s (s.placeRequest i p g r) := by
  unfold State.placeRequest
  split
  · exact takeReturn_moves h i p hg _
  · exact takeRelease_moves h i p g
  all_goals exact place_moves h i _ hg (.inl trivial)

/-- A request is accepted for an installed granule only (09 R190). -/
theorem judgeRequest_installed {p : Port} {tag : Tag} {g : Granule} {r : Request} {i : SlotId}
    (h : s.judgeRequest p tag g r = .accepted i) : g.toNat < s.mem.granuleCount := by
  have key : ∀ j, s.judgeGranule p j g r = .accepted i → g.toNat < s.mem.granuleCount := by
    intro j hj
    unfold State.judgeGranule at hj
    split at hj
    · simp at hj
    · omega
  have slot : s.judgeSlot p tag g r = .accepted i → g.toNat < s.mem.granuleCount := by
    intro hj
    unfold State.judgeSlot at hj
    split at hj
    · simp at hj
    · simp at hj
    · split at hj
      · simp at hj
      · split at hj
        · simp at hj
        · exact key _ hj
  unfold State.judgeRequest at h
  split at h
  · simp at h
  · split at h
    · exact slot h
    · split at h
      · exact slot h
      · simp at h
    all_goals simp at h

theorem takeRequest_deeds (h : Within K s) (p : Port) (tag : Tag) (g : Granule) (r : Request) :
    Deeds K s (s.takeRequest p tag g r) := by
  unfold State.takeRequest
  split
  · exact send_deeds p _
  · exact protocolError_deeds p
  · rename_i i hj
    exact (placeRequest_moves h.1 i p (h.2 g (judgeRequest_installed hj)) r).deeds.andThen h settle_deeds

theorem yieldChange_moves (p : Port) (g : Granule) (k : RecallKind) (o : YieldOutcome) :
    Moves K True s (s.yieldChange p g k o) := by
  unfold State.yieldChange
  split
  · exact (Move.entry _ _ _).moves
  · exact (Move.entry _ _ _).moves
  · split
    · exact (Move.entry _ _ _).moves
    · exact .refl _
  · split
    · exact (Move.entry _ _ _).moves
    · exact .refl _

theorem offerYielded_moves (i : SlotId) {g : Granule} (hg : K g) (o : YieldOutcome) :
    Moves K True s (s.offerYielded i g o) := by
  unfold State.offerYielded
  split
  · exact (Move.offer _ _ hg).moves
  · exact .refl _
  · exact .refl _

theorem awaitedBy_known (h : Inside K s) {p : Port} {b : Byte} {g : Granule} {x : SlotId × Awaited}
    (hx : s.awaitedBy p b g = some x) : K g := by
  unfold State.awaitedBy at hx
  split at hx
  · simp at hx
  · split at hx
    · simp at hx
    · rename_i t ht
      split at hx
      · rename_i hg
        have := h.txn ht
        unfold Txn.recalled at hg
        cases hv : t.victim with
        | none => rw [hv] at hg; exact hg ▸ this.1
        | some v => rw [hv] at hg; exact hg ▸ this.2 v hv
      · simp at hx

theorem matchYield_deeds (h : Within K s) (p : Port) (g : Granule) (b : Byte) (o : YieldOutcome) :
    Deeds K s (s.matchYield p g b o) := by
  unfold State.matchYield
  split
  · exact protocolError_deeds p
  · rename_i i w hx
    split
    · exact .refl _
    · have hg : K g := awaitedBy_known h.1 hx
      refine Deeds.andThen (Deeds.andThen ?_ h fun h => (unawait_moves h.1 i p).deeds) h settle_deeds
      exact ((yieldChange_moves p g w.kind o).trans (offerYielded_moves i hg o)).deeds

theorem takeYield_deeds (h : Within K s) (p : Port) (tag : Tag) (g : Granule) (b : Byte) (o : YieldOutcome) :
    Deeds K s (s.takeYield p tag g b o) := by
  unfold State.takeYield
  split
  · exact matchYield_deeds h p g b o
  · exact send_deeds p _

theorem controlMember_deeds (h : Within K s) (p : Port) (g : Granule) (c : MemberCommand) (b : Byte) :
    Deeds K s (s.controlMember p g c b) := by
  unfold State.controlMember
  split
  · exact send_deeds p _
  · rename_i q _
    have hfree : ∀ l : List (State → State),
        (∀ f ∈ l, f = (fun s => s.controlAck p 0) ∨ f = State.applyMember c q) → ∀ {s : State}, Within K s →
          Deeds K s (l.foldl (fun s f => f s) s) := by
      intro l
      induction l with
      | nil => exact fun _ _ _ => .refl _
      | cons f l ih =>
        intro hl s h
        have h1 : Deeds K s (f s) := by
          rcases hl f (by simp) with rfl | rfl
          · exact send_deeds p _
          · exact applyMember_deeds h c q
        exact h1.trans (ih (fun f hf => hl f (List.mem_cons_of_mem _ hf)) (h1.within h))
    exact (Move.draws s _).moves.deeds.andThen h fun h => hfree _ (fun f hf => by
      have := mem_freeOrder _ _ _ hf
      simpa using this) h

theorem takeControl_deeds (h : Within K s) (p : Port) (g : Granule) (b : ControlBlock) :
    Deeds K s (s.takeControl p g b) := by
  unfold State.takeControl
  split
  · unfold State.controlJudged
    split
    · exact send_deeds p _
    · split
      · exact send_deeds p _
      · unfold State.controlRead
        split <;> exact send_deeds p _
      · unfold State.controlWrite
        split
        · exact send_deeds p _
        · split
          · exact send_deeds p _
          · exact (writeRegister_deeds ‹_›).trans (send_deeds p _)
      · exact controlMember_deeds h p g _ _
      · unfold State.controlWindow
        split
        · exact send_deeds p _
        · exact ((replaceWindow_deeds _ _).trans (send_deeds p _)).andThen h fun h => announceWindow_deeds h _
  · exact send_deeds p _

theorem takeFrame_deeds (h : Within K s) (p : Port) (f : Frame) : Deeds K s (State.takeFrame p s f) := by
  unfold State.takeFrame
  split
  · exact .refl _
  · split
    · exact takeRequest_deeds h p _ _ _
    · exact takeYield_deeds h p _ _ _ _
    · exact (joinFrame_acts h.1 p _).deeds
    · exact (leaveFrame_acts h.1 p _).deeds
    · exact takeControl_deeds h p _ _
    · exact protocolError_deeds p

theorem arrive_deeds (h : Within K s) (p : Port) (f : Frame) : Deeds K s (State.arrive p f s) := by
  unfold State.arrive
  dsimp only
  split
  · exact .refl _
  · split
    · exact takeFrame_deeds h p f
    · exact setIface_deeds p _

theorem resumeIntake_deeds (p : Port) (l : List Frame) :
    ∀ {s : State}, Within K s → Deeds K s (State.resumeIntake p l s) := by
  induction l with
  | nil => exact fun _ => .refl _
  | cons f l ih =>
    intro s h
    simp only [State.resumeIntake]
    split
    · exact (takeFrame_deeds h p f).andThen h fun h => ih h
    · exact setIface_deeds p _

theorem linkLost_deeds (h : Within K s) (p : Port) : Deeds K s (State.linkLost p s) := by
  unfold State.linkLost
  dsimp only
  split
  · exact .refl _
  · have h1 : Deeds K s (s.setIface p { s.ifaces.get p with linkUp := false, outq := [], waiting := [] }) :=
      setIface_deeds p _
    refine ((h1.trans (Move.draws _ 1).moves.deeds).trans (Deed.ctl _ _).deeds).andThen h fun h =>
      deeds_foldl (fun _ f h => takeFrame_deeds h p f) _ h

theorem frameSent_deeds (h : Within K s) (p : Port) : Deeds K s (State.frameSent p s) := by
  unfold State.frameSent
  dsimp only
  split
  · exact .refl _
  · exact (setIface_deeds p _).andThen h fun h => resumeIntake_deeds p _ h

/-! ### The service port -/

theorem serviceRead_deeds (o : BitVec 16) : Deeds K s (State.serviceRead o s) := by
  unfold State.serviceRead
  split <;> exact respond_deeds _ _

theorem serviceWrite_deeds (r : Reg) (v : Word) : Deeds K s (State.serviceWrite r v s) := by
  unfold State.serviceWrite
  split
  · exact respond_deeds _ _
  · exact (writeRegister_deeds ‹_›).trans (respond_deeds _ _)

theorem serviceWriteAt_deeds (o : BitVec 16) (v : Word) : Deeds K s (State.serviceWriteAt o v s) := by
  unfold State.serviceWriteAt
  split
  · exact respond_deeds _ _
  · exact serviceWrite_deeds _ _

theorem serviceMember_deeds (h : Within K s) (c : MemberCommand) (b : Byte) :
    Deeds K s (State.serviceMember c b s) := by
  unfold State.serviceMember
  split
  · exact respond_deeds _ _
  · exact (applyMember_deeds h c _).trans (respond_deeds _ _)

theorem serviceWindow_deeds (h : Within K s) (i v : Byte) (b l : Granule) (r : Byte) :
    Deeds K s (State.serviceWindow i v b l r s) := by
  unfold State.serviceWindow
  split
  · exact respond_deeds _ _
  · exact ((replaceWindow_deeds _ _).andThen h fun h => announceWindow_deeds h _).trans (respond_deeds _ _)

theorem placeService_moves {A : Prop} (h : Inside K s) (k : TxnKind) {g : Granule} (hg : K g) :
    Moves K A s (s.placeService k g) := by
  unfold State.placeService
  split
  · exact setTxn_moves _ (newTxn_inside k hg) (.inr (.inl rfl))
  · exact place_moves h _ k hg (.inr rfl)

theorem memoryCommand_deeds (h : Within K s) (k : TxnKind) (g : Granule) : Deeds K s (State.memoryCommand k g s) := by
  unfold State.memoryCommand
  split
  · exact respond_deeds _ _
  · split
    · exact (Move.result _ _).moves.deeds.trans (respond_deeds _ _)
    · exact ((Move.result _ _).moves.deeds.andThen h fun h =>
        (placeService_moves h.1 k (h.2 g (by change g.toNat < s.mem.granuleCount; omega))).deeds).trans
          (respond_deeds _ _)

theorem readSlot_deeds : Deeds K s s.readSlot := (Move.result _ _).moves.deeds.trans (respond_deeds _ _)

theorem hubClear_deeds (h : Within K s) : Deeds K s s.hubClear := by
  unfold State.hubClear
  split
  · exact respond_deeds _ _
  · exact ((Deed.svc s _).deeds.andThen h clearMembers_deeds).trans (respond_deeds _ _)

theorem transfer_deeds {f : State → State} (hf : ∀ s, Within K s → Deeds K s (f s)) (h : Within K s)
    (he : transfer f s = .next t) : Deeds K s t := by
  unfold transfer change at he
  injection he with he
  subst he
  split
  · exact .refl _
  · dsimp only
    split
    · exact (Deed.svc s _).deeds
    · exact hf s h

theorem change_deeds {f : State → State} (hf : ∀ s, Within K s → Deeds K s (f s)) (h : Within K s)
    (he : change f s = .next t) : Deeds K s t := by
  unfold change at he
  injection he with he
  subst he
  split
  · exact .refl _
  · exact hf s h

/-! ### The laws that every deed keeps -/

theorem Deed.pending (m : Deed K s t) : t.pending = s.pending := by
  cases m with
  | act m => exact m.steady.pending
  | _ => rfl

theorem Deed.inReset (m : Deed K s t) : t.inReset = s.inReset := by
  cases m with
  | act m => exact m.steady.inReset
  | _ => rfl

theorem Deed.memLawful (m : Deed K s t) (h : s.mem.lawful) : t.mem.lawful := by
  cases m with
  | act m => exact m.memLawful h
  | _ => exact h

theorem Deed.directoryLawful (m : Deed K s t) (h : s.directoryLawful) : t.directoryLawful := by
  cases m with
  | act m => exact m.directoryLawful h
  | _ => exact h

theorem Deed.tablesCanonical (m : Deed K s t) (h : s.tablesCanonical) : t.tablesCanonical := by
  cases m with
  | act m => exact m.tablesCanonical h
  | bits k e => exact ⟨h.1, Sparse.wf_set h.2.1 _ _, h.2.2⟩
  | _ => exact h

theorem storeRecallLimit_lawful (s : State) (v : Word) : (s.storeRecallLimit v).recallLimitLawful := by
  unfold State.recallLimitLawful State.storeRecallLimit
  simp only [BitVec.toNat_ofNat]
  have : (v.setWidth 16 : BitVec 16).toNat < 2 ^ 16 := BitVec.isLt _
  rw [Nat.mod_eq_of_lt (by omega)]
  omega

theorem Deed.recallLimitLawful (m : Deed K s t) (h : s.recallLimitLawful) : t.recallLimitLawful := by
  cases m with
  | act m => unfold State.recallLimitLawful; rw [m.steady.recallLimit]; exact h
  | limit v => exact storeRecallLimit_lawful s v
  | _ => exact h

/-- Operations are offered behind those that were there, for granules of the property. -/
theorem Deed.offers (m : Deed K s t) :
    ∃ ops, t.mem.queue ++ t.mem.waiting = s.mem.queue ++ s.mem.waiting ++ ops ∧ ∀ op ∈ ops, K op.granule := by
  cases m with
  | act m => exact m.steady.offers
  | _ => exact ⟨[], by simp [State.storeRecallLimit]⟩

theorem Deeds.offers (m : Deeds K s t) :
    ∃ ops, t.mem.queue ++ t.mem.waiting = s.mem.queue ++ s.mem.waiting ++ ops ∧ ∀ op ∈ ops, K op.granule := by
  induction m with
  | refl => exact ⟨[], by simp⟩
  | tail _ m ih =>
    obtain ⟨a, ha, hK⟩ := ih
    obtain ⟨b, hb, hL⟩ := m.offers
    refine ⟨a ++ b, by rw [hb, ha, List.append_assoc], fun op ho => ?_⟩
    rcases List.mem_append.1 ho with ho | ho
    · exact hK op ho
    · exact hL op ho

end Sys2Proof.Machine
end

