-- ==== Sys2Proof/Laws/Memory.lean ====
section
/-! SUPPORT. The memory controller's laws: what a byte reads as after each write, what an operation leaves alone, and that
every operation keeps the canonical form. -/

namespace Sys2Proof.Machine

/-! ### Bytes and numbers -/

theorem length_leBytes (n v : Nat) : (leBytes n v).length = n := by
  induction n generalizing v with
  | zero => rfl
  | succ n ih => simp [leBytes, ih]

theorem leNat_leBytes (n v : Nat) : leNat (leBytes n v) = v % 256 ^ n := by
  induction n generalizing v with
  | zero => simp [leBytes, leNat, Nat.mod_one]
  | succ n ih =>
    have h : 256 ^ (n + 1) = 256 * 256 ^ n := by rw [Nat.pow_succ, Nat.mul_comm]
    rw [h, Nat.mod_mul]
    simp only [leBytes, leNat, ih, BitVec.toNat_ofNat]

theorem getD_leBytes (n v i : Nat) : (leBytes n v).getD i 0 = if i < n then BitVec.ofNat 8 (v / 256 ^ i) else 0 := by
  induction n generalizing v i with
  | zero => simp [leBytes]
  | succ n ih =>
    cases i with
    | zero => simp [leBytes]
    | succ i =>
      simp only [leBytes, List.getD_cons_succ, ih, Nat.succ_lt_succ_iff, Nat.pow_succ', Nat.div_div_eq_div_mul]

/-- Byte `j` of word `w` of a granule is byte 8w + j of the granule (01 R2). -/
theorem getD_wordOf (d : GranuleData) (w : Fin 8) {j : Nat} (hj : j < 8) :
    (leBytes 8 (wordOf d w).toNat).getD j 0 = byteOf d (8 * w.val + j) := by
  rw [getD_leBytes, if_pos hj]
  unfold wordOf byteOf
  apply BitVec.eq_of_getLsbD_eq
  intro i hi
  rw [show (256 : Nat) ^ j = 2 ^ (8 * j) by rw [Nat.pow_mul]]
  simp only [BitVec.getLsbD_ofNat, hi, decide_true, Bool.true_and, BitVec.getLsbD_extractLsb', Nat.testBit_div_two_pow]
  rw [BitVec.testBit_toNat, BitVec.getLsbD_extractLsb']
  rw [decide_eq_true (show i + 8 * j < 64 by omega), Bool.true_and]
  congr 1
  omega

/-! ### Bytes of the DRAM -/

theorem Memory.wf_setByte {m : List Host.Cell} (h : Memory.wf m) (a : Nat) (b : Byte) : Memory.wf (Memory.setByte m a b) :=
  Sparse.wf_set h a b

/-- Every write of bytes keeps the canonical form. -/
theorem Memory.wf_setBytes {m : List Host.Cell} (h : Memory.wf m) (a : Nat) (bs : List Byte) :
    Memory.wf (Memory.setBytes m a bs) := by
  induction bs generalizing m a with
  | nil => exact h
  | cons b bs ih => exact ih (Memory.wf_setByte h a b) (a + 1)

theorem Memory.byte_setByte {m : List Host.Cell} (h : Memory.wf m) (a x : Nat) (b : Byte) :
    Memory.byte (Memory.setByte m a b) x = if x = a then b else Memory.byte m x :=
  Sparse.get_set h a x b

/-- A byte after a write of bytes: the one written, or the one that was there. -/
theorem Memory.byte_setBytes {m : List Host.Cell} (h : Memory.wf m) (a x : Nat) (bs : List Byte) :
    Memory.byte (Memory.setBytes m a bs) x =
      if a ≤ x ∧ x < a + bs.length then bs.getD (x - a) 0 else Memory.byte m x := by
  induction bs generalizing m a with
  | nil =>
    rw [if_neg (by simp)]
    rfl
  | cons b bs ih =>
    simp only [Memory.setBytes]
    rw [ih (Memory.wf_setByte h a b) (a + 1), Memory.byte_setByte h]
    by_cases h1 : x = a
    · subst h1
      rw [if_neg (by omega), if_pos rfl, if_pos (by simp), Nat.sub_self]
      rfl
    · by_cases h2 : a + 1 ≤ x ∧ x < a + 1 + bs.length
      · rw [if_pos h2, if_pos (by simp only [List.length_cons]; omega), show x - a = (x - (a + 1)) + 1 by omega,
          List.getD_cons_succ]
      · rw [if_neg h2, if_neg h1, if_neg (by simp only [List.length_cons]; omega)]

/-! ### Words -/

/-- A byte of the DRAM after a word is written (01 R2). -/
theorem byte_writeWord {m : MemController} (h : Memory.wf m.dram) (g : Granule) (w : Fin 8) (v : Word) (x : Nat) :
    Memory.byte (m.writeWord g w v).dram x =
      if x / 8 = wordKey g w then (leBytes 8 v.toNat).getD (x % 8) 0 else Memory.byte m.dram x := by
  change Memory.byte (Memory.setBytes m.dram (wordAddress g w) (leBytes 8 v.toNat)) x = _
  rw [Memory.byte_setBytes h, length_leBytes]
  unfold wordAddress wordKey
  have hw := w.isLt
  by_cases hx : 64 * g.toNat + 8 * w.val ≤ x ∧ x < 64 * g.toNat + 8 * w.val + 8
  · rw [if_pos hx, if_pos (by omega)]
    congr 1
    omega
  · rw [if_neg hx, if_neg (by omega)]

theorem wf_writeWord {m : MemController} (h : Memory.wf m.dram) (g : Granule) (w : Fin 8) (v : Word) :
    Memory.wf (m.writeWord g w v).dram := Memory.wf_setBytes h _ _

/-- What the words of a list become when each is written: those listed take their values, the others stay. -/
theorem byte_writeWords (f : Fin 8 → Word) (g : Granule) (ws : List (Fin 8)) :
    ∀ {m : MemController}, Memory.wf m.dram → ∀ x,
      Memory.byte (ws.foldl (fun m w => m.writeWord g w (f w)) m).dram x =
        if x / 64 = g.toNat ∧ (⟨x / 8 % 8, by omega⟩ : Fin 8) ∈ ws then
          (leBytes 8 (f ⟨x / 8 % 8, by omega⟩).toNat).getD (x % 8) 0
        else Memory.byte m.dram x := by
  induction ws with
  | nil => intro m _ x; simp
  | cons w ws ih =>
    intro m h x
    simp only [List.foldl_cons]
    rw [ih (wf_writeWord h g w (f w)) x, byte_writeWord h]
    have hk : x / 8 = wordKey g w ↔ x / 64 = g.toNat ∧ (⟨x / 8 % 8, by omega⟩ : Fin 8) = w := by
      unfold wordKey
      have hw := w.isLt
      rw [Fin.ext_iff]
      simp only
      omega
    by_cases h1 : x / 64 = g.toNat ∧ (⟨x / 8 % 8, by omega⟩ : Fin 8) ∈ ws
    · rw [if_pos h1, if_pos ⟨h1.1, List.mem_cons_of_mem _ h1.2⟩]
    · rw [if_neg h1]
      by_cases h2 : x / 8 = wordKey g w
      · have h3 := hk.1 h2
        rw [if_pos h2, if_pos ⟨h3.1, by rw [h3.2]; exact List.mem_cons_self⟩, h3.2]
      · rw [if_neg h2, if_neg]
        rintro ⟨h4, h5⟩
        rcases List.mem_cons.1 h5 with h5 | h5
        · exact h2 (hk.2 ⟨h4, h5⟩)
        · exact h1 ⟨h4, h5⟩

theorem mem_allWords (w : Fin 8) : w ∈ allWords := by revert w; decide

/-- A byte of the DRAM after a whole granule is written (01 R12). -/
theorem byte_writeGranule {m : MemController} (h : Memory.wf m.dram) (g : Granule) (d : GranuleData) (x : Nat) :
    Memory.byte (m.writeGranule g d).dram x = if x / 64 = g.toNat then byteOf d (x % 64) else Memory.byte m.dram x := by
  unfold MemController.writeGranule
  rw [byte_writeWords (fun w => wordOf d w) g allWords h x]
  by_cases hx : x / 64 = g.toNat
  · rw [if_pos ⟨hx, mem_allWords _⟩, if_pos hx, getD_wordOf d _ (by omega)]
    congr 1
    simp only
    omega
  · rw [if_neg (fun hc => hx hc.1), if_neg hx]

/-! ### What writes leave alone -/

/-- Of the memory controller a write of words changes the DRAM and the bits in error only. -/
theorem writeWords_mem (f : Fin 8 → Word) (g : Granule) (ws : List (Fin 8)) : ∀ (m : MemController),
    { ws.foldl (fun m w => m.writeWord g w (f w)) m with dram := m.dram, bitErrors := m.bitErrors } = m := by
  induction ws with
  | nil => exact fun _ => rfl
  | cons w ws ih =>
    intro m
    have := ih (m.writeWord g w (f w))
    simp only [List.foldl_cons]
    generalize hx : List.foldl (fun m w => m.writeWord g w (f w)) (m.writeWord g w (f w)) ws = x at this ⊢
    have h2 := congrArg (fun y : MemController => { y with dram := m.dram, bitErrors := m.bitErrors }) this
    exact h2

theorem writeWords_canonical (f : Fin 8 → Word) (g : Granule) (ws : List (Fin 8)) : ∀ {m : MemController},
    Memory.wf m.dram → Sparse.wf 0 m.bitErrors →
      Memory.wf (ws.foldl (fun m w => m.writeWord g w (f w)) m).dram ∧
        Sparse.wf 0 (ws.foldl (fun m w => m.writeWord g w (f w)) m).bitErrors := by
  induction ws with
  | nil => exact fun h k => ⟨h, k⟩
  | cons w ws ih => exact fun h k => ih (wf_writeWord h g w (f w)) (Sparse.wf_set k _ _)

/-! ### What an operation leaves alone -/

/-- What performing an operation leaves alone: everything but the contents of the pool, the counts, the capture and
EVENT_STATUS. -/
structure Performed (s t : State) : Prop where
  rest : { t with mem := s.mem, svc := s.svc } = s
  svc : { t.svc with eventStatus := s.svc.eventStatus } = s.svc
  queue : t.mem.queue = s.mem.queue
  waiting : t.mem.waiting = s.mem.waiting
  nextInit : t.mem.nextInit = s.mem.nextInit
  granuleCount : t.mem.granuleCount = s.mem.granuleCount
  canonical : Memory.wf s.mem.dram → Sparse.wf 0 s.mem.bitErrors → Sparse.wf false s.mem.poison →
    Memory.wf t.mem.dram ∧ Sparse.wf 0 t.mem.bitErrors ∧ Sparse.wf false t.mem.poison

theorem Performed.refl (s : State) : Performed s s := ⟨rfl, rfl, rfl, rfl, rfl, rfl, fun a b c => ⟨a, b, c⟩⟩

theorem Performed.trans {s t u : State} (h : Performed s t) (k : Performed t u) : Performed s u where
  rest := by
    have h1 := congrArg (fun x : State => { x with mem := s.mem, svc := s.svc }) k.rest
    exact h1.trans h.rest
  svc := by
    have h1 := congrArg (fun x : ServicePort => { x with eventStatus := s.svc.eventStatus }) k.svc
    exact h1.trans h.svc
  queue := k.queue.trans h.queue
  waiting := k.waiting.trans h.waiting
  nextInit := k.nextInit.trans h.nextInit
  granuleCount := k.granuleCount.trans h.granuleCount
  canonical a b c := by
    obtain ⟨a, b, c⟩ := h.canonical a b c
    exact k.canonical a b c

/-- A change of the memory controller that leaves its queue alone. -/
theorem performed_setMem (s : State) {m : MemController} (h1 : m.queue = s.mem.queue) (h2 : m.waiting = s.mem.waiting)
    (h3 : m.nextInit = s.mem.nextInit) (h4 : m.granuleCount = s.mem.granuleCount)
    (h5 : Memory.wf s.mem.dram → Sparse.wf 0 s.mem.bitErrors → Sparse.wf false s.mem.poison →
      Memory.wf m.dram ∧ Sparse.wf 0 m.bitErrors ∧ Sparse.wf false m.poison) : Performed s (s.setMem m) :=
  ⟨rfl, rfl, h1, h2, h3, h4, h5⟩

theorem performed_raise (s : State) (e : Event) : Performed s (s.raise e) :=
  ⟨rfl, rfl, rfl, rfl, rfl, rfl, fun a b c => ⟨a, b, c⟩⟩

theorem accountReads_performed (s : State) (g : Granule) (rs : List Reading) : Performed s (s.accountReads g rs) := by
  unfold State.accountReads
  dsimp only
  split
  · split
    · exact .refl s
    · exact performed_setMem s rfl rfl rfl rfl fun a b c => ⟨a, b, c⟩
  · refine Performed.trans (t := s.setMem _) ?_ (performed_raise _ _)
    exact performed_setMem s rfl rfl rfl rfl fun a b c => ⟨a, b, Sparse.wf_set c _ _⟩

theorem writeWords_performed (s : State) (f : Fin 8 → Word) (g : Granule) (ws : List (Fin 8)) :
    Performed s (s.setMem (ws.foldl (fun m w => m.writeWord g w (f w)) s.mem)) := by
  have h := writeWords_mem f g ws s.mem
  have h1 := congrArg MemController.queue h
  have h2 := congrArg MemController.waiting h
  have h3 := congrArg MemController.nextInit h
  have h4 := congrArg MemController.granuleCount h
  have h5 := congrArg MemController.poison h
  refine performed_setMem s h1 h2 h3 h4 fun a b c => ?_
  · rw [show (ws.foldl (fun m w => m.writeWord g w (f w)) s.mem).poison = s.mem.poison from h5]
    exact ⟨(writeWords_canonical f g ws a b).1, (writeWords_canonical f g ws a b).2, c⟩

theorem setMark_performed (s : State) (g : Granule) (b : Bool) : Performed s (s.setMem (s.mem.setMark g b)) :=
  performed_setMem s rfl rfl rfl rfl fun a b c => ⟨a, b, Sparse.wf_set c _ _⟩

theorem writeFull_performed (s : State) (g : Granule) (d : GranuleData) : Performed s (s.writeFull g d) := by
  have h1 := writeWords_performed s (fun w => wordOf d w) g allWords
  unfold State.writeFull MemController.writeGranule
  generalize List.foldl (fun m w => m.writeWord g w (wordOf d w)) s.mem allWords = m at h1 ⊢
  exact h1.trans (setMark_performed _ g false)

theorem perform_performed (s : State) (op : MemOp) : Performed s (s.perform op).1 := by
  unfold State.perform
  split
  · exact accountReads_performed s _ _
  · exact writeFull_performed s _ _
  · split
    · exact writeFull_performed s _ _
    · unfold State.performPartial
      exact (accountReads_performed s _ _).trans (writeWords_performed _ _ _ _)
  · unfold State.performAtomic
    split
    · exact .refl s
    · have h := accountReads_performed s op.granule
      dsimp only
      split
      · exact h _
      all_goals
        split
        · exact (h _).trans (writeWords_performed _ (fun _ => _) op.granule [_])
        · exact h _
  · exact setMark_performed s _ true
  · exact writeFull_performed s _ _

end Sys2Proof.Machine
end

