-- ==== Sys2Proof/Laws/Completions.lean ====
section
/-! SUPPORT. A completion, said once: the operation performed, the queue moved up, the completion returned, and the tests
of the controller. -/

namespace Sys2Proof.Machine

variable {K : Granule → Prop} {s t : State}

theorem popped_queues (m : MemController) (h : m.queue ≠ []) :
    m.popped.queue ++ m.popped.waiting = (m.queue ++ m.waiting).tail := by
  unfold MemController.popped
  cases hq : m.queue with
  | nil => exact absurd hq h
  | cons op q => cases hw : m.waiting <;> simp

theorem popped_lawful {m : MemController} (h : m.lawful) (hq : m.queue ≠ []) : m.popped.lawful := by
  unfold MemController.popped MemController.lawful at *
  cases hm : m.queue with
  | nil => exact absurd hm hq
  | cons op q =>
    rw [hm] at h
    cases hw : m.waiting with
    | nil => simp only [List.tail_cons]; exact ⟨by simp only [List.length_cons] at h; omega, fun hc => absurd rfl hc⟩
    | cons a r =>
      have := h.2 (by simp [hw])
      simp only [List.tail_cons, List.length_append, List.length_cons, List.length_nil] at *
      exact ⟨by omega, fun _ => by omega⟩

theorem leaveQueue_eq (s : State) : s.leaveQueue = s.setMem s.mem.popped ∨
    ∃ op, s.leaveQueue = (s.setMem s.mem.popped).entered op := by
  unfold State.leaveQueue
  split
  · exact .inl rfl
  · exact .inr ⟨_, rfl⟩

/-- One offer of the initializer. -/
def State.offerInit (s : State) : State :=
  (s.offer ⟨.init, BitVec.ofNat 23 s.mem.nextInit, .initializer⟩).setMem
    { (s.offer ⟨.init, BitVec.ofNat 23 s.mem.nextInit, .initializer⟩).mem with nextInit := s.mem.nextInit + 1 }

/-- A law that one offer keeps is kept by the initializer's offers. -/
theorem offerInits_keeps {P : State → Prop} (hP : ∀ s, s.mem.nextInit < s.mem.granuleCount → P s → P s.offerInit)
    (n : Nat) : ∀ {s : State}, P s → P (s.offerInits n) := by
  induction n with
  | zero => exact fun h => h
  | succ n ih =>
    intro s h
    simp only [State.offerInits]
    split
    · rename_i hc
      exact ih (hP s hc.1 h)
    · exact h

theorem deliver_deeds (h : Within K s) (op : MemOp) (c : Completion) : Deeds K s (s.deliver op c) := by
  unfold State.deliver
  split
  · exact (deliverToSlot_moves h.1 _ c).deeds
  · exact .refl _
  · split
    · exact (Deed.svc s _).deeds.trans (raise_deeds _)
    · exact .refl _

theorem performed_within (p : Performed s t) (h : Within K s) : Within K t := by
  have ht : ∀ i, t.txn i = s.txn i := fun i => by
    have := congrArg (fun x : State => x.txn i) p.rest
    exact this
  have hd : t.dir = s.dir := by
    have := congrArg State.dir p.rest
    exact this
  exact ⟨h.1.of_eq ht hd, fun g hg => h.2 g (p.granuleCount ▸ hg)⟩

theorem setMem_within (h : Within K s) {m : MemController} (hm : m.granuleCount = s.mem.granuleCount) :
    Within K (s.setMem m) := ⟨h.1.of_eq (fun _ => rfl) rfl, fun g hg => h.2 g (by rw [← hm]; exact hg)⟩

theorem popped_granuleCount (m : MemController) : m.popped.granuleCount = m.granuleCount := by
  unfold MemController.popped; split <;> rfl

theorem offer_granuleCount (s : State) (op : MemOp) : (s.offer op).mem.granuleCount = s.mem.granuleCount := by
  unfold State.offer; split <;> rfl

theorem offerInit_within (h : Within K s) : Within K s.offerInit := by
  refine ⟨h.1.of_eq (fun i => offer_txn s _ i) (offer_dir s _), fun g hg => h.2 g ?_⟩
  change g.toNat < (s.offer _).mem.granuleCount at hg
  rwa [offer_granuleCount] at hg

/-- A law of the other blocks that a performed operation, the queue's move, an offer of the initializer and every deed
keep is kept by a completion. -/
theorem completeOldest_keeps {P : State → Prop} {op : MemOp} (hW : Within K s)
    (hperf : ∀ t, Performed s t → P t)
    (hpop : ∀ t, Performed s t → P t → P (t.setMem t.mem.popped))
    (hinit : ∀ t, t.mem.nextInit < t.mem.granuleCount → P t → P t.offerInit)
    (hdeed : ∀ {a b}, Deed K a b → P a → P b) : P (s.completeOldest op) := by
  have hp := perform_performed s op
  have h1 : P (s.perform op).1 := hperf _ hp
  have w1 : Within K (s.perform op).1 := performed_within hp hW
  have h2 := hpop _ hp h1
  have w2 : Within K ((s.perform op).1.setMem (s.perform op).1.mem.popped) :=
    setMem_within w1 (popped_granuleCount _)
  have h3 : P (s.perform op).1.leaveQueue ∧ Within K (s.perform op).1.leaveQueue := by
    rcases leaveQueue_eq (s.perform op).1 with he | ⟨o, he⟩
    · rw [he]; exact ⟨h2, w2⟩
    · rw [he]
      unfold State.entered
      split
      · exact ⟨h2, w2⟩
      · have := (sweepOfferEntered_moves (K := K) (s := (s.perform op).1.setMem (s.perform op).1.mem.popped)).deeds
        exact ⟨this.keeps hdeed h2, this.within w2⟩
      · exact offerInits_keeps (P := fun s => P s ∧ Within K s)
          (fun s hn h => ⟨hinit s hn h.1, offerInit_within h.2⟩) 17 ⟨h2, w2⟩
  have d := (deliver_deeds h3.2 op (s.perform op).2).andThen h3.2 settle_deeds
  exact d.keeps hdeed h3.1

end Sys2Proof.Machine
end

