-- ==== Sys2Proof/Laws/Entries.lean ====
section
/-! SUPPORT. What each change of the directory does to the entry of every granule, and to its lock. -/

namespace Sys2Proof.Machine

variable {s t : State}

/-- In a lawful directory the entry of a granule is the one of its set that names it. -/
theorem entry_iff (h : s.directoryLawful) {g : Granule} {e : Entry} :
    s.entry g = some e ↔ ∃ w, (s.dirSet (setOf g)).ways.get w = some e ∧ e.granule = g := by
  constructor
  · intro he
    obtain ⟨w, -, hw, hg⟩ := entry_some he
    exact ⟨w, hw, hg⟩
  · rintro ⟨w, hw, rfl⟩
    unfold State.entry
    dsimp only
    cases hv : (s.dirSet (setOf e.granule)).wayOf e.granule with
    | none => exact absurd rfl (DirSet.none_of_wayOf hv w e hw)
    | some v =>
      obtain ⟨f, hf, hg⟩ := DirSet.granule_of_wayOf hv
      rw [(h.2 _).once v w f e hf hw hg]
      exact hw

theorem entry_setDirSet (h : s.directoryLawful) {k : Nat} {d : DirSet} (hd : d.Lawful k) {g : Granule} {e : Entry} :
    (s.setDirSet k d).entry g = some e ↔
      if setOf g = k then ∃ w, d.ways.get w = some e ∧ e.granule = g else s.entry g = some e := by
  rw [entry_iff (State.directoryLawful_setDirSet h hd), dirSet_setDirSet h.1]
  by_cases hk : setOf g = k
  · rw [if_pos hk, if_pos hk]
  · rw [if_neg hk, if_neg hk, entry_iff h]

theorem entry_granule {g : Granule} {e : Entry} (h : s.entry g = some e) : e.granule = g := by
  obtain ⟨w, -, -, hg⟩ := entry_some h
  exact hg

/-- A change of one granule's entry rewrites or frees it, and leaves every other entry alone. -/
theorem entry_changeEntry (h : s.directoryLawful) (g : Granule) (c : EntryChange) (k : Granule) :
    (s.changeEntry g c).entry k =
      if k = g then (s.entry g).bind fun e => if (e.apply c).freed then none else some (e.apply c) else s.entry k := by
  have hl : ((s.dirSet (setOf g)).change g c).Lawful (setOf g) := (h.2 _).change g c
  refine Option.ext fun f => ?_
  unfold State.changeEntry
  rw [entry_setDirSet h hl]
  by_cases hs : setOf k = setOf g
  · rw [if_pos hs]
    cases hw : (s.dirSet (setOf g)).wayOf g with
    | none =>
      have hg : s.entry g = none := by
        unfold State.entry
        dsimp only
        rw [hw]
        rfl
      have hd : (s.dirSet (setOf g)).change g c = s.dirSet (setOf g) := by unfold DirSet.change; rw [hw]
      rw [hd, ← hs, ← entry_iff h]
      by_cases hk : k = g
      · rw [if_pos hk, hk, hg]
        simp
      · rw [if_neg hk]
    | some w =>
      obtain ⟨e, he, heg⟩ := DirSet.granule_of_wayOf hw
      have hg : s.entry g = some e := (entry_iff h).2 ⟨w, he, heg⟩
      have hd : (s.dirSet (setOf g)).change g c =
          if (e.apply c).freed then (s.dirSet (setOf g)).free w else (s.dirSet (setOf g)).put w (e.apply c) := by
        unfold DirSet.change
        rw [hw]
        dsimp only
        rw [he]
      rw [hd, hg]
      by_cases hk : k = g
      · subst hk
        rw [if_pos rfl, Option.bind_some]
        split
        · constructor
          · rintro ⟨v, hv, hf⟩
            have hv' := DirSet.get_free hv
            have := (h.2 _).once v w f e hv' he (hf.trans heg.symm)
            subst this
            unfold DirSet.free at hv
            rw [getElem_ways_set, if_pos rfl] at hv
            cases hv
          · intro hf; cases hf
        · constructor
          · rintro ⟨v, hv, hf⟩
            rcases DirSet.get_put hv with ⟨rfl, rfl⟩ | ⟨hvw, hv⟩
            · rfl
            · exact absurd ((h.2 _).once v w f e hv he (hf.trans heg.symm)) hvw
          · intro hf
            injection hf with hf
            subst hf
            refine ⟨w, ?_, by rw [e.apply_granule, heg]⟩
            unfold DirSet.put
            rw [getElem_ways_set, if_pos rfl]
      · rw [if_neg hk, entry_iff h, hs]
        split
        · constructor
          · rintro ⟨v, hv, hf⟩
            exact ⟨v, DirSet.get_free hv, hf⟩
          · rintro ⟨v, hv, hf⟩
            refine ⟨v, ?_, hf⟩
            unfold DirSet.free
            rw [getElem_ways_set, if_neg, hv]
            rintro rfl
            rw [he] at hv
            injection hv with hv
            exact hk (by rw [← hf, ← hv, heg])
        · constructor
          · rintro ⟨v, hv, hf⟩
            rcases DirSet.get_put hv with ⟨-, rfl⟩ | ⟨-, hv⟩
            · rw [e.apply_granule, heg] at hf
              exact absurd hf.symm hk
            · exact ⟨v, hv, hf⟩
          · rintro ⟨v, hv, hf⟩
            refine ⟨v, ?_, hf⟩
            unfold DirSet.put
            rw [getElem_ways_set, if_neg, hv]
            rintro rfl
            rw [he] at hv
            injection hv with hv
            exact hk (by rw [← hf, ← hv, heg])
  · rw [if_neg hs, if_neg fun hk => hs (by rw [hk])]

/-- An entry allocated: the granule, which had none, has a new one. -/
theorem entry_allocateEntry (h : s.directoryLawful) {g : Granule} (i : SlotId) (hg : s.entry g = none)
    (hw : (s.dirSet (setOf g)).invalidWay.isSome = true) (k : Granule) :
    (s.allocateEntry g i).entry k = if k = g then some (newEntry g i) else s.entry k := by
  obtain ⟨w, hw⟩ := Option.isSome_iff_exists.1 hw
  have hwg : (s.dirSet (setOf g)).wayOf g = none := by
    cases hv : (s.dirSet (setOf g)).wayOf g with
    | none => rfl
    | some v =>
      obtain ⟨f, hf, hfg⟩ := DirSet.granule_of_wayOf hv
      rw [(entry_iff h).2 ⟨v, hf, hfg⟩] at hg
      cases hg
  have ha : s.allocateEntry g i = s.setDirSet (setOf g) ((s.dirSet (setOf g)).allocate w g i) := by
    unfold State.allocateEntry
    dsimp only
    rw [hwg, hw]
  have hn := DirSet.none_of_wayOf hwg
  have hw' := DirSet.get_invalidWay hw
  rw [ha]
  refine Option.ext fun f => ?_
  rw [entry_setDirSet h ((h.2 _).allocate i hw' rfl hn)]
  by_cases hs : setOf k = setOf g
  · rw [if_pos hs]
    have get : ∀ v, ((s.dirSet (setOf g)).allocate w g i).ways.get v =
        if v = w then some (newEntry g i) else (s.dirSet (setOf g)).ways.get v := fun v => getElem_ways_set _ w v _
    by_cases hk : k = g
    · subst hk
      rw [if_pos rfl]
      constructor
      · rintro ⟨v, hv, hf⟩
        rw [get] at hv
        split at hv
        · exact hv
        · exact absurd hf (hn v f hv)
      · intro hf
        injection hf with hf
        subst hf
        exact ⟨w, by rw [get, if_pos rfl], rfl⟩
    · rw [if_neg hk, entry_iff h, hs]
      constructor
      · rintro ⟨v, hv, hf⟩
        rw [get] at hv
        split at hv
        · injection hv with hv
          subst hv
          exact absurd hf.symm hk
        · exact ⟨v, hv, hf⟩
      · rintro ⟨v, hv, hf⟩
        refine ⟨v, ?_, hf⟩
        rw [get, if_neg, hv]
        rintro rfl
        rw [hw'] at hv
        cases hv
  · rw [if_neg hs, if_neg fun hk => hs (by rw [hk])]

/-- The victim's way taken over by a granule of its set that had no entry. -/
theorem entry_replaceVictim (h : s.directoryLawful) {v g : Granule} (i : SlotId) {e : Entry} (hv : s.entry v = some e)
    (hg : s.entry g = none) (hs : setOf g = setOf v) (k : Granule) :
    (s.replaceVictim v g i).entry k = if k = g then some (newEntry g i) else if k = v then none else s.entry k := by
  obtain ⟨w, hw, hwe, heg⟩ := entry_some hv
  have hwg : (s.dirSet (setOf v)).wayOf g = none := by
    cases hv : (s.dirSet (setOf v)).wayOf g with
    | none => rfl
    | some x =>
      obtain ⟨f, hf, hfg⟩ := DirSet.granule_of_wayOf hv
      rw [(entry_iff h).2 ⟨x, by rw [hs]; exact hf, hfg⟩] at hg
      cases hg
  have hn := DirSet.none_of_wayOf hwg
  have ha : s.replaceVictim v g i = s.setDirSet (setOf v) (((s.dirSet (setOf v)).free w).allocate w g i) := by
    unfold State.replaceVictim
    dsimp only
    rw [hw, hwg]
    exact if_pos hs
  have free : ∀ x, ((s.dirSet (setOf v)).free w).ways.get x = if x = w then none else (s.dirSet (setOf v)).ways.get x :=
    fun x => getElem_ways_set _ w x _
  have get : ∀ x, (((s.dirSet (setOf v)).free w).allocate w g i).ways.get x =
      if x = w then some (newEntry g i) else (s.dirSet (setOf v)).ways.get x := fun x => by
    have := getElem_ways_set ((s.dirSet (setOf v)).free w) w x (some (newEntry g i))
    refine this.trans ?_
    split
    · rfl
    · rename_i hx; rw [free, if_neg hx]
  have hl : (((s.dirSet (setOf v)).free w).allocate w g i).Lawful (setOf v) :=
    ((h.2 _).free w).allocate i (by rw [free, if_pos rfl]) hs fun x f hf => hn x f (DirSet.get_free hf)
  rw [ha]
  refine Option.ext fun f => ?_
  rw [entry_setDirSet h hl]
  by_cases hk : setOf k = setOf v
  · rw [if_pos hk]
    by_cases hkg : k = g
    · subst hkg
      rw [if_pos rfl]
      constructor
      · rintro ⟨x, hx, hf⟩
        rw [get] at hx
        split at hx
        · exact hx
        · exact absurd hf (hn x f hx)
      · intro hf
        injection hf with hf
        subst hf
        exact ⟨w, by rw [get, if_pos rfl], rfl⟩
    · rw [if_neg hkg]
      by_cases hkv : k = v
      · subst hkv
        rw [if_pos rfl]
        refine ⟨?_, fun hf => by cases hf⟩
        rintro ⟨x, hx, hf⟩
        rw [get] at hx
        split at hx
        · injection hx with hx
          subst hx
          exact absurd hf.symm hkg
        · rename_i hxw
          exact absurd ((h.2 _).once x w f e hx hwe (hf.trans heg.symm)) hxw
      · rw [if_neg hkv, entry_iff h, hk]
        constructor
        · rintro ⟨x, hx, hf⟩
          rw [get] at hx
          split at hx
          · injection hx with hx
            subst hx
            exact absurd hf.symm hkg
          · exact ⟨x, hx, hf⟩
        · rintro ⟨x, hx, hf⟩
          refine ⟨x, ?_, hf⟩
          rw [get, if_neg, hx]
          rintro rfl
          rw [hwe] at hx
          injection hx with hx
          exact hkv (by rw [← hf, ← hx, heg])
  · rw [if_neg hk, if_neg fun hkg => hk (by rw [hkg, hs]), if_neg fun hkv => hk (by rw [hkv])]

end Sys2Proof.Machine
end

