-- ==== Sys2Proof/Laws/Exec.lean ====
section
/-! SUPPORT. What a command can do, said once for all commands: hub reset, its end, the completion of the oldest memory
operation, or a sequence of deeds. -/

namespace Sys2Proof.Machine

variable {s t : State}

theorem bitsInError_deeds {K : Granule → Prop} (g : Granule) (w : Fin 8) (b : StoredBits) :
    Deeds K s (State.bitsInError g w b s) := by
  unfold State.bitsInError
  split
  · exact (Deed.bits s _ _).deeds
  · exact .refl _

theorem walkVisit_deeds {K : Granule → Prop} (h : Within K s) : Deeds K s s.walkVisit := by
  unfold State.walkVisit
  split
  · exact (visit_moves h.1).deeds
  · exact .refl _

theorem complete_cases {kind : MemKind → Bool} (h : complete kind s = .next t) :
    t = s ∨ ∃ op rest, s.inReset = false ∧ s.mem.queue = op :: rest ∧ kind op.kind = true
      ∧ op.granule.toNat < s.mem.granuleCount ∧ t = s.completeOldest op := by
  unfold complete at h
  split at h
  · injection h with h; exact .inl h.symm
  · rename_i hr
    split at h
    · injection h with h; exact .inl h.symm
    · rename_i op rest hq
      split at h
      · injection h with h; exact .inl h.symm
      · rename_i hk
        split at h
        · rename_i hg
          injection h with h
          exact .inr ⟨op, rest, by simpa using hr, hq, by simpa using hk, hg, h.symm⟩
        · cases h

/-- What a command other than hub reset, its end and a completion does. -/
def Does (s t : State) : Prop := ∀ K, Within K s → Deeds K s t

theorem does_change {f : State → State} (hf : ∀ K s, Within K s → Deeds K s (f s)) (he : change f s = .next t) :
    Does s t := fun K h => change_deeds (hf K) h he

theorem does_transfer {f : State → State} (hf : ∀ K s, Within K s → Deeds K s (f s)) (he : transfer f s = .next t) :
    Does s t := fun K h => transfer_deeds (hf K) h he

/-- The four kinds of commands. -/
theorem exec_cases {c : Instr} (h : exec c s = .next t) :
    (c = .hubReset ∧ t = s.enterReset)
      ∨ (∃ l, c = .hubResetEnd l ∧ t = if s.inReset then s.leaveReset l else s)
      ∨ (∃ op rest, s.inReset = false ∧ s.mem.queue = op :: rest ∧ op.granule.toNat < s.mem.granuleCount
        ∧ t = s.completeOldest op)
      ∨ Does s t := by
  have done : ∀ {kind : MemKind → Bool}, complete kind s = .next t →
      (c = .hubReset ∧ t = s.enterReset)
      ∨ (∃ l, c = .hubResetEnd l ∧ t = if s.inReset then s.leaveReset l else s)
      ∨ (∃ op rest, s.inReset = false ∧ s.mem.queue = op :: rest ∧ op.granule.toNat < s.mem.granuleCount
        ∧ t = s.completeOldest op)
      ∨ Does s t := fun h => by
    rcases complete_cases h with rfl | ⟨op, rest, h1, h2, _, h4, h5⟩
    · exact .inr (.inr (.inr fun K _ => .refl _))
    · exact .inr (.inr (.inl ⟨op, rest, h1, h2, h4, h5⟩))
  cases c with
  | hubReset => injection h with h; exact .inl ⟨rfl, h.symm⟩
  | hubResetEnd l => injection h with h; exact .inr (.inl ⟨l, rfl, h.symm⟩)
  | readComplete => exact done h
  | writeFullComplete => exact done h
  | writePartialComplete => exact done h
  | atomicRmwComplete => exact done h
  | poisonSetComplete => exact done h
  | initComplete => exact done h
  | presenceEvent p a => exact .inr (.inr (.inr (does_change (fun K s h => presence_deeds h p a) h)))
  | latchEvent p a => exact .inr (.inr (.inr (does_change (fun K s h => latch_deeds h p a) h)))
  | linkUp p => exact .inr (.inr (.inr (does_change (fun K s _ => setIface_deeds p _) h)))
  | linkLost p => exact .inr (.inr (.inr (does_change (fun K s h => linkLost_deeds h p) h)))
  | linkLostAtController p => exact .inr (.inr (.inr (does_change (fun K s h => linkLostTaken_deeds h p) h)))
  | frameSent p => exact .inr (.inr (.inr (does_change (fun K s h => frameSent_deeds h p) h)))
  | readShare p tag g => exact .inr (.inr (.inr (does_change (fun K s h => arrive_deeds h p _) h)))
  | readOwn p tag g => exact .inr (.inr (.inr (does_change (fun K s h => arrive_deeds h p _) h)))
  | promote p tag g => exact .inr (.inr (.inr (does_change (fun K s h => arrive_deeds h p _) h)))
  | peek p tag g => exact .inr (.inr (.inr (does_change (fun K s h => arrive_deeds h p _) h)))
  | poke p tag g d m => exact .inr (.inr (.inr (does_change (fun K s h => arrive_deeds h p _) h)))
  | atomic p tag g b => exact .inr (.inr (.inr (does_change (fun K s h => arrive_deeds h p _) h)))
  | returnDirty p tag g d => exact .inr (.inr (.inr (does_change (fun K s h => arrive_deeds h p _) h)))
  | release p tag g => exact .inr (.inr (.inr (does_change (fun K s h => arrive_deeds h p _) h)))
  | yield p tag g r o => exact .inr (.inr (.inr (does_change (fun K s h => arrive_deeds h p _) h)))
  | join p g => exact .inr (.inr (.inr (does_change (fun K s h => arrive_deeds h p _) h)))
  | leave p g => exact .inr (.inr (.inr (does_change (fun K s h => arrive_deeds h p _) h)))
  | control p g b => exact .inr (.inr (.inr (does_change (fun K s h => arrive_deeds h p _) h)))
  | malformedFrame p b => exact .inr (.inr (.inr (does_change (fun K s h => arrive_deeds h p _) h)))
  | recallDeadlineExpiry i => exact .inr (.inr (.inr (does_change (fun K s h => recallExpiry_deeds h i) h)))
  | fenceRequest p => exact .inr (.inr (.inr (does_change (fun K s h => fenceRequestTaken_deeds h p) h)))
  | departureDeadlineExpiry p => exact .inr (.inr (.inr (does_change (fun K s h => departureExpiry_deeds h p) h)))
  | walkVisit => exact .inr (.inr (.inr (does_change (fun K s h => walkVisit_deeds h) h)))
  | sweepReport => exact .inr (.inr (.inr (does_change (fun K s h => sweepReportTaken_deeds h) h)))
  | clearReport => exact .inr (.inr (.inr (does_change (fun K s h => clearReportTaken_deeds h) h)))
  | regRead o => exact .inr (.inr (.inr (does_transfer (fun K s _ => serviceRead_deeds o) h)))
  | regWrite o v => exact .inr (.inr (.inr (does_transfer (fun K s _ => serviceWriteAt_deeds o v) h)))
  | eventStatusWrite v => exact .inr (.inr (.inr (does_transfer (fun K s _ => serviceWrite_deeds _ v) h)))
  | eventEnableWrite v => exact .inr (.inr (.inr (does_transfer (fun K s _ => serviceWrite_deeds _ v) h)))
  | portControlWrite p v => exact .inr (.inr (.inr (does_transfer (fun K s _ => serviceWrite_deeds _ v) h)))
  | admitModeWrite v => exact .inr (.inr (.inr (does_transfer (fun K s _ => serviceWrite_deeds _ v) h)))
  | recallLimitWrite v => exact .inr (.inr (.inr (does_transfer (fun K s _ => serviceWrite_deeds _ v) h)))
  | departLimitWrite v => exact .inr (.inr (.inr (does_transfer (fun K s _ => serviceWrite_deeds _ v) h)))
  | correctedWrite v => exact .inr (.inr (.inr (does_transfer (fun K s _ => serviceWrite_deeds _ v) h)))
  | uncorrectedWrite v => exact .inr (.inr (.inr (does_transfer (fun K s _ => serviceWrite_deeds _ v) h)))
  | firstFaultWrite v => exact .inr (.inr (.inr (does_transfer (fun K s _ => serviceWrite_deeds _ v) h)))
  | protoErrorsWrite p v => exact .inr (.inr (.inr (does_transfer (fun K s _ => serviceWrite_deeds _ v) h)))
  | admitPort b => exact .inr (.inr (.inr (does_transfer (fun K s h => serviceMember_deeds h _ b) h)))
  | ejectPort b => exact .inr (.inr (.inr (does_transfer (fun K s h => serviceMember_deeds h _ b) h)))
  | fencePort b => exact .inr (.inr (.inr (does_transfer (fun K s h => serviceMember_deeds h _ b) h)))
  | releasePort b => exact .inr (.inr (.inr (does_transfer (fun K s h => serviceMember_deeds h _ b) h)))
  | holdOn b => exact .inr (.inr (.inr (does_transfer (fun K s h => serviceMember_deeds h _ b) h)))
  | holdOff b => exact .inr (.inr (.inr (does_transfer (fun K s h => serviceMember_deeds h _ b) h)))
  | setWindow i v b l r => exact .inr (.inr (.inr (does_transfer (fun K s h => serviceWindow_deeds h i v b l r) h)))
  | hubClear => exact .inr (.inr (.inr (does_transfer (fun K s h => hubClear_deeds h) h)))
  | memPeek g => exact .inr (.inr (.inr (does_transfer (fun K s h => memoryCommand_deeds h _ g) h)))
  | memPoke g d m => exact .inr (.inr (.inr (does_transfer (fun K s h => memoryCommand_deeds h _ g) h)))
  | slotStatus => exact .inr (.inr (.inr (does_transfer (fun K s _ => readSlot_deeds) h)))
  | dramBitsInError g w b => exact .inr (.inr (.inr (does_change (fun K s _ => bitsInError_deeds g w b) h)))
  | incompleteSelection b => exact .inr (.inr (.inr (does_transfer (fun K s _ => .refl _) h)))
  | unknownServiceCommand b => exact .inr (.inr (.inr (does_transfer (fun K s _ => respond_deeds _ _) h)))

/-- A command that is no completion answers a next state. -/
theorem exec_next (c : Instr) (s : State) :
    (∃ t, exec c s = .next t) ∨ (exec c s = .fault .noSuchGranule
      ∧ ∃ op rest, s.mem.queue = op :: rest ∧ s.mem.granuleCount ≤ op.granule.toNat) := by
  have done : ∀ kind, (∃ t, complete kind s = .next t) ∨ (complete kind s = .fault .noSuchGranule
      ∧ ∃ op rest, s.mem.queue = op :: rest ∧ s.mem.granuleCount ≤ op.granule.toNat) := fun kind => by
    unfold complete
    split
    · exact .inl ⟨_, rfl⟩
    · split
      · exact .inl ⟨_, rfl⟩
      · rename_i op rest hq
        split
        · exact .inl ⟨_, rfl⟩
        · split
          · exact .inl ⟨_, rfl⟩
          · exact .inr ⟨rfl, op, rest, hq, by omega⟩
  cases c <;> first | exact .inl ⟨_, rfl⟩ | exact done _

/-- The one way in which a law of the state is shown to be kept by every command. -/
theorem exec_keeps {P : State → Prop} {c : Instr} (h : exec c s = .next t) (hs : P s)
    (hreset : P s.enterReset) (hend : ∀ l, s.inReset = true → P (s.leaveReset l))
    (hdone : ∀ op rest, s.mem.queue = op :: rest → op.granule.toNat < s.mem.granuleCount → P (s.completeOldest op))
    (hdeed : Does s t → P t) : P t := by
  rcases exec_cases h with ⟨_, rfl⟩ | ⟨l, _, rfl⟩ | ⟨op, rest, _, h2, h3, rfl⟩ | hd
  · exact hreset
  · split
    · rename_i hr; exact hend l hr
    · exact hs
  · exact hdone op rest h2 h3
  · exact hdeed hd

/-! ### The end of hub reset -/

/-- A property that every granule has shuts out no state. -/
theorem within_true (s : State) : Within (fun _ => True) s := ⟨inside_of_all fun _ => trivial, fun _ _ => trivial⟩

/-- No deed moves the initializer. -/
theorem Deed.nextInit {K : Granule → Prop} (m : Deed K s t) : t.mem.nextInit = s.mem.nextInit := by
  cases m with
  | act m =>
    have := congrArg MemController.nextInit m.steady.mem
    exact this
  | _ => rfl

/-- A law that the sampling of the lines, an offer of the initializer and every deed keep is kept by the end of hub
reset. -/
theorem leaveReset_keeps {P : State → Prop} (l : ResetLines) (h : P (s.sampleLines l))
    (hinit : ∀ t, t.mem.nextInit < t.mem.granuleCount → P t → P t.offerInit)
    (hdeed : ∀ {a b}, Deed (fun _ => True) a b → P a → P b) : P (s.leaveReset l) := by
  unfold State.leaveReset
  dsimp only
  refine offerInits_keeps hinit 17 ?_
  generalize s.sampleLines l = u at h
  have seats : ∀ (ps : List Port) {u}, P u → P (ps.foldl (fun s p => State.presence p true s) u) := fun ps => by
    induction ps with
    | nil => exact fun h => h
    | cons p ps ih => exact fun h => ih ((presence_deeds (within_true _) p true).keeps hdeed h)
  exact seats _ h

end Sys2Proof.Machine
end

