-- ==== Sys2Proof/Laws/Registers.lean ====
section
/-! SUPPORT. The register table by offset, the fields of a register value bit by bit, and bytes most significant first. -/

namespace Sys2Proof.Machine

/-! ### Offsets -/

theorem registerTable_offset (r : Reg) : r.offset % 8 = 0 ∧ registerTable[r.offset / 8]? = some r := by
  cases r with
  | portStatus p => cases p <;> decide
  | portControl p => cases p <;> decide
  | protoErrors p => cases p <;> decide
  | window k => revert k; decide
  | _ => decide

theorem offset_of_registerTable : ∀ n : Fin 32, ∀ r, registerTable[n.val]? = some r → r.offset = 8 * n.val := by
  intro n r h
  fin_cases n <;> (simp [registerTable] at h; subst h; rfl)

/-- The register at an offset is the one with that offset. -/
theorem ofOffset_iff (o : BitVec 16) (r : Reg) : Reg.ofOffset o = some r ↔ o.toNat = r.offset := by
  unfold Reg.ofOffset
  constructor
  · intro h
    split at h
    · rename_i hm
      have hl : o.toNat / 8 < 32 := by
        by_contra hc
        have hn : registerTable[o.toNat / 8]? = none := List.getElem?_eq_none (by
          have : registerTable.length = 32 := rfl
          omega)
        rw [hn] at h; cases h
      have := offset_of_registerTable ⟨o.toNat / 8, hl⟩ r h
      simp only at this
      omega
    · cases h
  · intro h
    have := registerTable_offset r
    rw [h, if_pos this.1]
    exact this.2

theorem ofOffset_none (o : BitVec 16) : Reg.ofOffset o = none ↔ ∀ r : Reg, o.toNat ≠ r.offset := by
  constructor
  · intro h r hr
    rw [(ofOffset_iff o r).2 hr] at h; cases h
  · intro h
    cases hc : Reg.ofOffset o with
    | none => rfl
    | some r => exact absurd ((ofOffset_iff o r).1 hc) (h r)

/-! ### Fields -/

theorem getLsbD_field (v n i : Nat) : (field v n).getLsbD i = (decide (i < 64) && decide (n ≤ i) && v.testBit (i - n)) := by
  simp only [field, BitVec.getLsbD_ofNat, Nat.testBit_mul_two_pow]
  by_cases h1 : i < 64 <;> by_cases h2 : n ≤ i <;> simp [h1, h2]

theorem getLsbD_flagBit (b : Bool) (n i : Nat) : (flagBit b n).getLsbD i = (b && decide (i < 64) && decide (i = n)) := by
  cases b with
  | false => simp [flagBit]
  | true =>
    simp only [flagBit, if_true, getLsbD_field, Bool.true_and]
    by_cases h1 : i < 64 <;> by_cases h2 : i = n
    · subst h2; simp [h1]
    · have h3 : (1 : Nat).testBit (i - n) = decide (i - n = 0) := by
        rw [Bool.eq_iff_iff, Nat.testBit_one_eq_true_iff_self_eq_zero]; simp
      by_cases h4 : n ≤ i
      · have : i - n ≠ 0 := by omega
        simp [h1, h2, h3, this]
      · simp [h1, h2, h4]
    · simp [h1]
    · simp [h1]

/-! ### Bytes, most significant first -/

theorem beBytes_word (v : Word) :
    beBytes 8 v.toNat = (List.range 8).map fun k => v.extractLsb' (56 - 8 * k) 8 := by
  unfold beBytes
  simp only [leBytes, List.reverse_cons, List.reverse_nil, List.nil_append, List.cons_append, List.range_succ,
    List.range_zero, List.map_cons, List.map_nil]
  simp only [List.cons.injEq, and_true]
  refine ⟨?_, ?_, ?_, ?_, ?_, ?_, ?_, ?_⟩ <;>
    (apply BitVec.eq_of_toNat_eq; simp [Nat.shiftRight_eq_div_pow, Nat.div_div_eq_div_mul])

theorem beBytes_granule (g : Granule) :
    beBytes 3 g.toNat = [(g.extractLsb' 16 8 : Byte), g.extractLsb' 8 8, g.extractLsb' 0 8] := by
  unfold beBytes
  simp only [leBytes, List.reverse_cons, List.reverse_nil, List.nil_append, List.cons_append]
  simp only [List.cons.injEq, and_true]
  refine ⟨?_, ?_, ?_⟩ <;>
    (apply BitVec.eq_of_toNat_eq; simp [Nat.shiftRight_eq_div_pow, Nat.div_div_eq_div_mul])

end Sys2Proof.Machine
end

