-- ==== Sys2Proof/WellFormed.lean ====
section
/-! DEFINITION. Which commands are well formed: the form that the manual gives each row, where the operands' types do not
say it already. -/

namespace Sys2Proof

open Machine

/-- A request frame has a tag of its class, 0 to 13 (09 R181). A request frame with tag 14 or 15 is a MALFORMED_FRAME. -/
def requestTagOk (tag : Tag) : Bool := tag.toNat < 14

/-- The form check of each row; a command that fails it is no command of the table. -/
def Instr.wf : Instr → Bool
  | .readShare _ tag _ => requestTagOk tag
  | .readOwn _ tag _ => requestTagOk tag
  | .promote _ tag _ => requestTagOk tag
  | .peek _ tag _ => requestTagOk tag
  | .poke _ tag _ _ _ => requestTagOk tag
  | .atomic _ tag _ _ => requestTagOk tag
  | .returnDirty _ tag _ _ => requestTagOk tag
  | .release _ tag _ => requestTagOk tag
  /- A malformed frame is one that no kind's form admits (09 R187). -/
  | .malformedFrame _ bytes => Frame.ofBytes bytes == .malformed
  /- REG_WRITE stands for the registers without a row of their own: unknown or read-only offsets (10 R203). -/
  | .regWrite offset v => registerWriteRow offset v == .regWrite offset v
  /- At least one stored bit comes to be in error (01 R7). -/
  | .dramBitsInError _ _ bits => bits != 0
  /- The bytes complete no request (10 R197). -/
  | .incompleteSelection bytes => (serviceRequest bytes).isNone
  /- The code is not in the command table (10 R198). -/
  | .unknownServiceCommand code => (argumentBytes code).isNone
  | .hubReset => true
  | .hubResetEnd _ => true
  | .presenceEvent _ _ => true
  | .latchEvent _ _ => true
  | .linkUp _ => true
  | .linkLost _ => true
  | .linkLostAtController _ => true
  | .frameSent _ => true
  | .yield _ _ _ _ _ => true
  | .join _ _ => true
  | .leave _ _ => true
  | .control _ _ _ => true
  | .readComplete => true
  | .writeFullComplete => true
  | .writePartialComplete => true
  | .atomicRmwComplete => true
  | .poisonSetComplete => true
  | .initComplete => true
  | .recallDeadlineExpiry _ => true
  | .fenceRequest _ => true
  | .departureDeadlineExpiry _ => true
  | .walkVisit => true
  | .sweepReport => true
  | .clearReport => true
  | .regRead _ => true
  | .eventStatusWrite _ => true
  | .eventEnableWrite _ => true
  | .portControlWrite _ _ => true
  | .admitModeWrite _ => true
  | .recallLimitWrite _ => true
  | .departLimitWrite _ => true
  | .correctedWrite _ => true
  | .uncorrectedWrite _ => true
  | .firstFaultWrite _ => true
  | .protoErrorsWrite _ _ => true
  | .admitPort _ => true
  | .ejectPort _ => true
  | .fencePort _ => true
  | .releasePort _ => true
  | .holdOn _ => true
  | .holdOff _ => true
  | .setWindow _ _ _ _ _ => true
  | .hubClear => true
  | .memPeek _ => true
  | .memPoke _ _ _ => true
  | .slotStatus => true

end Sys2Proof
end

