-- ==== Sys2Proof/Laws/PerInstr.lean ====
section
/-! SUPPORT. The form of each row, said of the command's operands alone: which commands `Instr.wf` lets pass. -/

namespace Sys2Proof.Machine

theorem bareRequest_malformed {bs : List Byte} {r : Request} :
    bareRequest bs r = .malformed ↔ ¬(bs.length = 8 ∧ (tagField bs).toNat < 14) := by
  unfold bareRequest
  split <;> simp [*]

theorem atomicFrame_malformed {bs : List Byte} :
    atomicFrame bs = .malformed ↔
      ¬(bs.length = 32 ∧ (tagField bs).toNat < 14 ∧
        ((byteAt bs 8).toNat = 1 ∨ (byteAt bs 8).toNat = 2 ∨ (byteAt bs 8).toNat = 3)) := by
  have code : atomicOpOfCode (byteAt bs 8) = none ↔
      ¬((byteAt bs 8).toNat = 1 ∨ (byteAt bs 8).toNat = 2 ∨ (byteAt bs 8).toNat = 3) := by
    generalize byteAt bs 8 = b
    unfold atomicOpOfCode
    simp only [← BitVec.toNat_inj]
    by_cases h1 : b.toNat = 1 <;> by_cases h2 : b.toNat = 2 <;> by_cases h3 : b.toNat = 3 <;> simp [h1, h2, h3]
  unfold atomicFrame
  cases h : atomicOpOfCode (byteAt bs 8) with
  | none =>
    have := code.1 h
    simp [this]
  | some op =>
    have : (byteAt bs 8).toNat = 1 ∨ (byteAt bs 8).toNat = 2 ∨ (byteAt bs 8).toNat = 3 := by
      by_contra hc
      rw [code.2 hc] at h
      cases h
    dsimp only
    split <;> simp_all

theorem yieldFrame_malformed {bs : List Byte} :
    yieldFrame bs = .malformed ↔
      ¬(((byteAt bs 6).extractLsb' 0 2).toNat = 1 ∧ bs.length = 72
        ∨ (((byteAt bs 6).extractLsb' 0 2).toNat = 2 ∨ ((byteAt bs 6).extractLsb' 0 2).toNat = 3) ∧ bs.length = 8) := by
  unfold yieldFrame
  generalize (byteAt bs 6).extractLsb' 0 2 = o
  simp only [← BitVec.toNat_inj]
  split
  · simp_all
  · split
    · simp_all
    · split
      · simp_all
      · rename_i h1 h2 h3
        have e1 : BitVec.toNat (1 : BitVec 2) = 1 := rfl
        have e2 : BitVec.toNat (2 : BitVec 2) = 2 := rfl
        have e3 : BitVec.toNat (3 : BitVec 2) = 3 := rfl
        rw [e1] at h1; rw [e2] at h2; rw [e3] at h3
        simp only [true_iff]; omega

/-- Intake's form check lets pass the frames of the table's forms (09 R187). -/
theorem ofBytes_malformed (bs : List Byte) : Frame.ofBytes bs = .malformed ↔ ¬wellFormed bs := by
  have h15 : tagField bs = 15 ↔ (tagField bs).toNat = 15 := by rw [← BitVec.toNat_inj]; rfl
  have h14 : tagField bs = 14 ↔ (tagField bs).toNat = 14 := by rw [← BitVec.toNat_inj]; rfl
  unfold Frame.ofBytes wellFormed
  dsimp only
  change _ ↔ ¬(((byteAt bs 0).toNat = 1 ∨ (byteAt bs 0).toNat = 2 ∨ (byteAt bs 0).toNat = 3 ∨ (byteAt bs 0).toNat = 4
      ∨ (byteAt bs 0).toNat = 8) ∧ bs.length = 8 ∧ (tagField bs).toNat ≤ 13
    ∨ (byteAt bs 0).toNat = 5 ∧ bs.length = 80 ∧ (tagField bs).toNat ≤ 13
    ∨ (byteAt bs 0).toNat = 6 ∧ bs.length = 32 ∧ (tagField bs).toNat ≤ 13
      ∧ ((byteAt bs 8).toNat = 1 ∨ (byteAt bs 8).toNat = 2 ∨ (byteAt bs 8).toNat = 3)
    ∨ (byteAt bs 0).toNat = 7 ∧ bs.length = 72 ∧ (tagField bs).toNat ≤ 13
    ∨ (byteAt bs 0).toNat = 9 ∧ (((byteAt bs 6).extractLsb' 0 2).toNat = 1 ∧ bs.length = 72
      ∨ (((byteAt bs 6).extractLsb' 0 2).toNat = 2 ∨ ((byteAt bs 6).extractLsb' 0 2).toNat = 3) ∧ bs.length = 8)
    ∨ ((byteAt bs 0).toNat = 10 ∨ (byteAt bs 0).toNat = 11) ∧ bs.length = 8 ∧ (tagField bs).toNat = 15
    ∨ (byteAt bs 0).toNat = 12 ∧ bs.length = 24 ∧ (tagField bs).toNat = 14)
  have ite : ∀ (P : Prop) [Decidable P] (f : Frame), f ≠ .malformed →
      ((if P then f else .malformed) = Frame.malformed ↔ ¬P) := fun P _ f hf => by
    split <;> simp [*]
  generalize (byteAt bs 0).toNat = kind
  split
  · simp only [true_iff]; omega
  · rename_i hlen
    split
    all_goals
      revert hlen
      first
        | rw [bareRequest_malformed]
        | rw [atomicFrame_malformed]
        | rw [yieldFrame_malformed]
        | rw [ite _ _ (by simp)]
        | rw [eq_self_iff_true]
      try rw [h15]
      try rw [h14]
      generalize (tagField bs).toNat = tag
      generalize ((byteAt bs 6).extractLsb' 0 2).toNat = outcome
      generalize (byteAt bs 8).toNat = op
      generalize bs.length = n
      clear h14 h15 ite
      intro hlen
      norm_num <;> first | omega | simp_all

theorem argumentBytes_none (code : Byte) : argumentBytes code = none ↔ code.toNat = 0 ∨ 14 ≤ code.toNat := by
  revert code
  decide +kernel

/-- The registers that REG_WRITE stands for, by their offsets (10 R203). -/
theorem registerWriteRow_self (offset : BitVec 16) (v : Word) :
    registerWriteRow offset v = .regWrite offset v ↔ ∀ r : Reg, offset.toNat = r.offset → r.readOnly = true := by
  constructor
  · intro h r hr
    unfold registerWriteRow at h
    rw [(ofOffset_iff offset r).2 hr] at h
    cases r <;> first | rfl | (exact absurd h (by simp))
  · intro h
    unfold registerWriteRow
    cases hr : Reg.ofOffset offset with
    | none => rfl
    | some r =>
      have := h r ((ofOffset_iff offset r).1 hr)
      cases r <;> first | rfl | (exact absurd this (by simp [Reg.readOnly]))

end Sys2Proof.Machine

namespace Sys2Proof.Laws.WellFormed

open Machine

/-- When a command is well formed, by its operands: a request's tag is 13 or less, a malformed frame has no kind's form, a
REG_WRITE names no writable register, some bit comes to be in error, an incomplete selection lacks a byte of its
request, and an unknown command's code is outside the table (09 R181, R187; 10 R197, R198, R203; 01 R7). -/
def Statement (i : Instr) : Prop :=
  match i with
  | .readShare _ tag _ => i.wf = true ↔ tag.toNat ≤ 13
  | .readOwn _ tag _ => i.wf = true ↔ tag.toNat ≤ 13
  | .promote _ tag _ => i.wf = true ↔ tag.toNat ≤ 13
  | .peek _ tag _ => i.wf = true ↔ tag.toNat ≤ 13
  | .poke _ tag _ _ _ => i.wf = true ↔ tag.toNat ≤ 13
  | .atomic _ tag _ _ => i.wf = true ↔ tag.toNat ≤ 13
  | .returnDirty _ tag _ _ => i.wf = true ↔ tag.toNat ≤ 13
  | .release _ tag _ => i.wf = true ↔ tag.toNat ≤ 13
  | .malformedFrame _ bytes => i.wf = true ↔ ¬wellFormed bytes
  | .regWrite offset _ => i.wf = true ↔ ∀ r : Reg, offset.toNat = r.offset → r.readOnly = true
  | .dramBitsInError _ _ bits => i.wf = true ↔ bits ≠ 0
  | .incompleteSelection bytes =>
    i.wf = true ↔ bytes = [] ∨ ∃ code a n, bytes = code :: a ∧ argumentBytes code = some n ∧ a.length < n
  | .unknownServiceCommand code => i.wf = true ↔ code.toNat = 0 ∨ 14 ≤ code.toNat
  | _ => i.wf = true

theorem tag_iff (tag : Tag) : requestTagOk tag = true ↔ tag.toNat ≤ 13 := by
  unfold requestTagOk
  rw [decide_eq_true_iff]
  omega

theorem hubReset : Statement .hubReset := rfl

theorem hubResetEnd (lines : ResetLines) : Statement (.hubResetEnd lines) := rfl

theorem presenceEvent (p : Port) (asserted : Bool) : Statement (.presenceEvent p asserted) := rfl

theorem latchEvent (p : Port) (closed : Bool) : Statement (.latchEvent p closed) := rfl

theorem linkUp (p : Port) : Statement (.linkUp p) := rfl

theorem linkLost (p : Port) : Statement (.linkLost p) := rfl

theorem linkLostAtController (p : Port) : Statement (.linkLostAtController p) := rfl

theorem frameSent (p : Port) : Statement (.frameSent p) := rfl

theorem readShare (p : Port) (tag : Tag) (g : Granule) : Statement (.readShare p tag g) :=
  tag_iff tag

theorem readOwn (p : Port) (tag : Tag) (g : Granule) : Statement (.readOwn p tag g) :=
  tag_iff tag

theorem promote (p : Port) (tag : Tag) (g : Granule) : Statement (.promote p tag g) :=
  tag_iff tag

theorem peek (p : Port) (tag : Tag) (g : Granule) : Statement (.peek p tag g) :=
  tag_iff tag

theorem poke (p : Port) (tag : Tag) (g : Granule) (data : GranuleData) (mask : Mask) : Statement (.poke p tag g data mask) :=
  tag_iff tag

theorem atomic (p : Port) (tag : Tag) (g : Granule) (block : AtomicBlock) : Statement (.atomic p tag g block) :=
  tag_iff tag

theorem returnDirty (p : Port) (tag : Tag) (g : Granule) (data : GranuleData) : Statement (.returnDirty p tag g data) :=
  tag_iff tag

theorem release (p : Port) (tag : Tag) (g : Granule) : Statement (.release p tag g) :=
  tag_iff tag

theorem yield (p : Port) (tag : Tag) (g : Granule) (recallId : Byte) (outcome : YieldOutcome) : Statement (.yield p tag g recallId outcome) := rfl

theorem join (p : Port) (g : Granule) : Statement (.join p g) := rfl

theorem leave (p : Port) (g : Granule) : Statement (.leave p g) := rfl

theorem control (p : Port) (g : Granule) (block : ControlBlock) : Statement (.control p g block) := rfl

theorem malformedFrame (p : Port) (bytes : List Byte) : Statement (.malformedFrame p bytes) := by
  show (Frame.ofBytes bytes == .malformed) = true ↔ _
  rw [beq_iff_eq, ofBytes_malformed]

theorem readComplete : Statement .readComplete := rfl

theorem writeFullComplete : Statement .writeFullComplete := rfl

theorem writePartialComplete : Statement .writePartialComplete := rfl

theorem atomicRmwComplete : Statement .atomicRmwComplete := rfl

theorem poisonSetComplete : Statement .poisonSetComplete := rfl

theorem initComplete : Statement .initComplete := rfl

theorem recallDeadlineExpiry (slot : SlotId) : Statement (.recallDeadlineExpiry slot) := rfl

theorem fenceRequest (p : Port) : Statement (.fenceRequest p) := rfl

theorem departureDeadlineExpiry (p : Port) : Statement (.departureDeadlineExpiry p) := rfl

theorem walkVisit : Statement .walkVisit := rfl

theorem sweepReport : Statement .sweepReport := rfl

theorem clearReport : Statement .clearReport := rfl

theorem regRead (offset : BitVec 16) : Statement (.regRead offset) := rfl

theorem regWrite (offset : BitVec 16) (value : Word) : Statement (.regWrite offset value) := by
  show (registerWriteRow offset value == .regWrite offset value) = true ↔ _
  rw [beq_iff_eq, registerWriteRow_self]

theorem eventStatusWrite (value : Word) : Statement (.eventStatusWrite value) := rfl

theorem eventEnableWrite (value : Word) : Statement (.eventEnableWrite value) := rfl

theorem portControlWrite (p : Port) (value : Word) : Statement (.portControlWrite p value) := rfl

theorem admitModeWrite (value : Word) : Statement (.admitModeWrite value) := rfl

theorem recallLimitWrite (value : Word) : Statement (.recallLimitWrite value) := rfl

theorem departLimitWrite (value : Word) : Statement (.departLimitWrite value) := rfl

theorem correctedWrite (value : Word) : Statement (.correctedWrite value) := rfl

theorem uncorrectedWrite (value : Word) : Statement (.uncorrectedWrite value) := rfl

theorem firstFaultWrite (value : Word) : Statement (.firstFaultWrite value) := rfl

theorem protoErrorsWrite (p : Port) (value : Word) : Statement (.protoErrorsWrite p value) := rfl

theorem admitPort (port : Byte) : Statement (.admitPort port) := rfl

theorem ejectPort (port : Byte) : Statement (.ejectPort port) := rfl

theorem fencePort (port : Byte) : Statement (.fencePort port) := rfl

theorem releasePort (port : Byte) : Statement (.releasePort port) := rfl

theorem holdOn (port : Byte) : Statement (.holdOn port) := rfl

theorem holdOff (port : Byte) : Statement (.holdOff port) := rfl

theorem setWindow (index : Byte) (valid : Byte) (base limit : Granule) (rights : Byte) : Statement (.setWindow index valid base limit rights) := rfl

theorem hubClear : Statement .hubClear := rfl

theorem memPeek (g : Granule) : Statement (.memPeek g) := rfl

theorem memPoke (g : Granule) (data : GranuleData) (mask : Mask) : Statement (.memPoke g data mask) := rfl

theorem slotStatus : Statement .slotStatus := rfl

theorem dramBitsInError (g : Granule) (word : Fin 8) (bits : StoredBits) : Statement (.dramBitsInError g word bits) := by
  show (bits != 0) = true ↔ _
  rw [bne_iff_ne]

theorem incompleteSelection (bytes : List Byte) : Statement (.incompleteSelection bytes) := by
  show (serviceRequest bytes).isNone = true ↔ _
  rw [Option.isNone_iff_eq_none]
  cases bytes with
  | nil => simp [serviceRequest]
  | cons code a =>
    unfold serviceRequest
    cases h : argumentBytes code with
    | none => simp [h]
    | some n => simp [h]

theorem unknownServiceCommand (code : Byte) : Statement (.unknownServiceCommand code) := by
  show (argumentBytes code).isNone = true ↔ _
  rw [Option.isNone_iff_eq_none, argumentBytes_none]

end Sys2Proof.Laws.WellFormed
end

