-- ==== Sys2Proof/Laws/Reset.lean ====
section
/-! SUPPORT. The end of hub reset, part by part: the initializer's first offers, and one seated card. -/

namespace Sys2Proof.Machine

/-- The INIT operation of a granule. -/
def initOp (n : Nat) : MemOp := ⟨.init, BitVec.ofNat 23 n, .initializer⟩

/-- The initializer's offers that enter the queue. -/
theorem offerInits_enter (k n : Nat) : ∀ (s : State), s.mem.waiting = [] → s.mem.queue.length + k ≤ 16 →
    s.mem.nextInit + k ≤ s.mem.granuleCount →
    s.offerInits (k + n) = (s.setMem { s.mem with
      queue := s.mem.queue ++ (List.range' s.mem.nextInit k).map initOp
      nextInit := s.mem.nextInit + k }).offerInits n := by
  induction k with
  | zero => intro s _ _ _; simp [State.setMem]
  | succ k ih =>
    intro s hw hl hg
    rw [show k + 1 + n = (k + n) + 1 by omega]
    simp only [State.offerInits]
    rw [if_pos ⟨by omega, hw⟩]
    have ho : s.offer ⟨.init, BitVec.ofNat 23 s.mem.nextInit, .initializer⟩
        = s.setMem { s.mem with queue := s.mem.queue ++ [initOp s.mem.nextInit] } := by
      unfold State.offer
      rw [if_pos ⟨by show _ < 16; omega, hw⟩]; rfl
    rw [ho, ih]
    · simp only [State.setMem, List.range'_succ, List.map_cons, List.append_assoc, List.singleton_append]
      rw [Nat.add_right_comm, Nat.add_assoc]
    · exact hw
    · simp [State.setMem]; omega
    · simp [State.setMem]; omega

/-- The initializer's offers after hub reset: sixteen enter and one is pending. -/
theorem offerInits_reset (s : State) (hq : s.mem.queue = []) (hw : s.mem.waiting = []) (hn : s.mem.nextInit = 0)
    (hg : 17 ≤ s.mem.granuleCount) :
    s.offerInits 17 = s.setMem { s.mem with
      queue := (List.range 16).map initOp, waiting := [initOp 16], nextInit := 17 } := by
  rw [offerInits_enter 16 1 s hw (by simp [hq]) (by omega)]
  simp only [State.offerInits]
  rw [if_pos ⟨by simp [State.setMem]; omega, by simpa [State.setMem] using hw⟩]
  unfold State.offer
  rw [if_neg (by simp [State.setMem, hq, Config.memoryQueueCapacity])]
  simp [State.setMem, hq, hw, hn, initOp, List.range_eq_range']

/-- A card found in an EMPTY port as hub reset ends. -/
theorem presence_empty (s : State) (p : Port) (h1 : s.portState p = .empty) (h2 : (s.ctl.ports.get p).present = false)
    (h3 : (s.ctl.ports.get p).holdFlag = false) :
    State.presence p true s =
      { s with
        ctl :=
          { s.ctl with
            ports := s.ctl.ports.set p
              { s.ctl.ports.get p with
                present := true
                state :=
                  if (s.ctl.ports.get p).latchClosed = false then .parked
                  else if s.ctl.admitMode = .managed then .held else .joinable } }
        svc :=
          { s.svc with
            eventStatus := s.svc.eventStatus |||
              (if (s.ctl.ports.get p).latchClosed = true ∧ s.ctl.admitMode = .managed then 2 else 0) ||| 1 } } := by
  unfold State.portState at h1
  unfold State.presence
  rw [if_neg (by simp [h2])]
  dsimp only
  have : (s.modifyPort p fun r => { r with present := true }).portState p = .empty := by
    unfold State.portState; simp [h1]
  rw [this]
  dsimp only
  unfold State.placeCard State.admission State.raise latchEventBit
  cases hl : (s.ctl.ports.get p).latchClosed <;> cases hm : s.ctl.admitMode <;>
    simp [State.modifyPort, State.setPort, State.movePort, hl, hm, h3, Event.bit]

end Sys2Proof.Machine
end

