-- ==== Sys2Proof/Laws/Settle.lean ====
section
/-! SUPPORT. The tests of R141 and R147 (`settle`): they do nothing where no port may leave, and they leave no port that
may leave. -/

namespace Sys2Proof.Machine

variable {s t u : State}

/-! ### Where no port may leave -/

theorem settle_of_settled (h : s.settled) : s.settle = s := by
  have hf : Port.all.filter s.mayLeave = [] := List.filter_eq_nil_iff.2 fun p _ => by simp [h p]
  unfold State.settle
  simp only [State.settleRounds, hf]

/-! ### Slots that are freed, and none taken -/

/-- From `s` to `t` no FREE member slot is taken, and no member slot comes to be DRAINING. -/
def Sparer (s t : State) : Prop := ∀ i p, slotPort i = some p →
  (s.txn i = none → t.txn i = none)
    ∧ ∀ x, t.txn i = some x → x.phase = .draining → ∃ y, s.txn i = some y ∧ y.phase = .draining

theorem Sparer.refl (s : State) : Sparer s s := fun _ _ _ => ⟨id, fun x h hd => ⟨x, h, hd⟩⟩

theorem Sparer.trans (h : Sparer s t) (k : Sparer t u) : Sparer s u := fun i p hp =>
  ⟨fun hs => (k i p hp).1 ((h i p hp).1 hs), fun x hx hd => by
    obtain ⟨y, hy, hyd⟩ := (k i p hp).2 x hx hd
    exact (h i p hp).2 y hy hyd⟩

theorem Sparer.of_eq (h : ∀ i, t.txn i = s.txn i) : Sparer s t := fun i _ _ => by rw [h i]; exact Sparer.refl s i _ ‹_›

theorem Move.sparer {K : Granule → Prop} (m : Move K False s t) : Sparer s t := by
  cases m with
  | txn i x hx =>
    intro j p hp
    unfold State.txn
    simp only [setTxn_slots]
    by_cases hij : j = i
    · subst hij
      have : (s.table.slots.set j.val x j.isLt).get j = x := by simp [Vector.get_eq_getElem]
      rw [this]
      constructor
      · intro hs
        cases x with
        | none => rfl
        | some y =>
          rcases (hx y rfl).2 with h | h | ⟨z, hz, _⟩
          · exact h.elim
          · rw [h] at hp; cases hp
          · rw [State.txn, hs] at hz; cases hz
      · intro y hy hd
        rcases (hx y hy).2 with h | h | ⟨z, hz, hzd⟩
        · exact h.elim
        · rw [h] at hp; cases hp
        · exact ⟨z, hz, hzd hd⟩
    · have : (s.table.slots.set i.val x i.isLt).get j = s.table.slots.get j := by
        simp only [Vector.get_eq_getElem]
        exact Vector.getElem_set_ne _ _ (fun h => hij (Fin.ext h.symm))
      rw [this]
      exact ⟨id, fun y hy hd => ⟨y, hy, hd⟩⟩
  | send p f => exact .of_eq fun i => send_txn s p f i
  | offer op => exact .of_eq fun i => offer_txn s op i
  | alloc g i => refine .of_eq fun j => ?_; unfold State.allocateEntry; dsimp only; split <;> rfl
  | replace v g i => 
    refine .of_eq fun j => ?_
    unfold State.replaceVictim
    dsimp only
    split
    · split <;> rfl
    · rfl
  | _ => exact .of_eq fun _ => rfl

theorem Moves.sparer {K : Granule → Prop} (m : Moves K False s t) : Sparer s t := by
  induction m with
  | refl => exact .refl _
  | tail _ m ih => exact ih.trans m.sparer

theorem Sparer.occupied (h : Sparer s t) {p : Port} (hs : s.occupied p = 0) : t.occupied p = 0 := by
  unfold State.occupied at *
  rw [List.countP_eq_zero] at *
  intro i hi
  have hp : slotPort i = some p := by
    have := (List.mem_filter.1 hi).2
    simpa using this
  have := hs i hi
  simp only [Bool.not_eq_true, Option.isSome_eq_false_iff, Option.isNone_iff_eq_none] at *
  exact (h i p hp).1 this

theorem Sparer.draining (h : Sparer s t) {p : Port} (hs : s.draining p = false) : t.draining p = false := by
  unfold State.draining at *
  rw [List.any_eq_false] at *
  intro i hi hc
  have hp : slotPort i = some p := by
    have := (List.mem_filter.1 hi).2
    simpa using this
  rw [Option.any_eq_true] at hc
  obtain ⟨x, hx, hd⟩ := hc
  obtain ⟨y, hy, hyd⟩ := (h i p hp).2 x hx (by simpa using hd)
  exact hs i hi (by simp [hy, hyd])

/-- A port that may leave still may when its record is the same and no slot was taken. -/
theorem Sparer.mayLeave (h : Sparer s t) {p : Port} (hp : t.ctl.ports.get p = s.ctl.ports.get p)
    (hs : s.mayLeave p = true) : t.mayLeave p = true := by
  unfold State.mayLeave State.portState at *
  rw [hp]
  simp only [Bool.or_eq_true, Bool.and_eq_true, beq_iff_eq, Bool.not_eq_true'] at *
  rcases hs with ⟨h1, h2⟩ | ⟨h1, h2⟩
  · exact .inl ⟨h1, h.occupied h2⟩
  · exact .inr ⟨h1, h.draining h2⟩

/-! ### One port leaves -/

/-- What one port's test does: its own record changes, no other port's does, and no slot is taken. -/
theorem leaveIfReady_spec (s : State) (p : Port) :
    Sparer s (State.leaveIfReady p s)
      ∧ (∀ q, q ≠ p → (State.leaveIfReady p s).ctl.ports.get q = s.ctl.ports.get q)
      ∧ (s.mayLeave p = true → (State.leaveIfReady p s).portState p ≠ .departing
        ∧ (State.leaveIfReady p s).portState p ≠ .fencing) := by
  have inside : ∀ s : State, Inside (fun _ => True) s := fun s => inside_of_all fun _ => trivial
  unfold State.leaveIfReady
  split
  · split
    · unfold State.passToParked
      dsimp only
      set a := s.modifyPort p fun r =>
        { r with state := .parked, deadline := none, leaveAsked := false, sweepFinished := false, joinedEpoch := none }
        with ha
      have m1 : Moves (fun _ => True) False a.bumpEpoch
          (a.bumpEpoch.inFreeOrder ((a.bumpEpoch.awaiting p).map (State.resolveAbsent p false))) :=
        inFreeOrder_moves (fun f hf x hx => by
          obtain ⟨i, _, rfl⟩ := List.mem_map.1 hf
          exact resolveAbsent_moves hx p false i) (inside _)
      set b := a.bumpEpoch.inFreeOrder ((a.bumpEpoch.awaiting p).map (State.resolveAbsent p false)) with hb
      have m2 : Moves (fun _ => True) False b (b.sendNotice b.activePorts (.memberDown p none)) :=
        sendNotice_moves _ _ (inside _)
      have q := (m1.trans m2).quiet.ctl
      set c := b.sendNotice b.activePorts (.memberDown p none) with hc
      have hctl : (c.raise .parked).ctl = a.bumpEpoch.ctl := q
      refine ⟨?_, ?_, ?_⟩
      · have h1 : Sparer s a.bumpEpoch := .of_eq fun _ => rfl
        exact (h1.trans (m1.trans m2).sparer).trans (.of_eq fun _ => rfl)
      · intro q hq
        rw [hctl]
        exact PerPort.get_set_other _ _ hq
      · intro _
        unfold State.portState
        rw [hctl]
        simp [ha, State.bumpEpoch]
    · unfold State.exitFencing
      dsimp only
      set a := s.modifyPort p fun r =>
        { r with state := if r.present then .fenced else .empty, sweepFinished := false, joinedEpoch := none } with ha
      have m2 := sendNotice_moves (K := fun _ => True) (A := False) a.bumpEpoch.activePorts
        (.memberDown p (a.bumpEpoch.ctl.ports.get p).fenceReason) (inside a.bumpEpoch)
      have hctl := m2.quiet.ctl
      refine ⟨?_, ?_, ?_⟩
      · have h1 : Sparer s a.bumpEpoch := .of_eq fun _ => rfl
        exact (h1.trans m2.sparer).trans (.of_eq fun _ => rfl)
      · intro q hq
        show (State.ctl (State.sendNotice _ _ _)).ports.get q = _
        rw [hctl]
        exact PerPort.get_set_other _ _ hq
      · intro _
        unfold State.portState
        show (State.ctl (State.sendNotice _ _ _) |>.ports.get p).state ≠ _ ∧ (State.ctl (State.sendNotice _ _ _) |>.ports.get p).state ≠ _
        rw [hctl]
        simp only [ha, State.bumpEpoch, modifyPort_ports, PerPort.get_set_same]
        cases (s.ctl.ports.get p).present <;> simp
  · rename_i h
    exact ⟨.refl _, fun _ _ => rfl, fun hm => absurd hm h⟩

/-! ### One round -/

theorem freeOrder_map {α β : Type} (f : α → β) (n c : Nat) (l : List α) :
    Config.freeOrder n c (l.map f) = (Config.freeOrder n c l).map f := by
  induction n generalizing c l with
  | zero => rfl
  | succ n ih =>
    match l with
    | [] => rfl
    | [x] => rfl
    | x :: y :: xs =>
      simp only [Config.freeOrder, List.map_cons, List.length_map]
      have : (f x :: f y :: xs.map f) = (x :: y :: xs).map f := rfl
      rw [this, List.getElem?_map]
      cases (x :: y :: xs)[Config.pick c % (xs.length + 2)]? with
      | none => rfl
      | some z =>
        simp only [Option.map_some, List.map_cons]
        rw [← ih]
        congr 2
        show ((x :: y :: xs).map f).eraseIdx _ = _
        rw [List.eraseIdx_map]

/-- Parties in an open order are the parties in some order. -/
theorem inFreeOrder_map {α : Type} (f : α → State → State) (l : List α) :
    ∃ (n : Nat) (l' : List α), l'.Perm l ∧ s.inFreeOrder (l.map f) = l'.foldl (fun s a => f a s) { s with freeDraws := n } := by
  match l with
  | [] => exact ⟨s.freeDraws, [], .refl _, rfl⟩
  | [a] => exact ⟨s.freeDraws, [a], .refl _, rfl⟩
  | a :: b :: l =>
    refine ⟨s.freeDraws + (a :: b :: l).length, _, freeOrder_perm (a :: b :: l).length s.freeDraws _, ?_⟩
    rw [← List.foldl_map (f := f) (g := fun s g => g s), ← freeOrder_map]
    simp [State.inFreeOrder]

/-- The ports of a round, each of which may leave, have left after it, and no other record has changed. -/
theorem round_spec (l : List Port) : ∀ (s : State), l.Nodup → (∀ p ∈ l, s.mayLeave p = true) →
    (∀ p ∈ l, (l.foldl (fun s p => State.leaveIfReady p s) s).portState p ≠ .departing
        ∧ (l.foldl (fun s p => State.leaveIfReady p s) s).portState p ≠ .fencing)
      ∧ ∀ q, q ∉ l → (l.foldl (fun s p => State.leaveIfReady p s) s).ctl.ports.get q = s.ctl.ports.get q := by
  induction l with
  | nil => intro s _ _; exact ⟨fun p hp => by simp at hp, fun _ _ => rfl⟩
  | cons a l ih =>
    intro s hn hl
    obtain ⟨h1, h2, h3⟩ := leaveIfReady_spec s a
    have hn' := List.nodup_cons.1 hn
    have key := ih (State.leaveIfReady a s) hn'.2 fun p hp =>
      h1.mayLeave (h2 p (fun h => hn'.1 (h ▸ hp))) (hl p (List.mem_cons_of_mem _ hp))
    rw [List.foldl_cons]
    constructor
    · intro p hp
      rcases List.mem_cons.1 hp with rfl | hp
      · have := key.2 p hn'.1
        unfold State.portState
        rw [this]
        exact h3 (hl p (by simp))
      · exact key.1 p hp
    · intro q hq
      rw [key.2 q (fun h => hq (List.mem_cons_of_mem _ h))]
      exact h2 q (fun h => hq (by simp [h]))

/-- The ports in DEPARTING or FENCING. -/
def State.leaving (s : State) : List Port :=
  Port.all.filter fun p => s.portState p == .departing || s.portState p == .fencing

theorem mem_leaving {p : Port} : p ∈ s.leaving ↔ s.portState p = .departing ∨ s.portState p = .fencing := by
  unfold State.leaving
  simp

theorem mayLeave_leaving {p : Port} (h : s.mayLeave p = true) : p ∈ s.leaving := by
  rw [mem_leaving]
  unfold State.mayLeave at h
  simp only [Bool.or_eq_true, Bool.and_eq_true, beq_iff_eq] at h
  rcases h with h | h
  · exact .inl h.1.1
  · exact .inr h.1.1

theorem settleRounds_settled (n : Nat) : ∀ (s : State), s.leaving.length ≤ n → (s.settleRounds n).settled := by
  induction n with
  | zero =>
    intro s hl p
    simp only [State.settleRounds]
    by_contra hc
    have := mayLeave_leaving (s := s) (p := p) (by simpa using hc)
    rw [List.eq_nil_of_length_eq_zero (Nat.le_zero.1 hl)] at this
    simp at this
  | succ n ih =>
    intro s hl
    simp only [State.settleRounds]
    cases hr : Port.all.filter s.mayLeave with
    | nil =>
      intro p
      have := List.filter_eq_nil_iff.1 hr p (by simp)
      simpa using this
    | cons p ps =>
      dsimp only
      obtain ⟨d, l', hp, he⟩ := inFreeOrder_map (s := s) State.leaveIfReady (p :: ps)
      rw [he]
      have hmem : ∀ q, q ∈ l' ↔ s.mayLeave q = true := fun q => by
        rw [hp.mem_iff, ← hr]; simp
      have hnd : l'.Nodup := hp.nodup_iff.2 (hr ▸ List.Nodup.filter _ (by decide))
      have key := round_spec l' { s with freeDraws := d } hnd fun q hq => (hmem q).1 hq
      refine ih _ ?_
      generalize l'.foldl (fun s a => State.leaveIfReady a s) { s with freeDraws := d } = x at key
      have hsub : ∀ q, q ∈ x.leaving → q ∈ s.leaving ∧ q ≠ p := by
        intro q hq
        have hq' := mem_leaving.1 hq
        have hnl : q ∉ l' := fun h => by
          have := key.1 q h
          rcases hq' with h' | h'
          · exact this.1 h'
          · exact this.2 h'
        have hp' := key.2 q hnl
        constructor
        · rw [mem_leaving]
          unfold State.portState at hq' ⊢
          rw [hp'] at hq'
          exact hq'
        · rintro rfl
          exact hnl (hp.mem_iff.2 (by simp))
      have hlt : x.leaving.length < s.leaving.length := by
        have hps : p ∈ s.leaving := mayLeave_leaving ((hmem p).1 (hp.mem_iff.2 (by simp)))
        have hx : x.leaving.Nodup := List.Nodup.filter _ (by decide)
        have : (p :: x.leaving).Subperm s.leaving := by
          refine List.subperm_of_subset (List.nodup_cons.2 ⟨fun h => (hsub p h).2 rfl, hx⟩) ?_
          intro q hq
          rcases List.mem_cons.1 hq with rfl | hq
          · exact hps
          · exact (hsub q hq).1
        have := this.length_le
        simp at this
        omega
      omega

/-- After the tests no port may leave: the first argument of the rounds is enough. -/
theorem settle_settled (s : State) : s.settle.settled := by
  refine settleRounds_settled 4 s ?_
  unfold State.leaving
  exact le_trans (List.length_filter_le _ _) (by decide)

end Sys2Proof.Machine
end

