-- ==== Sys2Proof/Laws/TableLaw.lean ====
section
/-! SUPPORT. The law of slots, chains, locks and the result record under each kind of change, said over the four of them
as functions: the steps from which the operations of the transaction table are put together. -/

namespace Sys2Proof.Machine

variable {o b : Granule → Prop} {slot slot' : SlotId → Option Txn} {chain chain' : Granule → List SlotId}
  {lock lock' : Granule → Option Lock} {res res' : SlotResult} {i : SlotId} {g : Granule} {x y : Txn}

/-- What the law reads of a slot record. -/
def Txn.core (x : Txn) : Phase × TxnKind × Granule × Option Granule := (x.phase, x.kind, x.granule, x.victim)

theorem core_eq {x y : Txn} (h : y.core = x.core) :
    y.phase = x.phase ∧ y.kind = x.kind ∧ y.granule = x.granule ∧ y.victim = x.victim := by
  simpa [Txn.core] using h

theorem seatedIn_of_core (h : y.core = x.core) (hx : x.seatedIn i) : y.seatedIn i := by
  obtain ⟨h1, h2, -, h4⟩ := core_eq h
  unfold Txn.seatedIn at *
  rw [h1, h2, h4]
  exact hx

theorem underWay_of_core (h : y.core = x.core) : y.underWay = x.underWay := by
  obtain ⟨-, h2, h3, -⟩ := core_eq h
  unfold Txn.underWay
  rw [h2, h3]

/-- The record `y` is like `x` in everything that the law reads of slot `i`. -/
structure Txn.Like (y x : Txn) (i : SlotId) : Prop where
  phase : y.phase = x.phase
  granule : y.granule = x.granule
  victim : y.victim = x.victim
  seated : x.seatedIn i → y.seatedIn i
  kind : x.phase = .evicting → y.kind = x.kind
  underWay : i = serviceSlot → y.underWay = x.underWay

theorem like_of_core (h : y.core = x.core) (i : SlotId) : y.Like x i :=
  ⟨(core_eq h).1, (core_eq h).2.2.1, (core_eq h).2.2.2, seatedIn_of_core h, fun _ => (core_eq h).2.1,
    fun _ => underWay_of_core h⟩

/-- The law stands where every slot has a like record, and where an entry that is not locked has gone. -/
theorem TableLaw.of_like (h : TableLaw b slot chain lock res)
    (hs : ∀ j, slot j = none ∧ slot' j = none ∨ ∃ x y, slot j = some x ∧ slot' j = some y ∧ y.Like x j)
    (hl : ∀ k, lock' k = lock k ∨ lock k = some .none ∧ lock' k = none) : TableLaw b slot' chain lock' res := by
  have back : ∀ {j y}, slot' j = some y → ∃ x, slot j = some x ∧ y.Like x j := fun {j y} hy => by
    rcases hs j with ⟨-, hn⟩ | ⟨x, z, hx, hz, he⟩
    · rw [hn] at hy; cases hy
    · rw [hz] at hy; cases hy; exact ⟨x, hx, he⟩
  have forth : ∀ {j x}, slot j = some x → ∃ y, slot' j = some y ∧ y.Like x j := fun {j x} hx => by
    rcases hs j with ⟨hn, -⟩ | ⟨w, z, hw, hz, he⟩
    · rw [hn] at hx; cases hx
    · rw [hw] at hx; cases hx; exact ⟨z, hz, he⟩
  have lk : ∀ {k l}, lock' k = some l → lock k = some l := fun {k l} hk => by
    rcases hl k with he | ⟨-, he⟩
    · rw [← he, hk]
    · rw [hk] at he; cases he
  have lk' : ∀ {k l}, lock k = some l → l ≠ .none → lock' k = some l := fun {k l} hk hn => by
    rcases hl k with he | ⟨he, -⟩
    · rw [he, hk]
    · rw [hk] at he; exact absurd (Option.some.inj he) hn
  have lkn : ∀ {k}, lock k = none → lock' k = none := fun {k} hk => by
    rcases hl k with he | ⟨-, he⟩
    · rw [he, hk]
    · exact he
  refine ⟨h.nodup, fun k j hj => ?_, fun k j rest hc => ⟨fun ho => ?_, fun c hc' => ?_⟩, fun j y hy hp => ?_,
    fun j y hy => ?_, fun k j hk => ?_, fun j y l hy hp hk => ?_, fun k j hk => ?_, fun j y hy hp => ?_,
    ⟨fun y hy => ?_, fun hn => ?_⟩, fun k hk => ⟨fun j hj => ?_, fun l hl => (h.opened k hk).2 l (lk hl)⟩⟩
  · obtain ⟨x, hx, hg, hp⟩ := h.inChain k j hj
    obtain ⟨y, hy, he⟩ := forth hx
    exact ⟨y, hy, he.granule.trans hg, by rwa [he.phase]⟩
  · obtain ⟨x, hx, hp⟩ := (h.head k j rest hc).1 ho
    obtain ⟨y, hy, he⟩ := forth hx
    exact ⟨y, hy, by rw [he.phase]; exact hp⟩
  · obtain ⟨x, hx, hp⟩ := (h.head k j rest hc).2 c hc'
    obtain ⟨y, hy, he⟩ := forth hx
    exact ⟨y, hy, by rw [he.phase]; exact hp⟩
  · obtain ⟨x, hx, he⟩ := back hy
    rw [he.granule]
    exact h.placed j x hx (by rwa [← he.phase])
  · obtain ⟨x, hx, he⟩ := back hy
    exact he.seated (h.seated j x hx)
  · obtain ⟨x, hx, hg, hp⟩ := h.busy k j (lk hk)
    obtain ⟨y, hy, he⟩ := forth hx
    exact ⟨y, hy, he.granule.trans hg, by rwa [he.phase]⟩
  · obtain ⟨x, hx, he⟩ := back hy
    exact h.locked j x l hx (by rwa [← he.phase]) (lk (by rwa [← he.granule]))
  · obtain ⟨x, hx, hp, hv⟩ := h.evicting k j (lk hk)
    obtain ⟨y, hy, he⟩ := forth hx
    exact ⟨y, hy, he.phase.trans hp, he.victim.trans hv⟩
  · obtain ⟨x, hx, he⟩ := back hy
    rw [he.phase] at hp
    obtain ⟨a, e, v, c, d, f⟩ := h.evicts j x hx hp
    rw [he.kind hp, he.granule, he.victim]
    exact ⟨lkn a, e, v, c, d, lk' f nofun⟩
  · obtain ⟨x, hx, he⟩ := back hy
    rw [he.underWay rfl]
    exact h.result.1 x hx
  · refine h.result.2 ?_
    cases hx : slot serviceSlot with
    | none => rfl
    | some x =>
      obtain ⟨y, hy, -⟩ := forth hx
      rw [hn] at hy
      cases hy
  · obtain ⟨x, hx, hp⟩ := (h.opened k hk).1 j hj
    obtain ⟨y, hy, he⟩ := forth hx
    exact ⟨y, hy, by rw [he.phase]; exact hp⟩

/-- The law reads no more of the slots than their cores, and an entry that is not locked may go. -/
theorem TableLaw.of_cores (h : TableLaw b slot chain lock res) (hs : ∀ j, (slot' j).map Txn.core = (slot j).map Txn.core)
    (hl : ∀ k, lock' k = lock k ∨ lock k = some .none ∧ lock' k = none) : TableLaw b slot' chain lock' res := by
  refine h.of_like (fun j => ?_) hl
  have := hs j
  cases hx : slot j with
  | none =>
    rw [hx] at this
    cases hy : slot' j with
    | none => exact .inl ⟨rfl, rfl⟩
    | some y => rw [hy] at this; cases this
  | some x =>
    rw [hx] at this
    cases hy : slot' j with
    | none => rw [hy] at this; cases this
    | some y => rw [hy] at this; exact .inr ⟨x, y, rfl, rfl, like_of_core (Option.some.inj this) j⟩

/-- The granules between two heads may be named in another way. -/
theorem TableLaw.congr (h : TableLaw b slot chain lock res) (ho : ∀ k, o k ↔ b k) : TableLaw o slot chain lock res := by
  rwa [show o = b from funext fun k => propext (ho k)]

/-! ### What the law says of one slot -/

theorem TableLaw.granule_of_mem (h : TableLaw b slot chain lock res) (hi : i ∈ chain g) (hx : slot i = some x) :
    x.granule = g := by
  obtain ⟨y, hy, hg, -⟩ := h.inChain g i hi
  rw [hx] at hy
  cases hy
  exact hg

/-- An active slot is the head of its chain. -/
theorem TableLaw.isHead (h : TableLaw b slot chain lock res) (hx : slot i = some x) (ha : x.phase.active = true) :
    ∃ rest, chain x.granule = i :: rest ∧ i ∉ rest := by
  have hm := h.placed i x hx (.inl ha)
  have hd := h.nodup x.granule
  cases hc : chain x.granule with
  | nil => rw [hc] at hm; cases hm
  | cons j rest =>
    rw [hc] at hm hd
    rcases List.mem_cons.1 hm with rfl | hm
    · exact ⟨rest, rfl, (List.nodup_cons.1 hd).1⟩
    · obtain ⟨z, hz, hw⟩ := (h.head _ j rest hc).2 i hm
      rw [hx] at hz
      cases hz
      rw [hw] at ha
      cases ha

/-- A slot that is FREE stands in no chain. -/
theorem TableLaw.not_mem_of_free (h : TableLaw b slot chain lock res) (hx : slot i = none) : i ∉ chain g := fun hi => by
  obtain ⟨x, hy, -⟩ := h.inChain g i hi
  rw [hx] at hy
  cases hy

theorem TableLaw.not_mem_other (h : TableLaw b slot chain lock res) (hx : slot i = some x) {k : Granule}
    (hk : k ≠ x.granule) : i ∉ chain k := fun hi => hk (h.granule_of_mem hi hx).symm

/-- A granule without chain has no lock but an evicting one. -/
theorem TableLaw.unlocked_of_nil (h : TableLaw b slot chain lock res) (hc : chain g = [])
    (he : ∀ j, lock g ≠ some (.evicting j)) : ∀ l, lock g = some l → l = .none := by
  intro l hl
  cases l with
  | none => rfl
  | busy j =>
    obtain ⟨x, hx, hg, hp⟩ := h.busy g j hl
    have := h.placed j x hx (.inl (by rcases hp with hp | hp <;> rw [hp] <;> rfl))
    rw [hg, hc] at this
    cases this
  | evicting j => exact absurd hl (he j)

/-- A chain with an active head on a granule that is being evicted cannot be: its entry would be locked busy. -/
theorem TableLaw.nil_of_evicting (h : TableLaw b slot chain lock res) {j : SlotId}
    (hl : lock g = some (.evicting j)) : chain g = [] := by
  have hb : ¬b g := fun hb => Lock.noConfusion ((h.opened g hb).2 _ hl)
  cases hc : chain g with
  | nil => rfl
  | cons i rest =>
    obtain ⟨x, hx, ha⟩ := (h.head g i rest hc).1 hb
    have hg : x.granule = g := h.granule_of_mem (by rw [hc]; exact List.mem_cons_self ..) hx
    cases hp : x.phase with
    | evicting =>
      have := (h.evicts i x hx hp).1
      rw [hg, hl] at this
      cases this
    | recalling =>
      have := h.locked i x _ hx (.inl hp) (hg ▸ hl)
      cases this
    | memory =>
      have := h.locked i x _ hx (.inr hp) (hg ▸ hl)
      cases this
    | waiting => rw [hp] at ha; cases ha
    | bypass => rw [hp] at ha; cases ha
    | draining => rw [hp] at ha; cases ha

/-! ### The steps -/

/-- A granule with an empty chain need not be named as between two heads. -/
theorem TableLaw.close (h : TableLaw b slot chain lock res) (hc : chain g = []) :
    TableLaw (fun k => b k ∧ k ≠ g) slot chain lock res :=
  { h with
    head := fun k j rest hk => ⟨fun ho => (h.head k j rest hk).1 (fun hb => ho ⟨hb, by
      rintro rfl
      rw [hc] at hk
      cases hk⟩), (h.head k j rest hk).2⟩
    opened := fun k hk => h.opened k hk.1 }

/-- The active head of a chain leaves it, FREE or DRAINING, and its lock is released. -/
theorem TableLaw.leave (h : TableLaw b slot chain lock res) (hx : slot i = some x) (ha : x.phase.active = true)
    {z : Option Txn} (hz : ∀ y, z = some y → y.phase = .draining ∧ y.kind = x.kind ∧ y.victim = none ∧ i.val < 48)
    (hs : ∀ j, slot' j = if j = i then z else slot j)
    (hc : ∀ k, chain' k = if k = x.granule then (chain k).erase i else chain k)
    (hl : ∀ k, lock' k = lock k ∧ lock k ≠ some (.busy i) ∧ lock k ≠ some (.evicting i)
      ∨ (lock' k = none ∨ lock' k = some .none)
        ∧ (lock k = some (.busy i) ∨ lock k = some (.evicting i) ∨ lock k = some .none))
    (hr : i ≠ serviceSlot → res' = res) (hr' : i = serviceSlot → ∀ c g, res' ≠ .pending c g) :
    TableLaw (fun k => b k ∨ k = x.granule) slot' chain' lock' res' := by
  obtain ⟨rest, hrest, hni⟩ := h.isHead hx ha
  have herase : (chain x.granule).erase i = rest := by rw [hrest]; exact List.erase_cons_head ..
  have hwait := (h.head _ _ _ hrest).2
  have hc' : chain' x.granule = rest := by rw [hc, if_pos rfl, herase]
  have other : ∀ {k j}, j ∈ chain' k → j ≠ i ∧ j ∈ chain k := fun {k j} hj => by
    rw [hc] at hj
    split at hj
    · rename_i hk
      subst hk
      rw [herase] at hj
      refine ⟨?_, by rw [hrest]; exact List.mem_cons_of_mem _ hj⟩
      rintro rfl
      exact hni hj
    · rename_i hk
      refine ⟨?_, hj⟩
      rintro rfl
      exact h.not_mem_other hx hk hj
  have keep : ∀ {j}, j ≠ i → slot' j = slot j := fun {j} hj => by rw [hs, if_neg hj]
  have isz : ∀ {j y}, slot' j = some y → (y.phase.active = true ∨ y.phase = .waiting) → j ≠ i ∧ slot j = some y :=
    fun {j y} hy hp => by
      rw [hs] at hy
      split at hy
      · have := (hz y hy).1
        rw [this] at hp
        rcases hp with hp | hp <;> cases hp
      · exact ⟨‹_›, hy⟩
  have lk : ∀ {k l}, lock' k = some l → l ≠ .none → lock k = some l ∧ l ≠ .busy i ∧ l ≠ .evicting i :=
    fun {k l} hk hn => by
      rcases hl k with ⟨he, h1, h2⟩ | ⟨he | he, -⟩
      · rw [hk] at he
        rw [← he] at h1 h2
        exact ⟨he.symm, fun e => h1 (by rw [e]), fun e => h2 (by rw [e])⟩
      · rw [hk] at he; cases he
      · rw [hk] at he; exact absurd (Option.some.inj he) hn
  have lk' : ∀ {k j}, j ≠ i → lock k = some (.evicting j) → lock' k = some (.evicting j) := fun {k j} hj hk => by
    rcases hl k with ⟨he, -⟩ | ⟨-, he | he | he⟩
    · rw [he, hk]
    · rw [hk] at he; cases he
    · rw [hk] at he; injection he with he; injection he with he; exact absurd he hj
    · rw [hk] at he; cases he
  have lkn : ∀ {k}, lock k = none → lock' k = none := fun {k} hk => by
    rcases hl k with ⟨he, -⟩ | ⟨-, he | he | he⟩
    · rw [he, hk]
    all_goals rw [hk] at he; cases he
  refine ⟨fun k => ?_, fun k j hj => ?_, fun k j l hk => ⟨fun ho => ?_, fun b hb => ?_⟩, fun j y hy hp => ?_,
    fun j y hy => ?_, fun k j hk => ?_, fun j y l hy hp hk => ?_, fun k j hk => ?_, fun j y hy hp => ?_,
    ⟨fun y hy => ?_, fun hn => ?_⟩, fun k hk => ?_⟩
  · rw [hc]
    split
    · exact (h.nodup k).erase i
    · exact h.nodup k
  · obtain ⟨hji, hj⟩ := other hj
    obtain ⟨y, hy, hg, hp⟩ := h.inChain k j hj
    exact ⟨y, by rw [keep hji, hy], hg, hp⟩
  · have hkx : k ≠ x.granule := fun e => ho (.inr e)
    have hj : j ∈ chain' k := by rw [hk]; exact List.mem_cons_self ..
    have hji := (other hj).1
    rw [hc, if_neg hkx] at hk
    obtain ⟨y, hy, hp⟩ := (h.head k j l hk).1 fun hb => ho (.inl hb)
    exact ⟨y, by rw [keep hji, hy], hp⟩
  · have hb' : b ∈ chain' k := by rw [hk]; exact List.mem_cons_of_mem _ hb
    have hbi := (other hb').1
    by_cases hkx : k = x.granule
    · subst hkx
      rw [hc'] at hb'
      obtain ⟨y, hy, hp⟩ := hwait b hb'
      exact ⟨y, by rw [keep hbi, hy], hp⟩
    · rw [hc, if_neg hkx] at hk
      obtain ⟨y, hy, hp⟩ := (h.head k j l hk).2 b hb
      exact ⟨y, by rw [keep hbi, hy], hp⟩
  · obtain ⟨hji, hy⟩ := isz hy (hp.imp_right And.left)
    have := h.placed j y hy hp
    rw [hc]
    split
    · exact (List.mem_erase_of_ne hji).2 this
    · exact this
  · rw [hs] at hy
    split at hy
    · rename_i hji
      subst hji
      obtain ⟨hd, hk, hv, h48⟩ := hz y hy
      have hsx := h.seated j x hx
      unfold Txn.seatedIn at hsx ⊢
      rw [hd, hk]
      refine ⟨fun _ => h48, fun _ => hv, ?_⟩
      have := hsx.2.2
      revert this
      cases x.kind with
      | member r => exact fun h => ⟨h.1, fun hp => by rcases hp with hp | hp <;> cases hp⟩
      | _ => exact id
    · exact h.seated j y hy
  · obtain ⟨hk, hb, -⟩ := lk hk nofun
    obtain ⟨y, hy, hg, hp⟩ := h.busy k j hk
    exact ⟨y, by rw [keep fun e => hb (by rw [e]), hy], hg, hp⟩
  · obtain ⟨hji, hy⟩ := isz hy (.inl (by rcases hp with hp | hp <;> rw [hp] <;> rfl))
    rcases hl y.granule with ⟨he, -⟩ | ⟨-, he | he | he⟩
    · rw [hk] at he
      exact h.locked j y l hy hp he.symm
    · have := h.locked j y _ hy hp he
      injection this with this
      exact absurd this.symm hji
    · cases h.locked j y _ hy hp he
    · cases h.locked j y _ hy hp he
  · obtain ⟨hk, -, hb⟩ := lk hk nofun
    obtain ⟨y, hy, hp, hv⟩ := h.evicting k j hk
    exact ⟨y, by rw [keep fun e => hb (by rw [e]), hy], hp, hv⟩
  · obtain ⟨hji, hy⟩ := isz hy (.inl (by rw [hp]; rfl))
    obtain ⟨a, b, v, c, d, e⟩ := h.evicts j y hy hp
    exact ⟨lkn a, b, v, c, d, lk' hji e⟩
  · rw [hs] at hy
    split at hy
    · rename_i hi
      have := (hz y hy).2.2.2
      rw [← hi] at this
      exact absurd this (by decide)
    · rename_i hi
      rw [hr fun e => hi e.symm]
      exact h.result.1 y hy
  · by_cases hi : i = serviceSlot
    · exact hr' hi
    · rw [hs, if_neg fun e => hi e.symm] at hn
      rw [hr hi]
      exact h.result.2 hn
  · by_cases hkx : k = x.granule
    swap
    · have hb := hk.resolve_right hkx
      refine ⟨fun j hj => ?_, fun l hl' => ?_⟩
      · obtain ⟨hji, hj⟩ := other hj
        obtain ⟨y, hy, hp⟩ := (h.opened k hb).1 j hj
        exact ⟨y, by rw [keep hji, hy], hp⟩
      · by_contra hn
        exact hn ((h.opened k hb).2 l (lk hl' hn).1)
    subst hkx
    refine ⟨fun j hj => ?_, fun l hl' => ?_⟩
    · have hji := (other hj).1
      rw [hc'] at hj
      obtain ⟨y, hy, hp⟩ := hwait j hj
      exact ⟨y, by rw [keep hji, hy], hp⟩
    · by_contra hn
      obtain ⟨hk, hb, -⟩ := lk hl' hn
      cases hp : x.phase with
      | evicting =>
        have := (h.evicts i x hx hp).1
        rw [hk] at this
        cases this
      | recalling => exact hb (h.locked i x l hx (.inl hp) hk)
      | memory => exact hb (h.locked i x l hx (.inr hp) hk)
      | waiting => rw [hp] at ha; cases ha
      | bypass => rw [hp] at ha; cases ha
      | draining => rw [hp] at ha; cases ha

/-- The new head becomes active: with the busy lock of its granule's entry, if there is one; or evicting a victim for a
granule that has none. -/
theorem TableLaw.start (h : TableLaw b slot chain lock res) (hb : b g) {rest : List SlotId} (hg : chain g = i :: rest)
    (hx : slot i = some x) (hk : y.kind = x.kind) (hgr : y.granule = x.granule)
    (hs : ∀ j, slot' j = if j = i then some y else slot j)
    (hy : (y.phase = .recalling ∨ y.phase = .memory) ∧ y.victim = none
        ∧ (lock' g = none ∨ lock' g = some (.busy i)) ∧ (∀ k, k ≠ g → lock' k = lock k)
      ∨ y.phase = .evicting ∧ lock g = none ∧ x.kind.allocates = true
        ∧ ∃ v, y.victim = some v ∧ setOf v = setOf g ∧ lock v = some .none ∧ ¬b v
          ∧ ∀ k, lock' k = if k = v then some (.evicting i) else lock k) :
    TableLaw (fun k => b k ∧ k ≠ g) slot' chain lock' res := by
  have hi : i ∈ chain g := by rw [hg]; exact List.mem_cons_self ..
  have hxg : x.granule = g := h.granule_of_mem hi hx
  obtain ⟨x', hx', hwx⟩ := (h.opened g hb).1 i hi
  rw [hx] at hx'
  cases hx'
  have hact : y.phase.active = true := by
    rcases hy with ⟨hp | hp, -⟩ | ⟨hp, -⟩ <;> rw [hp] <;> rfl
  have hvict : y.phase ≠ .evicting → y.victim = none := fun hne => by
    rcases hy with ⟨-, hv, -⟩ | ⟨hp, -⟩
    · exact hv
    · exact absurd hp hne
  have keep : ∀ {j}, j ≠ i → slot' j = slot j := fun {j} hj => by rw [hs, if_neg hj]
  have self : slot' i = some y := by rw [hs, if_pos rfl]
  have nobody : ∀ k, lock k ≠ some (.busy i) ∧ lock k ≠ some (.evicting i) := fun k => by
    constructor
    · intro hk
      obtain ⟨z, hz, -, hp⟩ := h.busy k i hk
      rw [hx] at hz; cases hz
      rw [hwx] at hp
      rcases hp with hp | hp <;> cases hp
    · intro hk
      obtain ⟨z, hz, hp, -⟩ := h.evicting k i hk
      rw [hx] at hz; cases hz
      rw [hwx] at hp
      cases hp
  have gfree : ∀ j, lock g ≠ some (.busy j) ∧ lock g ≠ some (.evicting j) := fun j =>
    ⟨fun hk => Lock.noConfusion ((h.opened g hb).2 _ hk), fun hk => Lock.noConfusion ((h.opened g hb).2 _ hk)⟩
  have frest : ∀ {j z}, slot j = some z → z.phase = .recalling ∨ z.phase = .memory → z.granule ≠ g := by
    rintro j z hz hp rfl
    have ha : z.phase.active = true := by rcases hp with hp | hp <;> rw [hp] <;> rfl
    obtain ⟨w, hw, hww⟩ := (h.opened _ hb).1 j (h.placed j z hz (.inl ha))
    rw [hz] at hw; cases hw
    rw [hww] at ha
    cases ha
  have phase : ∀ {j z}, slot' j = some z → j = i ∧ z = y ∨ j ≠ i ∧ slot j = some z := fun {j z} hz => by
    rw [hs] at hz
    split at hz
    · exact .inl ⟨‹_›, (Option.some.inj hz).symm⟩
    · exact .inr ⟨‹_›, hz⟩
  refine ⟨h.nodup, fun k j hj => ?_, fun k j l hkc => ⟨fun ho => ?_, fun c hc => ?_⟩, fun j z hz hp => ?_,
    fun j z hz => ?_, fun k j hl => ?_, fun j z l hz hp hl => ?_, fun k j hl => ?_, fun j z hz hp => ?_,
    ⟨fun z hz => ?_, fun hn => ?_⟩, fun k hk => ?_⟩
  · by_cases hji : j = i
    · subst hji
      exact ⟨y, self, by rw [hgr, h.granule_of_mem hj hx], .inl hact⟩
    · obtain ⟨z, hz, a, b⟩ := h.inChain k j hj
      exact ⟨z, by rw [keep hji, hz], a, b⟩
  · by_cases hji : j = i
    · subst hji
      exact ⟨y, self, hact⟩
    · by_cases hkg : k = g
      · subst hkg
        rw [hg] at hkc
        injection hkc with h1 _
        exact absurd h1.symm hji
      · obtain ⟨z, hz, hp⟩ := (h.head k j l hkc).1 fun e => ho ⟨e, hkg⟩
        exact ⟨z, by rw [keep hji, hz], hp⟩
  · obtain ⟨z, hz, hp⟩ := (h.head k j l hkc).2 c hc
    refine ⟨z, ?_, hp⟩
    rw [keep, hz]
    rintro rfl
    have hkg : k = g := (h.granule_of_mem (by rw [hkc]; exact List.mem_cons_of_mem _ hc) hx).symm.trans hxg
    subst hkg
    have hnd := h.nodup k
    rw [hg] at hkc
    injection hkc with h1 h2
    subst h1 h2
    rw [hg] at hnd
    exact (List.nodup_cons.1 hnd).1 hc
  · rcases phase hz with ⟨rfl, rfl⟩ | ⟨-, hz⟩
    · rw [hgr, hxg]; exact hi
    · exact h.placed j z hz hp
  · rcases phase hz with ⟨rfl, rfl⟩ | ⟨-, hz⟩
    · have hsx := h.seated j x hx
      unfold Txn.seatedIn at hsx ⊢
      rw [hk]
      refine ⟨fun hp => ?_, hvict, ?_⟩
      · rcases hp with hp | hp <;> rw [hp] at hact <;> cases hact
      · have := hsx.2.2
        revert this
        cases x.kind with
        | member r => exact fun h => ⟨h.1, fun _ => h.2 (.inl hwx)⟩
        | _ => exact id
    · exact h.seated j z hz
  · by_cases hkg : k = g
    · subst hkg
      rcases hy with ⟨hp, -, hlg | hlg, -⟩ | ⟨-, hlg, -, v, -, -, hlv, -, hall⟩
      · rw [hl] at hlg; cases hlg
      · rw [hl] at hlg
        injection hlg with hlg
        injection hlg with hlg
        subst hlg
        exact ⟨y, self, by rw [hgr, hxg], hp⟩
      · rw [hall] at hl
        split at hl
        · cases hl
        · rw [hlg] at hl; cases hl
    · have hk' : lock k = some (.busy j) := by
        rcases hy with ⟨-, -, -, hall⟩ | ⟨-, -, -, v, -, -, -, -, hall⟩
        · rw [← hall k hkg]; exact hl
        · rw [hall] at hl
          split at hl
          · cases hl
          · exact hl
      obtain ⟨z, hz, a, b⟩ := h.busy k j hk'
      refine ⟨z, ?_, a, b⟩
      rw [keep, hz]
      rintro rfl
      exact (nobody k).1 hk'
  · rcases phase hz with ⟨rfl, rfl⟩ | ⟨hji, hz⟩
    · rw [hgr, hxg] at hl
      rcases hy with ⟨-, -, hlg | hlg, -⟩ | ⟨he, -⟩
      · rw [hl] at hlg; cases hlg
      · rw [hl] at hlg
        exact Option.some.inj hlg
      · rw [he] at hp
        rcases hp with hp | hp <;> cases hp
    · have hzg := frest hz hp
      rcases hy with ⟨-, -, -, hall⟩ | ⟨-, -, -, v, -, -, hlv, -, hall⟩
      · rw [hall _ hzg] at hl
        exact h.locked j z l hz hp hl
      · rw [hall] at hl
        split at hl
        · rename_i hzv
          cases h.locked j z _ hz hp (by rw [hzv]; exact hlv)
        · exact h.locked j z l hz hp hl
  · rcases hy with ⟨-, -, hlg, hall⟩ | ⟨he, hlg, -, v, hv, -, -, -, hall⟩
    · have hkg : k ≠ g := by
        rintro rfl
        rcases hlg with hlg | hlg <;> rw [hl] at hlg <;> cases hlg
      rw [hall k hkg] at hl
      obtain ⟨z, hz, a, b⟩ := h.evicting k j hl
      refine ⟨z, ?_, a, b⟩
      rw [keep, hz]
      rintro rfl
      exact (nobody k).2 hl
    · rw [hall] at hl
      split at hl
      · rename_i hkv
        injection hl with hl
        injection hl with hl
        subst hl
        exact ⟨y, self, he, by rw [hv, hkv]⟩
      · obtain ⟨z, hz, a, b⟩ := h.evicting k j hl
        refine ⟨z, ?_, a, b⟩
        rw [keep, hz]
        rintro rfl
        exact (nobody k).2 hl
  · rcases phase hz with ⟨rfl, rfl⟩ | ⟨hji, hz⟩
    · rcases hy with ⟨he | he, -⟩ | ⟨-, hlg, hal, v, hv, hsv, hlv, -, hall⟩
      · rw [hp] at he; cases he
      · rw [hp] at he; cases he
      · rw [hgr, hxg, hk]
        refine ⟨?_, hal, v, hv, hsv, by rw [hall, if_pos rfl]⟩
        rw [hall, if_neg, hlg]
        rintro rfl
        rw [hlg] at hlv
        cases hlv
    · obtain ⟨a, b, v, c, d, e⟩ := h.evicts j z hz hp
      have hzg : z.granule ≠ g := by
        rintro rfl
        obtain ⟨w, hw, hww⟩ := (h.opened _ hb).1 j (h.placed j z hz (.inl (by rw [hp]; rfl)))
        rw [hz] at hw; cases hw
        rw [hww] at hp
        cases hp
      rcases hy with ⟨-, -, -, hall⟩ | ⟨-, -, -, w, -, -, hlw, -, hall⟩
      · refine ⟨by rw [hall _ hzg, a], b, v, c, d, ?_⟩
        rw [hall, e]
        rintro rfl
        exact (gfree j).2 e
      · refine ⟨?_, b, v, c, d, ?_⟩
        · rw [hall, if_neg, a]
          rintro hzw
          rw [← hzw, a] at hlw
          cases hlw
        · rw [hall, if_neg, e]
          rintro rfl
          rw [hlw] at e
          cases e
  · rcases phase hz with ⟨hi', rfl⟩ | ⟨-, hz⟩
    · rw [h.result.1 x (by rw [hi', hx])]
      unfold Txn.underWay
      rw [hk, hgr]
    · exact h.result.1 z hz
  · refine h.result.2 ?_
    rw [hs] at hn
    split at hn
    · cases hn
    · exact hn
  · refine ⟨fun j hj => ?_, fun l hl => (h.opened k hk.1).2 l ?_⟩
    · obtain ⟨z, hz, hp⟩ := (h.opened k hk.1).1 j hj
      refine ⟨z, ?_, hp⟩
      rw [keep, hz]
      rintro rfl
      exact hk.2 ((h.granule_of_mem hj hx).symm.trans hxg)
    · rcases hy with ⟨-, -, -, hall⟩ | ⟨-, -, -, v, -, -, -, hbv, hall⟩
      · rw [← hall k hk.2]; exact hl
      · rw [hall, if_neg] at hl
        · exact hl
        · rintro rfl
          exact hbv hk.1

/-- An active transaction goes on: between RECALLING and MEMORY, or from EVICTING to MEMORY with its victim's way. -/
theorem TableLaw.goOn (h : TableLaw b slot chain lock res) (hx : slot i = some x) (hk : y.kind = x.kind)
    (hgr : y.granule = x.granule) (hs : ∀ j, slot' j = if j = i then some y else slot j)
    (hp : y.phase = .recalling ∨ y.phase = .memory) (hyv : y.victim = none)
    (hy : (x.phase = .recalling ∨ x.phase = .memory) ∧ (∀ k, lock' k = lock k)
      ∨ x.phase = .evicting ∧ ∃ v, x.victim = some v
        ∧ ∀ k, lock' k = if k = x.granule then some (.busy i) else if k = v then none else lock k) :
    TableLaw b slot' chain lock' res := by
  have hactx : x.phase.active = true := by
    rcases hy with ⟨hp | hp, -⟩ | ⟨hp, -⟩ <;> rw [hp] <;> rfl
  have hact : y.phase.active = true := by rcases hp with hp | hp <;> rw [hp] <;> rfl
  have keep : ∀ {j}, j ≠ i → slot' j = slot j := fun {j} hj => by rw [hs, if_neg hj]
  have self : slot' i = some y := by rw [hs, if_pos rfl]
  have phase : ∀ {j z}, slot' j = some z → j = i ∧ z = y ∨ j ≠ i ∧ slot j = some z := fun {j z} hz => by
    rw [hs] at hz
    split at hz
    · exact .inl ⟨‹_›, (Option.some.inj hz).symm⟩
    · exact .inr ⟨‹_›, hz⟩
  obtain ⟨rest, hrest, hni⟩ := h.isHead hx hactx
  have waits : ∀ {j z}, slot j = some z → z.phase = .waiting → j ≠ i := by
    rintro j z hz hw rfl
    rw [hx] at hz; cases hz
    rw [hw] at hactx
    cases hactx
  refine ⟨h.nodup, fun k j hj => ?_, fun k j l hkc => ⟨fun ho => ?_, fun c hc => ?_⟩, fun j z hz hp' => ?_,
    fun j z hz => ?_, fun k j hl => ?_, fun j z l hz hpz hl => ?_, fun k j hl => ?_, fun j z hz hpz => ?_,
    ⟨fun z hz => ?_, fun hn => ?_⟩, fun k hk => ⟨fun j hj => ?_, fun l hl => ?_⟩⟩
  · by_cases hji : j = i
    · subst hji
      exact ⟨y, self, by rw [hgr, h.granule_of_mem hj hx], .inl hact⟩
    · obtain ⟨z, hz, a, b⟩ := h.inChain k j hj
      exact ⟨z, by rw [keep hji, hz], a, b⟩
  · by_cases hji : j = i
    · subst hji
      exact ⟨y, self, hact⟩
    · obtain ⟨z, hz, hp⟩ := (h.head k j l hkc).1 ho
      exact ⟨z, by rw [keep hji, hz], hp⟩
  · obtain ⟨z, hz, hw⟩ := (h.head k j l hkc).2 c hc
    exact ⟨z, by rw [keep (waits hz hw), hz], hw⟩
  · rcases phase hz with ⟨rfl, rfl⟩ | ⟨-, hz⟩
    · rw [hgr]; exact h.placed j x hx (.inl hactx)
    · exact h.placed j z hz hp'
  · rcases phase hz with ⟨rfl, rfl⟩ | ⟨-, hz⟩
    · have hsx := h.seated j x hx
      unfold Txn.seatedIn at hsx ⊢
      rw [hk]
      refine ⟨fun hq => ?_, fun _ => hyv, ?_⟩
      · rcases hq with hq | hq <;> rw [hq] at hact <;> cases hact
      · have := hsx.2.2
        revert this
        cases x.kind with
        | member r => exact fun h => ⟨h.1, fun _ => h.2 (.inr hactx)⟩
        | _ => exact id
    · exact h.seated j z hz
  · by_cases hji : j = i
    · subst hji
      refine ⟨y, self, ?_, hp⟩
      rcases hy with ⟨-, hall⟩ | ⟨-, v, -, hall⟩
      · rw [hall] at hl
        obtain ⟨z, hz, a, -⟩ := h.busy k j hl
        rw [hx] at hz; cases hz
        rw [hgr, a]
      · rw [hall] at hl
        split at hl
        · rename_i hkx; rw [hgr, hkx]
        · split at hl
          · cases hl
          · obtain ⟨z, hz, a, -⟩ := h.busy k j hl
            rw [hx] at hz; cases hz
            rw [hgr, a]
    · have hk' : lock k = some (.busy j) := by
        rcases hy with ⟨-, hall⟩ | ⟨-, v, -, hall⟩
        · rw [← hall]; exact hl
        · rw [hall] at hl
          split at hl
          · injection hl with hl
            injection hl with hl
            exact absurd hl.symm hji
          · split at hl
            · cases hl
            · exact hl
      obtain ⟨z, hz, a, b⟩ := h.busy k j hk'
      exact ⟨z, by rw [keep hji, hz], a, b⟩
  · rcases phase hz with ⟨rfl, rfl⟩ | ⟨hji, hz⟩
    · rw [hgr] at hl
      rcases hy with ⟨hpx, hall⟩ | ⟨-, v, -, hall⟩
      · rw [hall] at hl
        exact h.locked j x l hx hpx hl
      · rw [hall, if_pos rfl] at hl
        exact (Option.some.inj hl).symm
    · rcases hy with ⟨-, hall⟩ | ⟨-, v, -, hall⟩
      · rw [hall] at hl
        exact h.locked j z l hz hpz hl
      · have hzx : z.granule ≠ x.granule := by
          intro he
          obtain ⟨rest', hr', -⟩ := h.isHead hz (by rcases hpz with hpz | hpz <;> rw [hpz] <;> rfl)
          rw [he, hrest] at hr'
          injection hr' with hr' _
          exact hji hr'.symm
        rw [hall, if_neg hzx] at hl
        split at hl
        · cases hl
        · exact h.locked j z l hz hpz hl
  · have hk' : lock k = some (.evicting j) ∧ j ≠ i := by
      rcases hy with ⟨hpx, hall⟩ | ⟨hpx, v, hv, hall⟩
      · rw [hall] at hl
        refine ⟨hl, ?_⟩
        rintro rfl
        obtain ⟨z, hz, hq, -⟩ := h.evicting k j hl
        rw [hx] at hz; cases hz
        rw [hq] at hpx
        rcases hpx with hpx | hpx <;> cases hpx
      · rw [hall] at hl
        split at hl
        · cases hl
        · split at hl
          · cases hl
          · rename_i hkv
            refine ⟨hl, ?_⟩
            rintro rfl
            obtain ⟨z, hz, -, hzv⟩ := h.evicting k j hl
            rw [hx] at hz; cases hz
            rw [hv] at hzv
            exact hkv (Option.some.inj hzv).symm
    obtain ⟨z, hz, a, b⟩ := h.evicting k j hk'.1
    exact ⟨z, by rw [keep hk'.2, hz], a, b⟩
  · rcases phase hz with ⟨rfl, rfl⟩ | ⟨hji, hz⟩
    · rw [hpz] at hact
      rcases hp with hp | hp <;> rw [hpz] at hp <;> cases hp
    · obtain ⟨a, b, w, c, d, e⟩ := h.evicts j z hz hpz
      rcases hy with ⟨-, hall⟩ | ⟨hpx, v, hv, hall⟩
      · exact ⟨by rw [hall, a], b, w, c, d, by rw [hall, e]⟩
      · obtain ⟨a', -, v', hv', -, e'⟩ := h.evicts i x hx hpx
        rw [hv] at hv'
        cases hv'
        have hzx : z.granule ≠ x.granule := by
          intro he
          obtain ⟨rest', hr', -⟩ := h.isHead hz (by rw [hpz]; rfl)
          rw [he, hrest] at hr'
          injection hr' with hr' _
          exact hji hr'.symm
        refine ⟨?_, b, w, c, d, ?_⟩
        · rw [hall, if_neg hzx]
          split
          · rfl
          · exact a
        · rw [hall, if_neg, if_neg, e]
          · rintro rfl
            rw [e'] at e
            injection e with e
            injection e with e
            exact hji e.symm
          · rintro rfl
            rw [a'] at e
            cases e
  · rcases phase hz with ⟨hi', rfl⟩ | ⟨-, hz⟩
    · rw [h.result.1 x (by rw [hi', hx])]
      unfold Txn.underWay
      rw [hk, hgr]
    · exact h.result.1 z hz
  · refine h.result.2 ?_
    rw [hs] at hn
    split at hn
    · cases hn
    · exact hn
  · obtain ⟨z, hz, hw⟩ := (h.opened k hk).1 j hj
    exact ⟨z, by rw [keep (waits hz hw), hz], hw⟩
  · have hkx : k ≠ x.granule := by
      rintro rfl
      obtain ⟨z, hz, hw⟩ := (h.opened _ hk).1 i (by rw [hrest]; exact List.mem_cons_self ..)
      exact waits hz hw rfl
    rcases hy with ⟨-, hall⟩ | ⟨-, v, -, hall⟩
    · rw [hall] at hl
      exact (h.opened k hk).2 l hl
    · rw [hall, if_neg hkx] at hl
      split at hl
      · cases hl
      · exact (h.opened k hk).2 l hl

/-- A slot that stood in no chain joins the tail of its granule's chain, WAITING: a new transaction, or the service slot
that was held back. A chain that was empty is then between two heads. -/
theorem TableLaw.join (h : TableLaw b slot chain lock res) (hi : ∀ k, i ∉ chain k) (hp : x.phase = .waiting)
    (hold : slot i = none ∨ ∃ w, slot i = some w ∧ w.phase = .waiting) (hsx : x.seatedIn i)
    (hs : ∀ j, slot' j = if j = i then some x else slot j)
    (hch : ∀ k, chain' k = if k = x.granule then chain k ++ [i] else chain k)
    (hr : i ≠ serviceSlot → res' = res) (hr' : i = serviceSlot → res' = x.underWay) :
    (chain x.granule ≠ [] → TableLaw b slot' chain' lock res')
      ∧ (chain x.granule = [] → (∀ j, lock x.granule ≠ some (.evicting j)) →
        TableLaw (fun k => b k ∨ k = x.granule) slot' chain' lock res') := by
  have keep : ∀ {j}, j ≠ i → slot' j = slot j := fun {j} hj => by rw [hs, if_neg hj]
  have self : slot' i = some x := by rw [hs, if_pos rfl]
  have phase : ∀ {j z}, slot' j = some z → j = i ∧ z = x ∨ j ≠ i ∧ slot j = some z := fun {j z} hz => by
    rw [hs] at hz
    split at hz
    · exact .inl ⟨‹_›, (Option.some.inj hz).symm⟩
    · exact .inr ⟨‹_›, hz⟩
  have mem : ∀ {k j}, j ∈ chain' k ↔ (j = i ∧ k = x.granule) ∨ (j ≠ i ∧ j ∈ chain k) := fun {k j} => by
    rw [hch]
    split
    · rename_i hk
      rw [List.mem_append, List.mem_singleton]
      constructor
      · rintro (hj | hj)
        · exact .inr ⟨fun e => hi k (e ▸ hj), hj⟩
        · exact .inl ⟨hj, hk⟩
      · rintro (⟨hj, -⟩ | ⟨-, hj⟩)
        · exact .inr hj
        · exact .inl hj
    · rename_i hk
      constructor
      · exact fun hj => .inr ⟨fun e => hi k (e ▸ hj), hj⟩
      · rintro (⟨-, hj⟩ | ⟨-, hj⟩)
        · exact absurd hj hk
        · exact hj
  have idle : ∀ {z}, slot i = some z → z.phase = .waiting := fun {z} hz => by
    rcases hold with ho | ⟨w, hw, hq⟩
    · rw [ho] at hz; cases hz
    · rw [hw] at hz; cases hz; exact hq
  have all : ∀ o : Granule → Prop, (∀ k j rest, chain' k = j :: rest →
        (¬o k → ∃ z, slot' j = some z ∧ z.phase.active = true) ∧ ∀ l ∈ rest, ∃ z, slot' l = some z ∧ z.phase = .waiting)
      → (∀ k, o k → (∀ j ∈ chain' k, ∃ z, slot' j = some z ∧ z.phase = .waiting) ∧ ∀ l, lock k = some l → l = .none)
      → TableLaw o slot' chain' lock res' := fun o hhead hopen => by
    refine ⟨fun k => ?_, fun k j hj => ?_, hhead, fun j z hz hq => ?_, fun j z hz => ?_, fun k j hl => ?_,
      fun j z l hz hq hl => ?_, fun k j hl => ?_, fun j z hz hq => ?_, ⟨fun z hz => ?_, fun hn => ?_⟩, hopen⟩
    · rw [hch]
      split
      · exact List.nodup_append.2 ⟨h.nodup k, by simp, fun a ha c hc => by
          rw [List.mem_singleton.1 hc]
          rintro rfl
          exact hi k ha⟩
      · exact h.nodup k
    · rcases mem.1 hj with ⟨rfl, rfl⟩ | ⟨hji, hj⟩
      · exact ⟨x, self, rfl, .inr hp⟩
      · obtain ⟨z, hz, a, c⟩ := h.inChain k j hj
        exact ⟨z, by rw [keep hji, hz], a, c⟩
    · rcases phase hz with ⟨rfl, rfl⟩ | ⟨hji, hz⟩
      · exact mem.2 (.inl ⟨rfl, rfl⟩)
      · exact mem.2 (.inr ⟨hji, h.placed j z hz hq⟩)
    · rcases phase hz with ⟨rfl, rfl⟩ | ⟨-, hz⟩
      · exact hsx
      · exact h.seated j z hz
    · obtain ⟨z, hz, a, c⟩ := h.busy k j hl
      refine ⟨z, ?_, a, c⟩
      rw [keep, hz]
      rintro rfl
      rw [idle hz] at c
      rcases c with c | c <;> cases c
    · rcases phase hz with ⟨rfl, rfl⟩ | ⟨-, hz⟩
      · rw [hp] at hq
        rcases hq with hq | hq <;> cases hq
      · exact h.locked j z l hz hq hl
    · obtain ⟨z, hz, a, c⟩ := h.evicting k j hl
      refine ⟨z, ?_, a, c⟩
      rw [keep, hz]
      rintro rfl
      rw [idle hz] at a
      cases a
    · rcases phase hz with ⟨rfl, rfl⟩ | ⟨-, hz⟩
      · rw [hp] at hq; cases hq
      · exact h.evicts j z hz hq
    · rcases phase hz with ⟨hi', rfl⟩ | ⟨hji, hz⟩
      · exact hr' hi'.symm
      · rw [hr fun e => hji e.symm]
        exact h.result.1 z hz
    · by_cases hi' : serviceSlot = i
      · rw [hs, if_pos hi'] at hn; cases hn
      · rw [hs, if_neg hi'] at hn
        rw [hr fun e => hi' e.symm]
        exact h.result.2 hn
  constructor
  · intro hne
    refine all b (fun k j rest hk => ?_) fun k hk => ⟨fun j hj => ?_, (h.opened k hk).2⟩
    swap
    · rcases mem.1 hj with ⟨rfl, -⟩ | ⟨hji, hj⟩
      · exact ⟨x, self, hp⟩
      · obtain ⟨z, hz, hq⟩ := (h.opened k hk).1 j hj
        exact ⟨z, by rw [keep hji, hz], hq⟩
    by_cases hkx : k = x.granule
    · subst hkx
      rw [hch, if_pos rfl] at hk
      cases hg : chain x.granule with
      | nil => exact absurd hg hne
      | cons a l =>
        rw [hg] at hk
        injection hk with h1 h2
        subst h1 h2
        have hin : ∀ {c}, c ∈ a :: l → c ≠ i := fun {c} hc e => hi x.granule (by rw [hg, ← e]; exact hc)
        refine ⟨fun ho => ?_, fun c hc => ?_⟩
        · obtain ⟨z, hz, hq⟩ := (h.head _ _ _ hg).1 ho
          exact ⟨z, by rw [keep (hin (List.mem_cons_self ..)), hz], hq⟩
        · rcases List.mem_append.1 hc with hc | hc
          · obtain ⟨z, hz, hq⟩ := (h.head _ _ _ hg).2 c hc
            exact ⟨z, by rw [keep (hin (List.mem_cons_of_mem _ hc)), hz], hq⟩
          · rw [List.mem_singleton.1 hc]
            exact ⟨x, self, hp⟩
    · rw [hch, if_neg hkx] at hk
      have hin : ∀ {c}, c ∈ j :: rest → c ≠ i := fun {c} hc e => hi k (by rw [hk, ← e]; exact hc)
      refine ⟨fun ho => ?_, fun c hc => ?_⟩
      · obtain ⟨z, hz, hq⟩ := (h.head _ _ _ hk).1 ho
        exact ⟨z, by rw [keep (hin (List.mem_cons_self ..)), hz], hq⟩
      · obtain ⟨z, hz, hq⟩ := (h.head _ _ _ hk).2 c hc
        exact ⟨z, by rw [keep (hin (List.mem_cons_of_mem _ hc)), hz], hq⟩
  · intro hnil hev
    have hcx : chain' x.granule = [i] := by rw [hch, if_pos rfl, hnil]; rfl
    refine all (fun k => b k ∨ k = x.granule) (fun k j rest hk => ?_) fun k hk => ?_
    · by_cases hkx : k = x.granule
      · subst hkx
        rw [hcx] at hk
        injection hk with h1 h2
        subst h1 h2
        exact ⟨fun ho => absurd (.inr rfl) ho, nofun⟩
      · rw [hch, if_neg hkx] at hk
        have hin : ∀ {c}, c ∈ j :: rest → c ≠ i := fun {c} hc e => hi k (by rw [hk, ← e]; exact hc)
        refine ⟨fun ho => ?_, fun c hc => ?_⟩
        · obtain ⟨z, hz, hq⟩ := (h.head _ _ _ hk).1 fun hb => ho (.inl hb)
          exact ⟨z, by rw [keep (hin (List.mem_cons_self ..)), hz], hq⟩
        · obtain ⟨z, hz, hq⟩ := (h.head _ _ _ hk).2 c hc
          exact ⟨z, by rw [keep (hin (List.mem_cons_of_mem _ hc)), hz], hq⟩
    · by_cases hkx : k = x.granule
      swap
      · have hb := hk.resolve_right hkx
        refine ⟨fun j hj => ?_, (h.opened k hb).2⟩
        rcases mem.1 hj with ⟨-, hk'⟩ | ⟨hji, hj⟩
        · exact absurd hk' hkx
        · obtain ⟨z, hz, hq⟩ := (h.opened k hb).1 j hj
          exact ⟨z, by rw [keep hji, hz], hq⟩
      subst hkx
      refine ⟨fun j hj => ?_, h.unlocked_of_nil hnil hev⟩
      rw [hcx, List.mem_singleton] at hj
      subst hj
      exact ⟨x, self, hp⟩

/-- A WAITING slot behind the head of a chain leaves it and is FREE. -/
theorem TableLaw.drop (h : TableLaw b slot chain lock res) (hb : ∀ k, ¬b k) (hx : slot i = some x) (hp : x.phase = .waiting)
    (hns : i ≠ serviceSlot) (hs : ∀ j, slot' j = if j = i then none else slot j)
    (hc : ∀ k, chain' k = if k = x.granule then (chain k).erase i else chain k) :
    TableLaw b slot' chain' lock res := by
  have keep : ∀ {j}, j ≠ i → slot' j = slot j := fun {j} hj => by rw [hs, if_neg hj]
  have mem : ∀ {k j}, j ∈ chain' k ↔ j ≠ i ∧ j ∈ chain k := fun {k j} => by
    rw [hc]
    split
    · exact (h.nodup k).mem_erase_iff
    · rename_i hk
      exact ⟨fun hj => ⟨fun e => h.not_mem_other hx hk (e ▸ hj), hj⟩, And.right⟩
  have phase : ∀ {j z}, slot' j = some z → j ≠ i ∧ slot j = some z := fun {j z} hz => by
    rw [hs] at hz
    split at hz
    · cases hz
    · exact ⟨‹_›, hz⟩
  refine ⟨fun k => ?_, fun k j hj => ?_, fun k j rest hk => ?_, fun j z hz hq => ?_, fun j z hz => ?_, fun k j hl => ?_,
    fun j z l hz hq hl => ?_, fun k j hl => ?_, fun j z hz hq => ?_, ⟨fun z hz => ?_, fun hn => ?_⟩, fun k hk => absurd hk (hb k)⟩
  · rw [hc]
    split
    · exact (h.nodup k).erase i
    · exact h.nodup k
  · obtain ⟨hji, hj⟩ := mem.1 hj
    obtain ⟨z, hz, a, c⟩ := h.inChain k j hj
    exact ⟨z, by rw [keep hji, hz], a, c⟩
  · have hin : ∀ {c}, c ∈ j :: rest → c ≠ i := fun {c} hc' => (mem.1 (by rw [hk]; exact hc')).1
    cases hck : chain k with
    | nil =>
      have hjm : j ∈ chain' k := by rw [hk]; exact List.mem_cons_self ..
      have := mem.1 hjm
      rw [hck] at this
      cases this.2
    | cons a l =>
      have hai : a ≠ i := by
        rintro rfl
        obtain ⟨z, hz, hq⟩ := (h.head k _ _ hck).1 (hb k)
        rw [hx] at hz; cases hz
        rw [hp] at hq
        cases hq
      have hcons : chain' k = a :: (if k = x.granule then l.erase i else l) := by
        rw [hc, hck]
        split
        · rw [List.erase_cons_tail (by simpa using hai)]
        · rfl
      rw [hk] at hcons
      injection hcons with h1 h2
      subst h1
      refine ⟨fun _ => ?_, fun c hc' => ?_⟩
      · obtain ⟨z, hz, hq⟩ := (h.head k _ _ hck).1 (hb k)
        exact ⟨z, by rw [keep hai, hz], hq⟩
      · have hbl : c ∈ l := by
          rw [h2] at hc'
          split at hc'
          · exact List.mem_of_mem_erase hc'
          · exact hc'
        obtain ⟨z, hz, hq⟩ := (h.head k _ _ hck).2 c hbl
        exact ⟨z, by rw [keep (hin (List.mem_cons_of_mem _ hc')), hz], hq⟩
  · obtain ⟨hji, hz⟩ := phase hz
    exact mem.2 ⟨hji, h.placed j z hz hq⟩
  · exact h.seated j z (phase hz).2
  · obtain ⟨z, hz, a, c⟩ := h.busy k j hl
    refine ⟨z, ?_, a, c⟩
    rw [keep, hz]
    rintro rfl
    rw [hx] at hz; cases hz
    rw [hp] at c
    rcases c with c | c <;> cases c
  · exact h.locked j z l (phase hz).2 hq hl
  · obtain ⟨z, hz, a, c⟩ := h.evicting k j hl
    refine ⟨z, ?_, a, c⟩
    rw [keep, hz]
    rintro rfl
    rw [hx] at hz; cases hz
    rw [hp] at a
    cases a
  · exact h.evicts j z (phase hz).2 hq
  · exact h.result.1 z (phase hz).2
  · refine h.result.2 ?_
    rw [hs, if_neg fun e => hns e.symm] at hn
    exact hn

/-- A slot outside every chain is rewritten, freed or filled in BYPASS. -/
theorem TableLaw.outside (h : TableLaw b slot chain lock res)
    (hold : ∀ x, slot i = some x → x.phase = .bypass ∨ x.phase = .draining) {z : Option Txn}
    (hz : ∀ y, z = some y → (y.phase = .bypass ∨ y.phase = .draining) ∧ y.seatedIn i) (h48 : i.val < 48)
    (hs : ∀ j, slot' j = if j = i then z else slot j) : TableLaw b slot' chain lock res := by
  have keep : ∀ {j}, j ≠ i → slot' j = slot j := fun {j} hj => by rw [hs, if_neg hj]
  have idle : ∀ {j x}, slot j = some x → (x.phase.active = true ∨ x.phase = .waiting) → j ≠ i := by
    rintro j x hx hp rfl
    rcases hold x hx with ho | ho <;> rw [ho] at hp <;> rcases hp with hp | hp <;> cases hp
  have phase : ∀ {j y}, slot' j = some y → (y.phase.active = true ∨ y.phase = .waiting) → slot j = some y :=
    fun {j y} hy hp => by
      rw [hs] at hy
      split at hy
      · rcases (hz y hy).1 with ho | ho <;> rw [ho] at hp <;> rcases hp with hp | hp <;> cases hp
      · exact hy
  have act : ∀ {y : Txn}, y.phase = .recalling ∨ y.phase = .memory → y.phase.active = true := fun hp => by
    rcases hp with hp | hp <;> rw [hp] <;> rfl
  have hsv : serviceSlot ≠ i := by
    rintro rfl
    exact absurd h48 (by decide)
  refine ⟨h.nodup, fun k j hj => ?_, fun k j rest hk => ⟨fun ho => ?_, fun c hc => ?_⟩, fun j y hy hp => ?_,
    fun j y hy => ?_, fun k j hl => ?_, fun j y l hy hp hl => ?_, fun k j hl => ?_, fun j y hy hp => ?_,
    ⟨fun y hy => ?_, fun hn => ?_⟩, fun k hk => ⟨fun j hj => ?_, (h.opened k hk).2⟩⟩
  · obtain ⟨x, hx, a, c⟩ := h.inChain k j hj
    exact ⟨x, by rw [keep (idle hx c), hx], a, c⟩
  · obtain ⟨x, hx, a⟩ := (h.head k j rest hk).1 ho
    exact ⟨x, by rw [keep (idle hx (.inl a)), hx], a⟩
  · obtain ⟨x, hx, a⟩ := (h.head k j rest hk).2 c hc
    exact ⟨x, by rw [keep (idle hx (.inr a)), hx], a⟩
  · exact h.placed j y (phase hy (hp.imp_right And.left)) hp
  · rw [hs] at hy
    split at hy
    · rename_i hji
      subst hji
      exact (hz y hy).2
    · exact h.seated j y hy
  · obtain ⟨x, hx, a, c⟩ := h.busy k j hl
    exact ⟨x, by rw [keep (idle hx (.inl (act c))), hx], a, c⟩
  · exact h.locked j y l (phase hy (.inl (act hp))) hp hl
  · obtain ⟨x, hx, a, c⟩ := h.evicting k j hl
    exact ⟨x, by rw [keep (idle hx (.inl (by rw [a]; rfl))), hx], a, c⟩
  · exact h.evicts j y (phase hy (.inl (by rw [hp]; rfl))) hp
  · rw [keep hsv] at hy
    exact h.result.1 y hy
  · rw [keep hsv] at hn
    exact h.result.2 hn
  · obtain ⟨x, hx, a⟩ := (h.opened k hk).1 j hj
    exact ⟨x, by rw [keep (idle hx (.inr a)), hx], a⟩

/-- The new head of a chain ends at once, without having taken a lock. -/
theorem TableLaw.pass (h : TableLaw b slot chain lock res) (hb : b g) {rest : List SlotId} (hg : chain g = i :: rest)
    (hs : ∀ j, slot' j = if j = i then none else slot j)
    (hc : ∀ k, chain' k = if k = g then (chain k).erase i else chain k)
    (hl : ∀ k, lock' k = lock k ∨ lock k = some .none ∧ lock' k = none)
    (hr : i ≠ serviceSlot → res' = res) (hr' : i = serviceSlot → ∀ c k, res' ≠ .pending c k) :
    TableLaw b slot' chain' lock' res' := by
  have hi : i ∈ chain g := by rw [hg]; exact List.mem_cons_self ..
  obtain ⟨x, hx, hp⟩ := (h.opened g hb).1 i hi
  have hxg : x.granule = g := h.granule_of_mem hi hx
  have keep : ∀ {j}, j ≠ i → slot' j = slot j := fun {j} hj => by rw [hs, if_neg hj]
  have mem : ∀ {k j}, j ∈ chain' k ↔ j ≠ i ∧ j ∈ chain k := fun {k j} => by
    rw [hc]
    split
    · exact (h.nodup k).mem_erase_iff
    · rename_i hk
      exact ⟨fun hj => ⟨fun e => h.not_mem_other hx (by rwa [hxg]) (e ▸ hj), hj⟩, And.right⟩
  have phase : ∀ {j z}, slot' j = some z → j ≠ i ∧ slot j = some z := fun {j z} hz => by
    rw [hs] at hz
    split at hz
    · cases hz
    · exact ⟨‹_›, hz⟩
  have idle : ∀ {j z}, slot j = some z → z.phase.active = true → j ≠ i := by
    rintro j z hz ha rfl
    rw [hx] at hz; cases hz
    rw [hp] at ha
    cases ha
  have lk : ∀ {k l}, lock' k = some l → lock k = some l := fun {k l} hk => by
    rcases hl k with he | ⟨-, he⟩
    · rw [← he, hk]
    · rw [hk] at he; cases he
  have lk' : ∀ {k l}, lock k = some l → l ≠ .none → lock' k = some l := fun {k l} hk hn => by
    rcases hl k with he | ⟨he, -⟩
    · rw [he, hk]
    · rw [hk] at he; exact absurd (Option.some.inj he) hn
  have lkn : ∀ {k}, lock k = none → lock' k = none := fun {k} hk => by
    rcases hl k with he | ⟨-, he⟩
    · rw [he, hk]
    · exact he
  refine ⟨fun k => ?_, fun k j hj => ?_, fun k j l hk => ⟨fun ho => ?_, fun c hc' => ?_⟩, fun j z hz hq => ?_,
    fun j z hz => ?_, fun k j hl => ?_, fun j z l hz hq hl => ?_, fun k j hl => ?_, fun j z hz hq => ?_,
    ⟨fun z hz => ?_, fun hn => ?_⟩, fun k hk => ⟨fun j hj => ?_, fun l hl => (h.opened k hk).2 l (lk hl)⟩⟩
  · rw [hc]
    split
    · exact (h.nodup k).erase i
    · exact h.nodup k
  · obtain ⟨hji, hj⟩ := mem.1 hj
    obtain ⟨z, hz, a, c⟩ := h.inChain k j hj
    exact ⟨z, by rw [keep hji, hz], a, c⟩
  · have hkg : k ≠ g := fun e => ho (e ▸ hb)
    rw [hc, if_neg hkg] at hk
    obtain ⟨z, hz, hq⟩ := (h.head k j l hk).1 ho
    exact ⟨z, by rw [keep (idle hz hq), hz], hq⟩
  · have hji : c ≠ i := (mem.1 (by rw [hk]; exact List.mem_cons_of_mem _ hc' : c ∈ chain' k)).1
    by_cases hkg : k = g
    · subst hkg
      have hcm := (mem.1 (by rw [hk]; exact List.mem_cons_of_mem _ hc' : c ∈ chain' k)).2
      obtain ⟨z, hz, hq⟩ := (h.opened k hb).1 c hcm
      exact ⟨z, by rw [keep hji, hz], hq⟩
    · rw [hc, if_neg hkg] at hk
      obtain ⟨z, hz, hq⟩ := (h.head k j l hk).2 c hc'
      exact ⟨z, by rw [keep hji, hz], hq⟩
  · obtain ⟨hji, hz⟩ := phase hz
    exact mem.2 ⟨hji, h.placed j z hz hq⟩
  · exact h.seated j z (phase hz).2
  · obtain ⟨z, hz, a, c⟩ := h.busy k j (lk hl)
    exact ⟨z, by rw [keep (idle hz (by rcases c with c | c <;> rw [c] <;> rfl)), hz], a, c⟩
  · exact h.locked j z l (phase hz).2 hq (lk hl)
  · obtain ⟨z, hz, a, c⟩ := h.evicting k j (lk hl)
    exact ⟨z, by rw [keep (idle hz (by rw [a]; rfl)), hz], a, c⟩
  · obtain ⟨a, e, v, c, d, f⟩ := h.evicts j z (phase hz).2 hq
    exact ⟨lkn a, e, v, c, d, lk' f nofun⟩
  · obtain ⟨hji, hz⟩ := phase hz
    rw [hr fun e => hji e.symm]
    exact h.result.1 z hz
  · by_cases his : i = serviceSlot
    · exact hr' his
    · rw [hs, if_neg fun e => his e.symm] at hn
      rw [hr his]
      exact h.result.2 hn
  · obtain ⟨hji, hj⟩ := mem.1 hj
    obtain ⟨z, hz, hq⟩ := (h.opened k hk).1 j hj
    exact ⟨z, by rw [keep hji, hz], hq⟩

end Sys2Proof.Machine
end

