-- ==== Sys2Proof/Laws/Takes.lean ====
section
/-! SUPPORT. How a command comes to its effect: the conditions under which a transfer and a frame are taken, intake's
judgment of an admitted request, and the directory's answer for a granule whose entry is known. -/

namespace Sys2Proof.Machine

variable {s t : State}

/-! ### Transfers and frames -/

theorem change_running (h : s.inReset = false) (f : State → State) : change f s = .next (f s) := by
  unfold change
  simp [h]

theorem transfer_serves (h : s.serves) (f : State → State) : transfer f s = .next (f s) := by
  unfold transfer
  rw [change_running h.1]
  simp [h.2]

theorem exec_frame (p : Port) (f : Frame) (s : State) : exec (f.instr p) s = change (State.arrive p f) s := by
  cases f with
  | request tag g r => cases r <;> rfl
  | _ => rfl

theorem exec_request (p : Port) (tag : Tag) (g : Granule) (r : Request) (s : State) :
    exec (r.instr p tag g) s = change (State.arrive p (.request tag g r)) s := by cases r <;> rfl

theorem arrive_receives {p : Port} (h : s.receives p) (f : Frame) : State.arrive p f s = s.takeFrame p f := by
  unfold State.arrive
  dsimp only
  rw [h.2.1, if_neg (by simp), if_pos ⟨h.2.2.1, h.2.2.2⟩]

theorem exec_takes {p : Port} (h : s.receives p) (f : Frame) : exec (f.instr p) s = .next (s.takeFrame p f) := by
  rw [exec_frame, change_running h.1, arrive_receives h]

theorem exec_takes_request {p : Port} (h : s.receives p) (tag : Tag) (g : Granule) (r : Request) :
    exec (r.instr p tag g) s = .next (s.takeFrame p (.request tag g r)) := by
  rw [exec_request, change_running h.1, arrive_receives h]

theorem send_eq_queued {p : Port} (hl : (s.ifaces.get p).linkUp = true) (hf : (s.portState p).isFenced = false)
    (f : HubFrame) : s.send p f = s.queued p f := by
  exact if_neg (by simp [hl, hf])

theorem send_down {p : Port} (h : (s.ifaces.get p).linkUp = false ∨ (s.portState p).isFenced = true) (f : HubFrame) :
    s.send p f = s := by
  unfold State.send
  dsimp only
  rcases h with h | h <;> simp [h]

/-! ### Slots -/

theorem memberSlot_of {p : Port} {tag : Tag} {i : SlotId} (ht : tag.toNat < 12)
    (hi : i.val = 12 * p.number + tag.toNat) : memberSlot p tag = some i := by
  unfold memberSlot
  have : 12 * p.number + tag.toNat < 48 ∧ tag.toNat < 12 := ⟨by cases p <;> simp [Port.number] <;> omega, ht⟩
  rw [dif_pos this]
  exact congrArg some (Fin.ext hi.symm)

theorem slotPort_of {p : Port} {tag : Tag} {i : SlotId} (ht : tag.toNat < 12)
    (hi : i.val = 12 * p.number + tag.toNat) : slotPort i = some p := by
  unfold slotPort
  have : i.val / 12 = p.number := by omega
  rw [this]
  cases p <;> rfl

theorem slotTag_of {p : Port} {tag : Tag} {i : SlotId} (ht : tag.toNat < 12)
    (hi : i.val = 12 * p.number + tag.toNat) : slotTag i = tag := by
  unfold slotTag
  have : i.val % 12 = tag.toNat := by omega
  rw [this]
  simp

/-! ### Intake -/

theorem isFenced_of_member {st : PortState} (h : st = .active ∨ st = .departing) : st.isFenced = false := by
  rcases h with h | h <;> rw [h] <;> rfl

theorem isMember_of {st : PortState} (h : st = .active ∨ st = .departing) : st.isMember = true := by
  rcases h with h | h <;> rw [h] <;> rfl

theorem State.Admits.isMember {p : Port} {tag : Tag} {g : Granule} {r : Request} {i : SlotId}
    (h : s.Admits p tag g r i) : s.portState p = .active ∨ s.portState p = .departing :=
  h.member.elim .inl fun h => .inr h.1

theorem takeFrame_request {p : Port} (h : (s.portState p).isFenced = false) (tag : Tag) (g : Granule) (r : Request) :
    s.takeFrame p (.request tag g r) = s.takeRequest p tag g r := by
  unfold State.takeFrame
  rw [h]
  rfl

theorem judgeSlot_running {p : Port} {tag : Tag} {i : SlotId} (hr : s.svc.hubState = .running) (ht : tag.toNat < 12)
    (hi : i.val = 12 * p.number + tag.toNat) (g : Granule) (r : Request) :
    s.judgeSlot p tag g r = if (s.txn i).isSome then .error else s.judgeGranule p i g r := by
  unfold State.judgeSlot
  rw [hr]
  dsimp only
  rw [memberSlot_of ht hi]

theorem judgeRequest_member {p : Port} {tag : Tag} {r : Request} (ht : tag.toNat < 14)
    (hm : s.portState p = .active ∨ s.portState p = .departing ∧ r.bypass = true) (g : Granule) :
    s.judgeRequest p tag g r = s.judgeSlot p tag g r := by
  unfold State.judgeRequest
  rw [if_neg (by omega)]
  rcases hm with hm | ⟨hm, hb⟩
  · rw [hm]
  · rw [hm]
    simp [hb]

/-- An admitted request is placed in its slot, and the tests of R141 and R147 follow. -/
theorem State.Admits.exec {p : Port} {tag : Tag} {g : Granule} {r : Request} {i : SlotId} (h : s.Admits p tag g r i) :
    exec (r.instr p tag g) s = .next ((s.placeRequest i p g r).settle) := by
  rw [exec_takes_request h.receives, takeFrame_request (isFenced_of_member h.isMember)]
  have hj : s.judgeRequest p tag g r = .accepted i := by
    have := h.credit
    rw [judgeRequest_member (by omega) h.member, judgeSlot_running h.running h.credit h.slot, h.free]
    unfold State.judgeGranule
    have := h.installed
    rw [if_neg (by simp), if_neg (by omega)]
    rcases h.right with hb | ⟨h1, h2⟩
    · rw [hb]; rfl
    · rw [h1, h2]
      cases r.bypass <;> rfl
  unfold State.takeRequest
  rw [hj]

/-! ### The tests at the end of a change -/

/-- A change after which no port may leave: the records of the ports keep their state and their sweep finished, and no
slot that holds a departing port, or drains for a fenced one, is freed. -/
theorem settled_of (h : s.settled) (hp : ∀ p, t.portState p = s.portState p)
    (hf : ∀ p, (t.ctl.ports.get p).sweepFinished = (s.ctl.ports.get p).sweepFinished)
    (ho : ∀ i p, slotPort i = some p → s.portState p = .departing → (s.ctl.ports.get p).sweepFinished = true →
      (s.txn i).isSome = true → (t.txn i).isSome = true)
    (hd : ∀ i p x, slotPort i = some p → s.portState p = .fencing → (s.ctl.ports.get p).sweepFinished = true →
      s.txn i = some x → x.phase = .draining →
      ∃ y, t.txn i = some y ∧ y.phase = .draining) : t.settled := by
  intro p
  have hs := h p
  unfold State.mayLeave at hs ⊢
  rw [hp p, hf p]
  simp only [Bool.or_eq_false_iff, Bool.and_eq_false_iff, beq_eq_false_iff_ne, ne_eq] at hs ⊢
  obtain ⟨h1, h2⟩ := hs
  have mem : ∀ i, i ∈ portSlots p ↔ slotPort i = some p := fun i => by simp [portSlots]
  constructor
  · by_cases hst : s.portState p = .departing
    · cases hsf : (s.ctl.ports.get p).sweepFinished with
      | false => exact .inl (.inr rfl)
      | true =>
        refine .inr ?_
        rcases h1 with (h1 | h1) | h1
        · exact absurd hst h1
        · rw [hsf] at h1; cases h1
        · intro hz
          apply h1
          unfold State.occupied at *
          rw [List.countP_eq_zero] at *
          intro i hi hc
          exact hz i hi (ho i p ((mem i).1 hi) hst hsf hc)
    · exact .inl (.inl hst)
  · by_cases hst : s.portState p = .fencing
    · cases hsf : (s.ctl.ports.get p).sweepFinished with
      | false => exact .inl (.inr rfl)
      | true =>
        refine .inr ?_
        rcases h2 with (h2 | h2) | h2
        · exact absurd hst h2
        · rw [hsf] at h2; cases h2
        · have : s.draining p = true := by simpa using h2
          unfold State.draining at *
          rw [List.any_eq_true] at this
          obtain ⟨i, hi, hx⟩ := this
          rw [Option.any_eq_true] at hx
          obtain ⟨x, hx, hph⟩ := hx
          obtain ⟨y, hy, hyd⟩ := hd i p x ((mem i).1 hi) hst hsf hx (by simpa using hph)
          have : (portSlots p).any (fun i => (t.txn i).any fun t => t.phase == .draining) = true :=
            List.any_eq_true.2 ⟨i, hi, by simp [hy, hyd]⟩
          rw [this]; rfl
    · exact .inl (.inl hst)

/-- One slot changes that belonged to no departing or fenced port, or keeps its phase. -/
theorem settled_slot {i : SlotId} {x : Option Txn} (h : s.settled) (hc : t.ctl = s.ctl)
    (ht : ∀ j, t.txn j = if j = i then x else s.txn j)
    (hi : s.txn i = none ∨ (∀ p, slotPort i = some p → s.portState p ≠ .departing ∧ s.portState p ≠ .fencing)
      ∨ (∃ y z, s.txn i = some y ∧ x = some z ∧ (y.phase = .draining → z.phase = .draining))
      ∨ ∀ p, slotPort i = some p → (s.ctl.ports.get p).sweepFinished = false) : t.settled := by
  refine settled_of h (fun p => by unfold State.portState; rw [hc]) (fun p => by rw [hc]) ?_ ?_
  · intro j p hj hst hsf hx
    rw [ht j]
    split
    · rename_i hji
      subst hji
      rcases hi with hi | hi | ⟨y, z, _, hz, _⟩ | hi
      · rw [hi] at hx; cases hx
      · exact absurd hst (hi p hj).1
      · rw [hz]; rfl
      · rw [hi p hj] at hsf; cases hsf
    · exact hx
  · intro j p y hj hst hsf hy hd
    rw [ht j]
    split
    · rename_i hji
      subst hji
      rcases hi with hi | hi | ⟨y', z, hy', hz, hzd⟩ | hi
      · rw [hi] at hy; cases hy
      · exact absurd hst (hi p hj).2
      · rw [hy'] at hy
        injection hy with hy
        subst hy
        exact ⟨z, hz, hzd hd⟩
      · rw [hi p hj] at hsf; cases hsf
    · exact ⟨y, hy, hd⟩

/-- No slot and no port record changes. -/
theorem settled_same (h : s.settled) (hc : t.ctl = s.ctl) (ht : ∀ j, t.txn j = s.txn j) : t.settled :=
  settled_of h (fun p => by unfold State.portState; rw [hc]) (fun p => by rw [hc])
    (fun i _ _ _ _ h => by rw [ht i]; exact h) (fun i _ x _ _ _ h hd => ⟨x, by rw [ht i]; exact h, hd⟩)

/-! ### The directory -/

theorem DirSet.ne_empty_of_way {d : DirSet} {w : Fin 8} {e : Entry} (h : d.ways.get w = some e) : d ≠ .empty := by
  rintro rfl
  rw [get_empty] at h
  cases h

theorem dirSet_setDirSet_of_ne {k : Nat} {d : DirSet} (hd : d ≠ .empty) (j : Nat) :
    (s.setDirSet k d).dirSet j = if j = k then d else s.dirSet j := Sparse.get_set_of_ne hd j

theorem setDirSet_self (h : Sparse.wf DirSet.empty s.dir) (k : Nat) : s.setDirSet k (s.dirSet k) = s := by
  unfold State.setDirSet State.dirSet
  rw [Sparse.set_self h]

theorem State.NoEntry.wayOf {g : Granule} (h : s.NoEntry g) : (s.dirSet (setOf g)).wayOf g = none := by
  cases hw : (s.dirSet (setOf g)).wayOf g with
  | none => rfl
  | some w =>
    obtain ⟨e, he, hg⟩ := DirSet.granule_of_wayOf hw
    exact absurd hg (h w e he)

theorem State.NoEntry.entry {g : Granule} (h : s.NoEntry g) : s.entry g = none := by
  unfold State.entry
  dsimp only
  rw [h.wayOf]
  rfl

theorem State.NoEntry.change {g : Granule} (h : s.NoEntry g) (hc : Sparse.wf DirSet.empty s.dir) (c : EntryChange) :
    s.changeEntry g c = s := by
  unfold State.changeEntry DirSet.change
  rw [h.wayOf]
  exact setDirSet_self hc _

theorem State.EntryAt.wayOf {g : Granule} {w : Fin 8} {e : Entry} (h : s.EntryAt g w e) :
    (s.dirSet (setOf g)).wayOf g = some w := by
  cases hw : (s.dirSet (setOf g)).wayOf g with
  | none => exact absurd h.2.1 (DirSet.none_of_wayOf hw w e h.1)
  | some v =>
    obtain ⟨f, hf, hg⟩ := DirSet.granule_of_wayOf hw
    rw [h.2.2 v f hf hg]

theorem State.EntryAt.entry {g : Granule} {w : Fin 8} {e : Entry} (h : s.EntryAt g w e) : s.entry g = some e := by
  unfold State.entry
  dsimp only
  rw [h.wayOf]
  exact h.1

theorem State.EntryAt.change {g : Granule} {w : Fin 8} {e : Entry} (h : s.EntryAt g w e) (c : EntryChange) :
    s.changeEntry g c = s.setDirSet (setOf g)
      (if (e.apply c).freed then (s.dirSet (setOf g)).free w else (s.dirSet (setOf g)).put w (e.apply c)) := by
  unfold State.changeEntry DirSet.change
  rw [h.wayOf]
  dsimp only
  rw [h.1]

theorem State.EntryAt.change_kept {g : Granule} {w : Fin 8} {e : Entry} (h : s.EntryAt g w e) {c : EntryChange}
    (hf : (e.apply c).freed = false) :
    s.changeEntry g c = s.setDirSet (setOf g) ((s.dirSet (setOf g)).put w (e.apply c)) := by
  rw [h.change, hf]
  rfl

theorem DirSet.get_put_eq (d : DirSet) (w x : Fin 8) (e : Entry) :
    (d.put w e).ways.get x = if x = w then some e else d.ways.get x := getElem_ways_set d w x (some e)

theorem DirSet.put_ne_empty (d : DirSet) (w : Fin 8) (e : Entry) : d.put w e ≠ .empty :=
  ne_empty_of_way (w := w) (e := e) (by rw [get_put_eq, if_pos rfl])

theorem dirSet_put {k : Nat} {d : DirSet} {w : Fin 8} {e : Entry} (j : Nat) :
    (s.setDirSet k (d.put w e)).dirSet j = if j = k then d.put w e else s.dirSet j :=
  dirSet_setDirSet_of_ne (d.put_ne_empty w e) j

theorem State.EntryAt.put {g : Granule} {w : Fin 8} {e f : Entry} (h : s.EntryAt g w e) (hf : f.granule = g) :
    (s.setDirSet (setOf g) ((s.dirSet (setOf g)).put w f)).EntryAt g w f := by
  unfold State.EntryAt
  rw [dirSet_put, if_pos rfl]
  refine ⟨by rw [DirSet.get_put_eq, if_pos rfl], hf, fun v e' hv hg => ?_⟩
  rw [DirSet.get_put_eq] at hv
  split at hv
  · assumption
  · exact h.2.2 v e' hv hg

theorem State.EntryAt.of_dir {g : Granule} {w : Fin 8} {e : Entry} (h : s.EntryAt g w e) (hd : t.dir = s.dir) :
    t.EntryAt g w e := by
  unfold State.EntryAt State.dirSet at *
  rw [hd]
  exact h

theorem State.NoEntry.of_dir {g : Granule} (h : s.NoEntry g) (hd : t.dir = s.dir) : t.NoEntry g := by
  unfold State.NoEntry State.dirSet at *
  rw [hd]
  exact h

theorem State.EntryAt.granule {g : Granule} {w : Fin 8} {e : Entry} (h : s.EntryAt g w e) : e.granule = g := h.2.1

theorem wayBecomes_put (g : Granule) (w : Fin 8) (e : Entry) (h : t.dir = (s.setDirSet (setOf g) ((s.dirSet (setOf g)).put w e)).dir) :
    s.wayBecomes t g w (some e) := by
  intro k
  have hk : t.dirSet k = (s.setDirSet (setOf g) ((s.dirSet (setOf g)).put w e)).dirSet k :=
    congrArg (Sparse.get DirSet.empty · k) h
  rw [hk, dirSet_put]
  split
  · rename_i hk; rw [hk]; rfl
  · rfl

theorem wayBecomes_free (hc : Sparse.wf DirSet.empty s.dir) (g : Granule) (w : Fin 8)
    (h : t.dir = (s.setDirSet (setOf g) ((s.dirSet (setOf g)).free w)).dir) : s.wayBecomes t g w none := by
  intro k
  have hk : t.dirSet k = (s.setDirSet (setOf g) ((s.dirSet (setOf g)).free w)).dirSet k :=
    congrArg (Sparse.get DirSet.empty · k) h
  rw [hk, dirSet_setDirSet hc]
  split
  · rename_i hk; rw [hk]; rfl
  · rfl

theorem setDirSet_setDirSet_of_ne {k : Nat} {d e : DirSet} (hc : Sparse.wf DirSet.empty s.dir) :
    (s.setDirSet k d).setDirSet k e = s.setDirSet k e := by
  unfold State.setDirSet
  have : Sparse.set DirSet.empty (Sparse.set DirSet.empty s.dir k d) k e = Sparse.set DirSet.empty s.dir k e := by
    have h1 := Sparse.wf_set hc k d
    refine Sparse.ext_get (Sparse.wf_set h1 _ _) (Sparse.wf_set hc _ _) fun j => ?_
    rw [Sparse.get_set h1, Sparse.get_set hc, Sparse.get_set hc]
    split <;> rfl
  dsimp only
  rw [this]

/-! ### Chains -/

theorem chain_setChain_of_ne {g : Granule} {c : List SlotId} (h : c ≠ []) (k : Granule) :
    (s.setChain g c).chain k = if k = g then c else s.chain k := by
  unfold State.chain
  rw [setChain_chains, Sparse.get_set_of_ne h]
  by_cases hk : k = g
  · simp [hk]
  · rw [if_neg (fun e => hk (BitVec.eq_of_toNat_eq e)), if_neg hk]

theorem chain_setChain (hc : Sparse.wf [] s.table.chains) (g : Granule) (c : List SlotId) (k : Granule) :
    (s.setChain g c).chain k = if k = g then c else s.chain k := by
  unfold State.chain
  rw [setChain_chains, Sparse.get_set hc]
  by_cases hk : k = g
  · simp [hk]
  · rw [if_neg (fun e => hk (BitVec.eq_of_toNat_eq e)), if_neg hk]

theorem setChain_back (hc : Sparse.wf [] s.table.chains) (g : Granule) (c : List SlotId) :
    (s.setChain g c).setChain g (s.chain g) = s := by
  unfold State.setChain State.chain
  dsimp only
  have : Sparse.set [] (Sparse.set [] s.table.chains g.toNat c) g.toNat (Sparse.get [] s.table.chains g.toNat)
      = s.table.chains := by
    have h1 := Sparse.wf_set hc g.toNat c
    refine Sparse.ext_get (Sparse.wf_set h1 _ _) hc fun j => ?_
    rw [Sparse.get_set h1, Sparse.get_set hc]
    split
    · rename_i hj; rw [hj]
    · rfl
  rw [this]

theorem setTxn_back (i : SlotId) (x : Option Txn) : (s.setTxn i x).setTxn i (s.txn i) = s := by
  unfold State.setTxn
  have : (s.table.slots.set i.val x i.isLt).set i.val (s.txn i) i.isLt = s.table.slots := by
    ext j hj
    rw [Vector.getElem_set, Vector.getElem_set]
    split
    · rename_i h; subst h; rfl
    · rfl
  dsimp only
  rw [this]

theorem setTxn_setTxn (i : SlotId) (x y : Option Txn) : (s.setTxn i x).setTxn i y = s.setTxn i y := by
  unfold State.setTxn
  have : (s.table.slots.set i.val x i.isLt).set i.val y i.isLt = s.table.slots.set i.val y i.isLt := by
    ext j hj
    rw [Vector.getElem_set, Vector.getElem_set, Vector.getElem_set]
    split <;> rfl
  dsimp only
  rw [this]

/-! ### Offers -/

theorem offer_eq (op : MemOp) : s.offer op = s.setMem (s.mem.offered op) := by
  unfold State.offer MemController.offered Config.memoryQueueCapacity
  split <;> rfl

theorem outstanding_offer (k : MemKind) (g : Granule) (i : SlotId) :
    (s.offer ⟨k, g, .slot i⟩).outstanding i = s.outstanding i + 1 := by
  unfold State.outstanding
  rw [offer_queues, List.countP_append]
  simp

/-! ### Frames to several ports -/

/-- Frames offered one after the other, none for a fenced port: each is queued where the link is UP. -/
theorem foldl_send {α : Type} (port : α → Port) (frame : α → HubFrame) (l : List α) : ∀ s : State,
    (∀ a ∈ l, (s.portState (port a)).isFenced = false) →
    l.foldl (fun s a => s.send (port a) (frame a)) s
        = { s with ifaces := (l.foldl (fun s a => s.send (port a) (frame a)) s).ifaces }
      ∧ ∀ q, (l.foldl (fun s a => s.send (port a) (frame a)) s).ifaces.get q =
        { s.ifaces.get q with
          outq := (s.ifaces.get q).outq
            ++ if (s.ifaces.get q).linkUp then (l.filter fun a => port a == q).map frame else [] } := by
  induction l with
  | nil => intro s _; exact ⟨rfl, fun q => by simp⟩
  | cons a l ih =>
    intro s h
    have hs : s.send (port a) (frame a) = { s with ifaces := (s.send (port a) (frame a)).ifaces }
        ∧ ∀ q, (s.send (port a) (frame a)).ifaces.get q =
          { s.ifaces.get q with
            outq := (s.ifaces.get q).outq ++ if (s.ifaces.get q).linkUp ∧ port a = q then [frame a] else [] } := by
      cases hl : (s.ifaces.get (port a)).linkUp with
      | false =>
        rw [send_down (.inl hl)]
        refine ⟨rfl, fun q => ?_⟩
        rw [if_neg]
        · simp
        · rintro ⟨h1, rfl⟩
          rw [hl] at h1; cases h1
      | true =>
        rw [send_eq_queued hl (h a (by simp))]
        refine ⟨rfl, fun q => ?_⟩
        show (s.ifaces.set _ _).get q = _
        rw [PerPort.get_set]
        by_cases hq : q = port a
        · subst hq; simp [hl]
        · rw [if_neg hq, if_neg (fun h => hq h.2.symm)]; simp
    rw [List.foldl_cons]
    have hps : ∀ q, (s.send (port a) (frame a)).portState q = s.portState q := fun q => by
      rw [hs.1]; rfl
    obtain ⟨h1, h2⟩ := ih (s.send (port a) (frame a)) fun b hb => by
      rw [hps]; exact h b (List.mem_cons_of_mem _ hb)
    refine ⟨?_, fun q => ?_⟩
    · have e := hs.1
      generalize l.foldl (fun s a => s.send (port a) (frame a)) (s.send (port a) (frame a)) = u at h1 ⊢
      generalize s.send (port a) (frame a) = v at e h1 ⊢
      rw [h1, e]
    · rw [h2 q, hs.2 q]
      cases hl : (s.ifaces.get q).linkUp with
      | false => simp [hl]
      | true =>
        by_cases hq : port a = q
        · simp [hl, hq]
        · simp [hl, hq]

theorem Port.all_nodup : Port.all.Nodup := by decide

/-- A notice is queued where the link is UP, once on each. -/
theorem sendNotice_spec (l : List Port) (n : Notice) (hn : l.Nodup) (h : ∀ p ∈ l, (s.portState p).isFenced = false) :
    s.sendNotice l n = { s with ifaces := (s.sendNotice l n).ifaces }
      ∧ ∀ q, (s.sendNotice l n).ifaces.get q =
        { s.ifaces.get q with
          outq := (s.ifaces.get q).outq
            ++ if q ∈ l ∧ (s.ifaces.get q).linkUp = true then [.notice n s.ctl.epoch] else [] } := by
  have key : ∀ (l : List Port) (t : State), t.ctl = s.ctl →
      l.foldl (fun s p => s.send p (.notice n s.ctl.epoch)) t
        = l.foldl (fun t p => t.send p (.notice n s.ctl.epoch)) t := by
    intro l
    induction l with
    | nil => intro t _; rfl
    | cons a l ih =>
      intro t ht
      rw [List.foldl_cons, List.foldl_cons, ht]
      refine ih _ ?_
      rw [← ht]
      exact (send_quiet (K := fun _ => True) t a _).ctl
  unfold State.sendNotice
  rw [key l s rfl]
  obtain ⟨h1, h2⟩ := foldl_send (fun p => p) (fun _ => .notice n s.ctl.epoch) l s h
  refine ⟨h1, fun q => ?_⟩
  rw [h2 q]
  cases hl : (s.ifaces.get q).linkUp with
  | false => simp
  | true =>
    by_cases hq : q ∈ l
    · have : (l.filter fun a => a == q) = [q] := by
        rw [List.filter_beq, List.count_eq_one_of_mem hn hq]; rfl
      simp [hq, this]
    · have : (l.filter fun a => a == q) = [] := by
        rw [List.filter_eq_nil_iff]
        intro a ha hc
        exact hq ((beq_iff_eq.1 hc) ▸ ha)
      simp [hq, this]

theorem mem_activePorts {p : Port} : p ∈ s.activePorts ↔ s.portState p = .active := by simp [State.activePorts]

theorem activePorts_nodup : s.activePorts.Nodup := Port.all_nodup.filter _

/-- A notice to every port in ACTIVE. -/
theorem sendNotice_active (n : Notice) :
    s.sendNotice s.activePorts n = { s with ifaces := (s.sendNotice s.activePorts n).ifaces }
      ∧ ∀ q, (s.sendNotice s.activePorts n).ifaces.get q =
        { s.ifaces.get q with
          outq := (s.ifaces.get q).outq
            ++ if s.portState q = .active ∧ (s.ifaces.get q).linkUp = true then [.notice n s.ctl.epoch] else [] } := by
  obtain ⟨h1, h2⟩ := sendNotice_spec s.activePorts n activePorts_nodup fun p hp =>
    isFenced_of_member (.inl (mem_activePorts.1 hp))
  refine ⟨h1, fun q => ?_⟩
  rw [h2 q]
  simp only [mem_activePorts]

/-! ### Recalls -/

/-- The recalls of a set, in ascending order of their ports. -/
def asked (asks : Port → Option RecallKind) : List (Port × RecallKind) :=
  Port.all.filterMap fun q => (asks q).map fun k => (q, k)

theorem awaitedOf_asked (asks : Port → Option RecallKind) : awaitedOf (asked asks) = awaiting asks := by
  unfold asked awaitedOf awaiting Port.all
  cases h0 : asks .p0 <;> cases h1 : asks .p1 <;> cases h2 : asks .p2 <;> cases h3 : asks .p3 <;>
    simp [h0, h1, h2, h3, PerPort.set, PerPort.const]

theorem asked_eq_nil {asks : Port → Option RecallKind} : asked asks = [] ↔ ∀ q, asks q = none := by
  unfold asked
  rw [List.filterMap_eq_nil_iff]
  simp

theorem filter_asked (asks : Port → Option RecallKind) (f : RecallKind → HubFrame) (q : Port) :
    ((asked asks).filter fun a => a.1 == q).map (fun a => f a.2) = ((asks q).map f).toList := by
  unfold asked Port.all
  cases h0 : asks .p0 <;> cases h1 : asks .p1 <;> cases h2 : asks .p2 <;> cases h3 : asks .p3 <;> cases q <;>
    simp [h0, h1, h2, h3]

theorem mem_asked {asks : Port → Option RecallKind} {a : Port × RecallKind} (h : a ∈ asked asks) : asks a.1 = some a.2 := by
  unfold asked at h
  rw [List.mem_filterMap] at h
  obtain ⟨q, _, hq⟩ := h
  cases hk : asks q with
  | none => rw [hk] at hq; cases hq
  | some k =>
    rw [hk] at hq
    injection hq with hq
    subst hq
    exact hk

/-- The recalls of one transaction, whole. -/
theorem issueRecalls_spec {i : SlotId} {x : Txn} (hx : s.txn i = some x) (g : Granule) (asks : Port → Option RecallKind)
    (hf : ∀ q, asks q ≠ none → (s.portState q).isFenced = false) :
    s.issueRecalls i g (asked asks)
        = { s.setTxn i (some
            { x with awaited := awaiting asks, deadline := some (s.now + s.table.recallLimit.toNat) }) with
          ifaces := (s.issueRecalls i g (asked asks)).ifaces }
      ∧ s.recallsQueued (s.issueRecalls i g (asked asks)) g i asks := by
  unfold State.issueRecalls
  obtain ⟨h1, h2⟩ := foldl_send (fun a : Port × RecallKind => a.1) (fun a => .recall a.2 g i) (asked asks) s fun a ha =>
    hf a.1 (by rw [mem_asked ha]; simp)
  generalize (asked asks).foldl (fun s r => s.send r.1 (.recall r.2 g i)) s = u at h1 h2 ⊢
  have hu : u.txn i = some x := by rw [h1]; exact hx
  unfold State.modifyTxn
  rw [hu, awaitedOf_asked]
  dsimp only
  constructor
  · rw [h1]
    rfl
  · intro q
    show u.ifaces.get q = _
    rw [h2 q]
    cases (s.ifaces.get q).linkUp
    · rfl
    · simp only [if_true]
      rw [filter_asked asks (fun k => HubFrame.recall k g i) q]

/-- No holder is dropped where none is fenced. -/
theorem dropFencedHolders_self {g : Granule} (h : ∀ q, s.holds q g = true → s.portState q ≠ .fencing) (i : SlotId)
    (own : Bool) : s.dropFencedHolders g i own = s := by
  have one : ∀ q, State.dropFencedHolder g i own s q = s := fun q => by
    unfold State.dropFencedHolder
    rw [if_neg]
    simp only [Bool.and_eq_true, beq_iff_eq, not_and]
    exact h q
  unfold State.dropFencedHolders Port.all
  simp only [List.foldl_cons, List.foldl_nil, one]

theorem map_members (m : PerPort Bool) (k : RecallKind) :
    (members m).map (fun q => (q, k)) = asked fun q => if m.get q then some k else none := by
  obtain ⟨a, b, c, d⟩ := m
  cases a <;> cases b <;> cases c <;> cases d <;> rfl

/-! ### The memory phase and activation -/

/-- A transaction with an operation of its own takes MEMORY, offers it and goes on. -/
theorem enterMemory_offers {i : SlotId} {x : Txn} {k : MemKind} (hx : s.txn i = some x)
    (hk : s.ownOperation i x = some k) :
    s.enterMemory i =
      ((s.setTxn i (some { x with phase := .memory, victim := none, deadline := none })).setMem
        (s.mem.offered ⟨k, x.granule, .slot i⟩), false) := by
  unfold State.enterMemory
  rw [hx]
  dsimp only
  rw [hk]
  dsimp only
  rw [if_neg (by rw [outstanding_offer]; omega), offer_eq]
  rfl

/-- A transaction with no operation of its own and none outstanding is at reply time at once. -/
theorem enterMemory_ends {i : SlotId} {x : Txn} (hx : s.txn i = some x) (hk : s.ownOperation i x = none)
    (ho : s.outstanding i = 0) :
    s.enterMemory i =
      ((s.setTxn i (some { x with phase := .memory, victim := none, deadline := none })).endTxn i, true) := by
  unfold State.enterMemory
  rw [hx]
  dsimp only
  rw [hk]
  exact if_pos ho

/-- Steps 4 to 6 of activation where no holder is fenced and nobody is recalled. -/
theorem recallPhase_quiet {i : SlotId} {x : Txn} (hx : s.txn i = some x)
    (hf : ∀ q, s.holds q x.granule = true → s.portState q ≠ .fencing)
    (hr : ∀ e, s.entry x.granule = some e → s.recallSet i x.kind e = []) : s.recallPhase i = s.enterMemory i := by
  unfold State.recallPhase
  rw [hx]
  dsimp only
  rw [dropFencedHolders_self hf]
  have : ((s.entry x.granule).map (s.recallSet i x.kind)).getD [] = [] := by
    cases he : s.entry x.granule with
    | none => rfl
    | some e => exact hr e he
  rw [this]

/-- Steps 4 to 6 of activation where no holder is fenced and some are recalled. -/
theorem recallPhase_recalls {i : SlotId} {x : Txn} {e : Entry} {asks : Port → Option RecallKind} (hx : s.txn i = some x)
    (hf : ∀ q, s.holds q x.granule = true → s.portState q ≠ .fencing) (he : s.entry x.granule = some e)
    (hr : s.recallSet i x.kind e = asked asks) (ha : ∃ q, asks q ≠ none)
    (hs : ∀ q, asks q ≠ none → (s.portState q).isFenced = false) :
    ∃ t, s.recallPhase i = (t, false)
      ∧ t = { s.setTxn i (some
          { x with
            phase := .recalling, awaited := awaiting asks, deadline := some (s.now + s.table.recallLimit.toNat) }) with
          ifaces := t.ifaces }
      ∧ s.recallsQueued t x.granule i asks := by
  obtain ⟨q, hq⟩ := ha
  obtain ⟨h1, h2⟩ := issueRecalls_spec hx x.granule asks hs
  unfold State.recallPhase
  rw [hx]
  dsimp only
  rw [dropFencedHolders_self hf, he, Option.map_some, Option.getD_some, hr]
  cases hl : asked asks with
  | nil => exact absurd (asked_eq_nil.1 hl q) hq
  | cons r rs =>
    rw [hl] at h1 h2
    dsimp only
    generalize s.issueRecalls i x.granule (r :: rs) = u at h1 h2 ⊢
    have hu : u.txn i = some { x with awaited := awaiting asks, deadline := some (s.now + s.table.recallLimit.toNat) } := by
      rw [h1]; exact txn_setTxn_same _ i _
    refine ⟨_, rfl, ?_, ?_⟩
    · unfold State.modifyTxn
      rw [hu]
      rw [h1]
      exact congrArg (fun t : State => { t with ifaces := u.ifaces }) (setTxn_setTxn i _ _)
    · intro q
      rw [← h2 q]
      unfold State.modifyTxn
      rw [hu]
      rfl

theorem State.NoEntry.holds {g : Granule} (h : s.NoEntry g) (q : Port) : s.holds q g = false := by
  unfold State.holds
  rw [h.entry]
  rfl

theorem State.EntryAt.holds {g : Granule} {w : Fin 8} {e : Entry} (h : s.EntryAt g w e) (q : Port) :
    s.holds q g = e.holders.get q := by
  unfold State.holds
  rw [h.entry]
  rfl

/-- A chain kind of a granule without chain is activated as it is placed. -/
theorem place_alone {g : Granule} (h : s.chain g = []) (i : SlotId) (k : TxnKind) :
    s.place i k g = (((s.setTxn i (some (newTxn k g))).setChain g [i]).activate i).1 := by
  unfold State.place
  rw [h]
  rfl

theorem DirSet.invalidWay_of {d : DirSet} {w : Fin 8} (hw : d.ways.get w = none)
    (hl : ∀ v, v < w → d.ways.get v ≠ none) : d.invalidWay = some w := by
  cases h : d.invalidWay with
  | none =>
    unfold DirSet.invalidWay at h
    rw [List.find?_eq_none] at h
    exact absurd (by rw [hw]; rfl) (h w (mem_allWays w))
  | some v =>
    have hv := DirSet.get_invalidWay h
    rcases lt_trichotomy v w with hlt | heq | hgt
    · exact absurd hv (hl v hlt)
    · rw [heq]
    · exfalso
      unfold DirSet.invalidWay allWays at h
      have hw' : (d.ways.get w).isNone = true := by rw [hw]; rfl
      have : ∀ x : Fin 8, x < v → (d.ways.get x).isNone = false := by
        intro x hx
        rw [List.find?_eq_some_iff_append] at h
        obtain ⟨-, as, bs, hab, hb⟩ := h
        have hm : x ∈ as := by
          have key : ∀ v x : Fin 8, x < v → ∀ as bs, ([0, 1, 2, 3, 4, 5, 6, 7] : List (Fin 8)) = as ++ v :: bs → x ∈ as := by
            intro v x hx as bs e
            have hi : as.length = v.val := by
              have hg : ([0, 1, 2, 3, 4, 5, 6, 7] : List (Fin 8))[as.length]? = some v := by
                rw [e]; simp
              have hlt : as.length < 8 := by
                have := congrArg List.length e
                simp at this
                omega
              have : ∀ n : Fin 8, ([0, 1, 2, 3, 4, 5, 6, 7] : List (Fin 8))[n.val]? = some n := by decide
              have h2 := this ⟨as.length, hlt⟩
              simp only at h2
              rw [h2] at hg
              injection hg with hg
              rw [← hg]
            have hx' : ([0, 1, 2, 3, 4, 5, 6, 7] : List (Fin 8))[x.val]? = some x := by
              have : ∀ n : Fin 8, ([0, 1, 2, 3, 4, 5, 6, 7] : List (Fin 8))[n.val]? = some n := by decide
              exact this x
            rw [e, List.getElem?_append_left (by omega)] at hx'
            exact List.mem_of_getElem? hx'
          exact key v x hx as bs hab
        have := hb x hm
        simpa using this
      rw [this w hgt] at hw'
      cases hw'

theorem map_members_but (m : PerPort Bool) (p : Port) (k : RecallKind) :
    ((members m).filter fun q => q != p).map (fun q => (q, k)) = asked fun q => if m.get q && q != p then some k else none := by
  obtain ⟨a, b, c, d⟩ := m
  cases a <;> cases b <;> cases c <;> cases d <;> cases p <;> rfl

theorem asked_none : asked (fun _ => none) = [] := rfl

theorem noMember_false {m : PerPort Bool} {q : Port} (h : m.get q = true) : noMember m = false := by
  obtain ⟨a, b, c, d⟩ := m
  cases q <;> simp_all [noMember, PerPort.get]

theorem noMember_iff (m : PerPort Bool) : noMember m = true ↔ m = .const false := by
  obtain ⟨a, b, c, d⟩ := m
  cases a <;> cases b <;> cases c <;> cases d <;> decide

/-- The recall set of an admitted request against an entry, port by port (04 R66 to R82). -/
theorem recallSet_member {i : SlotId} {p : Port} {r : Request} (hi : slotPort i = some p) (hb : r.bypass = false) (e : Entry) :
    s.recallSet i (.member r) e = asked fun q =>
      if e.holders.get q = false then none
      else
        match (generalizing := false) r with
        | .readShare => if e.mode = .owner then some .demote else none
        | .peek => if e.mode = .owner then some .demote else none
        | .promote => if e.holders.get p = true ∧ (e.mode = .owner ∨ q = p) then none else some .revoke
        | _ => some .revoke := by
  have demote : demoteOwner e = asked fun q => if e.holders.get q = false then none
      else if e.mode = .owner then some .demote else none := by
    unfold demoteOwner
    cases hm : e.mode with
    | readers => exact (asked_eq_nil.2 fun q => by simp).symm
    | owner =>
      dsimp only
      rw [map_members]
      refine congrArg asked (funext fun q => ?_)
      cases e.holders.get q <;> simp
  have revoke : revokeAll e = asked fun q => if e.holders.get q = false then none else some .revoke := by
    unfold revokeAll
    rw [map_members]
    refine congrArg asked (funext fun q => ?_)
    cases e.holders.get q <;> simp
  cases r with
  | readShare => exact demote
  | peek => exact demote
  | readOwn => exact revoke
  | poke _ _ => exact revoke
  | atomic _ => exact revoke
  | promote =>
    show (match slotPort i with | some p => promoteRecalls p e | none => revokeAll e) = _
    rw [hi]
    dsimp only
    unfold promoteRecalls
    cases hp : e.holders.get p with
    | false => rw [if_neg (by simp), revoke]; simp
    | true =>
      rw [if_pos rfl]
      cases hm : e.mode with
      | owner => exact (asked_eq_nil.2 fun q => by simp).symm
      | readers =>
        dsimp only
        rw [map_members_but]
        refine congrArg asked (funext fun q => ?_)
        cases e.holders.get q <;> by_cases hq : q = p <;> simp [hq]
  | returnDirty _ => cases hb
  | release => cases hb

/-! ### The end of a transaction -/

/-- A transaction that ends in the change that placed it leaves the table as it was. -/
theorem freeHead_placed {u : State} {i : SlotId} {g : Granule} {x : Option Txn} (hc : Sparse.wf [] s.table.chains)
    (ht : s.txn i = none) (hch : s.chain g = []) (hu : u.table = ((s.setTxn i x).setChain g [i]).table) :
    u.freeHead i g = { u with table := s.table } := by
  have hg : u.chain g = [i] := by
    have : u.chain g = ((s.setTxn i x).setChain g [i]).chain g := by unfold State.chain; rw [hu]
    rw [this, chain_setChain_of_ne (by simp), if_pos rfl]
  have h1 : u.freeHead i g = (u.setTxn i none).setChain g [] := by
    show (u.setTxn i none).setChain g (((u.setTxn i none).chain g).erase i) = _
    have : (u.setTxn i none).chain g = [i] := hg
    rw [this]
    simp
  rw [h1]
  have h2 : ((s.setTxn i x).setChain g [i]).setChain g ((s.setTxn i x).chain g) = s.setTxn i x :=
    setChain_back (s := s.setTxn i x) hc g [i]
  have h3 : (s.setTxn i x).setTxn i (s.txn i) = s := setTxn_back i x
  have h4 : (s.setTxn i x).chain g = [] := hch
  rw [h4] at h2
  rw [ht] at h3
  have key : ((u.setTxn i none).setChain g []).table = s.table := by
    have e1 : ((u.setTxn i none).setChain g []).table
        = (((((s.setTxn i x).setChain g [i])).setTxn i none).setChain g []).table := by
      unfold State.setChain State.setTxn at hu ⊢
      dsimp only at hu ⊢
      rw [hu]
    rw [e1]
    have e2 : ((((s.setTxn i x).setChain g [i])).setTxn i none).setChain g []
        = ((((s.setTxn i x).setChain g [i])).setChain g []).setTxn i none := rfl
    rw [e2, h2, h3]
  rw [← key]
  rfl

/-- An entry rewritten as it stands. -/
theorem State.EntryAt.put_self {g : Granule} {w : Fin 8} {e : Entry} (h : s.EntryAt g w e) :
    (s.dirSet (setOf g)).put w e = s.dirSet (setOf g) := by
  unfold DirSet.put
  have : (s.dirSet (setOf g)).ways.set w.val (some e) w.isLt = (s.dirSet (setOf g)).ways := by
    ext j hj
    rw [Vector.getElem_set]
    split
    · rename_i hw
      subst hw
      have := h.1
      rw [show (s.dirSet (setOf g)).ways.get w = (s.dirSet (setOf g)).ways[w.val] from rfl] at this
      rw [this]
    · rfl
  rw [this]

/-- A change that leaves the entry as it is. -/
theorem State.EntryAt.change_self {g : Granule} {w : Fin 8} {e : Entry} (h : s.EntryAt g w e)
    (hc : Sparse.wf DirSet.empty s.dir) {c : EntryChange} (he : e.apply c = e) (hf : e.freed = false) :
    s.changeEntry g c = s := by
  rw [h.change_kept (by rw [he]; exact hf), he, h.put_self]
  exact setDirSet_self hc _

/-- The release of a lock that the entry does not carry. -/
theorem Entry.unlock_none {e : Entry} (h : e.lock = .none) (i : SlotId) : e.apply (.unlock i) = e := by
  obtain ⟨g, m, hs, l⟩ := e
  subst h
  rfl

/-- An entry locked by a transaction. -/
theorem State.EntryAt.lockBusy {g : Granule} {w : Fin 8} {e : Entry} (h : s.EntryAt g w e) (i : SlotId) :
    s.changeEntry g (.lockBusy i)
      = s.setDirSet (setOf g) ((s.dirSet (setOf g)).put w { e with lock := .busy i }) :=
  h.change_kept (by show (noMember e.holders && (Lock.busy i == Lock.none)) = false; rw [Bool.and_eq_false_iff]; exact .inr rfl)

/-- A way rewritten twice. -/
theorem State.wayBecomes.trans {u : State} {g : Granule} {w : Fin 8} {e : Entry} {o : Option Entry}
    (h : s.wayBecomes t g w (some e)) (k : t.wayBecomes u g w o) : s.wayBecomes u g w o := by
  intro j
  rw [k j, h j]
  split
  · rw [if_neg (show ¬(some e = none) by simp)]
    congr 1
    ext n hn
    rw [Vector.getElem_set, Vector.getElem_set, Vector.getElem_set]
    split <;> rfl
  · rfl

/-- Activation of a transaction whose granule has an entry: the entry is locked. -/
theorem activateInPlace_locks {i : SlotId} {x : Txn} {g : Granule} {w : Fin 8} {e : Entry} (hx : s.txn i = some x)
    (hz : x.kind.zeroMask = false) (hg : x.granule = g) (he : s.EntryAt g w e) :
    s.activateInPlace i
      = (s.setDirSet (setOf g) ((s.dirSet (setOf g)).put w { e with lock := .busy i })).recallPhase i := by
  unfold State.activateInPlace
  rw [hx]
  dsimp only
  rw [hz, if_neg (by simp), hg, he.lockBusy]

/-- Activation of a transaction whose granule has no entry and which allocates none. -/
theorem activateInPlace_free {i : SlotId} {x : Txn} {g : Granule} (hc : Sparse.wf DirSet.empty s.dir)
    (hx : s.txn i = some x) (hz : x.kind.zeroMask = false) (hg : x.granule = g) (he : s.NoEntry g) :
    s.activateInPlace i = s.recallPhase i := by
  unfold State.activateInPlace
  rw [hx]
  dsimp only
  rw [hz, if_neg (by simp), hg, he.change hc]

theorem asked_members_ne_nil {m : PerPort Bool} (h : noMember m = false) (k : RecallKind) :
    (asked fun q => if m.get q then some k else none) ≠ [] := by
  rw [← map_members]
  intro hc
  rw [List.map_eq_nil_iff] at hc
  obtain ⟨a, b, c, d⟩ := m
  revert h hc
  cases a <;> cases b <;> cases c <;> cases d <;> decide

/-! ### Holders removed -/

/-- The entry after the removal of a holder: freed where it has neither holder nor lock (02 R36, R39). -/
theorem State.EntryAt.remove {g : Granule} {w : Fin 8} {e : Entry} (h : s.EntryAt g w e)
    (hc : Sparse.wf DirSet.empty s.dir) (p : Port) :
    s.wayBecomes (s.changeEntry g (.remove p)) g w
      (if e.lock = .none ∧ e.holders.set p false = .const false then none
        else some { e with holders := e.holders.set p false }) := by
  rw [h.change]
  have hf : ((e.apply (.remove p)).freed = true) ↔ e.lock = .none ∧ e.holders.set p false = .const false := by
    unfold Entry.freed Entry.apply
    simp only [Bool.and_eq_true, beq_iff_eq]
    rw [noMember_iff, and_comm]
  by_cases hd : e.lock = .none ∧ e.holders.set p false = .const false
  · rw [if_pos hd, if_pos (hf.2 hd)]
    exact wayBecomes_free hc g w rfl
  · rw [if_neg hd, if_neg (fun hh => hd (hf.1 hh))]
    exact wayBecomes_put g w _ rfl

/-- The entry of the granule after its way has been rewritten or freed. -/
theorem State.wayBecomes.entry {g : Granule} {w : Fin 8} {e f : Entry} {o : Option Entry} (h : s.EntryAt g w e)
    (hb : s.wayBecomes t g w o) (hf : t.entry g = some f) : o = some f := by
  unfold State.entry at hf
  dsimp only at hf
  cases hw : (t.dirSet (setOf g)).wayOf g with
  | none => rw [hw] at hf; cases hf
  | some v =>
    rw [hw] at hf
    obtain ⟨f', hf', hg'⟩ := DirSet.granule_of_wayOf hw
    have hff : (t.dirSet (setOf g)).ways.get v = some f := hf
    rw [hff] at hf'
    injection hf' with hf'
    subst hf'
    have hd := hb (setOf g)
    rw [if_pos rfl] at hd
    rw [hd] at hff
    have := getElem_ways_set (s.dirSet (setOf g)) w v o
    rw [show (Vector.set (s.dirSet (setOf g)).ways w.val o w.isLt).get v = if v = w then o
      else (s.dirSet (setOf g)).ways.get v from this] at hff
    split at hff
    · exact hff
    · rename_i hne
      exact absurd (h.2.2 v f hff hg') hne

/-- No eviction waits for the entry. -/
theorem recheckVictim_self {g : Granule} (h : ∀ e, s.entry g = some e → ∀ j, e.lock ≠ .evicting j) :
    s.recheckVictim g = s := by
  unfold State.recheckVictim
  cases he : s.entry g with
  | none => rfl
  | some e =>
    dsimp only
    cases hl : e.lock with
    | evicting j => exact absurd hl (h e he j)
    | _ => rfl

end Sys2Proof.Machine
end

