-- ==== Sys2Proof/Tests/Slice0.lean ====
section
/-! SUPPORT. Tests of the model: ill-formed commands, single steps on small states, and for each statement with
hypotheses a state and operands that meet them. -/

namespace Sys2Proof.Tests

open Machine

/- The kernel's evaluations run one after the other: many at a time would each hold a thread. -/
set_option Elab.async false

/-! ### Ill-formed commands -/

theorem test_wf_refuses_read_share_tag : (Instr.readShare .p0 14 0).wf = false := by decide
theorem test_wf_refuses_read_own_tag : (Instr.readOwn .p0 15 0).wf = false := by decide
theorem test_wf_refuses_promote_tag : (Instr.promote .p0 14 0).wf = false := by decide
theorem test_wf_refuses_peek_tag : (Instr.peek .p0 14 0).wf = false := by decide
theorem test_wf_refuses_poke_tag : (Instr.poke .p0 14 0 0 0).wf = false := by decide
theorem test_wf_refuses_atomic_tag : (Instr.atomic .p0 14 0 ⟨.swap, 0, 0, 0⟩).wf = false := by decide
theorem test_wf_refuses_return_dirty_tag : (Instr.returnDirty .p0 14 0 0).wf = false := by decide
theorem test_wf_refuses_release_tag : (Instr.release .p0 15 0).wf = false := by decide

/-- A READ_SHARE frame is no malformed frame. -/
theorem test_wf_refuses_well_formed_frame : (Instr.malformedFrame .p0 [1, 0, 0, 0, 0, 0, 0, 0]).wf = false := by
  decide +kernel

/-- A write to EVENT_ENABLE has a row of its own. -/
theorem test_wf_refuses_writable_register : (Instr.regWrite 0x38 0).wf = false := by decide +kernel

theorem test_wf_refuses_no_bits_in_error : (Instr.dramBitsInError 0 0 0).wf = false := by decide

/-- HUB_CLEAR has no argument bytes. -/
theorem test_wf_refuses_complete_selection : (Instr.incompleteSelection [10]).wf = false := by decide +kernel

theorem test_wf_refuses_known_command : (Instr.unknownServiceCommand 13).wf = false := by decide

theorem test_wf_accepts :
    (Instr.readShare .p0 13 0).wf = true ∧ (Instr.malformedFrame .p0 [1, 14, 0, 0, 0, 0, 0, 0]).wf = true
      ∧ (Instr.regWrite 0 0).wf = true ∧ (Instr.regWrite 0xF8 0).wf = true ∧ (Instr.regWrite 0x39 0).wf = true
      ∧ (Instr.dramBitsInError 0 0 1).wf = true ∧ (Instr.incompleteSelection [12]).wf = true
      ∧ (Instr.unknownServiceCommand 0).wf = true ∧ (Instr.unknownServiceCommand 14).wf = true := by
  decide +kernel

/-! ### Small states -/

/-- A record of port 0 with a card behind a closed latch. -/
def seated (st : PortState) : PortRec := { PortRec.reset with state := st, present := true, latchClosed := true }

/-- The running hub with this record of port 0, its link UP, and nothing else under way. -/
def hubWith (r : PortRec) : State :=
  let s := State.reset
  { s with
    inReset := false
    mem := { s.mem with nextInit := leastGranuleCount }
    ctl := { s.ctl with ports := s.ctl.ports.set .p0 r }
    ifaces := .const { linkUp := true, protoErrors := 0, outq := [], waiting := [] }
    svc := { s.svc with hubState := .running } }

/-- The running hub with port 0 in this state. -/
def hub (st : PortState) : State := hubWith (seated st)

/-- The hub with port 0 ACTIVE and all its ports' records as port 0's. -/
def fullHub : State := { hub .active with ctl := { (hub .active).ctl with ports := .const (seated .active) } }

/-- Port 0 is a member with a control grant. -/
def granted : State := hubWith { seated .active with controlGrant := true }

/-- A control block with a code, an argument and an offset. -/
def block (code arg : Byte) (offset : BitVec 16) : ControlBlock := ⟨code, arg, offset, 0, 0, 0⟩

/-- The state with another hub state. -/
def inState (h : HubState) (s : State) : State := { s with svc := { s.svc with hubState := h } }

/-- The state with this entry of granule 0 in way 0. -/
def holding (e : Entry) (s : State) : State :=
  s.setDirSet 0 ⟨(Vector.replicate 8 none).set 0 (some e), [0]⟩

/-- The state with a chain of granule 0 that holds only slot `i` with this record. -/
def running (i : SlotId) (x : Txn) (s : State) : State := (s.setTxn i (some x)).setChain 0 [i]

/-- The state with this operation alone in the memory queue. -/
def queuing (k : MemKind) (o : Origin) (s : State) : State := s.setMem { s.mem with queue := [⟨k, 0, o⟩] }

/-- The sets of ports with port 0 alone, and with ports 0 and 1. -/
def p0Only : PerPort Bool := ⟨true, false, false, false⟩
def p0AndP1 : PerPort Bool := ⟨true, true, false, false⟩

/-! ### How a state is seen to meet a condition -/

theorem entryAt_of_alone {s : State} {g : Granule} {w : Fin 8} {e : Entry}
    (there : (s.dirSet (setOf g)).ways.get w = some e) (its : e.granule = g)
    (alone : ∀ v, v ≠ w → (s.dirSet (setOf g)).ways.get v = none) : s.EntryAt g w e :=
  ⟨there, its, fun v f at_v _ => by
    by_contra other
    rw [alone v other] at at_v
    cases at_v⟩

theorem noEntry_of_empty {s : State} {g : Granule} (empty : ∀ v, (s.dirSet (setOf g)).ways.get v = none) :
    s.NoEntry g := fun v e at_v => by
  rw [empty v] at at_v
  cases at_v

theorem settled_of_each {s : State}
    (each : s.mayLeave .p0 = false ∧ s.mayLeave .p1 = false ∧ s.mayLeave .p2 = false ∧ s.mayLeave .p3 = false) :
    s.settled := fun p => by
  cases p
  exacts [each.1, each.2.1, each.2.2.1, each.2.2.2]

theorem unawaited_of_each {s : State} {p : Port}
    (each : ∀ i : SlotId, ((s.txn i).all fun x => x.awaited.get p == none) = true) :
    ∀ i x, s.txn i = some x → x.awaited.get p = none := fun i x at_i => by
  have h := each i
  rw [at_i] at h
  simpa using h

theorem canonical_of {s : State}
    (h : Memory.wf s.mem.dram ∧ Sparse.wf 0 s.mem.bitErrors ∧ Sparse.wf false s.mem.poison
      ∧ Sparse.wf [] s.table.chains ∧ Sparse.wf DirSet.empty s.dir) : s.tablesCanonical := h

theorem serves_hub (r : PortRec) : (hubWith r).serves := ⟨rfl, rfl⟩

theorem receives_hub (r : PortRec) (p : Port) : (hubWith r).receives p :=
  ⟨rfl, by cases p <;> rfl, by cases p <;> exact (by decide : 0 < 32), by cases p <;> rfl⟩

theorem settled_hub : ∀ st : PortState, (hub st).settled := fun st => settled_of_each (by cases st <;> decide +kernel)

theorem canonical_hub (st : PortState) : (hub st).tablesCanonical := canonical_of (by cases st <;> decide)

theorem register_offsets (r : Reg) : r.offset % 8 = 0 ∧ r.offset ≤ 0xF8 := by
  cases r with
  | portStatus p => cases p <;> decide
  | portControl p => cases p <;> decide
  | protoErrors p => cases p <;> decide
  | window k => exact ⟨by simp only [Reg.offset]; omega, by simp only [Reg.offset]; omega⟩
  | _ => decide

/-! ### A state whose laws can be checked -/

/-- What one slot must be, where only granule 0 has a chain, `c`, and may have an entry, whose lock is `l`. -/
def slotFits (c : List SlotId) (l : Option Lock) (i : SlotId) (x : Txn) : Bool :=
  (!(x.phase.active || x.phase == .waiting && i != serviceSlot) || x.granule == 0 && c.contains i || x.phase == .evicting)
    && (!(x.phase == .bypass || x.phase == .draining) || i.val < 48)
    && (match x.kind with
      | .member r => i.val < 48 && !((x.phase == .waiting || x.phase.active) && r.bypass)
      | .sweepDepart _ => i == sweepSlot
      | .sweepRecheck => i == sweepSlot
      | .sweepWithdrawn => i == sweepSlot
      | .memPeek => i == serviceSlot
      | .memPoke _ _ => i == serviceSlot)
    && (!((x.phase == .recalling || x.phase == .memory) && x.granule == 0) || l.all fun k => k == .busy i)
    && x.phase != .evicting && x.victim.isNone

/-- What the lock of granule 0's entry must be. -/
def lockFits (slot : SlotId → Option Txn) : Option Lock → Bool
  | some (.busy i) => (slot i).any fun x => x.granule == 0 && (x.phase == .recalling || x.phase == .memory)
  | some (.evicting _) => false
  | some .none => true
  | none => true

theorem tableLaw_of {slot : SlotId → Option Txn} {chain : Granule → List SlotId} {lock : Granule → Option Lock}
    {result : SlotResult} (c : List SlotId) (l : Option Lock) (chains : ∀ g, chain g = if g = 0 then c else [])
    (locks : ∀ g, lock g = if g = 0 then l else none) (nodup : c.Nodup)
    (members : ∀ i ∈ c, ((slot i).any fun x => x.granule == 0 && (x.phase.active || x.phase == .waiting)) = true)
    (head : c.head?.all (fun i => (slot i).any fun x => x.phase.active) = true)
    (tail : ∀ i ∈ c.tail, ((slot i).any fun x => x.phase == .waiting) = true)
    (fits : ∀ i, (slot i).all (slotFits c l i) = true) (lockOk : lockFits slot l = true)
    (served : slot serviceSlot = none) (idle : ∀ k g, result ≠ .pending k g) :
    TableLaw (fun _ => False) slot chain lock result := by
  have fit : ∀ i x, slot i = some x → slotFits c l i x = true := fun i x h => by
    have := fits i
    rw [h] at this
    simpa using this
  have inside : ∀ g i, i ∈ chain g → g = 0 ∧ i ∈ c := fun g i h => by
    rw [chains g] at h
    split at h
    · exact ⟨by assumption, h⟩
    · cases h
  have within : ∀ g i, i ∈ chain g → i ∈ c := fun g i h => (inside g i h).2
  refine
    { nodup := fun g => ?_, inChain := fun g i h => ?_, head := fun g i rest h => ⟨fun _ => ?_, fun j hj => ?_⟩,
      placed := fun i x h hp => ?_, seated := fun i x h => ?_, busy := fun g i h => ?_, locked := fun i x k h hp hk => ?_,
      evicting := fun g i h => ?_, evicts := fun i x h hp => ?_, result := ⟨fun x h => ?_, fun _ => idle⟩,
      opened := nofun }
  · rw [chains g]
    split
    · exact nodup
    · exact List.nodup_nil
  · obtain rfl := (inside g i h).1
    obtain ⟨x, hx, hp⟩ := Option.any_eq_true _ _ |>.1 (members i (within 0 i h))
    simp only [Bool.and_eq_true, Bool.or_eq_true, beq_iff_eq] at hp
    exact ⟨x, hx, hp⟩
  · obtain ⟨rfl, -⟩ := inside g i (by rw [h]; simp)
    rw [chains 0, if_pos rfl] at h
    rw [h] at head
    exact Option.any_eq_true _ _ |>.1 (by simpa using head)
  · obtain ⟨rfl, -⟩ := inside g i (by rw [h]; simp)
    rw [chains 0, if_pos rfl] at h
    rw [h] at tail
    obtain ⟨x, hx, hp⟩ := Option.any_eq_true _ _ |>.1 (tail j hj)
    exact ⟨x, hx, by simpa using hp⟩
  · have f := fit i x h
    have : x.phase ≠ .evicting := by
      simp only [slotFits, Bool.and_eq_true, bne_iff_ne] at f
      exact f.1.2
    have on : (x.phase.active || x.phase == .waiting && i != serviceSlot) = true := by
      rcases hp with hp | ⟨hp, hi⟩
      · simp [hp]
      · simp [hp, hi]
    simp only [slotFits, on, Bool.and_eq_true, Bool.or_eq_true, Bool.not_true, Bool.false_eq_true, false_or, beq_iff_eq,
      this, or_false, List.contains_iff_mem] at f
    rw [chains x.granule, if_pos f.1.1.1.1.1.1]
    exact f.1.1.1.1.1.2
  · have f := fit i x h
    simp only [slotFits, Bool.and_eq_true] at f
    obtain ⟨⟨⟨⟨⟨-, f2⟩, f3⟩, -⟩, -⟩, f4⟩ := f
    refine ⟨fun hp => by rcases hp with hp | hp <;> simpa [hp] using f2, fun _ => by simpa using f4, ?_⟩
    cases hk : x.kind with
    | member r =>
      rw [hk] at f3
      simp only [Bool.and_eq_true, decide_eq_true_eq, Bool.not_eq_true', Bool.and_eq_false_iff, Bool.or_eq_false_iff] at f3
      refine ⟨f3.1, fun hp => f3.2.resolve_left fun n => ?_⟩
      rcases hp with hp | hp
      · rw [hp] at n; simp at n
      · rw [hp] at n; simp at n
    | _ => rw [hk] at f3; simpa using f3
  · rw [locks g] at h
    split at h
    · subst g
      subst h
      obtain ⟨x, hx, hp⟩ := Option.any_eq_true _ _ |>.1 (lockOk : ((slot i).any _) = true)
      simp only [Bool.and_eq_true, Bool.or_eq_true, beq_iff_eq] at hp
      exact ⟨x, hx, hp⟩
    · cases h
  · rw [locks] at hk
    split at hk
    · rename_i hg
      have f := fit i x h
      have on : ((x.phase == .recalling || x.phase == .memory) && x.granule == 0) = true := by
        rcases hp with hp | hp <;> simp [hp, hg]
      simp only [slotFits, on, hk, Bool.and_eq_true, Bool.not_true, Bool.false_or, Option.all_some, beq_iff_eq] at f
      exact f.1.1.2
    · cases hk
  · rw [locks g] at h
    split at h
    · subst h
      cases lockOk
    · cases h
  · have f := fit i x h
    simp [slotFits, hp] at f
  · rw [served] at h
    cases h

/-- The lock of every granule, where only way 0 of set 0 holds an entry, and that of granule 0. -/
theorem lockOf_holding {s : State} {e : Entry} (empty : s.dir = []) (its : e.granule = 0) (g : Granule) :
    (holding e s).lockOf g = if g = 0 then some e.lock else none := by
  have set : ∀ k, (holding e s).dirSet k = if k = 0 then ⟨(Vector.replicate 8 none).set 0 (some e), [0]⟩ else .empty := by
    intro k
    unfold holding State.setDirSet State.dirSet
    rw [empty, Sparse.get_set Sparse.wf_nil]
    rfl
  have none_there : ∀ w, DirSet.empty.ways.get w = none := by decide
  have at_way : ∀ w : Fin 8, ((Vector.replicate 8 none).set 0 (some e) : Vector (Option Entry) 8).get w
      = if w = 0 then some e else none := fun w => by fin_cases w <;> rfl
  unfold State.lockOf
  by_cases hg : g = 0
  · subst hg
    rw [if_pos rfl]
    have : (holding e s).EntryAt 0 0 e := by
      refine entryAt_of_alone ?_ its fun v other => ?_
      · rw [set, show setOf 0 = 0 from rfl, if_pos rfl, at_way, if_pos rfl]
      · rw [set, show setOf 0 = 0 from rfl, if_pos rfl, at_way, if_neg other]
    rw [this.entry]
    rfl
  · rw [if_neg hg]
    have : (holding e s).NoEntry g := fun w f at_w same => by
      rw [set] at at_w
      split at at_w
      · rw [at_way] at at_w
        split at at_w
        · injection at_w with at_w
          exact hg (by rw [← same, ← at_w, its])
        · cases at_w
      · rw [none_there] at at_w
        cases at_w
    rw [this.entry]
    rfl

theorem lockOf_empty {s : State} (empty : s.dir = []) (g : Granule) :
    s.lockOf g = if g = 0 then none else none := by
  have none_there : ∀ w, DirSet.empty.ways.get w = none := by decide
  have : s.NoEntry g := fun w f at_w => by
    unfold State.dirSet at at_w
    rw [empty, show Sparse.get DirSet.empty ([] : List (Nat × DirSet)) (setOf g) = DirSet.empty from rfl,
      none_there] at at_w
    cases at_w
  unfold State.lockOf
  rw [this.entry]
  simp

/-! ### States that meet the conditions of the statements -/

theorem test_meets_StepRunsFrontCommand :
    ({ State.reset with pending := [.slotStatus, .hubClear] } : State).pending = .slotStatus :: [.hubClear] := rfl

/-- A recall deadline and a departure deadline that the next tick reaches, and one of each that it does not. -/
theorem test_meets_EmptyQueueTicks :
    let s : State :=
      State.withPort
        ((hubWith { seated .departing with deadline := some 1 }).setTxn 0
          (some { newTxn (.member .peek) 0 with deadline := some 1 }) |>.setTxn 1
          (some { newTxn (.member .peek) 0 with deadline := some 2 }))
        .p1 { seated .departing with deadline := some 2 }
    s.pending = []
      ∧ (s.dueRecalls (s.now + 1) ++ s.dueDepartures (s.now + 1)
        = [.recallDeadlineExpiry 0, .departureDeadlineExpiry .p0]) := by
  decide +kernel

theorem test_meets_QueuesKeepTheirOrder :
    (∃ t, exec .initComplete (queuing .init .initializer (hub .active)) = .next t ∧ t.mem.queue = [])
      ∧ (∃ t, exec .hubReset (queuing .init .initializer (hub .active)) = .next t ∧ t.mem.queue = []) :=
  ⟨⟨_, rfl, by decide +kernel⟩, ⟨_, rfl, rfl⟩⟩

theorem test_meets_EveryCommandCompletes :
    (hub .active).granulesInstalled
      ∧ exec .readComplete ((hub .active).setMem
          { (hub .active).mem with queue := [⟨.read, 2097152, .sweep⟩] }) = .fault .noSuchGranule := by
  refine ⟨⟨nofun, by decide, by decide, by decide, by decide, ?_, ?_⟩, rfl⟩
  · intro i x at_i
    have h : ∀ i, (hub .active).txn i = none := by decide +kernel
    rw [h i] at at_i
    cases at_i
  · intro k w e at_w
    have h : ∀ w, DirSet.empty.ways.get w = none := by decide
    rw [show (hub .active).dirSet k = DirSet.empty from rfl, h w] at at_w
    cases at_w

theorem test_meets_HubResetIsTaken :
    State.reset.inReset = true ∧ Instr.linkUp .p0 ≠ .hubReset ∧ ∀ l, Instr.linkUp .p0 ≠ .hubResetEnd l :=
  ⟨rfl, by decide, fun _ => nofun⟩

theorem test_meets_HubResetEndTakesTheLines : State.reset.inReset = true ∧ State.reset.enterReset = State.reset :=
  ⟨rfl, rfl⟩

theorem test_meets_RegistersAreNamedByOffset :
    (hub .active).serves ∧ (0 : BitVec 16).toNat = Reg.offset .hubState ∧ (0xF8 : BitVec 16).toNat = Reg.offset (.window 7)
      ∧ (∀ r : Reg, (0x100 : BitVec 16).toNat ≠ r.offset) ∧ (∀ r : Reg, (0x04 : BitVec 16).toNat ≠ r.offset)
      ∧ Reg.readOnly .hubState = true ∧ Reg.readOnly (.window 7) = true := by
  refine ⟨serves_hub _, rfl, rfl, fun r h => ?_, fun r h => ?_, rfl, rfl⟩ <;>
  · have := register_offsets r
    rw [← h] at this
    exact absurd this (by decide)

theorem test_meets_RegisterWritesAreTaken :
    (hub .active).serves ∧ (0x38 : BitVec 16).toNat = Reg.offset .eventEnable
      ∧ (0x18 : BitVec 16).toNat = Reg.offset .admitMode ∧ (0x20 : BitVec 16).toNat = Reg.offset .recallLimit
      ∧ (0x28 : BitVec 16).toNat = Reg.offset .departLimit ∧ (0x98 : BitVec 16).toNat = Reg.offset (.portControl .p3)
      ∧ (0x30 : BitVec 16).toNat = Reg.offset .eventStatus ∧ (0x40 : BitVec 16).toNat = Reg.offset .corrected
      ∧ (0x48 : BitVec 16).toNat = Reg.offset .uncorrected ∧ (0x50 : BitVec 16).toNat = Reg.offset .firstFault
      ∧ (0xB8 : BitVec 16).toNat = Reg.offset (.protoErrors .p3) :=
  ⟨serves_hub _, by decide⟩

theorem test_meets_RegisterFields :
    (hub .active).mem.firstFault = none ∧ (hub .active).mem.granuleCount < 2 ^ 24
      ∧ ((hub .active).setMem { (hub .active).mem with firstFault := some ⟨0x7FFFFF, 7⟩ }).mem.firstFault
        = some ⟨0x7FFFFF, 7⟩
      ∧ (hub .active).txn sweepSlot = none
      ∧ ∀ phase, ((hub .active).setTxn sweepSlot (some { newTxn .sweepRecheck 0 with phase := phase })).txn sweepSlot
        = some { newTxn .sweepRecheck 0 with phase := phase } :=
  ⟨rfl, by decide, rfl, by decide +kernel, fun _ => rfl⟩

theorem test_meets_IndicatorLine :
    (∃ t, exec .hubReset (hub .parked) = .next t) ∧ (hub .parked).indicatorLine .p0 = true
      ∧ (hub .fenced).indicatorLine .p0 = true ∧ (hub .active).indicatorLine .p0 = false
      ∧ (hubWith { seated .active with indicatorForced := true }).indicatorLine .p0 = true :=
  ⟨⟨_, rfl⟩, by decide⟩

/-- The hub with a result in the service slot. -/
def resulted (r : SlotResult) : State := (hub .active).setResult r

theorem test_meets_SlotStatusReturnsTheRecord :
    (∀ r, (resulted r).serves ∧ (resulted r).svc.result = r) := fun _ => ⟨⟨rfl, rfl⟩, rfl⟩

theorem test_meets_TransfersThatReachNoOwner :
    (hub .active).serves
      ∧ ∃ s : State, s = { hub .active with svc := { (hub .active).svc with staleSelection := true } }
        ∧ s.inReset = false ∧ s.svc.staleSelection = true
        ∧ Instr.regWrite 0x38 1 ∈ [.unknownServiceCommand 0, .regWrite 0x38 1] :=
  ⟨serves_hub _, _, rfl, rfl, rfl, by simp⟩

theorem test_meets_MembershipCommandsAreRefused :
    (∀ r, (hubWith r).serves) ∧ 4 ≤ (4 : Byte).toNat
      ∧ ¬((hub .parked).portState .p0 = .held ∧ ((hub .parked).ctl.ports.get .p0).holdFlag = false)
      ∧ ¬((hubWith { seated .held with holdFlag := true }).portState .p0 = .held
        ∧ ((hubWith { seated .held with holdFlag := true }).ctl.ports.get .p0).holdFlag = false)
      ∧ (hub .departing).portState .p0 ≠ .active
      ∧ (hub .fencing).portState .p0 ≠ .active ∧ (hub .fencing).portState .p0 ≠ .departing
      ∧ (hub .fencing).portState .p0 ≠ .fenced :=
  ⟨serves_hub, by decide⟩

theorem test_meets_PortsAreAdmittedAndReleased :
    (∀ r, (hubWith r).serves) ∧ (hub .held).portState .p0 = .held ∧ ((hub .held).ctl.ports.get .p0).holdFlag = false
      ∧ (hubWith { seated .fenced with latchClosed := false }).portState .p0 = .fenced
      ∧ ((hubWith { seated .fenced with latchClosed := false }).ctl.ports.get .p0).latchClosed = false
      ∧ (hubWith { seated .fenced with holdFlag := true }).portState .p0 = .fenced
      ∧ ((hubWith { seated .fenced with holdFlag := true }).ctl.ports.get .p0).latchClosed = true
      ∧ ((hubWith { seated .fenced with holdFlag := true }).ctl.ports.get .p0).holdFlag = true
      ∧ (hub .fenced).portState .p0 = .fenced ∧ ((hub .fenced).ctl.ports.get .p0).latchClosed = true
      ∧ ((hub .fenced).ctl.ports.get .p0).holdFlag = false ∧ (hub .fenced).ctl.admitMode = .auto :=
  ⟨serves_hub, by decide⟩

theorem test_meets_PortsEnterDeparting :
    (hub .active).portState .p0 = .active ∧ (hub .active).receives .p0 ∧ (hub .active).occupied .p0 = 0
      ∧ (hub .active).serves ∧ ((hub .active).ifaces.get .p0).linkUp = true :=
  ⟨rfl, receives_hub _ _, by decide +kernel, serves_hub _, rfl⟩

theorem test_meets_HoldOnHolds :
    (∀ st, (hub st).serves ∧ (hub st).portState .p0 = st)
      ∧ ∃ t, exec (.holdOn (Port.byte .p0)) (hub .joinable) = .next t :=
  ⟨fun _ => ⟨serves_hub _, rfl⟩, _, rfl⟩

theorem test_meets_HoldOffReleases :
    (hub .fenced).serves ∧ granted.receives .p0 ∧ granted.portState .p0 = .active
      ∧ (granted.ctl.ports.get .p0).controlGrant = true ∧ (block 8 3 0).code.toNat = 8 ∧ (block 8 3 0).arg = Port.byte .p3 :=
  ⟨serves_hub _, receives_hub _ _, rfl, rfl, rfl, rfl⟩

/-- Port 0's slots: slot 0 WAITING behind slot 48, which recalls granule 0 from it, slot 1 with data on their way out, slot
2 abandoned and slot 3 with an operation in the queue. -/
def workingHub : State :=
  let s := holding ⟨0, .owner, p0Only, .busy 48⟩ (hubWith { seated .active with deadline := some 9 })
  let x : Txn := { newTxn .sweepRecheck 0 with phase := .recalling, awaited := ⟨some ⟨.demote, false⟩, none, none, none⟩ }
  ((((s.setTxn 48 (some x)).setTxn 0 (some (newTxn (.member .peek) 0))).setTxn 1
    (some { newTxn (.member (.returnDirty 0)) 1 with phase := .bypass })).setTxn 2
    (some { newTxn (.member .peek) 2 with phase := .draining })).setChain 0 [48, 0]
  |>.setMem { s.mem with queue := [⟨.writeFull 0, 1, .slot 1⟩, ⟨.read, 2, .slot 2⟩] }

theorem directoryLawful_holding {s : State} {e : Entry} (empty : s.dir = []) (its : setOf e.granule = 0)
    (lawful : e.lawful) : (holding e s).directoryLawful := by
  have none_there : ∀ w, DirSet.empty.ways.get w = none := by decide
  have set : ∀ k, (holding e s).dirSet k = if k = 0 then ⟨(Vector.replicate 8 none).set 0 (some e), [0]⟩ else .empty := by
    intro k
    unfold holding State.setDirSet State.dirSet
    rw [empty, Sparse.get_set Sparse.wf_nil]
    rfl
  have at_way : ∀ w : Fin 8, ((Vector.replicate 8 none).set 0 (some e) : Vector (Option Entry) 8).get w
      = if w = 0 then some e else none := fun w => by fin_cases w <;> rfl
  refine ⟨?_, fun k => ?_⟩
  · show Sparse.wf DirSet.empty (Sparse.set .empty s.dir 0 _)
    exact Sparse.wf_set (by rw [empty]; exact Sparse.wf_nil) _ _
  · rw [set]
    split
    · rename_i hk
      subst hk
      refine ⟨fun w f h => ?_, fun v w f f' h h' _ => ?_, List.nodup_singleton 0, fun w => ?_⟩
      · rw [at_way] at h
        split at h
        · injection h with h
          subst h
          exact ⟨its, lawful⟩
        · cases h
      · rw [at_way] at h h'
        split at h
        · split at h'
          · rename_i a b
            rw [a, b]
          · cases h'
        · cases h
      · rw [at_way]
        fin_cases w <;> simp
    · refine ⟨fun w f h => ?_, fun v w f f' h => ?_, by decide, fun w => ?_⟩
      · rw [none_there] at h
        cases h
      · rw [none_there] at h
        cases h
      · rw [none_there]
        simp [DirSet.empty]

/-- That only a slot in EVICTING or RECALLING awaits yields, told by a Bool for each slot. -/
theorem awaiting_of {s : State}
    (h : ∀ i, (s.txn i).all (fun x => x.phase == .evicting || x.phase == .recalling || x.awaited == .const none) = true) :
    ∀ i x, s.txn i = some x → x.phase ≠ .evicting → x.phase ≠ .recalling → x.awaited = .const none := fun i x hx he hr => by
  have := h i
  rw [hx] at this
  simpa [he, hr] using this

theorem workingHub_lawful : workingHub.transactionsLawful where
  canonical := canonical_of (by decide +kernel)
  directory := directoryLawful_holding (s := hubWith { seated .active with deadline := some 9 }) rfl rfl
    ⟨fun _ => by decide, fun h => nomatch h⟩
  table := tableLaw_of [48, 0] (some (.busy 48)) (fun g => by
      show Sparse.get [] (Sparse.set [] [] 0 [48, 0]) g.toNat = _
      rw [Sparse.get_set Sparse.wf_nil]
      by_cases h : g = 0
      · subst h; rfl
      · rw [if_neg h, if_neg (fun z : g.toNat = 0 => h (BitVec.eq_of_toNat_eq z))]; rfl)
    (fun g => lockOf_holding (s := hubWith { seated .active with deadline := some 9 }) rfl rfl g) (by decide)
    (by decide +kernel) (by decide +kernel) (by decide +kernel) (by decide +kernel) (by decide +kernel) (by decide +kernel)
    (fun _ _ => nofun)
  awaiting := awaiting_of (by decide +kernel)

/-- A member in DEPARTING whose deadline is set, with every cause of a fence under way. -/
def leaving (jobs : List Job) : State :=
  let s := hubWith { seated .departing with deadline := some 200000 }
  { s with
    ctl := { s.ctl with linkLost := s.ctl.linkLost.set .p0 1, fenceRequests := [.p0] }
    sweep := { s.sweep with jobs := jobs } }

theorem test_meets_IdleMemberIsFenced :
    ∀ jobs, jobs = [] ∨ jobs = [Job.depart .p0] ∨ jobs = [.recheck, .depart .p0] →
      (leaving jobs).serves ∧ (leaving jobs).settled ∧ (leaving jobs).portState .p0 = .departing
        ∧ (leaving jobs).occupied .p0 = 0 ∧ (∀ i x, (leaving jobs).txn i = some x → x.awaited.get .p0 = none)
        ∧ ((Job.depart .p0 ∉ (leaving jobs).sweep.jobs ∧ Job.fence .p0 ∉ (leaving jobs).sweep.jobs)
          ∨ ∃ a b, (leaving jobs).sweep.jobs = a ++ .depart .p0 :: b ∧ .depart .p0 ∉ a ++ b ∧ .fence .p0 ∉ a ++ b)
        ∧ ((leaving jobs).ctl.ports.get .p0).present = true ∧ (leaving jobs).ctl.linkLost.get .p0 = 0 + 1
        ∧ Port.p0 ∈ (leaving jobs).ctl.fenceRequests
        ∧ ((leaving jobs).ctl.ports.get .p0).deadline = some 200000 := by
  intro jobs h
  refine ⟨⟨rfl, rfl⟩, settled_of_each ?_, rfl, ?_, unawaited_of_each ?_, ?_, rfl, rfl, by simp [leaving], rfl⟩
  · rcases h with rfl | rfl | rfl <;> decide +kernel
  · rcases h with rfl | rfl | rfl <;> decide +kernel
  · rcases h with rfl | rfl | rfl <;> decide +kernel
  · rcases h with rfl | rfl | rfl
    · exact .inl (by decide)
    · exact .inr ⟨[], [], by decide⟩
    · exact .inr ⟨[.recheck], [], by decide⟩

/-- A running DEPART whose walk waits for an eviction, or for a slot of a stopped job. -/
theorem test_meets_IdleMemberIsFenced_of_waiting :
    ∀ pause, pause = Pause.evicting ∨ pause = .slotInUse →
      let s := (leaving []).setSweep ⟨[.depart .p0], ⟨0, 0, pause⟩, []⟩
      s.serves ∧ s.settled ∧ s.portState .p0 = .departing ∧ s.occupied .p0 = 0
        ∧ (∀ i x, s.txn i = some x → x.awaited.get .p0 = none)
        ∧ (∃ a b, s.sweep.jobs = a ++ .depart .p0 :: b ∧ .depart .p0 ∉ a ++ b ∧ .fence .p0 ∉ a ++ b)
        ∧ (s.sweep.jobs.head? == some (.depart .p0)
          && (s.sweep.walk.pause == .evicting || s.sweep.walk.pause == .slotInUse)) = true := by
  intro pause h
  refine ⟨⟨rfl, rfl⟩, settled_of_each ?_, rfl, ?_, unawaited_of_each ?_, ⟨[], [], rfl, by decide, by decide⟩, ?_⟩
  all_goals rcases h with rfl | rfl <;> decide +kernel

/-- The law of the transaction table, with a WAITING slot of the ejected port. -/
theorem test_meets_PortsEnterDeparting_with_slots :
    workingHub.portState .p0 = .active ∧ workingHub.serves ∧ (workingHub.ifaces.get .p0).linkUp = true
      ∧ workingHub.transactionsLawful :=
  ⟨rfl, ⟨rfl, rfl⟩, rfl, workingHub_lawful⟩

/-- Slots of the fenced port in WAITING, BYPASS and DRAINING, with and without memory outstanding, and the sweep slot that
recalls from it what it owns. -/
theorem test_meets_EveryMemberIsFenced_with_slots :
    workingHub.serves ∧ workingHub.portState .p0 = .active ∧ workingHub.transactionsLawful
      ∧ slotPort 0 = some .p0 ∧ workingHub.txn 0 = some (newTxn (.member .peek) 0)
      ∧ slotPort 1 = some .p0 ∧ workingHub.txn 1 = some { newTxn (.member (.returnDirty 0)) 1 with phase := .bypass }
      ∧ 0 < workingHub.outstanding 1
      ∧ slotPort 2 = some .p0 ∧ workingHub.txn 2 = some { newTxn (.member .peek) 2 with phase := .draining }
      ∧ slotPort 48 = none ∧ workingHub.owns .p0 0 = true
      ∧ workingHub.txn 48 = some { newTxn .sweepRecheck 0 with
          phase := .recalling, awaited := ⟨some ⟨.demote, false⟩, none, none, none⟩ } :=
  ⟨⟨rfl, rfl⟩, rfl, workingHub_lawful, by decide +kernel⟩

theorem test_meets_EveryMemberIsFenced :
    (leaving []).serves ∧ (leaving []).portState .p0 = .departing ∧ 0 < (leaving []).ctl.linkLost.get .p0
      ∧ ((leaving []).ctl.ports.get .p0).deadline.isSome = true ∧ (leaving []).svc.hubState = .running
      ∧ (leaving []).svc.result.isPending = false :=
  ⟨⟨rfl, rfl⟩, by decide⟩

theorem test_meets_PresenceEvents :
    (∀ r, (hubWith r).inReset = false)
      ∧ (∀ closed hold, let r : PortRec := { PortRec.reset with latchClosed := closed, holdFlag := hold }
        (hubWith r).ctl.ports.get .p0 = r ∧ r.present = false ∧ (hubWith r).portState .p0 = .empty)
      ∧ (hubWith { seated .fencing with present := false }).portState .p0 ≠ .empty
      ∧ ((hubWith { seated .fencing with present := false }).ctl.ports.get .p0).present = false
      ∧ ∀ st, ((hub st).ctl.ports.get .p0).present = true ∧ (hub st).portState .p0 = st :=
  ⟨fun _ => rfl, fun _ _ => ⟨rfl, rfl, rfl⟩, by decide, by decide, fun _ => ⟨rfl, rfl⟩⟩

theorem test_meets_LatchEvents :
    (∀ r, (hubWith r).inReset = false)
      ∧ (∀ st hold, let r : PortRec := { PortRec.reset with state := st, present := true, holdFlag := hold }
        (hubWith r).ctl.ports.get .p0 = r ∧ r.latchClosed = false ∧ (hubWith r).ctl.admitMode = .auto)
      ∧ ∀ st, ((hub st).ctl.ports.get .p0).latchClosed = true ∧ (hub st).portState .p0 = st :=
  ⟨fun _ => rfl, fun _ _ => ⟨rfl, rfl, rfl⟩, fun _ => ⟨rfl, rfl⟩⟩

theorem test_meets_JoinIsAccepted :
    (hub .joinable).receives .p0 ∧ (hub .joinable).portState .p0 = .joinable ∧ (hub .joinable).svc.hubState = .running :=
  ⟨receives_hub _ _, rfl, rfl⟩

theorem test_meets_JoinAndLeaveAreAnswered :
    (∀ st h, (inState h (hub st)).receives .p0 ∧ (inState h (hub st)).portState .p0 = st
      ∧ (inState h (hub st)).svc.hubState = h)
      ∧ 0 < ((hub .active).setTxn 11 (some (newTxn (.member .peek) 0))).occupied .p0 :=
  ⟨fun st _ => ⟨receives_hub (seated st) _, rfl, rfl⟩, by decide +kernel⟩

theorem test_meets_FramesThatAreNotTaken :
    (State.reset.ifaces.get .p0).linkUp = false
      ∧ (let s := (hub .active).setIface .p0 ⟨true, 0, List.replicate 32 (.bounce 0 0 .busy), []⟩
        s.inReset = false ∧ (s.ifaces.get .p0).linkUp = true ∧ 32 ≤ (s.ifaces.get .p0).outq.length)
      ∧ (let s := (hub .active).setIface .p0 ⟨true, 0, List.replicate 31 (.bounce 0 0 .busy), [.malformed]⟩
        s.inReset = false ∧ (s.ifaces.get .p0).linkUp = true ∧ (s.ifaces.get .p0).waiting ≠ [])
      ∧ (hub .fenced).receives .p0 ∧ (hub .fenced).portState .p0 = .fenced ∧ (hub .fencing).portState .p0 = .fencing :=
  ⟨by decide, by decide, by decide, receives_hub _ _, rfl, rfl⟩

/-- A transaction of slot 11 that awaits port 0's answer to a REVOKE of granule 0. -/
def recallingTxn (r : Request) : Txn :=
  { newTxn (.member r) 0 with phase := .recalling, awaited := ⟨some ⟨.revoke, false⟩, none, none, none⟩ }

theorem test_meets_ProtocolErrors :
    (hub .active).receives .p0 ∧ (hub .active).portState .p0 = .active ∧ (hub .active).svc.hubState = .running
      ∧ ¬wellFormed [1, 14, 0, 0, 0, 0, 0, 0] ∧ (12 : Tag).toNat = 12 ∧ (13 : Tag).toNat = 13
      ∧ (11 : SlotId).val = 12 * Port.number .p0 + (11 : Tag).toNat
      ∧ (((hub .active).setTxn 11 (some (newTxn (.member .peek) 0))).txn 11).isSome = true
      ∧ ((recallingTxn .peek).victim.getD (recallingTxn .peek).granule ≠ 1) := by
  refine ⟨receives_hub _ _, rfl, rfl, ?_, rfl, rfl, rfl, by decide +kernel, by decide⟩
  simp [wellFormed]

theorem test_meets_RefusedFramesAreBounced :
    (∀ h st, (inState h (hub st)).receives .p0 ∧ (inState h (hub st)).portState .p0 = st
      ∧ (inState h (hub st)).svc.hubState = h)
      ∧ (13 : Tag).toNat ≤ 13 ∧ Request.bypass .release = true ∧ Request.bypass .peek = false
      ∧ (hub .active).txn 11 = none ∧ (hub .active).mem.granuleCount ≤ (2097152 : Granule).toNat
      ∧ (2097151 : Granule).toNat < (hub .active).mem.granuleCount
      ∧ ((hub .active).right .p0 2097151).covers .write = true
      ∧ (({ hub .active with windows := Vector.replicate 8 ⟨false, 0, 0, .const .none⟩ } : State).right .p0 0).covers .read
        = false
      ∧ (let e : Entry := ⟨0, .readers, p0Only, .evicting 3⟩
        (holding e (hub .active)).EntryAt 0 0 e ∧ e.lock = .evicting 3) := by
  exact ⟨fun _ st => ⟨receives_hub (seated st) _, rfl, rfl⟩, by decide, rfl, rfl, by decide +kernel, by decide,
    by decide, by decide +kernel, by decide +kernel, entryAt_of_alone (by decide +kernel) rfl (by decide +kernel), rfl⟩

theorem test_meets_RightIsTheFirstCoveringWindows :
    (let w := fun k => (hub .active).windows.get k;
      (w 0).valid = true ∧ (w 0).base ≤ (2097151 : Granule) ∧ (2097151 : Granule) ≤ (w 0).limit ∧ ∀ j : Fin 8, ¬j < 0)
      ∧ ∀ k : Fin 8,
        ¬(((hub .active).windows.get k).valid = true ∧ ((hub .active).windows.get k).base ≤ (2097152 : Granule)
          ∧ (2097152 : Granule) ≤ ((hub .active).windows.get k).limit) := by
  decide +kernel

/-! ### Requests -/

theorem settled_of_members {s : State}
    (none_left : (s.ctl.ports.get .p0).sweepFinished = false ∧ (s.ctl.ports.get .p1).sweepFinished = false
      ∧ (s.ctl.ports.get .p2).sweepFinished = false ∧ (s.ctl.ports.get .p3).sweepFinished = false) : s.settled := by
  intro p
  obtain ⟨h0, h1, h2, h3⟩ := none_left
  cases p <;> simp [State.mayLeave, h0, h1, h2, h3]

/-- What admits every request of port 0 for granule 0 in slot 11. -/
theorem admits_of {s : State} (r : Request) (links : s.ifaces = .const ⟨true, 0, [], []⟩) (up : s.inReset = false)
    (member : s.portState .p0 = .active) (running : s.svc.hubState = .running) (free : s.txn 11 = none)
    (installed : 0 < s.mem.granuleCount) (right : s.right .p0 0 = .write) (open_ : s.evictingEntry 0 = false) :
    s.Admits .p0 11 0 r 11 where
  receives := ⟨up, by rw [links]; rfl, by rw [links]; exact (by decide : 0 < 32), by rw [links]; rfl⟩
  member := .inl member
  running := running
  credit := by decide
  slot := rfl
  free := free
  installed := installed
  right := .inr ⟨by rw [right]; cases r <;> rfl, open_⟩

theorem admits_fullHub (r : Request) : fullHub.Admits .p0 11 0 r 11 :=
  admits_of r rfl rfl rfl rfl (by decide +kernel) (by decide) (by decide +kernel) (by decide +kernel)

/-- Slot 0 has a transaction on granule 0 under way. -/
def busyHub : State := running 0 (recallingTxn .peek) fullHub

theorem test_meets_RequestsJoinTheirChain :
    busyHub.settled ∧ busyHub.Admits .p0 11 0 .readShare 11 ∧ Request.bypass .readShare = false ∧ busyHub.chain 0 ≠ [] :=
  ⟨settled_of_members (by decide),
    admits_of _ rfl rfl rfl rfl (by decide +kernel) (by decide) (by decide +kernel) (by decide +kernel), rfl,
    by decide +kernel⟩

/-- Way 0 of set 0 holds another granule. -/
def otherEntryHub : State := holding ⟨1024, .readers, p0Only, .none⟩ fullHub

theorem test_meets_ReadsAllocate :
    otherEntryHub.settled ∧ (∀ r, otherEntryHub.Admits .p0 11 0 r 11) ∧ otherEntryHub.chain 0 = []
      ∧ otherEntryHub.NoEntry 0 ∧ (otherEntryHub.dirSet (setOf 0)).ways.get 1 = none
      ∧ ∀ v : Fin 8, v < 1 → (otherEntryHub.dirSet (setOf 0)).ways.get v ≠ none := by
  refine ⟨settled_of_members (by decide), fun r => ?_, by decide +kernel, fun w e at_w => ?_, by decide +kernel,
    by decide +kernel⟩
  · exact admits_of r rfl rfl rfl rfl (by decide +kernel) (by decide) (by decide +kernel) (by decide +kernel)
  · have h : ∀ w, ((otherEntryHub.dirSet (setOf 0)).ways.get w).all (fun e => e.granule != 0) = true := by decide +kernel
    have := h w
    rw [at_w] at this
    simpa using this

theorem test_meets_AccessesDoNotAllocate :
    fullHub.settled ∧ fullHub.tablesCanonical ∧ (∀ r, fullHub.Admits .p0 11 0 r 11) ∧ fullHub.chain 0 = []
      ∧ fullHub.NoEntry 0 ∧ ((1 : Mask) ≠ 0 ∧ (1 : Mask) ≠ BitVec.allOnes 64) :=
  ⟨settled_of_members (by decide), canonical_of (by decide), admits_fullHub, by decide +kernel,
    noEntry_of_empty (by decide +kernel), by decide⟩

/-- Granule 0 is held, without lock. -/
def readersHub : State := holding ⟨0, .readers, p0AndP1, .none⟩ fullHub
def ownerHub : State := holding ⟨0, .owner, p0Only, .none⟩ fullHub

theorem admits_readersHub (r : Request) : readersHub.Admits .p0 11 0 r 11 :=
  admits_of r rfl rfl rfl rfl (by decide +kernel) (by decide) (by decide +kernel) (by decide +kernel)

theorem admits_ownerHub (r : Request) : ownerHub.Admits .p0 11 0 r 11 :=
  admits_of r rfl rfl rfl rfl (by decide +kernel) (by decide) (by decide +kernel) (by decide +kernel)

theorem entry_readersHub : readersHub.EntryAt 0 0 ⟨0, .readers, p0AndP1, .none⟩ :=
  entryAt_of_alone (by decide +kernel) rfl (by decide +kernel)

theorem entry_ownerHub : ownerHub.EntryAt 0 0 ⟨0, .owner, p0Only, .none⟩ :=
  entryAt_of_alone (by decide +kernel) rfl (by decide +kernel)

/-- Readers that no READ_SHARE and no PEEK recalls. -/
theorem test_meets_AccessesDoNotAllocate_of_readers :
    readersHub.settled ∧ readersHub.tablesCanonical ∧ (∀ r, readersHub.Admits .p0 11 0 r 11) ∧ readersHub.chain 0 = []
      ∧ readersHub.EntryAt 0 0 ⟨0, .readers, p0AndP1, .none⟩
      ∧ ∀ q, p0AndP1.get q = true → readersHub.portState q ≠ .fencing :=
  ⟨settled_of_members (by decide), canonical_of (by decide +kernel), admits_readersHub, by decide +kernel,
    entry_readersHub, fun q _ => by cases q <;> decide⟩

/-- Port 1, which is FENCING, owns granule 0. -/
def fencedOwnerHub : State :=
  holding ⟨0, .owner, ⟨false, true, false, false⟩, .none⟩
    { fullHub with ctl := { fullHub.ctl with ports := fullHub.ctl.ports.set .p1 (seated .fencing) } }

theorem test_meets_HeldGranulesAreRecalled_of_fenced :
    fencedOwnerHub.settled ∧ (∀ r, fencedOwnerHub.Admits .p0 11 0 r 11) ∧ fencedOwnerHub.chain 0 = []
      ∧ fencedOwnerHub.EntryAt 0 0 ⟨0, .owner, ⟨false, true, false, false⟩, .none⟩
      ∧ (∀ q, (⟨false, true, false, false⟩ : PerPort Bool).get q = true → fencedOwnerHub.portState q = .fencing)
      ∧ ∃ p, ∀ q, (⟨false, true, false, false⟩ : PerPort Bool).get q = true ↔ q = p := by
  refine ⟨settled_of_members (by decide), fun r => ?_, by decide +kernel,
    entryAt_of_alone (by decide +kernel) rfl (by decide +kernel), fun q h => ?_, .p1, fun q => by cases q <;> decide⟩
  · exact admits_of r rfl rfl rfl rfl (by decide +kernel) (by decide) (by decide +kernel) (by decide +kernel)
  · cases q with
    | p1 => rfl
    | _ => cases h

/-- Of two readers the other is revoked, of an owner the owner is demoted. -/
theorem test_meets_HeldGranulesAreRecalled :
    (readersHub.settled ∧ readersHub.Admits .p0 11 0 .readOwn 11 ∧ readersHub.chain 0 = []
      ∧ readersHub.EntryAt 0 0 ⟨0, .readers, p0AndP1, .none⟩ ∧ p0AndP1.get .p1 = true
      ∧ ∀ q, p0AndP1.get q = true → readersHub.portState q = .active ∨ readersHub.portState q = .departing)
      ∧ (ownerHub.settled ∧ ownerHub.Admits .p0 11 0 .readShare 11 ∧ ownerHub.chain 0 = []
      ∧ ownerHub.EntryAt 0 0 ⟨0, .owner, p0Only, .none⟩ ∧ p0Only.get .p0 = true
      ∧ ∀ q, p0Only.get q = true → ownerHub.portState q = .active ∨ ownerHub.portState q = .departing) :=
  ⟨⟨settled_of_members (by decide), admits_readersHub _, by decide +kernel, entry_readersHub, rfl,
      fun q _ => by cases q <;> exact .inl rfl⟩,
    settled_of_members (by decide), admits_ownerHub _, by decide +kernel, entry_ownerHub, rfl,
      fun q _ => by cases q <;> exact .inl rfl⟩

theorem test_meets_RequestsAnsweredAtActivation :
    ownerHub.settled ∧ ownerHub.tablesCanonical ∧ ownerHub.chain 0 = [] ∧ (∀ r, ownerHub.Admits .p0 11 0 r 11)
      ∧ ownerHub.EntryAt 0 0 ⟨0, .owner, p0Only, .none⟩ ∧ (∀ q, p0Only.get q = true ↔ q = .p0)
      ∧ ownerHub.outstanding 11 = 0
      ∧ fullHub.settled ∧ fullHub.tablesCanonical ∧ fullHub.chain 0 = [] ∧ (∀ d, fullHub.Admits .p0 11 0 (.poke d 0) 11)
      ∧ fullHub.NoEntry 0 :=
  ⟨settled_of_members (by decide), canonical_of (by decide +kernel), by decide +kernel, admits_ownerHub, entry_ownerHub,
    fun q => by cases q <;> decide, by decide +kernel, settled_of_members (by decide), canonical_of (by decide),
    by decide +kernel, fun _ => admits_fullHub _, noEntry_of_empty (by decide +kernel)⟩

/-- A set whose eight ways are all valid: way `n` holds granule 1024 × (n + 1), and the first `k` allocated are locked. -/
def filledWays (k : Nat) : Vector (Option Entry) 8 :=
  Vector.ofFn fun n : Fin 8 =>
    some ⟨BitVec.ofNat 23 (1024 * (n.val + 1)), .readers, p0Only, if n.val < k then .busy 3 else .none⟩

def filledHub (k : Nat) : State := fullHub.setDirSet 0 ⟨filledWays k, List.finRange 8⟩

theorem of_each_way {d : DirSet} {P : Fin 8 → Entry → Bool} (h : ∀ w, (d.ways.get w).all (P w) = true) :
    ∀ w e, d.ways.get w = some e → P w e = true := fun w e at_w => by
  have := h w
  rw [at_w] at this
  simpa using this

theorem lawful_of {d : DirSet} {k : Nat}
    (place : ∀ w, (d.ways.get w).all (fun e : Entry => setOf e.granule == k
      && (e.mode != .owner || (members e.holders).length ≤ 1) && (e.lock != .none || !noMember e.holders)) = true)
    (once : ∀ v w, (d.ways.get v).all (fun e : Entry => (d.ways.get w).all fun f : Entry => e.granule != f.granule || v == w) = true)
    (nodup : d.order.Nodup) (listed : ∀ w, w ∈ d.order ↔ (d.ways.get w).isSome) : d.Lawful k where
  place w e at_w := by
    have h := of_each_way place w e at_w
    simp only [Bool.and_eq_true, Bool.or_eq_true, beq_iff_eq, bne_iff_ne, decide_eq_true_eq, Bool.not_eq_true'] at h
    exact ⟨h.1.1, fun owner => h.1.2.resolve_left fun n => n owner, fun none => h.2.resolve_left fun n => n none⟩
  once v w e f at_v at_w same := by
    have h := once v w
    rw [at_v, at_w] at h
    simpa [same] using h
  nodup := nodup
  listed := listed

theorem filledHub_lawful {k : Nat} (h : k = 7 ∨ k = 8) :
    ((filledHub k).dirSet (setOf 0)).Lawful (setOf 0) := by
  rcases h with rfl | rfl
  · exact lawful_of (by decide +kernel) (by decide +kernel) (by decide +kernel) (by decide +kernel)
  · exact lawful_of (by decide +kernel) (by decide +kernel) (by decide +kernel) (by decide +kernel)

theorem test_meets_FullSetEvicts :
    (∀ k, k = 7 ∨ k = 8 → (filledHub k).settled ∧ (filledHub k).tablesCanonical
        ∧ (∀ r, (filledHub k).Admits .p0 11 0 r 11) ∧ (filledHub k).chain 0 = [] ∧ (filledHub k).NoEntry 0
        ∧ ((filledHub k).dirSet (setOf 0)).Lawful (setOf 0)
        ∧ ∀ w, ((filledHub k).dirSet (setOf 0)).ways.get w ≠ none)
      ∧ (∀ w e, ((filledHub 8).dirSet (setOf 0)).ways.get w = some e → (e.lock != .none) = true)
      ∧ ((filledHub 7).dirSet (setOf 0)).order = [0, 1, 2, 3, 4, 5, 6] ++ 7 :: []
      ∧ (∀ w e, ((filledHub 7).dirSet (setOf 0)).ways.get w = some e → (w == 7 || e.lock != .none) = true)
      ∧ ((filledHub 7).dirSet (setOf 0)).ways.get 7 = some ⟨8192, .readers, p0Only, .none⟩
      ∧ ∀ q, p0Only.get q = true → (filledHub 7).portState q = .active ∨ (filledHub 7).portState q = .departing := by
  refine ⟨fun k h => ⟨settled_of_members ⟨rfl, rfl, rfl, rfl⟩, canonical_of ?_, fun r => ?_, ?_, fun w e at_w => ?_,
    filledHub_lawful h, ?_⟩, of_each_way (by decide +kernel), by decide +kernel, of_each_way (by decide +kernel),
    by decide +kernel, fun q _ => by cases q <;> exact .inl rfl⟩
  · rcases h with rfl | rfl <;> decide +kernel
  · rcases h with rfl | rfl <;>
    exact admits_of r rfl rfl rfl rfl (by decide +kernel) (by decide) (by decide +kernel) (by decide +kernel)
  · rcases h with rfl | rfl <;> decide +kernel
  · have other : (e.granule != 0) = true := by
      rcases h with rfl | rfl
      · exact of_each_way (P := fun _ e => e.granule != 0) (by decide +kernel) w e at_w
      · exact of_each_way (P := fun _ e => e.granule != 0) (by decide +kernel) w e at_w
    simpa using other
  · rcases h with rfl | rfl <;> decide +kernel

/-- Port 1 alone holds granule 0 as its owner. -/
def p1Only : PerPort Bool := ⟨false, true, false, false⟩
def otherOwnerHub : State := holding ⟨0, .owner, p1Only, .none⟩ fullHub

theorem test_meets_BypassFramesAreTaken :
    ownerHub.settled ∧ ownerHub.tablesCanonical ∧ (∀ r, ownerHub.Admits .p0 11 0 r 11)
      ∧ ownerHub.EntryAt 0 0 ⟨0, .owner, p0Only, .none⟩ ∧ p0Only.get .p0 = true ∧ (∀ q, p0Only.get q = true ↔ q = .p0)
      ∧ otherOwnerHub.settled ∧ otherOwnerHub.tablesCanonical ∧ (∀ r, otherOwnerHub.Admits .p0 11 0 r 11)
      ∧ otherOwnerHub.EntryAt 0 0 ⟨0, .owner, p1Only, .none⟩ ∧ p1Only.get .p0 = false
      ∧ ¬∀ q, p1Only.get q = true ↔ q = .p0 :=
  ⟨settled_of_members (by decide), canonical_of (by decide +kernel), admits_ownerHub, entry_ownerHub, rfl,
    fun q => by cases q <;> decide, settled_of_members (by decide), canonical_of (by decide +kernel),
    fun r => admits_of r rfl rfl rfl rfl (by decide +kernel) (by decide) (by decide +kernel) (by decide +kernel),
    entryAt_of_alone (by decide +kernel) rfl (by decide +kernel), rfl, fun h => by simpa [p1Only, PerPort.get] using h .p0⟩

/-! ### Yields and deadlines -/

/-- Slot 11 recalls granule 0 from port 0, and from port 1 where it is `other`. -/
def recalled (r : Request) (a : Awaited) (other : Option Awaited) : Txn :=
  { recallingTxn r with awaited := ⟨some a, other, none, none⟩, deadline := some 500 }

def recallHub (a : Awaited) (other : Option Awaited) : State :=
  running 11 (recalled .readOwn a other) (holding ⟨0, .readers, p0AndP1, .busy 11⟩ fullHub)

theorem test_meets_MatchedYieldsAreTaken :
    (∀ timedOut other, let s := recallHub ⟨.revoke, timedOut⟩ other
      let x := recalled .readOwn ⟨.revoke, timedOut⟩ other
      s.settled ∧ s.receives .p0 ∧ s.portState .p0 = .active ∧ (11 : SlotId).val = (11 : Byte).toNat ∧ s.txn 11 = some x
        ∧ x.awaited.get .p0 = some ⟨.revoke, timedOut⟩ ∧ x.victim.getD x.granule = 0 ∧ x.phase = .recalling
        ∧ s.EntryAt 0 0 ⟨0, .readers, p0AndP1, .busy 11⟩)
      ∧ (recallHub ⟨.revoke, false⟩ none).tablesCanonical
      ∧ (recalled .readOwn ⟨.revoke, false⟩ (some ⟨.revoke, false⟩)).awaited.set .p0 none ≠ .const none
      ∧ (recalled .readOwn ⟨.revoke, false⟩ none).awaited.set .p0 none = .const none := by
  refine ⟨fun timedOut other => ⟨settled_of_members ⟨rfl, rfl, rfl, rfl⟩, ⟨rfl, rfl, (by decide : 0 < 32), rfl⟩, rfl, rfl,
    rfl, rfl, rfl, rfl, entryAt_of_alone rfl rfl ?_⟩, canonical_of (by decide +kernel), by decide, by decide⟩
  have h : ∀ v : Fin 8, v ≠ 0 → ((holding ⟨0, .readers, p0AndP1, .busy 11⟩ fullHub).dirSet (setOf 0)).ways.get v = none := by
    decide +kernel
  exact h

/-- Slot 11 promotes port 0 and awaits port 1 alone. -/
def promoting : Txn :=
  { newTxn (.member .promote) 0 with phase := .recalling, awaited := ⟨none, some ⟨.revoke, false⟩, none, none⟩ }

/-- Slot 11 evicts granule 0 from port 0 for granule 1024 of the same set. -/
def evictor : Txn :=
  { newTxn (.member .readOwn) 1024 with
    phase := .evicting, victim := some 0, awaited := ⟨some ⟨.revoke, false⟩, none, none, none⟩ }

def evictingHub : State := (holding ⟨0, .readers, p0Only, .evicting 11⟩ fullHub).setTxn 11 (some evictor)

theorem noEntry_of_granules {s : State} {g : Granule}
    (h : ∀ w, ((s.dirSet (setOf g)).ways.get w).all (fun e : Entry => e.granule != g) = true) : s.NoEntry g :=
  fun w e at_w => by
    have := h w
    rw [at_w] at this
    simpa using this

theorem test_meets_MatchedYieldsAreTaken_at_the_last :
    (let s : State := (running 11 promoting (holding ⟨0, .readers, p0AndP1, .busy 11⟩ fullHub));
      s.settled ∧ s.tablesCanonical ∧ s.receives .p1 ∧ s.portState .p1 = .active ∧ s.txn 11 = some promoting
        ∧ s.EntryAt 0 0 ⟨0, .readers, p0AndP1, .busy 11⟩ ∧ promoting.awaited.set .p1 none = .const none
        ∧ (p0AndP1.set .p1 false).get .p0 = true ∧ s.outstanding 11 = 0 ∧ s.chain 0 = [11]
        ∧ (11 : SlotId).val = 12 * Port.number .p0 + (11 : Tag).toNat ∧ s.portState .p0 = .active
        ∧ (s.right .p0 0).covers .write = true ∧ (s.ifaces.get .p0).linkUp = true)
      ∧ evictingHub.settled ∧ evictingHub.tablesCanonical ∧ evictingHub.receives .p0
      ∧ evictingHub.portState .p0 = .active ∧ evictingHub.txn 11 = some evictor
      ∧ evictingHub.EntryAt 0 0 ⟨0, .readers, p0Only, .evicting 11⟩ ∧ p0Only.set .p0 false = .const false
      ∧ evictor.awaited.set .p0 none = .const none ∧ setOf evictor.granule = setOf 0 ∧ evictingHub.NoEntry 1024
      ∧ evictingHub.txn serviceSlot = none ∧ evictingHub.sweep.walk.pause ≠ .evicting :=
  ⟨⟨settled_of_members (by decide), canonical_of (by decide +kernel), ⟨rfl, rfl, (by decide : 0 < 32), rfl⟩, rfl,
      by decide +kernel, entryAt_of_alone (by decide +kernel) rfl (by decide +kernel), by decide, rfl, by decide +kernel,
      by decide +kernel, rfl, rfl, by decide +kernel, rfl⟩,
    settled_of_members (by decide), canonical_of (by decide +kernel), ⟨rfl, rfl, (by decide : 0 < 32), rfl⟩, rfl,
    by decide +kernel, entryAt_of_alone (by decide +kernel) rfl (by decide +kernel), by decide, by decide,
    by decide +kernel, noEntry_of_granules (by decide +kernel), by decide +kernel, by decide⟩

theorem test_meets_RecallDeadlineExpires :
    (recallHub ⟨.revoke, false⟩ none).inReset = false
      ∧ (recallHub ⟨.revoke, false⟩ none).txn 11 = some (recalled .readOwn ⟨.revoke, false⟩ none)
      ∧ (recalled .readOwn ⟨.revoke, false⟩ none).deadline = some 500 := by
  decide +kernel

/-! ### Completions -/

/-- Slot 11 in MEMORY with this request of port 0, its operation alone in the queue, and this entry of granule 0. -/
def memoryHub (r : Request) (k : MemKind) (h : PerPort Bool) (base : State) : State :=
  queuing k (.slot 11)
    (running 11 { newTxn (.member r) 0 with phase := .memory } (holding ⟨0, .readers, h, .busy 11⟩ base))

theorem byteOf_zero (n : Nat) : byteOf 0 n = 0 := by simp [byteOf]

theorem entry_memoryHub (r : Request) (k : MemKind) (h : PerPort Bool) (base : State) (empty : base.dir = []) :
    (memoryHub r k h base).EntryAt 0 0 ⟨0, .readers, h, .busy 11⟩ := by
  have set : (memoryHub r k h base).dirSet (setOf 0)
      = ⟨(Vector.replicate 8 none).set 0 (some ⟨0, .readers, h, .busy 11⟩), [0]⟩ := by
    simp only [memoryHub, queuing, running, holding, State.setMem, State.setChain, State.setTxn, State.setDirSet,
      State.dirSet, empty]
    rfl
  refine entryAt_of_alone (by rw [set]; rfl) rfl fun v other => ?_
  rw [set]
  have cases : ∀ v : Fin 8, v ≠ 0 →
      (((Vector.replicate 8 none).set 0 (some ⟨0, .readers, h, .busy 11⟩) : Vector (Option Entry) 8).get v).isNone := by
    intro v other
    fin_cases v
    · exact absurd rfl other
    all_goals rfl
  simpa using cases v other

/-- The full hub with port 0 departing. -/
def departingHub : State := { fullHub with ctl := { fullHub.ctl with ports := fullHub.ctl.ports.set .p0 (seated .departing) } }

/-- The full hub without valid window. -/
def closedHub : State := { fullHub with windows := Vector.replicate 8 ⟨false, 0, 0, .const .none⟩ }

theorem unflipped (x : Byte) : (0 : Byte) = 0 ^^^ if bitCount 0 = 2 then x else 0 := by
  rw [if_neg (by decide)]
  rfl

theorem test_meets_ReadsAreAnswered :
    (∀ r base, base = fullHub ∨ base = departingHub ∨ base = closedHub →
      let s := memoryHub r .read p0AndP1 base
      let x : Txn := { newTxn (.member r) 0 with phase := .memory }
      s.inReset = false ∧ s.settled ∧ s.mem.queue = ⟨.read, 0, .slot 11⟩ :: [] ∧ s.mem.waiting = []
        ∧ (0 : Granule).toNat < s.mem.granuleCount ∧ (11 : SlotId).val = 12 * Port.number .p0 + (11 : Tag).toNat
        ∧ s.txn 11 = some x ∧ x.phase = .memory ∧ x.kind = .member r ∧ x.granule = 0
        ∧ s.EntryAt 0 0 ⟨0, .readers, p0AndP1, .busy 11⟩ ∧ (s.ifaces.get .p0).linkUp = true
        ∧ (∀ v, s.mem.errors 0 v = 0) ∧ (∀ v, bitCount (s.mem.errors 0 v) ≤ 2)
        ∧ ∀ (v : Fin 8) b, b < 8 →
          byteOf 0 (8 * v.val + b) = Memory.byte s.mem.dram (64 * (0 : Granule).toNat + 8 * v.val + b)
            ^^^ if bitCount (s.mem.errors 0 v) = 2 then (s.mem.errors 0 v).extractLsb' (8 * b) 8 else 0)
      ∧ (memoryHub .readShare .read p0AndP1 fullHub).tablesCanonical
      ∧ (memoryHub .readShare .read p0AndP1 fullHub).chain 0 = [11]
      ∧ (memoryHub .readShare .read p0AndP1 fullHub).portState .p0 = .active
      ∧ ((memoryHub .readShare .read p0AndP1 fullHub).right .p0 0).covers .write = true
      ∧ ((memoryHub .readShare .read p0AndP1 closedHub).right .p0 0).covers .read = false
      ∧ (memoryHub .readShare .read p0AndP1 departingHub).portState .p0 = .departing
      ∧ ((memoryHub .readShare .read p0AndP1 departingHub).ctl.ports.get .p0).sweepFinished = false := by
  refine ⟨fun r base h => ?_, canonical_of (by decide +kernel), by decide +kernel, rfl, by decide +kernel,
    by decide +kernel, rfl, rfl⟩
  rcases h with rfl | rfl | rfl <;>
  exact ⟨rfl, settled_of_members ⟨rfl, rfl, rfl, rfl⟩, rfl, rfl, (by decide : 0 < 2097152), rfl, rfl, rfl, rfl, rfl,
    entry_memoryHub _ _ _ _ rfl, rfl, fun _ => rfl, fun _ => show bitCount 0 ≤ 2 by decide, fun v b _ => by
      rw [byteOf_zero]
      exact unflipped _⟩

/-- Two PEEKs of a granule without entry, one word of which is uncorrectable; and a MEM_PEEK of an entry without holder. -/
theorem test_meets_ReadsAreAnswered_without_entry :
    (let x : Txn := { newTxn (.member .peek) 0 with phase := .memory }
      let s := (((queuing .read (.slot 11) (hub .active)).setTxn 11 (some x)).setTxn 10
        (some (newTxn (.member .peek) 0))).setChain 0 [11, 10];
      let faulty := s.setMem { s.mem with bitErrors := [(7, 3)] };
      s.settled ∧ s.tablesCanonical ∧ s.NoEntry 0 ∧ s.chain 0 = 11 :: 10 :: [] ∧ s.txn 11 = some x
        ∧ s.txn 10 = some (newTxn (.member .peek) 0) ∧ s.portState .p0 = .active ∧ faulty.tablesCanonical
        ∧ (∀ v, bitCount (faulty.mem.errors 0 v) ≤ 2) ∧ bitCount (faulty.mem.errors 0 7) = 2
        ∧ ∀ n, n < 64 → byteOf (3 * 2 ^ 448) n = if n = 56 then 3 else 0)
      ∧ (let x : Txn := { newTxn .memPeek 0 with phase := .memory }
        let s := queuing .read (.slot 49) (running 49 x (holding ⟨0, .readers, .const false, .busy 49⟩ (hub .active)));
        s.settled ∧ s.tablesCanonical ∧ s.EntryAt 0 0 ⟨0, .readers, .const false, .busy 49⟩ ∧ s.chain 0 = [49]
          ∧ s.txn serviceSlot = some x) := by
  have bytes : ∀ n : Fin 64, byteOf (3 * 2 ^ 448) n.val = if n.val = 56 then 3 else 0 := by decide +kernel
  exact ⟨⟨settled_of_members (by decide), canonical_of (by decide +kernel), noEntry_of_empty (by decide +kernel),
      by decide +kernel, by decide +kernel, by decide +kernel, rfl, canonical_of (by decide +kernel), by decide +kernel,
      by decide +kernel, fun n hn => bytes ⟨n, hn⟩⟩,
    settled_of_members (by decide), canonical_of (by decide +kernel),
    entryAt_of_alone (by decide +kernel) rfl (by decide +kernel), by decide +kernel, by decide +kernel⟩

/-- Slot 11 in this phase with this request, in a hub whose port 0 is in this state. -/
def writingHub (st : PortState) (phase : Phase) (r : Request) (k : MemKind) : State :=
  queuing k (.slot 11) (running 11 { newTxn (.member r) 0 with phase := phase } (hub st))

theorem test_meets_WritesAreAnswered :
    (∀ st phase r k, let s := writingHub st phase r k
      let x : Txn := { newTxn (.member r) 0 with phase := phase }
      s.inReset = false ∧ s.mem.queue = ⟨k, 0, .slot 11⟩ :: [] ∧ s.mem.waiting = []
        ∧ s.txn 11 = some x ∧ x.phase = phase ∧ x.kind = .member r ∧ x.granule = 0 ∧ (∀ v, s.mem.errors 0 v = 0)
        ∧ s.portState .p0 = st ∧ (s.ifaces.get .p0).linkUp = true ∧ (s.ctl.ports.get .p0).sweepFinished = false
        ∧ s.settled ∧ s.NoEntry 0 ∧ s.mem.mark 0 = false
        ∧ ∀ n, n < 8 → (0 : Word).extractLsb' (8 * n) 8 = Memory.byte s.mem.dram (64 * (0 : Granule).toNat + 8 * 7 + n))
      ∧ (writingHub .active .memory (.poke 0 1) (.writePartial 0 1)).tablesCanonical
      ∧ (writingHub .active .memory (.poke 0 1) (.writePartial 0 1)).chain 0 = [11]
      ∧ (memoryHub (.atomic ⟨.compareSwap, 7, 1, 2⟩) (.atomicRmw ⟨.compareSwap, 7, 1, 2⟩) (.const false) fullHub).EntryAt 0 0
        ⟨0, .readers, .const false, .busy 11⟩
      ∧ (1 : Mask) ≠ BitVec.allOnes 64 ∧ (0 : Word) ≠ 1 := by
  refine ⟨fun st phase r k => ⟨rfl, rfl, rfl, rfl, rfl, rfl, rfl, fun _ => rfl, rfl, rfl, rfl,
    settled_of_members ⟨rfl, rfl, rfl, rfl⟩, noEntry_of_empty fun v => ?_, rfl, fun n _ => ?_⟩, canonical_of (by decide +kernel),
    by decide +kernel, entry_memoryHub _ _ _ _ rfl, by decide, by decide⟩
  · have h : ∀ v, DirSet.empty.ways.get v = none := by decide
    exact h v
  · simp [Memory.byte, Sparse.get, writingHub, queuing, running, State.setMem, State.setChain, State.setTxn, hub,
      hubWith, State.reset]

/-- A MEM_POKE whose write completes, and an ATOMIC whose word is uncorrectable. -/
theorem test_meets_WritesAreAnswered_by_other_slots :
    (∀ m, let x : Txn := { newTxn (.memPoke 5 m) 0 with phase := .memory }
      let s := queuing (.writePartial 5 m) (.slot 49) (running 49 x (hub .active));
      s.inReset = false ∧ s.settled ∧ s.txn serviceSlot = some x ∧ (∀ v, s.mem.errors 0 v = 0) ∧ s.NoEntry 0)
      ∧ (running 49 (newTxn (.memPoke 5 1) 0) (hub .active)).chain 0 = [49]
      ∧ (queuing (.writePartial 5 1) (.slot 49) (running 49 (newTxn (.memPoke 5 1) 0) (hub .active))).tablesCanonical
      ∧ (let s := writingHub .active .memory (.atomic ⟨.swap, 7, 1, 2⟩) (.atomicRmw ⟨.swap, 7, 1, 2⟩)
        let faulty := s.setMem { s.mem with bitErrors := [(7, 3)] };
        faulty.tablesCanonical ∧ faulty.mem.mark 0 = false ∧ bitCount (faulty.mem.errors 0 7) = 2
          ∧ faulty.chain 0 = [11] ∧ faulty.NoEntry 0) := by
  refine ⟨fun m => ⟨rfl, settled_of_members ⟨rfl, rfl, rfl, rfl⟩, rfl, fun _ => rfl, noEntry_of_empty fun v => ?_⟩,
    by decide +kernel, canonical_of (by decide +kernel), canonical_of (by decide +kernel), by decide +kernel,
    by decide +kernel, by decide +kernel, noEntry_of_empty (by decide +kernel)⟩
  have h : ∀ v, DirSet.empty.ways.get v = none := by decide
  exact h v

/-- Granule 0 with one bit of word 0 in error and two bits of word 7. -/
def faultyHub (k : MemKind) : State :=
  (hub .active).setMem
    { (hub .active).mem with queue := [⟨k, 0, .sweep⟩], bitErrors := [(0, 1), (7, 3)] }

theorem test_meets_ErrorsAreKeptAndChecked :
    (faultyHub .read).inReset = false ∧ (faultyHub .read).tablesCanonical
      ∧ (faultyHub .read).mem.granuleCount ≤ (2097152 : Granule).toNat
      ∧ (2097151 : Granule).toNat < (faultyHub .read).mem.granuleCount
      ∧ (faultyHub .read).mem.queue = ⟨.read, 0, .sweep⟩ :: []
      ∧ (∀ v, bitCount ((faultyHub .read).mem.errors 0 v) ≤ 2)
      ∧ (faultyHub .read).mem.firstFault = none ∧ bitCount ((faultyHub .read).mem.errors 0 7) = 2
      ∧ ∀ u : Fin 8, u < 7 → bitCount ((faultyHub .read).mem.errors 0 u) ≠ 2 :=
  ⟨rfl, canonical_of (by decide +kernel), by decide +kernel⟩

/-- The initializer with the INIT of granule `g` first of 16, and one pending. -/
def initializingHub (g : Granule) (next : Nat) : State :=
  inState .initializing ((hub .empty).setMem
    { (hub .empty).mem with
      queue := ⟨.init, g, .initializer⟩ :: List.replicate 15 ⟨.init, 1, .initializer⟩
      waiting := [⟨.init, 16, .initializer⟩]
      nextInit := next })

theorem test_meets_FullWritesStore :
    (∀ g n, (initializingHub g n).inReset = false ∧ (initializingHub g n).settled
      ∧ (initializingHub g n).mem.queue = ⟨.init, g, .initializer⟩ :: List.replicate 15 ⟨.init, 1, .initializer⟩
      ∧ (initializingHub g n).mem.waiting = [⟨.init, 16, .initializer⟩] ∧ (initializingHub g n).mem.nextInit = n)
      ∧ (initializingHub 0 17).tablesCanonical ∧ (List.replicate 15 (⟨.init, 1, .initializer⟩ : MemOp)).length = 15
      ∧ (2097151 : Granule).toNat + 1 = (initializingHub 2097151 2097152).mem.granuleCount
      ∧ (17 < (initializingHub 0 17).mem.granuleCount ∧ ¬2097152 < (initializingHub 0 2097152).mem.granuleCount)
      ∧ (faultyHub (.writeFull 5)).mem.queue = ⟨.writeFull 5, 0, .sweep⟩ :: [] :=
  ⟨fun _ _ => ⟨rfl, settled_of_members ⟨rfl, rfl, rfl, rfl⟩, rfl, rfl, rfl⟩, canonical_of (by decide +kernel),
    by decide, by decide, by decide, rfl⟩

theorem test_meets_PartialWritesMerge :
    (∀ m, (faultyHub (.writePartial 5 m)).inReset = false ∧ (faultyHub (.writePartial 5 m)).tablesCanonical
      ∧ (faultyHub (.writePartial 5 m)).mem.queue = ⟨.writePartial 5 m, 0, .sweep⟩ :: []
      ∧ (0 : Granule).toNat < (faultyHub (.writePartial 5 m)).mem.granuleCount
      ∧ ∀ v, bitCount ((faultyHub (.writePartial 5 m)).mem.errors 0 v) ≤ 2)
      ∧ (faultyHub (.writePartial 5 (2 ^ 56))).mem.firstFault = none
      ∧ (let found : Fin 8 → Prop := fun v =>
          (2 ^ 56 : Mask).extractLsb' (8 * v.val) 8 ≠ 0 ∧ (2 ^ 56 : Mask).extractLsb' (8 * v.val) 8 ≠ 255
            ∧ bitCount ((faultyHub .read).mem.errors 0 v) = 2
        found 7 ∧ ∀ u, u < 7 → ¬found u) := by
  have few : ∀ v : Fin 8, bitCount ((faultyHub .read).mem.errors 0 v) ≤ 2 := by decide +kernel
  have canonical : (faultyHub .read).tablesCanonical := canonical_of (by decide +kernel)
  exact ⟨fun m => ⟨rfl, canonical, rfl, (by decide : 0 < 2097152), few⟩, rfl, by decide +kernel⟩

theorem test_meets_AtomicsAndPoisonSetsAct :
    (∀ k, (faultyHub k).inReset = false ∧ (0 : Granule).toNat < (faultyHub k).mem.granuleCount
      ∧ (faultyHub k).mem.queue = ⟨k, 0, .sweep⟩ :: [])
      ∧ (faultyHub .poisonSet).tablesCanonical ∧ (faultyHub .poisonSet).mem.mark 0 = false
      ∧ ((faultyHub .poisonSet).setMem ((faultyHub .poisonSet).mem.setMark 0 true)).mem.mark 0 = true
      ∧ bitCount ((faultyHub .poisonSet).mem.errors 0 (AtomicBlock.mk .compareSwap 0 1 2).word) ≤ 1
      ∧ bitCount ((faultyHub .poisonSet).mem.errors 0 (AtomicBlock.mk .swap 7 1 2).word) = 2
      ∧ ∀ n, n < 8 → (0 : Word).extractLsb' (8 * n) 8
        = Memory.byte (faultyHub .poisonSet).mem.dram (64 * (0 : Granule).toNat + 8 * 0 + n) := by
  refine ⟨fun k => ⟨rfl, (by decide : 0 < 2097152), rfl⟩, canonical_of (by decide +kernel), by decide +kernel,
    by decide +kernel, by decide +kernel, by decide +kernel, fun n _ => ?_⟩
  simp [Memory.byte, Sparse.get, faultyHub, State.setMem, hub, hubWith, State.reset]

/-! ### Links, CONTROL frames and windows -/

theorem test_meets_LinkEvents :
    (∀ q waiting, let s := (hub .active).setIface .p0 ⟨true, 0, q, waiting⟩
      s.inReset = false ∧ (s.ifaces.get .p0).linkUp = true ∧ (s.ifaces.get .p0).outq = q
        ∧ (s.ifaces.get .p0).waiting = waiting)
      ∧ (List.replicate 32 (HubFrame.bounce 0 0 .busy)).length = 32
      ∧ (List.replicate 31 (HubFrame.bounce 0 0 .busy)).length < 32 :=
  ⟨fun _ _ => ⟨rfl, rfl, rfl, rfl⟩, by decide⟩

theorem test_meets_ControlFramesAreAnswered :
    granted.receives .p0 ∧ granted.portState .p0 = .active ∧ (granted.ctl.ports.get .p0).controlGrant = true
      ∧ ((hub .active).ctl.ports.get .p0).controlGrant = false ∧ (block 0 0 0).code = 0 ∧ 10 ≤ (block 10 0 0).code.toNat
      ∧ (block 1 0 0xF8).offset.toNat = Reg.offset (.window 7)
      ∧ (∀ r : Reg, (block 2 0 0xF9).offset.toNat ≠ r.offset) ∧ 3 ≤ (block 3 4 0).code.toNat
      ∧ (block 8 4 0).code.toNat ≤ 8 ∧ 4 ≤ (block 8 4 0).arg.toNat ∧ (block 3 0 0).arg = Port.byte .p0
      ∧ granted.portState .p0 ≠ .held
      ∧ (granted.withPort .p1 (seated .held)).portState .p1 = .held
      ∧ ((granted.withPort .p1 (seated .held)).ctl.ports.get .p1).holdFlag = false := by
  refine ⟨receives_hub _ _, rfl, rfl, rfl, rfl, by decide, rfl, fun r h => ?_, by decide, by decide, by decide, rfl,
    by decide, rfl, rfl⟩
  have := register_offsets r
  rw [← h] at this
  exact absurd this (by decide)

/-- Membership commands of a card: for itself and for port 3, in each state. -/
theorem test_meets_ControlFramesAreAnswered_for_members :
    granted.receives .p0 ∧ granted.portState .p0 = .active ∧ (granted.ctl.ports.get .p0).controlGrant = true
      ∧ (block 4 0 0).code.toNat = 4 ∧ (block 5 3 0).code.toNat = 5 ∧ (block 6 3 0).code.toNat = 6
      ∧ (block 7 3 0).code.toNat = 7 ∧ (block 4 0 0).arg = Port.byte .p0 ∧ (block 5 3 0).arg = Port.byte .p3
      ∧ granted.portState .p3 = .empty ∧ (granted.ifaces.get .p0).linkUp = true
      ∧ (∀ st, (granted.withPort .p3 (seated st)).portState .p3 = st
        ∧ (granted.withPort .p3 (seated st)).receives .p0)
      ∧ ∀ closed hold, let r : PortRec := { PortRec.reset with state := .fenced, latchClosed := closed, holdFlag := hold }
        (granted.withPort .p3 r).ctl.ports.get .p3 = r ∧ (granted.withPort .p3 r).ctl.admitMode = .auto :=
  ⟨receives_hub _ _, rfl, rfl, rfl, rfl, rfl, rfl, rfl, rfl, rfl, rfl,
    fun _ => ⟨rfl, rfl, rfl, (by decide : 0 < 32), rfl⟩, fun _ _ => ⟨rfl, rfl⟩⟩

theorem test_meets_ControlFramesWriteRegisters :
    granted.receives .p0 ∧ granted.portState .p0 = .active ∧ (granted.ctl.ports.get .p0).controlGrant = true
      ∧ (block 2 0 0x58).code.toNat = 2 ∧ (block 2 0 0x58).offset.toNat = Reg.offset .sweepState
      ∧ Reg.readOnly .sweepState = true ∧ (block 2 0 0x98).offset.toNat = Reg.offset (.portControl .p3)
      ∧ (block 2 0 0x30).offset.toNat = Reg.offset .eventStatus :=
  ⟨receives_hub _ _, rfl, rfl, rfl, rfl, rfl, rfl, rfl⟩

theorem test_meets_SetWindowReplacesTheEntry :
    granted.serves ∧ granted.receives .p0 ∧ granted.portState .p0 = .active
      ∧ (granted.ctl.ports.get .p0).controlGrant = true
      ∧ ((7 : Byte).toNat < 8 ∧ (5 : Granule) ≤ 2097151 ∧ (2097151 : Granule).toNat < granted.mem.granuleCount)
      ∧ ¬(8 : Byte).toNat < 8 ∧ ¬(6 : Granule) ≤ 5 ∧ ¬(2097152 : Granule).toNat < granted.mem.granuleCount
      ∧ (7 : Fin 8).val = (7 : Byte).toNat ∧ (block 9 7 0).code.toNat = 9 :=
  ⟨serves_hub _, receives_hub _ _, rfl, rfl, by decide, by decide, by decide, by decide, rfl, rfl⟩

/-! ### The sweep engine -/

/-- The walk of this job at this place. -/
def walking (job : Job) (w : Walk) (s : State) : State := s.setSweep ⟨[job], w, []⟩

theorem test_meets_WalkVisits :
    (∀ job w, (walking job w fullHub).inReset = false ∧ (walking job w fullHub).tablesCanonical
      ∧ (walking job w fullHub).sweep.jobs = job :: [] ∧ (walking job w fullHub).sweep.walk = w
      ∧ (walking job w fullHub).currentEntry = none)
      ∧ (∀ job, (walking job .start ownerHub).currentEntry = some ⟨0, .owner, p0Only, .none⟩
        ∧ (walking job .start ownerHub).EntryAt 0 0 ⟨0, .owner, p0Only, .none⟩)
      ∧ p0Only.get .p1 = false ∧ p0Only.get .p0 = true ∧ p0Only ≠ .const false
      ∧ (∀ p, p0Only.get p = true → (walking .recheck .start ownerHub).right p 0 = .write) := by
  have alone : ∀ v : Fin 8, v ≠ 0 → (ownerHub.dirSet (setOf 0)).ways.get v = none := by decide +kernel
  have canonical : fullHub.tablesCanonical := canonical_of (by decide)
  refine ⟨fun job w => ⟨rfl, canonical, rfl, rfl, ?_⟩,
    fun job => ⟨rfl, entryAt_of_alone rfl rfl alone⟩, rfl, rfl, by decide, fun p _ => by cases p <;> decide +kernel⟩
  have h : ∀ v, DirSet.empty.ways.get v = none := by decide
  exact h w.way

/-- An entry in the last way of the last set that no one holds for a FENCE of port 1, a pending POISON_SET of the walk, and
a DEPART at a victim whose eviction ends. -/
theorem test_meets_WalkVisits_to_their_ends :
    (let e : Entry := ⟨1023, .readers, p0Only, .none⟩
      let s := (walking (.fence .p1) ⟨1023, 7, .none⟩ fullHub).setDirSet 1023
        ⟨(Vector.replicate 8 none).set 7 (some e), [7]⟩;
      s.inReset = false ∧ s.tablesCanonical ∧ s.sweep.jobs = .fence .p1 :: [] ∧ s.currentEntry = some e
        ∧ e.holders.get .p1 = false)
      ∧ (let s := (walking .clear ⟨0, 0, .memory⟩ (queuing .poisonSet .sweep fullHub))
        let s := s.setMem { s.mem with waiting := [⟨.poisonSet, 1, .sweep⟩] };
        s.inReset = false ∧ s.tablesCanonical ∧ s.settled ∧ s.sweep.walk.pause = .memory
          ∧ s.mem.queue = ⟨.poisonSet, 0, .sweep⟩ :: [] ∧ s.mem.waiting = [⟨.poisonSet, 1, .sweep⟩]
          ∧ (0 : Granule).toNat < s.mem.granuleCount)
      ∧ (let s := walking (.depart .p0) ⟨0, 0, .evicting⟩ evictingHub;
        s.inReset = false ∧ s.tablesCanonical ∧ s.settled ∧ s.receives .p0 ∧ s.portState .p0 = .active
          ∧ s.txn 11 = some evictor ∧ evictor.awaited = (PerPort.const none).set .p0 (some ⟨.revoke, false⟩)
          ∧ s.EntryAt 0 0 ⟨0, .readers, p0Only, .evicting 11⟩ ∧ p0Only = (PerPort.const false).set .p0 true
          ∧ setOf evictor.granule = setOf 0 ∧ s.NoEntry 1024 ∧ s.txn serviceSlot = none
          ∧ s.sweep.jobs = .depart .p0 :: [] ∧ s.sweep.walk.pause = .evicting ∧ s.sweep.walk.set.val = setOf 0
          ∧ s.sweep.walk.way = 0) :=
  ⟨⟨rfl, canonical_of (by decide +kernel), rfl, by decide +kernel, rfl⟩,
    ⟨rfl, canonical_of (by decide +kernel), settled_of_members (by decide), rfl, rfl, rfl, by decide⟩,
    rfl, canonical_of (by decide +kernel), settled_of_members (by decide), ⟨rfl, rfl, (by decide : 0 < 32), rfl⟩, rfl,
    by decide +kernel, rfl, entryAt_of_alone (by decide +kernel) rfl (by decide +kernel), rfl, by decide +kernel,
    noEntry_of_granules (by decide +kernel), by decide +kernel, rfl, rfl, by decide +kernel, rfl⟩

/-- The sweep slot recalls granule 0 from port 0 for a DEPART, and is the only slot of its chain. -/
def departingTxn : Txn :=
  { newTxn (.sweepDepart .p0) 0 with phase := .recalling, awaited := ⟨some ⟨.revoke, false⟩, none, none, none⟩ }

theorem test_meets_WalkRecallsThroughTheSweepSlot_and_goes_on :
    (let s := (walking (.depart .p0) .start ownerHub).setChain 0 [5];
      s.chain 0 ≠ [] ∧ s.txn sweepSlot = none ∧ s.sweep.walk.pause = .none)
      ∧ ((walking .recheck .start ownerHub).setTxn sweepSlot (some (newTxn .sweepWithdrawn 3))).txn sweepSlot ≠ none
      ∧ ∀ pause,
        let s := walking (.depart .p0) ⟨0, 0, pause⟩ (running 48 departingTxn (holding ⟨0, .owner, p0Only, .busy 48⟩ fullHub))
        s.inReset = false ∧ s.settled ∧ s.tablesCanonical ∧ s.receives .p0 ∧ s.portState .p0 = .active
          ∧ (48 : Byte).toNat = 48 ∧ s.txn sweepSlot = some departingTxn
          ∧ departingTxn.awaited = (PerPort.const none).set .p0 (some ⟨.revoke, false⟩) ∧ s.outstanding sweepSlot = 0
          ∧ s.chain 0 = [sweepSlot] ∧ s.EntryAt 0 0 ⟨0, .owner, p0Only, .busy 48⟩ ∧ s.sweep.walk.pause = pause := by
  have canonical : (running 48 departingTxn (holding ⟨0, .owner, p0Only, .busy 48⟩ fullHub)).tablesCanonical :=
    canonical_of (by decide +kernel)
  have alone : ∀ v : Fin 8, v ≠ 0 →
      ((holding ⟨0, .owner, p0Only, .busy 48⟩ fullHub).dirSet (setOf 0)).ways.get v = none := by decide +kernel
  exact ⟨by decide +kernel, by decide +kernel, fun pause => ⟨rfl, settled_of_members ⟨rfl, rfl, rfl, rfl⟩, canonical,
    ⟨rfl, rfl, (by decide : 0 < 32), rfl⟩, rfl, rfl, rfl, rfl, rfl, rfl, entryAt_of_alone rfl rfl alone, rfl⟩⟩

theorem test_meets_WalkRecallsThroughTheSweepSlot :
    (∀ job base, base = ownerHub ∨ base = { ownerHub with windows := closedHub.windows } →
      let s := walking job .start base
      s.inReset = false ∧ s.sweep.jobs = job :: [] ∧ s.sweep.walk.pause = .none
        ∧ s.currentEntry = some ⟨0, .owner, p0Only, .none⟩
        ∧ s.EntryAt 0 s.sweep.walk.way ⟨0, .owner, p0Only, .none⟩ ∧ s.chain 0 = [] ∧ s.txn sweepSlot = none
        ∧ ∀ q, p0Only.get q = true → s.portState q = .active ∨ s.portState q = .departing)
      ∧ p0Only.get .p0 = true
      ∧ (walking .recheck .start { ownerHub with windows := closedHub.windows }).right .p0 0 = .none := by
  have alone : ∀ v : Fin 8, v ≠ 0 → (ownerHub.dirSet (setOf 0)).ways.get v = none := by decide +kernel
  refine ⟨fun job base h => ?_, rfl, by decide +kernel⟩
  rcases h with rfl | rfl <;>
  exact ⟨rfl, rfl, rfl, rfl, entryAt_of_alone rfl rfl alone, rfl, rfl, fun q _ => by cases q <;> exact .inl rfl⟩

/-- Port 0 in this state, with this report on its way. -/
def reported (st : PortState) (r : Report) : State := (hub st).setSweep ⟨[], .start, [r]⟩

theorem test_meets_ReportsAreTaken :
    (∀ st r, (reported st r).inReset = false ∧ (reported st r).settled ∧ (reported st r).sweep.reports = r :: []
      ∧ (reported st r).portState .p0 = st)
      ∧ (reported .departing (.depart .p0)).occupied .p0 = 0
      ∧ 0 < ((reported .departing (.depart .p0)).setTxn 0 (some (newTxn (.member .peek) 0))).occupied .p0
      ∧ (reported .fencing (.fence .p0)).draining .p0 = false
      ∧ ((reported .fencing (.fence .p0)).setTxn 0
          (some { newTxn (.member .peek) 0 with phase := .draining })).draining .p0 = true
      ∧ (∀ i x, (reported .departing (.depart .p0)).txn i = some x → x.awaited.get .p0 = none)
      ∧ ∀ p, (reported .active .clear).portState p = .fencing → (reported .active .clear).draining p = true :=
  ⟨fun _ _ => ⟨rfl, settled_of_members ⟨rfl, rfl, rfl, rfl⟩, rfl, rfl⟩, by decide +kernel, by decide +kernel,
    by decide +kernel, by decide +kernel, unawaited_of_each (by decide +kernel),
    fun p h => by cases p <;> exact absurd h (by decide)⟩

/-! ### The service port -/

theorem not_pending_of_idle {r : SlotResult} (idle : r = .idle) : ¬∃ c g, r = .pending c g := by
  rintro ⟨c, g, h⟩
  rw [idle] at h
  cases h

theorem of_free {o : Option Txn} {P : Txn → Prop} (free : o = none) : ∀ x, o = some x → P x := by
  rintro x rfl
  cases free

theorem test_meets_HubClearFencesEveryMember :
    (∀ h st, (inState h (hub st)).serves ∧ (inState h (hub st)).svc.hubState = h ∧ (inState h (hub st)).portState .p0 = st)
      ∧ (∀ c g, (resulted (.pending c g)).svc.result = .pending c g)
      ∧ (¬∃ c g, (hub .active).svc.result = .pending c g) ∧ (hub .active).txn serviceSlot = none ∧ (hub .parked).settled
      ∧ (∀ p, (hub .parked).portState p ≠ .active ∧ (hub .parked).portState p ≠ .departing)
      ∧ ∀ x, (hub .parked).txn sweepSlot = some x → x.phase ≠ .waiting :=
  ⟨fun _ _ => ⟨⟨rfl, rfl⟩, rfl, rfl⟩, fun _ _ => rfl, not_pending_of_idle rfl, by decide +kernel, settled_of_members (by decide),
    fun p => by cases p <;> decide, of_free (by decide +kernel)⟩

theorem test_meets_HubClearFencesEveryMember_and_no_other :
    (hub .fencing).serves ∧ (hub .fencing).svc.hubState = .running ∧ (hub .fencing).portState .p0 ≠ .active
      ∧ (hub .fencing).portState .p0 ≠ .departing ∧ ((hub .fencing).ctl.ports.get .p0).sweepFinished ≠ true :=
  ⟨serves_hub _, by decide⟩

theorem test_meets_MemoryCommandsArePlaced_of_held :
    ownerHub.serves ∧ ownerHub.svc.hubState ≠ .initializing ∧ (¬∃ c g, ownerHub.svc.result = .pending c g)
      ∧ (0 : Granule).toNat < ownerHub.mem.granuleCount ∧ ownerHub.chain 0 = []
      ∧ ownerHub.EntryAt 0 0 ⟨0, .owner, p0Only, .none⟩ ∧ some MemKind.read ≠ none ∧ p0Only.get .p0 = true
      ∧ ∀ q, p0Only.get q = true → ownerHub.portState q = .active ∨ ownerHub.portState q = .departing :=
  ⟨⟨rfl, rfl⟩, by decide, not_pending_of_idle rfl, by decide, by decide +kernel, entry_ownerHub, by decide, rfl,
    fun q _ => by cases q <;> exact .inl rfl⟩

theorem test_meets_MemoryCommandsArePlaced :
    fullHub.serves ∧ fullHub.svc.hubState ≠ .initializing ∧ (¬∃ c g, fullHub.svc.result = .pending c g)
      ∧ (inState .initializing fullHub).svc.hubState = .initializing
      ∧ fullHub.mem.granuleCount ≤ (2097152 : Granule).toNat ∧ (0 : Granule).toNat < fullHub.mem.granuleCount
      ∧ busyHub.serves ∧ busyHub.chain 0 ≠ []
      ∧ (let e : Entry := ⟨0, .readers, p0Only, .evicting 3⟩
        (holding e fullHub).serves ∧ (holding e fullHub).chain 0 = [] ∧ (holding e fullHub).EntryAt 0 0 e)
      ∧ fullHub.chain 0 = [] ∧ fullHub.NoEntry 0 ∧ fullHub.tablesCanonical ∧ fullHub.txn serviceSlot = none :=
  ⟨⟨rfl, rfl⟩, by decide, not_pending_of_idle rfl, rfl, by decide, by decide, ⟨rfl, rfl⟩, by decide +kernel,
    ⟨⟨rfl, rfl⟩, rfl, entryAt_of_alone (by decide +kernel) rfl (by decide +kernel)⟩, by decide +kernel,
    noEntry_of_empty (by decide +kernel), canonical_of (by decide), by decide +kernel⟩

/-! ### Laws -/

/-- The set that holds granule 0 in way 0. -/
def ownerSet : DirSet := ⟨(Vector.replicate 8 none).set 0 (some ⟨0, .owner, p0Only, .none⟩), [0]⟩

theorem ownerHub_sets (k : Nat) : ownerHub.dirSet k = if k = 0 then ownerSet else DirSet.empty := by
  by_cases h : k = 0
  · subst h
    rfl
  · rw [if_neg h]
    show Sparse.get DirSet.empty [(0, ownerSet)] k = _
    rw [Sparse.get, if_neg fun z => h z.symm]
    rfl

theorem ownerHub_directoryLawful : ownerHub.directoryLawful := by
  refine ⟨by decide +kernel, fun k => ?_⟩
  rw [ownerHub_sets]
  by_cases h : k = 0
  · subst h
    exact lawful_of (by decide +kernel) (by decide +kernel) (by decide +kernel) (by decide +kernel)
  · rw [if_neg h]
    have empty : ∀ w, (DirSet.empty.ways.get w).isNone := by decide
    refine ⟨fun w e at_w => ?_, fun v w e f at_v => ?_, by decide, by decide⟩
    · have := empty w
      rw [at_w] at this
      cases this
    · have := empty v
      rw [at_v] at this
      cases this

theorem ownerHub_granulesInstalled : ownerHub.granulesInstalled := by
  refine ⟨nofun, by decide +kernel, by decide, by decide, by decide, fun i => of_free ?_, fun k w e at_w => ?_⟩
  · revert i
    decide +kernel
  · rw [ownerHub_sets] at at_w
    by_cases h : k = 0
    · rw [if_pos h] at at_w
      have low := of_each_way (d := ownerSet) (P := fun _ e => decide (e.granule.toNat < 2097152)) (by decide +kernel)
        w e at_w
      exact of_decide_eq_true low
    · rw [if_neg h] at at_w
      have empty : ∀ w, (DirSet.empty.ways.get w).isNone := by decide
      have := empty w
      rw [at_w] at this
      cases this

/-- The law of the sweep queue, where nothing is queued and no port waits for a report. -/
theorem sweepLaw_of_idle {s : State} (idle : s.sweep = ⟨[], .start, []⟩) (up : s.inReset = false)
    (running : s.svc.hubState = .running) (empty : s.mem.inits = []) (all : s.mem.nextInit ≤ s.mem.granuleCount)
    (few : s.mem.granuleCount ≤ 2 ^ 23) (ports : ∀ p, s.portState p ≠ .departing ∧ s.portState p ≠ .fencing) :
    s.sweepLawful where
  jobs _ := by rw [idle]; exact Nat.zero_le _
  rechecks := by rw [idle]; decide
  port p := by
    unfold PortRec.awaits
    have := ports p
    unfold State.portState at this
    rw [if_neg fun h => this.1 h.1, if_neg fun h => this.2 h.1, idle]
    rfl
  clearing h := by rw [running] at h; cases h
  noClear _ := by rw [idle]; decide
  initializing h := absurd empty h
  ascending := by rw [empty]; exact ⟨.nil, fun _ => nofun, all, few⟩
  reset h := by rw [up] at h; cases h

theorem ownerHub_transactionsLawful : ownerHub.transactionsLawful where
  canonical := canonical_of (by decide +kernel)
  directory := ownerHub_directoryLawful
  table := tableLaw_of [] (some .none) (fun g => by split <;> rfl)
    (fun g => lockOf_holding (s := fullHub) rfl rfl g) (by decide) (by decide) (by decide) (by decide)
    (by decide +kernel) (by decide +kernel) (by decide +kernel) (fun _ _ => nofun)
  awaiting := awaiting_of (by decide +kernel)

/-- A state with a held granule that has every law, and whose next step is taken. -/
theorem test_meets_StepKeeps :
    (∃ t, step ownerHub = .next t) ∧ ownerHub.tablesCanonical ∧ ownerHub.mem.lawful ∧ ownerHub.directoryLawful
      ∧ ownerHub.portsLawful ∧ ownerHub.granulesInstalled ∧ ownerHub.recallLimitLawful ∧ ownerHub.settled
      ∧ ownerHub.transactionsLawful ∧ ownerHub.sweepLawful := by
  refine ⟨⟨_, rfl⟩, canonical_of (by decide +kernel), ⟨by decide, by decide⟩, ownerHub_directoryLawful, fun p => ?_,
    ownerHub_granulesInstalled, by exact (by decide : 10 ≤ 500), settled_of_members (by decide),
    ownerHub_transactionsLawful,
    sweepLaw_of_idle rfl rfl rfl rfl (by decide) (by decide) fun p => by cases p <;> decide⟩
  refine ⟨⟨fun _ => ?_, fun _ => ?_⟩, fun _ => ?_⟩ <;> cases p <;> rfl

/-! ### Single steps -/

/-- What a command leaves, looked at through a view. -/
def after {α : Type} (c : Instr) (s : State) (view : State → α) : Option α :=
  match exec c s with
  | .next t => some (view t)
  | .fault _ => none
  | .refused _ => none

/-- Straps and lines with one seated card and the larger second capacity. -/
def lines : ResetLines := ⟨false, true, true, p0Only, p0Only, none⟩

theorem test_hub_reset_end :
    after (.hubResetEnd lines) State.reset (fun t => (t.mem.granuleCount, t.mem.queue.length, t.portState .p0, t.holdLine .p0))
      = some (8388608, 16, .held, true) := by
  decide +kernel

/-- A selection that is open when hub reset ends keeps back one command only while its request is not complete: here a
REG_READ with none, one and both of its argument bytes. -/
theorem test_selection_open_at_reset_end :
    ([none, some [], some [1], some [1, 0], some [1, 0, 0], some [10]].map fun selection =>
        after (.hubResetEnd { lines with selection := selection }) State.reset fun t => t.svc.staleSelection)
      = [some false, some true, some true, some true, some false, some false] := by
  decide +kernel

theorem test_init_complete :
    after .initComplete (initializingHub 0 17) (fun t => (t.mem.queue.length, t.mem.waiting.length, t.mem.nextInit))
      = some (16, 1, 18) := by
  decide +kernel

theorem test_last_init_runs :
    after .initComplete (queuing .init .initializer ((hub .empty).setMem { (hub .empty).mem with granuleCount := 1, nextInit := 1 }))
      (fun t => (t.svc.hubState, t.svc.eventStatus)) = some (.running, 0x200) := by
  decide +kernel

theorem test_read_share_enters_memory :
    after (.readShare .p0 11 0) fullHub (fun t => (t.mem.queue, (t.txn 11).map Txn.phase, t.chain 0, t.entry 0))
      = some ([⟨.read, 0, .slot 11⟩], some .memory, [11], some ⟨0, .readers, .const false, .busy 11⟩) := by
  decide +kernel

theorem test_read_complete_grants :
    after .readComplete (memoryHub .readOwn .read (.const false) fullHub)
        (fun t => ((t.ifaces.get .p0).outq, t.entry 0, t.txn 11))
      = some ([.grant 11 0 .owner (some 0) false], some ⟨0, .owner, p0Only, .none⟩, none) := by
  decide +kernel

theorem test_read_own_revokes :
    after (.readOwn .p0 11 0) readersHub (fun t => ((t.ifaces.get .p1).outq, (t.txn 11).map Txn.phase))
      = some ([.recall .revoke 0 11], some .recalling) := by
  decide +kernel

theorem test_promote_by_the_only_holder :
    after (.promote .p0 11 0) ownerHub (fun t => ((t.ifaces.get .p0).outq, t.txn 11))
      = some ([.grant 11 0 .owner none false], none) := by
  decide +kernel

theorem test_peek_demotes_owner :
    after (.peek .p1 0 0) ownerHub (fun t => ((t.ifaces.get .p0).outq, t.txn 12 |>.map Txn.phase))
      = some ([.recall .demote 0 12], some .recalling) := by
  decide +kernel

theorem test_poke_without_flags :
    after (.poke .p0 11 0 5 0) fullHub (fun t => ((t.ifaces.get .p0).outq, t.mem.queue))
      = some ([.ack 11 0 .ok .none false], []) := by
  decide +kernel

theorem test_atomic_complete :
    after .atomicRmwComplete
        ((writingHub .active .memory (.atomic ⟨.fetchAdd, 7, 5, 0⟩) (.atomicRmw ⟨.fetchAdd, 7, 5, 0⟩)).setMem
          { (writingHub .active .memory (.atomic ⟨.fetchAdd, 7, 5, 0⟩) (.atomicRmw ⟨.fetchAdd, 7, 5, 0⟩)).mem with
            dram := [(56, 2)] })
        (fun t => ((t.ifaces.get .p0).outq, t.mem.dram))
      = some ([.ack 11 0 .ok (.value 2) false], [(56, 7)]) := by
  decide +kernel

theorem test_return_dirty :
    after (.returnDirty .p0 11 0 9) ownerHub (fun t => (t.mem.queue, t.entry 0))
      = some ([⟨.writeFull 9, 0, .slot 11⟩], none) := by
  decide +kernel

theorem test_release_stale :
    after (.release .p0 11 0) fullHub (fun t => (t.ifaces.get .p0).outq) = some [.ack 11 0 .stale .none false] := by
  decide +kernel

theorem test_yield_dirty :
    after (.yield .p0 0 0 11 (.dirty 3)) (recallHub ⟨.revoke, false⟩ none)
        (fun t => (t.mem.queue, (t.txn 11).map Txn.phase, (t.entry 0).map Entry.holders))
      = some ([⟨.writeFull 3, 0, .slot 11⟩, ⟨.read, 0, .slot 11⟩], some .memory, some p1Only) := by
  decide +kernel

theorem test_recall_expiry_asks_for_a_fence :
    after (.recallDeadlineExpiry 11) (recallHub ⟨.revoke, false⟩ none) (fun t => (t.now, t.ctl.fenceRequests))
      = some (500, [.p0]) := by
  decide +kernel

theorem test_fence_request :
    after (.fenceRequest .p0) (leaving []) (fun t => (t.portState .p0, (t.ctl.ports.get .p0).fenceReason, t.sweep.jobs))
      = some (.fencing, some .recallTimeout, [.fence .p0]) := by
  decide +kernel

theorem test_join :
    after (.join .p0 0) (hub .joinable) (fun t => (t.portState .p0, t.ctl.epoch, (t.ifaces.get .p0).outq))
      = some (.active, 1, [.ack 15 0 .ok (.value 1) false, .notice (.memberUp .p0) 1]) := by
  decide +kernel

theorem test_leave :
    after (.leave .p0 0) (hub .active) (fun t => (t.portState .p0, (t.ctl.ports.get .p0).deadline, t.sweep.jobs))
      = some (.departing, some 200000, [.depart .p0]) := by
  decide +kernel

theorem test_depart_report :
    after .sweepReport (reported .departing (.depart .p0)) (fun t => (t.portState .p0, t.ctl.epoch, t.svc.eventStatus))
      = some (.parked, 1, 0x10) := by
  decide +kernel

theorem test_fence_visit_poisons :
    after .walkVisit (walking (.fence .p0) .start ownerHub) (fun t => (t.mem.queue, t.entry 0, t.sweep.walk.way))
      = some ([⟨.poisonSet, 0, .sweep⟩], none, 1) := by
  decide +kernel

theorem test_last_visit :
    after .walkVisit (walking .clear ⟨1023, 7, .none⟩ fullHub) (fun t => (t.sweep.jobs, t.sweep.reports, t.svc.eventStatus))
      = some ([], [.clear], 0x100) := by
  decide +kernel

/-- A running DEPART whose last entry's slot ends by the fence entry has been converted before: it completes as a FENCE job
in that change. -/
theorem test_fence_entry_converts_the_job_first :
    after (.fencePort Port.p0.byte)
        (walking (.depart .p0) ⟨1023, 7, .slot⟩
          (running 48 departingTxn (holding ⟨0, .readers, p0Only, .busy 48⟩ (hub .departing))))
        (fun t => (t.txn 48, t.sweep, t.svc.eventStatus))
      = some (none, ⟨[], .start, [.fence .p0]⟩, 0x100) := by
  decide +kernel

/-- A converted walk that waited for a slot of a stopped job visits its entry with the FENCE action in the same change. -/
theorem test_converted_walk_visits :
    after (.fencePort Port.p0.byte)
        (walking (.depart .p0) ⟨0, 0, .slotInUse⟩ (holding ⟨0, .owner, p0Only, .none⟩ (hub .departing)))
        (fun t => (t.entry 0, t.sweep, t.mem.queue))
      = some (none, ⟨[.fence .p0], ⟨0, 1, .none⟩, []⟩, [⟨.poisonSet, 0, .sweep⟩]) := by
  decide +kernel

/-- The sweep slot that a fence entry of HUB_CLEAR frees belongs to a job that has been stopped: at the last way of the
last set no SWEEP_IDLE is raised and nothing is reported. -/
theorem test_hub_clear_stops_the_walk_first :
    after .hubClear
        (walking (.depart .p0) ⟨1023, 7, .slot⟩
          (running 48 departingTxn (holding ⟨0, .readers, p0Only, .busy 48⟩ (hub .departing))))
        (fun t => (t.txn 48, t.sweep, t.svc.eventStatus))
      = some (none, ⟨[.clear], .start, []⟩, 0) := by
  decide +kernel

theorem test_clear_report :
    after .clearReport (inState .clearing (reported .active .clear)) (fun t => (t.svc.hubState, t.svc.eventStatus))
      = some (.running, 0x400) := by
  decide +kernel

theorem test_read_corrects_and_detects :
    after .readComplete (faultyHub .read)
        (fun t => (t.mem.corrected, t.mem.uncorrected, t.mem.mark 0, t.mem.firstFault, t.svc.eventStatus))
      = some (1, 1, true, some ⟨0, 7⟩, 0x80) := by
  decide +kernel

/-- A poisoned granule whose words are all correctable changes no counter; where a word is uncorrectable, the others count
as in any granule. -/
theorem test_read_of_a_poisoned_granule :
    ([[(0, 1)], [(0, 1), (7, 3)]].map fun errors =>
        after .readComplete
          ((faultyHub .read).setMem { (faultyHub .read).mem with poison := [(0, true)], bitErrors := errors })
          (fun t => (t.mem.corrected, t.mem.uncorrected, t.mem.mark 0)))
      = [some (0, 0, true), some (1, 1, true)] := by
  decide +kernel

theorem test_register_read :
    after (.regRead 0x20) (hub .active) (fun t => t.svc.response) = some [0, 0, 0, 0, 0, 0, 0, 1, 0xF4] := by
  decide +kernel

theorem test_window_register :
    after (.setWindow 7 1 5 6 0b10010000) (hub .active) (fun t => readRegister t (.window 7))
      = some 0x8090000006000005 := by
  decide +kernel

theorem test_memory_peek :
    after (.memPeek 0) (hub .active) (fun t => (t.svc.result, t.mem.queue, t.svc.response))
      = some (.pending .peek 0, [⟨.read, 0, .slot 49⟩], [0]) := by
  decide +kernel

theorem test_memory_peek_done :
    after .readComplete (queuing .read (.slot 49) (running 49 { newTxn .memPeek 0 with phase := .memory } (hub .active)))
      (fun t => t.svc.result) = some (.done .peek 0 (some 0) false) := by
  decide +kernel

theorem test_slot_status :
    after .slotStatus (resulted (.badAddress .poke 0x12345)) (fun t => (t.svc.response.take 6, t.svc.response.length, t.svc.result))
      = some ([0, 3, 2, 1, 0x23, 0x45], 70, .idle) := by
  decide +kernel

theorem test_tick_queues_expiry :
    step ((hub .active).setTxn 0 (some { newTxn (.member .peek) 0 with deadline := some 1 }))
      = .next { (hub .active).setTxn 0 (some { newTxn (.member .peek) 0 with deadline := some 1 }) with
        now := 1, pending := [.recallDeadlineExpiry 0], freeDraws := 1 } := by
  rfl

/-! ### Bytes on the wire -/

theorem test_atomic_frame_bytes :
    Frame.ofBytes ([6, 0x0B, 0x56, 0x34, 0x12, 0, 0, 0, 3, 7, 0, 0, 0, 0, 0, 0] ++ [1, 2, 0, 0, 0, 0, 0, 0]
      ++ [0, 0, 0, 0, 0, 0, 0, 0x80])
      = .request 11 0x123456 (.atomic ⟨.compareSwap, 7, 0x0201, 0x8000000000000000⟩) := by
  decide +kernel

theorem test_control_frame_bytes :
    Frame.ofBytes [12, 0x0E, 0, 0, 0, 0, 0, 0, 9, 1, 0x20, 0, 5, 0, 0, 1, 6, 0, 0, 0x90, 0, 0, 0, 0]
      = .control 0 ⟨9, 1, 0x20, 5, 1, 0x90000006⟩ := by
  decide +kernel

theorem test_grant_bytes :
    (HubFrame.grant 11 0x123456 .owner none true).toBytes = [16, 11, 0x56, 0x34, 0x12, 0, 12, 0]
      ∧ (HubFrame.notice (.memberDown .p2 (some .removed)) 0x0102).toBytes
        = [21, 15, 0, 0, 0, 0, 0, 0, 2, 2, 2, 1, 4, 0, 0, 0] := by
  decide +kernel

/-- SPI_OUT of a SLOT_STATUS selection: the command byte, the turnaround byte, the status, the data, and zero after them. -/
theorem test_spi_out :
    after .slotStatus (resulted (.badAddress .poke 0x12345))
        (fun t => ([0, 1, 2, 3, 4, 5, 6, 7, 71, 72].map (t.spiOut (some [13])), t.spiOut none 3))
      = some ([some 0, some 0, some 0, some 3, some 2, some 1, some 0x23, some 0x45, some 0, some 0], none) := by
  decide +kernel

theorem test_service_request :
    serviceRequest [2, 0, 0x38, 0, 0, 0, 0, 0, 0, 0, 5] = some (.eventEnableWrite 5)
      ∧ serviceRequest [9, 7, 1, 0, 0, 5, 0, 0, 6, 0x90] = some (.setWindow 7 1 5 6 0x90)
      ∧ serviceRequest [11, 0x01, 0x23] = none ∧ serviceRequest [200] = some (.unknownServiceCommand 200) := by
  decide +kernel

end Sys2Proof.Tests
end

section
/-! PROOFS. What every step keeps, hub reset, and the queues of commands and of memory operations. -/

namespace Sys2Proof.Machine

variable {s t : State}

/-! ### How a law is shown to be kept by every step -/

/-- What makes a law of the state one that every step keeps: it holds in hub reset, says nothing of the time base, the
draws and the queue of commands, and each part of the other commands keeps it. -/
structure StepKept (P : State → Prop) : Prop where
  idle : ∀ s n d q, P s → P { s with now := n, freeDraws := d, pending := q }
  reset : ∀ s, P (State.enterReset s)
  sampled : ∀ s l, P s → P (s.sampleLines l)
  performed : ∀ s t, Performed s t → P s → P t
  popped : ∀ s : State, s.mem.queue ≠ [] → P s → P (s.setMem s.mem.popped)
  offered : ∀ s, P s → P (State.offerInit s)
  deed : ∀ s t, Deed (fun _ => True) s t → P s → P t

theorem StepKept.exec {P : State → Prop} (k : StepKept P) {c : Instr} (h : exec c s = .next t) (hs : P s) : P t := by
  refine exec_keeps h hs (k.reset s) (fun l _ => ?_) (fun op rest hq _ => ?_) fun hd => ?_
  · exact leaveReset_keeps l (k.sampled s l hs) (fun u _ => k.offered u) (k.deed _ _)
  · exact completeOldest_keeps (within_true s) (fun u p => k.performed s u p hs)
      (fun u p => k.popped u (by rw [p.queue, hq]; exact List.cons_ne_nil op rest)) (fun u _ => k.offered u)
      (k.deed _ _)
  · exact (hd _ (within_true s)).keeps (k.deed _ _) hs

/-- A step is the front command on the queue's rest, or a tick. -/
theorem step_cases (h : step s = .next t) :
    (∃ c rest, s.pending = c :: rest ∧ exec c { s with pending := rest } = .next t) ∨ t = s.tick := by
  unfold step at h
  split at h
  · injection h with h
    exact .inr h.symm
  · rename_i c rest hp
    exact .inl ⟨c, rest, hp, h⟩

theorem StepKept.step {P : State → Prop} (k : StepKept P) (h : step s = .next t) (hs : P s) : P t := by
  rcases step_cases h with ⟨c, rest, -, he⟩ | rfl
  · exact k.exec he (k.idle s s.now s.freeDraws rest hs)
  · exact k.idle s _ _ _ hs

/-! ### The laws of the tables -/

theorem Performed.table (h : Performed s t) : t.table = s.table := (congrArg State.table h.rest :)

theorem Performed.dir (h : Performed s t) : t.dir = s.dir := (congrArg State.dir h.rest :)

theorem tablesCanonical_kept : StepKept State.tablesCanonical where
  idle _ _ _ _ h := h
  reset _ := ⟨Sparse.wf_nil, Sparse.wf_nil, Sparse.wf_nil, Sparse.wf_nil, Sparse.wf_nil⟩
  sampled _ _ h := h
  performed s t p h := by
    obtain ⟨hdram, herrors, hpoison, hchains, hdir⟩ := h
    obtain ⟨hdram, herrors, hpoison⟩ := p.canonical hdram herrors hpoison
    exact ⟨hdram, herrors, hpoison, p.table ▸ hchains, p.dir ▸ hdir⟩
  popped s _ h := by
    unfold MemController.popped
    split <;> exact h
  offered s h := (Move.offer (K := fun _ => True) (A := True) s _ trivial).tablesCanonical h
  deed _ _ d h := d.tablesCanonical h

theorem memLawful_kept : StepKept fun s => s.mem.lawful where
  idle _ _ _ _ h := h
  reset _ := ⟨Nat.zero_le _, fun h => absurd rfl h⟩
  sampled _ _ h := h
  performed s t p h := by
    unfold MemController.lawful at *
    rwa [p.queue, p.waiting]
  popped _ hq h := popped_lawful h hq
  offered s h := offer_lawful s _ h
  deed _ _ d h := d.memLawful h

theorem recallLimitLawful_kept : StepKept State.recallLimitLawful where
  idle _ _ _ _ h := h
  reset _ := show 10 ≤ (500 : BitVec 16).toNat by decide
  sampled _ _ h := h
  performed s t p h := by
    unfold State.recallLimitLawful at *
    rwa [p.table]
  popped _ _ h := h
  offered s h := (Deed.act (.move (.offer (K := fun _ => True) s _ trivial))).recallLimitLawful h
  deed _ _ d h := d.recallLimitLawful h

/-- Settles O56: each of the three laws is one that every part of a command keeps. -/
theorem stepKeepsTables : Obligations.StepKeepsTables := fun _ _ h =>
  ⟨tablesCanonical_kept.step h, memLawful_kept.step h, recallLimitLawful_kept.step h⟩

/-! ### Hub reset -/

theorem change_inReset (hr : s.inReset = true) (f : State → State) : change f s = .next s := by
  unfold change
  rw [if_pos hr]

theorem transfer_inReset (hr : s.inReset = true) (f : State → State) : transfer f s = .next s := change_inReset hr _

theorem complete_inReset (hr : s.inReset = true) (kind : MemKind → Bool) : complete kind s = .next s := by
  unfold complete
  rw [if_pos hr]

/-- In hub reset nothing but hub reset and its end has an effect (01 R16, 10 R200). -/
theorem exec_inReset (hr : s.inReset = true) {c : Instr} (h1 : c ≠ .hubReset) (h2 : ∀ l, c ≠ .hubResetEnd l) :
    exec c s = .next s := by
  cases c with
  | hubReset => exact absurd rfl h1
  | hubResetEnd l => exact absurd rfl (h2 l)
  | readComplete | writeFullComplete | writePartialComplete | atomicRmwComplete | poisonSetComplete | initComplete =>
    exact complete_inReset hr _
  | regRead | regWrite | eventStatusWrite | eventEnableWrite | portControlWrite | admitModeWrite | recallLimitWrite
  | departLimitWrite | correctedWrite | uncorrectedWrite | firstFaultWrite | protoErrorsWrite | admitPort | ejectPort
  | fencePort | releasePort | holdOn | holdOff | setWindow | hubClear | memPeek | memPoke | slotStatus
  | incompleteSelection =>
    exact transfer_inReset hr _
  | unknownServiceCommand => exact transfer_inReset hr fun s => s.respond (some .badArgument) []
  | _ => exact change_inReset hr _

/-- Settles O5: hub reset is `State.enterReset`, and every other command is a change, a transfer or a completion, none
of which acts while it is taken. -/
theorem hubResetIsTaken : Obligations.HubResetIsTaken := fun _ => ⟨rfl, fun _ hr => exec_inReset hr⟩

/-! ### Granules installed -/

/-- Every granule that the controller, a slot record or a directory entry names is installed: what `granulesInstalled`
says beside the law of hub reset. -/
def State.namesInstalled (s : State) : Prop :=
  Sparse.wf DirSet.empty s.dir ∧ s.mem.nextInit ≤ s.mem.granuleCount ∧ s.mem.granuleCount ≤ 2 ^ 23
    ∧ (∀ op ∈ s.mem.queue ++ s.mem.waiting, op.granule.toNat < s.mem.granuleCount)
    ∧ (∀ i t, s.txn i = some t → t.installed s.mem.granuleCount)
    ∧ ∀ k w e, (s.dirSet k).ways.get w = some e → e.granule.toNat < s.mem.granuleCount

theorem granulesInstalled_iff : s.granulesInstalled ↔ s.resetLawful ∧ s.namesInstalled := Iff.rfl

/-- The property of the granules below `n`. -/
def Below (n : Nat) (g : Granule) : Prop := g.toNat < n

theorem State.namesInstalled.within (h : s.namesInstalled) : Within (Below s.mem.granuleCount) s := by
  obtain ⟨hdir, -, -, -, hslots, hentries⟩ := h
  exact ⟨.inr ⟨hdir, hslots, hentries⟩, fun _ hg => hg⟩

theorem Move.dir_wf {K : Granule → Prop} {A : Prop} (m : Move K A s t) (h : Sparse.wf DirSet.empty s.dir) :
    Sparse.wf DirSet.empty t.dir := by
  cases m with
  | send p f => rwa [send_dir]
  | offer op => rwa [offer_dir]
  | entry g c => exact Sparse.wf_set h _ _
  | alloc g i =>
    unfold State.allocateEntry
    dsimp only
    split
    · exact Sparse.wf_set h _ _
    · exact h
  | replace v g i =>
    unfold State.replaceVictim
    dsimp only
    split
    · split
      · exact Sparse.wf_set h _ _
      · exact h
    · exact h
  | _ => exact h

theorem Deed.dir_wf {K : Granule → Prop} (m : Deed K s t) (h : Sparse.wf DirSet.empty s.dir) :
    Sparse.wf DirSet.empty t.dir := by
  cases m with
  | act m =>
    cases m with
    | move m => exact m.dir_wf h
    | _ => exact h
  | _ => exact h

/-- The part runs with `n` granules, and everything it names is among them. -/
structure Running (n : Nat) (s : State) : Prop where
  inReset : s.inReset = false
  count : s.mem.granuleCount = n
  names : s.namesInstalled

theorem Running.granulesInstalled {n : Nat} (h : Running n s) : s.granulesInstalled :=
  ⟨fun hr => absurd hr (by simp [h.inReset]), h.names⟩

theorem Deed.running {n : Nat} (d : Deed (Below n) s t) (h : Running n s) : Running n t := by
  obtain ⟨hr, rfl, hn⟩ := h
  have hcount := d.granuleCount
  obtain ⟨hinside, -⟩ := d.within hn.within
  obtain ⟨hdir, hinit, hmax, hops, -, -⟩ := hn
  refine ⟨d.inReset.trans hr, hcount, d.dir_wf hdir, ?_, ?_, ?_, fun i x hx => ?_, fun k w e he => ?_⟩
  · rwa [d.nextInit, hcount]
  · rwa [hcount]
  · obtain ⟨ops, hq, hnew⟩ := d.offers
    rw [hq, hcount]
    intro op hop
    rcases List.mem_append.1 hop with hop | hop
    · exact hops op hop
    · exact hnew op hop
  · rw [hcount]
    exact hinside.txn hx
  · rw [hcount]
    exact hinside.way he

theorem Performed.running {n : Nat} (p : Performed s t) (h : Running n s) : Running n t := by
  obtain ⟨hr, hcount, hdir, hinit, hmax, hops, hslots, hentries⟩ := h
  refine ⟨(congrArg State.inReset p.rest :).trans hr, p.granuleCount.trans hcount, ?_⟩
  unfold State.namesInstalled State.txn State.dirSet
  rw [p.dir, p.table, p.granuleCount, p.nextInit, p.queue, p.waiting]
  exact ⟨hdir, hinit, hmax, hops, hslots, hentries⟩

theorem popped_nextInit (m : MemController) : m.popped.nextInit = m.nextInit := by
  unfold MemController.popped
  split <;> rfl

theorem Running.popped {n : Nat} (h : Running n s) (hq : s.mem.queue ≠ []) : Running n (s.setMem s.mem.popped) := by
  obtain ⟨hr, hcount, hdir, hinit, hmax, hops, hslots, hentries⟩ := h
  refine ⟨hr, (popped_granuleCount _).trans hcount, ?_⟩
  unfold State.namesInstalled
  rw [setMem_mem, popped_granuleCount, popped_nextInit, popped_queues _ hq]
  exact ⟨hdir, hinit, hmax, fun op hop => hops op (List.mem_of_mem_tail hop), hslots, hentries⟩

/-- An offer of the initializer names the granule that it has come to. -/
theorem Running.offered {n : Nat} (h : Running n s) (hlt : s.mem.nextInit < s.mem.granuleCount) :
    Running n s.offerInit := by
  have hmax : s.mem.granuleCount ≤ 2 ^ 23 := h.names.2.2.1
  have hop : (BitVec.ofNat 23 s.mem.nextInit).toNat < n := by
    rw [BitVec.toNat_ofNat, Nat.mod_eq_of_lt (by omega), ← h.count]
    exact hlt
  have ho := (Deed.act (.move (.offer (K := Below n) s ⟨.init, _, .initializer⟩ hop))).running h
  obtain ⟨hr, hcount, hdir, -, hmax, hops, hslots, hentries⟩ := ho
  refine ⟨hr, hcount, hdir, ?_, hmax, hops, hslots, hentries⟩
  change s.mem.nextInit + 1 ≤ (s.offer _).mem.granuleCount
  rw [offer_granuleCount]
  exact hlt

theorem Running.completed {n : Nat} (h : Running n s) {op : MemOp} {rest : List MemOp} (hq : s.mem.queue = op :: rest) :
    Running n (s.completeOldest op) :=
  completeOldest_keeps (P := Running n) (h.count ▸ h.names.within) (fun _ p => p.running h)
    (fun _ p hu => hu.popped (by rw [p.queue, hq]; exact List.cons_ne_nil op rest)) (fun _ hlt hu => hu.offered hlt)
    Deed.running

theorem Deeds.running {n : Nat} (d : Deeds (Below n) s t) (h : Running n s) : Running n t := d.keeps Deed.running h

theorem granuleCountOf_bounds (a b : Bool) : 17 ≤ granuleCountOf a b ∧ granuleCountOf a b ≤ 2 ^ 23 := by
  cases a <;> cases b <;> decide

theorem enterReset_txn (s : State) (i : SlotId) : s.enterReset.txn i = none := by
  simp [State.txn, State.enterReset, State.reset, Vector.get_eq_getElem]

/-- A state without operation, slot record and entry names no granule, so that any granule count will do. -/
theorem namesInstalled_of_empty (hdir : s.dir = []) (hq : s.mem.queue = []) (hw : s.mem.waiting = [])
    (hinit : s.mem.nextInit = 0) (hmax : s.mem.granuleCount ≤ 2 ^ 23) (hslots : ∀ i, s.txn i = none) :
    s.namesInstalled := by
  refine ⟨hdir ▸ Sparse.wf_nil, hinit ▸ Nat.zero_le _, hmax, by simp [hq, hw], fun i x hx => ?_, fun k w e he => ?_⟩
  · rw [hslots i] at hx
    cases hx
  · unfold State.dirSet at he
    rw [hdir] at he
    exact absurd ((get_empty w).symm.trans he) (by simp)

theorem enterReset_granulesInstalled (s : State) : s.enterReset.granulesInstalled :=
  ⟨fun _ => rfl, namesInstalled_of_empty rfl rfl rfl rfl (show leastGranuleCount ≤ 2 ^ 23 by decide) (enterReset_txn s)⟩

theorem sampleLines_running (l : ResetLines) (hs : s.enterReset = s) :
    Running (granuleCountOf l.firstMemSize l.secondMemSize) (s.sampleLines l) := by
  rw [← hs]
  exact ⟨rfl, rfl, namesInstalled_of_empty rfl rfl rfl rfl (granuleCountOf_bounds _ _).2 (enterReset_txn s)⟩

/-- Hub reset ends with a part that names installed granules only. -/
theorem leaveReset_running (l : ResetLines) (hs : s.enterReset = s) :
    Running (granuleCountOf l.firstMemSize l.secondMemSize) (s.leaveReset l) := by
  generalize hn : granuleCountOf l.firstMemSize l.secondMemSize = n
  have seats : ∀ (ps : List Port) {u : State}, Running n u →
      Running n (ps.foldl (fun s p => State.presence p true s) u) := fun ps => by
    induction ps with
    | nil => exact fun h => h
    | cons p ps ih => exact fun h => ih ((presence_deeds (h.count ▸ h.names.within) p true).running h)
  exact offerInits_keeps (fun _ hlt h => h.offered hlt) 17 (seats _ (hn ▸ sampleLines_running l hs))

/-- Hub reset leaves the time base, the draws and the queue of commands as they are. -/
theorem granulesInstalled_idle (h : s.granulesInstalled) (n d : Nat) (q : List Instr) :
    ({ s with now := n, freeDraws := d, pending := q } : State).granulesInstalled :=
  ⟨fun hr => congrArg (fun u : State => { u with now := n, freeDraws := d, pending := q }) (h.1 hr), h.2⟩

/-- Every command keeps the granules installed. -/
theorem exec_granulesInstalled {c : Instr} (h : exec c s = .next t) (hs : s.granulesInstalled) :
    t.granulesInstalled := by
  obtain ⟨hreset, hnames⟩ := granulesInstalled_iff.1 hs
  cases hr : s.inReset with
  | true =>
    by_cases h1 : c = .hubReset
    · subst h1
      injection h with h
      exact h ▸ enterReset_granulesInstalled s
    · by_cases h2 : ∃ l, c = .hubResetEnd l
      · obtain ⟨l, rfl⟩ := h2
        injection h with h
        rw [if_pos hr] at h
        exact h ▸ (leaveReset_running l (hreset hr)).granulesInstalled
      · rw [exec_inReset hr h1 fun l hl => h2 ⟨l, hl⟩] at h
        injection h with h
        exact h ▸ ⟨hreset, hnames⟩
  | false =>
    have running : Running s.mem.granuleCount s := ⟨hr, rfl, hnames⟩
    refine exec_keeps h ⟨hreset, hnames⟩ (enterReset_granulesInstalled s) (fun l hr' => ?_) (fun op rest hq _ => ?_)
      fun hd => ?_
    · exact absurd hr' (by simp [hr])
    · exact (running.completed hq).granulesInstalled
    · exact ((hd _ hnames.within).running running).granulesInstalled

/-- Settles O4: the one fault is that of a completion whose granule is not installed. -/
theorem everyCommandCompletes : Obligations.EveryCommandCompletes := fun c s => by
  refine ⟨fun ⟨_, _, _, _, hops, _⟩ => ?_, exec_next c s⟩
  rcases exec_next c s with h | ⟨-, op, rest, hq, hge⟩
  · exact h
  · have := hops op (List.mem_append_left _ (hq ▸ List.mem_cons_self))
    omega

/-- Settles O59: no fault where the granules are installed (O4), and what follows names granules below G again. -/
theorem stepKeepsGranulesInstalled : Obligations.StepKeepsGranulesInstalled := fun s hs => by
  unfold step
  split
  · exact ⟨_, rfl, granulesInstalled_idle hs _ _ _⟩
  · rename_i c rest _
    have hs' := granulesInstalled_idle hs s.now s.freeDraws rest
    obtain ⟨t, ht⟩ := (everyCommandCompletes c _).1 hs'
    exact ⟨t, ht, exec_granulesInstalled ht hs'⟩

end Sys2Proof.Machine
end

section
/-! PROOFS. The reset state, and the queues of commands and of memory operations. -/

namespace Sys2Proof.Machine

variable {s t : State}

/-! ### The reset state -/

theorem reset_txn (i : SlotId) : State.reset.txn i = none := enterReset_txn State.reset i

theorem reset_port (p : Port) : State.reset.ctl.ports.get p = .reset := PerPort.get_const _ p

theorem reset_portState (p : Port) : State.reset.portState p = .empty := congrArg PortRec.state (reset_port p)

theorem reset_chain (g : Granule) : State.reset.chain g = [] := rfl

theorem reset_entry (g : Granule) : State.reset.entry g = none := by
  cases h : State.reset.entry g with
  | none => rfl
  | some e =>
    obtain ⟨w, -, hw, -⟩ := entry_some h
    rw [show State.reset.dirSet (setOf g) = DirSet.empty from rfl, get_empty] at hw
    cases hw

theorem reset_lockOf (g : Granule) : State.reset.lockOf g = none := congrArg (Option.map Entry.lock) (reset_entry g)

theorem reset_window (k : Fin 8) (h : k ≠ 0) : State.reset.windows.get k = ⟨false, 0, 0, .const .none⟩ := by
  have hk : (0 : Nat) ≠ k.val := fun e => h (Fin.ext e.symm)
  change (resetWindows leastGranuleCount)[k.val] = _
  unfold resetWindows
  rw [Vector.getElem_set_ne _ _ hk, Vector.getElem_replicate]

/-- Settles O6: the registers by evaluation, the ports one by one, and the tables by the lemmas above. -/
theorem hubResetLeaves : Obligations.HubResetLeaves := by
  refine ⟨rfl, rfl, rfl, rfl, rfl, rfl, rfl, rfl, rfl, rfl, rfl, rfl, fun p => ?_, rfl, reset_window, rfl, rfl, rfl,
    rfl, rfl, reset_txn, fun g => ⟨reset_chain g, reset_entry g⟩⟩
  refine ⟨reset_port p, ?_, ?_, ?_, rfl, ?_, ?_, ?_⟩
  all_goals cases p <;> rfl

/-- A part without slot records, chains, entries and memory command under way has the law of the table. -/
theorem tableLaw_empty {result : SlotResult} (h : ∀ c g, result ≠ .pending c g) :
    TableLaw (fun _ => False) (fun _ => none) (fun _ => []) (fun _ => none) result where
  nodup _ := .nil
  inChain _ _ h := absurd h List.not_mem_nil
  head _ _ _ h := nomatch h
  placed _ _ h := nomatch h
  seated _ _ h := nomatch h
  busy _ _ h := nomatch h
  locked _ _ _ h := nomatch h
  evicting _ _ h := nomatch h
  evicts _ _ h := nomatch h
  result := ⟨fun _ h => (nomatch h), fun _ => h⟩
  opened _ h := h.elim

theorem reset_transactionsLawful : State.reset.transactionsLawful where
  canonical := tablesCanonical_kept.reset State.reset
  directory := ⟨Sparse.wf_nil, DirSet.lawful_empty⟩
  table := by
    rw [funext reset_txn, funext reset_chain, funext reset_lockOf]
    exact tableLaw_empty fun _ _ h => nomatch h
  awaiting i x h := absurd h (by simp [reset_txn])

theorem reset_sweepLawful : State.reset.sweepLawful where
  jobs _ := Nat.zero_le _
  rechecks := Nat.zero_le _
  port p := by
    rw [reset_port]
    simp [PortRec.awaits, PortRec.reset, State.reset, Sweep.line]
  clearing h := nomatch h
  noClear _ := List.not_mem_nil
  initializing h := absurd rfl h
  ascending := ⟨.nil, fun _ h => absurd h List.not_mem_nil, Nat.zero_le _, by decide⟩
  reset _ := rfl

/-- Settles O55: the laws of the tables hold after every hub reset, and the reset state has no slot, chain, entry or
member for the other laws to speak of. -/
theorem resetIsLawful : Obligations.ResetIsLawful := by
  refine ⟨tablesCanonical_kept.reset State.reset, memLawful_kept.reset State.reset, reset_transactionsLawful.directory,
    fun p => ?_, enterReset_granulesInstalled State.reset, recallLimitLawful_kept.reset State.reset, fun p => ?_,
    reset_transactionsLawful, reset_sweepLawful⟩
  · rw [reset_port, reset_portState]
    exact ⟨⟨fun h => (nomatch h), fun _ => rfl⟩, fun h => nomatch h⟩
  · unfold State.mayLeave
    rw [reset_portState]
    rfl

/-! ### The queues -/

/-- The commands of the completions (01 R3). -/
def Completes (c : Instr) : Prop :=
  c = .readComplete ∨ c = .writeFullComplete ∨ c = .writePartialComplete ∨ c = .atomicRmwComplete
    ∨ c = .poisonSetComplete ∨ c = .initComplete

/-- A command that is neither hub reset nor its end nor a completion does deeds only. -/
theorem exec_does {c : Instr} (h1 : c ≠ .hubReset) (h2 : ∀ l, c ≠ .hubResetEnd l) (h3 : ¬Completes c)
    (h : exec c s = .next t) : Does s t := by
  cases c with
  | hubReset => exact absurd rfl h1
  | hubResetEnd l => exact absurd rfl (h2 l)
  | readComplete | writeFullComplete | writePartialComplete | atomicRmwComplete | poisonSetComplete | initComplete =>
    exact absurd (by simp [Completes]) h3
  | presenceEvent p a => exact does_change (fun _ _ h => presence_deeds h p a) h
  | latchEvent p a => exact does_change (fun _ _ h => latch_deeds h p a) h
  | linkUp p => exact does_change (fun _ _ _ => setIface_deeds p _) h
  | linkLost p => exact does_change (fun _ _ h => linkLost_deeds h p) h
  | linkLostAtController p => exact does_change (fun _ _ h => linkLostTaken_deeds h p) h
  | frameSent p => exact does_change (fun _ _ h => frameSent_deeds h p) h
  | readShare p | readOwn p | promote p | peek p | poke p | atomic p | returnDirty p | release p | yield p | join p
  | leave p | control p | malformedFrame p =>
    exact does_change (fun _ _ h => arrive_deeds h p _) h
  | recallDeadlineExpiry i => exact does_change (fun _ _ h => recallExpiry_deeds h i) h
  | fenceRequest p => exact does_change (fun _ _ h => fenceRequestTaken_deeds h p) h
  | departureDeadlineExpiry p => exact does_change (fun _ _ h => departureExpiry_deeds h p) h
  | walkVisit => exact does_change (fun _ _ h => walkVisit_deeds h) h
  | sweepReport => exact does_change (fun _ _ h => sweepReportTaken_deeds h) h
  | clearReport => exact does_change (fun _ _ h => clearReportTaken_deeds h) h
  | dramBitsInError g w b => exact does_change (fun _ _ _ => bitsInError_deeds g w b) h
  | regRead o => exact does_transfer (fun _ _ _ => serviceRead_deeds o) h
  | regWrite o v => exact does_transfer (fun _ _ _ => serviceWriteAt_deeds o v) h
  | eventStatusWrite v | eventEnableWrite v | portControlWrite _ v | admitModeWrite v | recallLimitWrite v
  | departLimitWrite v | correctedWrite v | uncorrectedWrite v | firstFaultWrite v | protoErrorsWrite _ v =>
    exact does_transfer (fun _ _ _ => serviceWrite_deeds _ v) h
  | admitPort b | ejectPort b | fencePort b | releasePort b | holdOn b | holdOff b =>
    exact does_transfer (fun _ _ h => serviceMember_deeds h _ b) h
  | setWindow i v b l r => exact does_transfer (fun _ _ h => serviceWindow_deeds h i v b l r) h
  | hubClear => exact does_transfer (fun _ _ h => hubClear_deeds h) h
  | memPeek g | memPoke g => exact does_transfer (fun _ _ h => memoryCommand_deeds h _ g) h
  | slotStatus => exact does_transfer (fun _ _ _ => readSlot_deeds) h
  | incompleteSelection => exact does_transfer (fun _ _ _ => .refl _) h
  | unknownServiceCommand => exact does_transfer (fun _ _ _ => respond_deeds _ _) h

/-- The memory queue with the pending list behind it, in the order in which the operations will be performed (01 R4). -/
def MemController.line (m : MemController) : List MemOp := m.queue ++ m.waiting

/-- The queue of commands stands, and operations are offered behind those of the line `l` only. -/
structure Extends (q : List Instr) (l : List MemOp) (t : State) : Prop where
  pending : t.pending = q
  line : ∃ ops, t.mem.line = l ++ ops

theorem Extends.refl (s : State) : Extends s.pending s.mem.line s := ⟨rfl, [], (List.append_nil _).symm⟩

/-- A change that keeps the queue of commands and offers operations behind the others. -/
theorem Extends.trans {q : List Instr} {l : List MemOp} (h : Extends q l s) (hp : t.pending = s.pending)
    (ht : ∃ ops, t.mem.line = s.mem.line ++ ops) : Extends q l t := by
  obtain ⟨hq, a, ha⟩ := h
  obtain ⟨b, hb⟩ := ht
  exact ⟨hp.trans hq, a ++ b, by rw [hb, ha, List.append_assoc]⟩

theorem Deed.extends {K : Granule → Prop} {q : List Instr} {l : List MemOp} (d : Deed K s t) (h : Extends q l s) :
    Extends q l t := by
  obtain ⟨ops, hops, -⟩ := d.offers
  exact h.trans d.pending ⟨ops, hops⟩

theorem offer_pending (s : State) (op : MemOp) : (s.offer op).pending = s.pending := by
  unfold State.offer
  split <;> rfl

theorem Extends.offered {q : List Instr} {l : List MemOp} (h : Extends q l s) : Extends q l s.offerInit :=
  h.trans (offer_pending s _) ⟨_, offer_queues s _⟩

/-- The end of hub reset offers the initializer's operations behind those that are there. -/
theorem leaveReset_extends (l : ResetLines) : Extends s.pending s.mem.line (s.leaveReset l) :=
  leaveReset_keeps l ⟨rfl, [], (List.append_nil _).symm⟩ (fun _ _ h => h.offered) Deed.extends

/-! ### What follows the performing of an operation -/

/-- What makes a property one that the end of a completion keeps, after the oldest operation has left: it is kept by
every move, by every change of the controller's registers, by the events of R141 and R147 and by an offer of the
initializer. -/
structure AfterKept (P : State → Prop) : Prop where
  move : ∀ {s t}, Move (fun _ => True) True s t → P s → P t
  ctl : ∀ s c, P s → P { s with ctl := c }
  left : ∀ s e, e = .parked ∨ e = .fenced → P s → P (s.raise e)
  offered : ∀ s, P s → P (State.offerInit s)

section AfterKept

variable {P : State → Prop}

theorem inside_true (s : State) : Inside (fun _ => True) s := inside_of_all fun _ => trivial

theorem AfterKept.moves (k : AfterKept P) (m : Moves (fun _ => True) True s t) (h : P s) : P t := m.keeps k.move h

theorem AfterKept.foldl (fs : List (State → State)) (hf : ∀ f ∈ fs, ∀ s, P s → P (f s)) :
    ∀ {s : State}, P s → P (fs.foldl (fun s f => f s) s) := by
  induction fs with
  | nil => exact fun h => h
  | cons f fs ih =>
    exact fun h => ih (fun f hm => hf f (List.mem_cons_of_mem _ hm)) (hf f List.mem_cons_self _ h)

theorem AfterKept.inFreeOrder (k : AfterKept P) {fs : List (State → State)} (hf : ∀ f ∈ fs, ∀ s, P s → P (f s))
    (h : P s) : P (s.inFreeOrder fs) := by
  unfold State.inFreeOrder
  split
  · exact h
  · exact hf _ List.mem_cons_self s h
  · exact AfterKept.foldl _ (fun f hm => hf f (mem_freeOrder _ _ _ hm)) (k.move (.draws s _) h)

theorem AfterKept.passToParked (k : AfterKept P) (p : Port) (h : P s) : P (s.passToParked p) := by
  refine k.left _ _ (.inl rfl) (k.moves (sendNotice_moves _ _ (inside_true _))
    (k.moves (inFreeOrder_moves ?_ (inside_true _)) (k.ctl _ _ (k.ctl s _ h))))
  intro f hf s hs
  obtain ⟨i, -, rfl⟩ := List.mem_map.1 hf
  exact resolveAbsent_moves hs p false i

theorem AfterKept.exitFencing (k : AfterKept P) (p : Port) (h : P s) : P (s.exitFencing p) :=
  k.left _ _ (.inr rfl) (k.moves (sendNotice_moves _ _ (inside_true _)) (k.ctl _ _ (k.ctl s _ h)))

theorem AfterKept.leaveIfReady (k : AfterKept P) (p : Port) (h : P s) : P (State.leaveIfReady p s) := by
  unfold State.leaveIfReady
  split
  · split
    · exact k.passToParked p h
    · exact k.exitFencing p h
  · exact h

theorem AfterKept.settleRounds (k : AfterKept P) (n : Nat) : ∀ {s : State}, P s → P (s.settleRounds n) := by
  induction n with
  | zero => exact fun h => h
  | succ n ih =>
    intro s h
    simp only [State.settleRounds]
    split
    · exact h
    · refine ih (k.inFreeOrder (fun f hf s hs => ?_) h)
      obtain ⟨p, -, rfl⟩ := List.mem_map.1 hf
      exact k.leaveIfReady p hs

theorem AfterKept.settle (k : AfterKept P) (h : P s) : P s.settle := k.settleRounds 4 h

theorem AfterKept.leaveQueue (k : AfterKept P) (h : P (s.setMem s.mem.popped)) : P s.leaveQueue := by
  rcases leaveQueue_eq s with he | ⟨op, he⟩
  · rwa [he]
  · rw [he]
    unfold State.entered
    split
    · exact h
    · exact k.moves sweepOfferEntered_moves h
    · exact offerInits_keeps (fun u _ => k.offered u) 17 h

/-- The end of a completion, from the oldest operation's leave on, keeps the property. -/
theorem AfterKept.completeOldest (k : AfterKept P) {op : MemOp} (hend : ∀ u : State, P u → P u.endInitialization)
    (h : P ((s.perform op).1.setMem (s.perform op).1.mem.popped)) : P (s.completeOldest op) := by
  have left : P (s.perform op).1.leaveQueue := k.leaveQueue h
  refine k.settle ?_
  unfold State.deliver
  split
  · exact k.moves (deliverToSlot_moves (inside_true _) _ _) left
  · exact left
  · split
    · exact hend _ left
    · exact left

end AfterKept

theorem extends_afterKept (q : List Instr) (l : List MemOp) : AfterKept (Extends q l) where
  move m h := Deed.extends (.act (.move m)) h
  ctl _ _ h := ⟨h.pending, h.line⟩
  left _ _ _ h := ⟨h.pending, h.line⟩
  offered _ h := h.offered

/-- A completion takes the oldest operation and no other (01 R3). -/
theorem completeOldest_extends {op : MemOp} {rest : List MemOp} (hq : s.mem.queue = op :: rest) :
    Extends s.pending (rest ++ s.mem.waiting) (s.completeOldest op) := by
  have p := perform_performed s op
  refine (extends_afterKept _ _).completeOldest (fun _ h => ⟨h.pending, h.line⟩)
    ⟨(congrArg State.pending p.rest :), [], ?_⟩
  change (s.perform op).1.mem.popped.queue ++ (s.perform op).1.mem.popped.waiting = _
  rw [popped_queues _ (by rw [p.queue, hq]; exact List.cons_ne_nil op rest), p.queue, p.waiting, hq, List.append_nil]
  rfl

/-- What each kind of command does to the queues. -/
theorem exec_extends {c : Instr} (h : exec c s = .next t) :
    (c = .hubReset ∧ t = s.enterReset) ∨ Extends s.pending s.mem.line t
      ∨ Completes c ∧ ∃ op rest, s.mem.queue = op :: rest ∧ Extends s.pending (rest ++ s.mem.waiting) t := by
  by_cases hc : Completes c
  · have done : ∀ {kind}, complete kind s = .next t → Extends s.pending s.mem.line t
        ∨ ∃ op rest, s.mem.queue = op :: rest ∧ Extends s.pending (rest ++ s.mem.waiting) t := fun h => by
      rcases complete_cases h with rfl | ⟨op, rest, -, hq, -, -, rfl⟩
      · exact .inl (.refl _)
      · exact .inr ⟨op, rest, hq, completeOldest_extends hq⟩
    refine .inr (Or.imp_right (fun h => ⟨hc, h⟩) ?_)
    obtain rfl | rfl | rfl | rfl | rfl | rfl := hc
    all_goals exact done h
  · by_cases h1 : c = .hubReset
    · subst h1
      injection h with h
      exact .inl ⟨rfl, h.symm⟩
    · by_cases h2 : ∃ l, c = .hubResetEnd l
      · obtain ⟨l, rfl⟩ := h2
        injection h with h
        subst h
        split
        · exact .inr (.inl (leaveReset_extends l))
        · exact .inr (.inl (.refl s))
      · have hd := exec_does h1 (fun l hl => h2 ⟨l, hl⟩) hc h
        exact .inr (.inl ((hd _ (within_true s)).keeps Deed.extends (.refl s)))

/-- Settles O3, by what each kind of command does to the queues. -/
theorem queuesKeepTheirOrder : Obligations.QueuesKeepTheirOrder := fun c s t h => by
  rcases exec_extends h with ⟨rfl, rfl⟩ | ⟨hp, ops, hops⟩ | ⟨hc, op, rest, hq, hp, ops, hops⟩
  · exact ⟨rfl, fun hc => absurd rfl hc⟩
  · exact ⟨hp, fun _ => ⟨ops, .inl hops⟩⟩
  · refine ⟨hp, fun _ => ⟨ops, .inr ⟨hc, op, ?_⟩⟩⟩
    rw [hq, List.cons_append, List.cons_append]
    exact congrArg (op :: ·) hops

end Sys2Proof.Machine
end

section
/-! PROOFS. The end of hub reset: the straps, the windows, the cards that are seated and the initializer's first
offers. -/

namespace Sys2Proof.Machine

variable {s t : State}

/-! ### Cards seated as hub reset ends -/

/-- The record of a port when hub reset has ended: its lines taken, and a card that is present placed (07 R127, R131,
R133). -/
def placed (l : ResetLines) (p : Port) : PortRec :=
  { PortRec.reset with
    present := l.present.get p
    latchClosed := l.latch.get p
    state :=
      if l.present.get p = false then .empty else if l.latch.get p = false then .parked
      else if l.admitMode then .held else .joinable }

/-- The record of a port as the lines are sampled (07 R127). -/
def sampledRec (l : ResetLines) (p : Port) : PortRec := { PortRec.reset with latchClosed := l.latch.get p }

/-- ADMIT_MODE by its strap (07 R133). -/
def sampledMode (l : ResetLines) : AdmitMode := if l.admitMode then .managed else .auto

/-- The event bits of cards seated and of ports that wait for admission (10 R202). -/
def seatEvents (seated held : Bool) : BitVec 11 := (if seated then 1 else 0) ||| (if held then 2 else 0)

theorem seatEvents_or (a b h k : Bool) : seatEvents a h ||| seatEvents b k = seatEvents (a || b) (h || k) := by
  cases a <;> cases b <;> cases h <;> cases k <;> rfl

/-- The state with other port records and another EVENT_STATUS. -/
def State.withSeats (s : State) (ports : PerPort PortRec) (e : BitVec 11) : State :=
  { s with ctl := { s.ctl with ports := ports }, svc := { s.svc with eventStatus := e } }

/-- The events of one port as hub reset ends. -/
def placedEvents (l : ResetLines) (p : Port) : BitVec 11 :=
  seatEvents (l.present.get p) (l.admitMode && (l.present.get p && l.latch.get p))

/-- One port as hub reset ends: its card, if it has one, is placed. -/
theorem presence_placed (l : ResetLines) (p : Port) (hp : s.ctl.ports.get p = sampledRec l p)
    (hm : s.ctl.admitMode = sampledMode l) :
    (if l.present.get p = true then State.presence p true s else s) =
      s.withSeats (s.ctl.ports.set p (placed l p)) (s.svc.eventStatus ||| placedEvents l p) := by
  unfold placedEvents
  cases hpres : l.present.get p with
  | false =>
    have hplaced : placed l p = s.ctl.ports.get p := by
      rw [hp]
      simp [placed, sampledRec, hpres, PortRec.reset]
    simp [hplaced, seatEvents, State.withSeats]
  | true =>
    have hstate : s.portState p = .empty := by
      unfold State.portState
      rw [hp]
      rfl
    rw [if_pos rfl, presence_empty s p hstate (by rw [hp]; rfl) (by rw [hp]; rfl), hp, hm]
    unfold State.withSeats placed sampledRec sampledMode seatEvents
    rw [hpres]
    cases l.latch.get p <;> cases l.admitMode <;> simp [BitVec.or_assoc]

/-- Each port of a list as hub reset ends. -/
theorem presence_placedAll (l : ResetLines) (ps : List Port) : ∀ {s : State}, ps.Nodup →
    (∀ p ∈ ps, s.ctl.ports.get p = sampledRec l p) → s.ctl.admitMode = sampledMode l →
    ps.foldl (fun s p => if l.present.get p = true then State.presence p true s else s) s =
      s.withSeats (ps.foldl (fun m p => m.set p (placed l p)) s.ctl.ports)
        (ps.foldl (fun e p => e ||| placedEvents l p) s.svc.eventStatus) := by
  induction ps with
  | nil => exact fun _ _ _ => rfl
  | cons p ps ih =>
    intro s hnodup hp hm
    obtain ⟨hnot, hnodup⟩ := List.nodup_cons.1 hnodup
    rw [List.foldl_cons, presence_placed l p (hp p List.mem_cons_self) hm, ih hnodup ?_ ?_]
    · rfl
    · intro q hq
      have hne : q ≠ p := fun h => hnot (h ▸ hq)
      exact (PerPort.get_set_other _ _ hne).trans (hp q (List.mem_cons_of_mem p hq))
    · exact hm

/-- The events of the four ports together: SEATED for any card, ADMIT_WAIT for any port that waits (07 R131, R132). -/
theorem placedEvents_all (l : ResetLines) :
    Port.all.foldl (fun e p => e ||| placedEvents l p) 0 =
      seatEvents (l.present.p0 || l.present.p1 || l.present.p2 || l.present.p3)
        (l.admitMode && (l.present.p0 && l.latch.p0 || l.present.p1 && l.latch.p1 || l.present.p2 && l.latch.p2
          || l.present.p3 && l.latch.p3)) := by
  change 0 ||| placedEvents l .p0 ||| placedEvents l .p1 ||| placedEvents l .p2 ||| placedEvents l .p3 = _
  unfold placedEvents
  simp only [BitVec.ofNat_eq_ofNat, BitVec.zero_or, seatEvents_or, ← Bool.and_or_distrib_left]
  rfl

/-! ### The end of hub reset -/

theorem enterReset_rec (s : State) (p : Port) : s.enterReset.ctl.ports.get p = .reset := reset_port p

/-- The state as hub reset ends: straps and lines sampled, cards placed, the initializer's first offers made. -/
theorem leaveReset_eq (l : ResetLines) (hs : s.enterReset = s) :
    s.leaveReset l =
      { s with
        inReset := false
        mem :=
          { s.mem with
            granuleCount := granuleCountOf l.firstMemSize l.secondMemSize
            queue := (List.range 16).map initOp
            waiting := [initOp 16]
            nextInit := 17 }
        windows := resetWindows (granuleCountOf l.firstMemSize l.secondMemSize)
        ctl :=
          { s.ctl with
            admitMode := sampledMode l
            ports := ⟨placed l .p0, placed l .p1, placed l .p2, placed l .p3⟩ }
        svc :=
          { s.svc with
            eventStatus := Port.all.foldl (fun e p => e ||| placedEvents l p) 0
            staleSelection := l.selection.any requestOpen } } := by
  have hrec : ∀ p, s.ctl.ports.get p = .reset := fun p => by rw [← hs]; exact enterReset_rec s p
  have hsampled : ∀ p, (s.sampleLines l).ctl.ports.get p = sampledRec l p := fun p => by
    unfold sampledRec
    rw [← hrec p]
    cases p <;> rfl
  unfold State.leaveReset
  dsimp only
  rw [List.foldl_filter, presence_placedAll l Port.all Port.all_nodup (fun p _ => hsampled p) rfl, offerInits_reset]
  · rw [show (s.sampleLines l).svc.eventStatus = 0 by rw [← hs]; rfl]
    rfl
  · rw [← hs]; rfl
  · rw [← hs]; rfl
  · rw [← hs]; rfl
  · exact (granuleCountOf_bounds _ _).1

/-- The window table with one window over `n` granules, written out (06 R114). -/
theorem resetWindows_eq (n : Nat) :
    resetWindows n =
      #v[⟨true, 0, BitVec.ofNat 23 (n - 1), .const .write⟩, ⟨false, 0, 0, .const .none⟩,
        ⟨false, 0, 0, .const .none⟩, ⟨false, 0, 0, .const .none⟩, ⟨false, 0, 0, .const .none⟩,
        ⟨false, 0, 0, .const .none⟩, ⟨false, 0, 0, .const .none⟩, ⟨false, 0, 0, .const .none⟩] := rfl

/-- A selection has not carried its request whole while it has no command byte, or fewer bytes behind it than its
command calls for (10 R197). -/
theorem requestOpen_cons (code : Byte) (rest : List Byte) :
    requestOpen (code :: rest) = decide (rest.length < (argumentBytes code).getD 0) := by
  change decide (rest.length + 1 < 1 + (argumentBytes code).getD 0) = _
  exact decide_eq_decide.2 (by omega)

/-- Settles O7: the state of `leaveReset_eq`, with the straps and the open selection read by their cases. -/
theorem hubResetEndTakesTheLines : Obligations.HubResetEndTakesTheLines := by
  intro s l hr hs g place anySeated anyHeld arguments
  have hg : granuleCountOf l.firstMemSize l.secondMemSize = g := by
    cases h1 : l.firstMemSize <;> cases h2 : l.secondMemSize <;> simp [g, h1, h2, granuleCountOf]
  have hargs : ∀ code : Byte, (argumentBytes code).getD 0 = arguments code := fun code => by
    simp only [argumentBytes, arguments]
    generalize code.toNat = n
    match n with
    | 0 | 1 | 2 | 3 | 4 | 5 | 6 | 7 | 8 | 9 | 10 | 11 | 12 | 13 => rfl
    | _ + 14 => rfl
  change Host.Outcome.next (if s.inReset then s.leaveReset l else s) = _
  rw [if_pos hr, leaveReset_eq l hs, placedEvents_all, hg, resetWindows_eq]
  rcases l.selection with _ | _ | ⟨code, rest⟩
  · rfl
  · rfl
  · rw [Option.any_some, requestOpen_cons, hargs]
    rfl

end Sys2Proof.Machine
end

section
/-! PROOFS. The memory controller: the contents of the pool and the counts after each kind of completion. -/

namespace Sys2Proof.Machine

variable {s t u : State}

/-! ### A completion and what follows the performing -/

/-- The completion of the oldest operation, where it is of the kind that the command names. -/
theorem complete_oldest {kind : MemKind → Bool} {op : MemOp} {rest : List MemOp} (hr : s.inReset = false)
    (hq : s.mem.queue = op :: rest) (hk : kind op.kind = true) (hg : op.granule.toNat < s.mem.granuleCount) :
    complete kind s = .next (s.completeOldest op) := by
  unfold complete
  simp [hr, hq, hk, hg]

/-- An event bit after an event is raised (10 R213). -/
theorem raise_event (s : State) (e : Event) (i : Nat) :
    (s.raise e).svc.eventStatus.getLsbD i = (s.svc.eventStatus.getLsbD i || decide (i = e.bit)) := by
  have hbit : e.bit < 11 := by cases e <;> decide
  change (latchEventBit s.svc.eventStatus e).getLsbD i = _
  unfold latchEventBit
  rw [BitVec.getLsbD_or, BitVec.getLsbD_ofNat, Nat.testBit_two_pow]
  congr 1
  by_cases h : i = e.bit
  · simp [h, hbit]
  · simp [h, Ne.symm h]

/-- A move raises SWEEP_IDLE at most. -/
theorem Move.event {K : Granule → Prop} {A : Prop} (m : Move K A s t) {i : Nat} (hi : i ≠ Event.sweepIdle.bit) :
    t.svc.eventStatus.getLsbD i = s.svc.eventStatus.getLsbD i := by
  cases m with
  | send p f => unfold State.send; dsimp only; split <;> rfl
  | offer op => unfold State.offer; split <;> rfl
  | alloc g i => unfold State.allocateEntry; dsimp only; split <;> rfl
  | replace v g i =>
    unfold State.replaceVictim
    dsimp only
    split
    · split <;> rfl
    · rfl
  | sweepIdle => rw [raise_event, decide_eq_false hi, Bool.or_false]
  | _ => rfl

/-- From `m` to `n` only the queue, the pending list and the initializer's position change. -/
def MemController.SameContents (m n : MemController) : Prop :=
  { n with queue := m.queue, waiting := m.waiting, nextInit := m.nextInit } = m

theorem MemController.SameContents.trans {m n o : MemController} (h : m.SameContents n) (k : n.SameContents o) :
    m.SameContents o := by
  unfold MemController.SameContents at *
  rw [← k] at h
  exact h

/-- From `s` to `t` the contents of the pool, the counts and FIRST_FAULT stand, and UNCORRECTABLE is latched as it
was. -/
structure Stores (s t : State) : Prop where
  mem : s.mem.SameContents t.mem
  raised : t.svc.eventStatus.getLsbD Event.uncorrectable.bit = s.svc.eventStatus.getLsbD Event.uncorrectable.bit

theorem Stores.dram (h : Stores s t) : t.mem.dram = s.mem.dram := (congrArg MemController.dram h.mem :)

theorem Stores.bitErrors (h : Stores s t) : t.mem.bitErrors = s.mem.bitErrors :=
  (congrArg MemController.bitErrors h.mem :)

theorem Stores.poison (h : Stores s t) : t.mem.poison = s.mem.poison := (congrArg MemController.poison h.mem :)

theorem Stores.errors (h : Stores s t) (g : Granule) (v : Fin 8) : t.mem.errors g v = s.mem.errors g v := by
  unfold MemController.errors
  rw [h.bitErrors]

theorem Stores.mark (h : Stores s t) (g : Granule) : t.mem.mark g = s.mem.mark g := by
  unfold MemController.mark
  rw [h.poison]

theorem Stores.trans (h : Stores s t) (hm : t.mem.SameContents u.mem)
    (he : u.svc.eventStatus.getLsbD Event.uncorrectable.bit = t.svc.eventStatus.getLsbD Event.uncorrectable.bit) :
    Stores s u := ⟨h.mem.trans hm, he.trans h.raised⟩

theorem Move.sameContents {K : Granule → Prop} {A : Prop} (m : Move K A s t) : s.mem.SameContents t.mem :=
  (congrArg (fun x : MemController => { x with nextInit := s.mem.nextInit }) m.quiet.mem :)

theorem stores_afterKept (s : State) : AfterKept (Stores s) where
  move m h := h.trans m.sameContents (m.event (by decide))
  ctl _ _ h := h.trans rfl rfl
  left t e he h := by
    refine h.trans rfl ?_
    rw [raise_event]
    obtain rfl | rfl := he
    all_goals simp [Event.bit]
  offered t h := by
    have m : Move (fun _ => True) True t _ := .offer t ⟨.init, BitVec.ofNat 23 t.mem.nextInit, .initializer⟩ trivial
    exact h.trans m.sameContents (m.event (by decide))

theorem popped_contents (m : MemController) : m.SameContents m.popped := by
  unfold MemController.popped
  split <;> rfl

/-- A completion leaves the pool and the counts as the performing of its operation left them. -/
theorem completeOldest_stores (s : State) (op : MemOp) : Stores (s.perform op).1 (s.completeOldest op) :=
  (stores_afterKept _).completeOldest
    (fun _ h => h.trans rfl (by rw [State.endInitialization, raise_event]; simp [Event.bit]))
    ⟨popped_contents _, rfl⟩

/-! ### The counts after the reads of an operation -/

/-- How many of these words have so many stored bits in error. -/
def MemController.inError (m : MemController) (g : Granule) (ws : List (Fin 8)) (n : Nat) : Nat :=
  ws.countP fun v => bitCount (m.errors g v) == n

theorem satAdd_toNat (c : BitVec 16) (n : Nat) : (satAdd c n).toNat = min 65535 (c.toNat + n) := by
  unfold satAdd
  rw [BitVec.toNat_ofNat, Nat.mod_eq_of_lt (by omega), Nat.min_comm]

/-- A count to which nothing is added. -/
theorem min_count (c : BitVec 16) : c.toNat = min 65535 (c.toNat + 0) := by
  have := c.isLt
  omega

/-- What a read finds in a word with at most two bits in error (01 R7). -/
theorem readWord_verdict {m : MemController} {g : Granule} {w : Fin 8} (h : bitCount (m.errors g w) ≤ 2) :
    (m.readWord g w).word = w
      ∧ ((m.readWord g w).verdict = .corrected ↔ bitCount (m.errors g w) = 1)
      ∧ ((m.readWord g w).verdict = .uncorrectable ↔ bitCount (m.errors g w) = 2) := by
  unfold MemController.readWord
  dsimp only
  split
  · simp [*]
  · simp [*]
  · simp [*]
  · omega

theorem countP_corrected {m : MemController} {g : Granule} {ws : List (Fin 8)}
    (h : ∀ v ∈ ws, bitCount (m.errors g v) ≤ 2) :
    ((ws.map fun w => m.readWord g w).countP fun r => r.verdict == .corrected) = m.inError g ws 1 := by
  rw [List.countP_map]
  refine List.countP_congr fun v hv => ?_
  simp [(readWord_verdict (h v hv)).2.1]

theorem uncorrectableWords_map {m : MemController} {g : Granule} {ws : List (Fin 8)}
    (h : ∀ v ∈ ws, bitCount (m.errors g v) ≤ 2) :
    uncorrectableWords (ws.map fun w => m.readWord g w) = ws.filter fun v => bitCount (m.errors g v) == 2 := by
  unfold uncorrectableWords
  rw [List.filter_map, List.map_map]
  have hfilter : ws.filter ((fun r => r.verdict == .uncorrectable) ∘ fun w => m.readWord g w)
      = ws.filter fun v => bitCount (m.errors g v) == 2 := by
    refine List.filter_congr fun v hv => ?_
    rw [Bool.eq_iff_iff]
    simp [(readWord_verdict (h v hv)).2.2]
  rw [hfilter]
  refine (List.map_congr_left fun v hv => ?_).trans (List.map_id _)
  exact (readWord_verdict (h v (List.mem_of_mem_filter hv))).1

/-- What the reads of these words of a granule leave in the counts, FIRST_FAULT and UNCORRECTABLE (01 R7 to R10). -/
structure Accounts (s : State) (g : Granule) (ws : List (Fin 8)) (t : State) : Prop where
  corrected : t.mem.corrected.toNat = min 65535
    (s.mem.corrected.toNat + if s.mem.mark g = true ∧ s.mem.inError g ws 2 = 0 then 0 else s.mem.inError g ws 1)
  uncorrected : t.mem.uncorrected.toNat = min 65535 (s.mem.uncorrected.toNat + s.mem.inError g ws 2)
  kept : s.mem.firstFault ≠ none ∨ s.mem.inError g ws 2 = 0 → t.mem.firstFault = s.mem.firstFault
  captured : s.mem.firstFault = none → ∀ v ∈ ws, bitCount (s.mem.errors g v) = 2 →
    (∀ u ∈ ws, u < v → bitCount (s.mem.errors g u) ≠ 2) → t.mem.firstFault = some ⟨g, v⟩
  raised : t.svc.eventStatus.getLsbD Event.uncorrectable.bit
    = (s.svc.eventStatus.getLsbD Event.uncorrectable.bit || s.mem.inError g ws 2 != 0)

/-- The same counts, FIRST_FAULT and UNCORRECTABLE. -/
structure SameCounts (s t : State) : Prop where
  corrected : t.mem.corrected = s.mem.corrected
  uncorrected : t.mem.uncorrected = s.mem.uncorrected
  firstFault : t.mem.firstFault = s.mem.firstFault
  raised : t.svc.eventStatus.getLsbD Event.uncorrectable.bit = s.svc.eventStatus.getLsbD Event.uncorrectable.bit

theorem Stores.sameCounts (h : Stores s t) : SameCounts s t :=
  ⟨(congrArg MemController.corrected h.mem :), (congrArg MemController.uncorrected h.mem :),
    (congrArg MemController.firstFault h.mem :), h.raised⟩

theorem SameCounts.trans (h : SameCounts s t) (k : SameCounts t u) : SameCounts s u :=
  ⟨k.corrected.trans h.corrected, k.uncorrected.trans h.uncorrected, k.firstFault.trans h.firstFault,
    k.raised.trans h.raised⟩

theorem Accounts.trans {g : Granule} {ws : List (Fin 8)} (h : Accounts s g ws t) (k : SameCounts t u) :
    Accounts s g ws u where
  corrected := k.corrected ▸ h.corrected
  uncorrected := k.uncorrected ▸ h.uncorrected
  kept hf := k.firstFault.trans (h.kept hf)
  captured hf v hv h2 hl := k.firstFault.trans (h.captured hf v hv h2 hl)
  raised := k.raised.trans h.raised

/-- No read, no count. -/
theorem SameCounts.accounts (h : SameCounts s t) (g : Granule) : Accounts s g [] t where
  corrected := by
    rw [h.corrected, show s.mem.inError g [] 1 = 0 from rfl, ite_self]
    exact min_count _
  uncorrected := h.uncorrected ▸ min_count _
  kept _ := h.firstFault
  captured _ _ hv := absurd hv List.not_mem_nil
  raised := h.raised.trans (Bool.or_false _).symm

/-- The reads of words with at most two bits in error each, in ascending order. -/
theorem accountReads_accounts {g : Granule} {ws : List (Fin 8)} (hs : ws.Pairwise (· < ·))
    (h : ∀ v ∈ ws, bitCount (s.mem.errors g v) ≤ 2) :
    Accounts s g ws (s.accountReads g (ws.map fun w => s.mem.readWord g w)) := by
  have hlen : s.mem.inError g ws 2 = (ws.filter fun v => bitCount (s.mem.errors g v) == 2).length :=
    List.countP_eq_length_filter
  unfold State.accountReads
  rw [countP_corrected h, uncorrectableWords_map h]
  dsimp only
  split
  · rename_i hnil
    rw [hnil, List.length_nil] at hlen
    have none_found : ∀ v ∈ ws, bitCount (s.mem.errors g v) ≠ 2 := fun v hv h2 => by
      have := List.filter_eq_nil_iff.1 hnil v hv
      simp [h2] at this
    split
    · rename_i hmark
      exact ⟨by rw [if_pos ⟨hmark, hlen⟩]; exact min_count _, by rw [hlen]; exact min_count _, fun _ => rfl,
        fun _ v hv h2 => absurd h2 (none_found v hv), by simp [hlen]⟩
    · rename_i hmark
      exact ⟨by rw [if_neg fun hc => hmark hc.1]; exact satAdd_toNat _ _, by rw [hlen]; exact min_count _, fun _ => rfl,
        fun _ v hv h2 => absurd h2 (none_found v hv), by simp [hlen]⟩
  · rename_i w rest hcons
    rw [hcons, List.length_cons] at hlen
    have sorted : (w :: rest).Pairwise (· < ·) := hcons ▸ hs.filter _
    refine ⟨?_, ?_, fun hf => ?_, fun hf v hv h2 hl => ?_, ?_⟩
    · rw [if_neg fun hc => by omega]
      exact satAdd_toNat _ _
    · rw [hlen]
      exact satAdd_toNat _ _
    · rcases hf with hf | hf
      · obtain ⟨f, hf⟩ := Option.ne_none_iff_exists'.1 hf
        simp [MemController.setMark, hf]
      · omega
    · have hw : w ∈ ws ∧ bitCount (s.mem.errors g w) = 2 := by
        have : w ∈ ws.filter fun v => bitCount (s.mem.errors g v) == 2 := hcons ▸ List.mem_cons_self
        simpa using this
      have hv' : v ∈ w :: rest := hcons ▸ List.mem_filter.2 ⟨hv, by simp [h2]⟩
      have heq : v = w := by
        rcases List.mem_cons.1 hv' with rfl | hr
        · rfl
        · exact absurd hw.2 (hl w hw.1 ((List.pairwise_cons.1 sorted).1 v hr))
      simp [MemController.setMark, hf, heq]
    · rw [raise_event, hlen]
      simp

/-! ### Marks and bits in error -/

theorem wordKey_inj {g h : Granule} {v w : Fin 8} : wordKey g v = wordKey h w ↔ g = h ∧ v = w := by
  unfold wordKey
  refine ⟨fun he => ?_, fun ⟨hg, hv⟩ => by rw [hg, hv]⟩
  exact ⟨BitVec.eq_of_toNat_eq (by omega), Fin.ext (by omega)⟩

/-- The mark of each granule after one is set or cleared (01 R11). -/
theorem mark_setMark {m : MemController} (hc : Sparse.wf false m.poison) (g h : Granule) (b : Bool) :
    (m.setMark g b).mark h = if h = g then b else m.mark h := by
  unfold MemController.mark MemController.setMark
  rw [Sparse.get_set hc]
  exact if_congr ⟨BitVec.eq_of_toNat_eq, congrArg _⟩ rfl rfl

theorem mark_set {m : MemController} (hc : Sparse.wf false m.poison) (g h : Granule) :
    (m.setMark g true).mark h = (h == g || m.mark h) := by
  rw [mark_setMark hc]
  by_cases hg : h = g <;> simp [hg]

theorem mark_clear {m : MemController} (hc : Sparse.wf false m.poison) (g h : Granule) :
    (m.setMark g false).mark h = (h != g && m.mark h) := by
  rw [mark_setMark hc]
  by_cases hg : h = g <;> simp [hg]

/-- Of the pool, the reads of an operation change the mark of their granule at most. -/
theorem accountReads_pool (s : State) (g : Granule) (rs : List Reading) :
    (s.accountReads g rs).mem.dram = s.mem.dram ∧ (s.accountReads g rs).mem.bitErrors = s.mem.bitErrors := by
  unfold State.accountReads
  dsimp only
  split
  · split <;> exact ⟨rfl, rfl⟩
  · exact ⟨rfl, rfl⟩

/-- An uncorrectable word sets the mark (01 R8). -/
theorem accountReads_mark (hc : Sparse.wf false s.mem.poison) {g : Granule} {ws : List (Fin 8)}
    (h : ∀ v ∈ ws, bitCount (s.mem.errors g v) ≤ 2) (k : Granule) :
    (s.accountReads g (ws.map fun w => s.mem.readWord g w)).mem.mark k
      = (s.mem.mark k || (k == g && s.mem.inError g ws 2 != 0)) := by
  have hlen : s.mem.inError g ws 2 = (ws.filter fun v => bitCount (s.mem.errors g v) == 2).length :=
    List.countP_eq_length_filter
  unfold State.accountReads
  rw [uncorrectableWords_map h, hlen]
  dsimp only
  split
  · rename_i hnil
    rw [hnil]
    split <;> simp [MemController.mark]
  · rename_i w rest hcons
    rw [hcons]
    refine (mark_set (m := { s.mem with corrected := _ }) hc g k).trans ?_
    simp [Bool.or_comm, MemController.mark]

/-! ### READ, and bits in error -/

theorem allWords_eq : allWords = List.finRange 8 := by decide

theorem allWords_sorted : allWords.Pairwise (· < ·) := by decide

/-- Bits of a word of an installed granule come to be in error beside those that are (01 R7). -/
theorem errors_bitsInError (hc : Sparse.wf 0 s.mem.bitErrors) {g : Granule} (hg : g.toNat < s.mem.granuleCount)
    (v : Fin 8) (bits : StoredBits) (h : Granule) (u : Fin 8) :
    (State.bitsInError g v bits s).mem.errors h u
      = if h = g ∧ u = v then s.mem.errors g v ||| bits else s.mem.errors h u := by
  unfold State.bitsInError
  rw [if_pos hg]
  exact (Sparse.get_set hc _ _ _).trans (if_congr wordKey_inj rfl rfl)

/-- Settles O42: the error bits by the rule of a write to their table, and a READ by what its eight reads account for.
-/
theorem errorsAreKeptAndChecked : Obligations.ErrorsAreKeptAndChecked := by
  intro g s hr hc single double
  obtain ⟨-, herrors, hpoison, -⟩ := hc
  refine ⟨fun v bits => ⟨fun hg => ?_, fun hg => ?_⟩, fun o rest hq hg hbits => ?_⟩
  · refine (change_running hr _).trans (congrArg _ ?_)
    unfold State.bitsInError
    rw [if_neg (by omega)]
  · refine ⟨_, change_running hr _, ?_, errors_bitsInError herrors hg v bits⟩
    unfold State.bitsInError
    rw [if_pos hg]
    rfl
  · have hsingle : s.mem.inError g allWords 1 = single := by rw [allWords_eq]; rfl
    have hdouble : s.mem.inError g allWords 2 = double := by rw [allWords_eq]; rfl
    have stores := completeOldest_stores s ⟨.read, g, o⟩
    have accounts := (accountReads_accounts (s := s) allWords_sorted fun v _ => hbits v).trans stores.sameCounts
    have pool := accountReads_pool s g (allWords.map fun w => s.mem.readWord g w)
    obtain ⟨hcorr, hunc, hkept, hcapt, hraised⟩ := accounts
    rw [hsingle, hdouble] at hcorr
    rw [hdouble] at hunc hkept hraised
    refine ⟨_, complete_oldest hr hq rfl hg, stores.dram.trans pool.1, stores.bitErrors.trans pool.2, fun h => ?_,
      hcorr, hunc, hkept, fun hf v h2 hl => hcapt hf v (mem_allWords v) h2 fun u _ => hl u, hraised⟩
    rw [stores.mark, ← hdouble]
    exact accountReads_mark hpoison (fun v _ => hbits v) h

end Sys2Proof.Machine
end

section
/-! PROOFS. The words of the pool byte by byte, and what the operations that write leave in it. -/

namespace Sys2Proof.Machine

variable {s t u : State}

/-! ### Words byte by byte -/

/-- Byte `j` of a word. -/
def wordByte (v : Word) (j : Nat) : Byte := v.extractLsb' (8 * j) 8

theorem getLsbD_wordByte (v : Word) (j i : Nat) :
    (wordByte v j).getLsbD i = (decide (i < 8) && v.getLsbD (8 * j + i)) :=
  BitVec.getLsbD_extractLsb' ..

theorem toNat_wordByte (v : Word) (j : Nat) : (wordByte v j).toNat = v.toNat / 256 ^ j % 256 := by
  rw [wordByte, BitVec.extractLsb'_toNat, Nat.shiftRight_eq_div_pow, Nat.pow_mul]

theorem getD_leBytes_word (v : Word) {j : Nat} (hj : j < 8) : (leBytes 8 v.toNat).getD j 0 = wordByte v j := by
  rw [getD_leBytes, if_pos hj]
  apply BitVec.eq_of_toNat_eq
  rw [BitVec.toNat_ofNat, toNat_wordByte]

/-- A word is what its eight bytes are. -/
theorem word_ext {v w : Word} (h : ∀ j, j < 8 → wordByte v j = wordByte w j) : v = w := by
  apply BitVec.eq_of_getLsbD_eq
  intro i hi
  have := congrArg (fun b : Byte => b.getLsbD (i % 8)) (h (i / 8) (by omega))
  simpa only [getLsbD_wordByte, decide_eq_true (Nat.mod_lt i (show 0 < 8 by decide)), Bool.true_and, Nat.div_add_mod]
    using this

theorem wordByte_xor (v w : Word) (j : Nat) : wordByte (v ^^^ w) j = wordByte v j ^^^ wordByte w j :=
  BitVec.extractLsb'_xor

theorem wordByte_dataBits (e : StoredBits) {j : Nat} (hj : j < 8) :
    wordByte (e.extractLsb' 0 64) j = e.extractLsb' (8 * j) 8 := by
  apply BitVec.eq_of_getLsbD_eq
  intro i hi
  rw [getLsbD_wordByte, BitVec.getLsbD_extractLsb', BitVec.getLsbD_extractLsb',
    decide_eq_true (show 8 * j + i < 64 by omega), Nat.zero_add, Bool.true_and]

theorem wordByte_wordOf (d : GranuleData) (w : Fin 8) {j : Nat} (hj : j < 8) :
    wordByte (wordOf d w) j = byteOf d (8 * w.val + j) := by
  rw [← getD_leBytes_word _ hj, getD_wordOf d w hj]

/-- Byte `j` of a number is element `j` of its bytes. -/
theorem leNat_byte (bs : List Byte) (j : Nat) : leNat bs / 256 ^ j % 256 = (bs.getD j 0).toNat := by
  induction bs generalizing j with
  | nil => simp [leNat]
  | cons b bs ih =>
    have hb : b.toNat < 256 := b.isLt
    cases j with
    | zero => simp only [leNat, List.getD_cons_zero]; omega
    | succ j =>
      rw [List.getD_cons_succ, ← ih, leNat, Nat.pow_succ', ← Nat.div_div_eq_div_mul]
      congr 2
      omega

theorem leNat_lt (bs : List Byte) : leNat bs < 256 ^ bs.length := by
  induction bs with
  | nil => exact Nat.one_pos
  | cons b bs ih =>
    have hb : b.toNat < 256 := b.isLt
    rw [leNat, List.length_cons, Nat.pow_succ']
    omega

theorem length_bytes (m : List Host.Cell) (a n : Nat) : (Memory.bytes m a n).length = n := by
  induction n generalizing a with
  | zero => rfl
  | succ n ih => rw [Memory.bytes, List.length_cons, ih]

theorem getD_bytes (m : List Host.Cell) (a n : Nat) {j : Nat} (hj : j < n) :
    (Memory.bytes m a n).getD j 0 = Memory.byte m (a + j) := by
  induction n generalizing a j with
  | zero => omega
  | succ n ih =>
    cases j with
    | zero => rfl
    | succ j =>
      rw [Memory.bytes, List.getD_cons_succ, ih (a + 1) (by omega)]
      congr 1
      omega

/-- The bytes of the word at a word's place in the pool (01 R2). -/
theorem wordByte_written (m : MemController) (g : Granule) (w : Fin 8) {j : Nat} (hj : j < 8) :
    wordByte (m.written g w) j = Memory.byte m.dram (64 * g.toNat + 8 * w.val + j) := by
  have hlt := leNat_lt (Memory.bytes m.dram (wordAddress g w) 8)
  rw [length_bytes] at hlt
  apply BitVec.eq_of_toNat_eq
  rw [toNat_wordByte, MemController.written, BitVec.toNat_ofNat, Nat.mod_eq_of_lt (show _ < 2 ^ 64 from hlt),
    leNat_byte, getD_bytes m.dram (wordAddress g w) 8 hj]
  rfl

/-! ### Merging -/

/-- The bytes of a value with one more byte below it. -/
theorem byte_append {n : Nat} (v : BitVec n) (b : Byte) (j : Nat) :
    (v ++ b).extractLsb' (8 * j) 8 = if j = 0 then b else v.extractLsb' (8 * (j - 1)) 8 := by
  apply BitVec.eq_of_getLsbD_eq
  intro i hi
  rw [BitVec.getLsbD_extractLsb', BitVec.getLsbD_append]
  by_cases hj : j = 0
  · simp [hj, hi]
  · rw [if_neg (by omega), if_neg hj, BitVec.getLsbD_extractLsb']
    congr 2
    omega

theorem wordByte_spread (f : Byte) {j : Nat} (hj : j < 8) :
    wordByte (spread f) j = if f.getLsbD j then BitVec.allOnes 8 else 0 := by
  unfold wordByte spread
  simp only [byte_append]
  obtain rfl | hlt : j = 7 ∨ j < 7 := by omega
  · exact BitVec.extractLsb'_eq_self
  · interval_cases j
    all_goals rfl

theorem wordByte_and (v w : Word) (j : Nat) : wordByte (v &&& w) j = wordByte v j &&& wordByte w j :=
  BitVec.extractLsb'_and

theorem wordByte_or (v w : Word) (j : Nat) : wordByte (v ||| w) j = wordByte v j ||| wordByte w j :=
  BitVec.extractLsb'_or

theorem wordByte_not (v : Word) {j : Nat} (hj : j < 8) : wordByte (~~~v) j = ~~~wordByte v j := by
  apply BitVec.eq_of_getLsbD_eq
  intro i hi
  rw [getLsbD_wordByte, BitVec.getLsbD_not, BitVec.getLsbD_not, getLsbD_wordByte]
  simp [hi, show 8 * j + i < 64 by omega]

/-- A merged word has the flagged bytes of the new word and the other bytes of the old (01 R13). -/
theorem wordByte_mergeWord (old new : Word) (f : Byte) {j : Nat} (hj : j < 8) :
    wordByte (mergeWord old new f) j = if f.getLsbD j then wordByte new j else wordByte old j := by
  rw [mergeWord, wordByte_or, wordByte_and, wordByte_and, wordByte_not _ hj, wordByte_spread f hj]
  split
  · simp only [BitVec.and_allOnes, BitVec.not_allOnes, BitVec.and_zero, BitVec.or_zero]
  · simp only [BitVec.ofNat_eq_ofNat, BitVec.not_zero, BitVec.and_allOnes, BitVec.and_zero, BitVec.zero_or]

/-! ### Writes of words and of a whole granule -/

/-- The bits in error after the words of a list are written with new check bits (01 R7). -/
theorem errors_writeWords (f : Fin 8 → Word) (g : Granule) (ws : List (Fin 8)) : ∀ {m : MemController},
    Sparse.wf 0 m.bitErrors → ∀ h v,
      (ws.foldl (fun m w => m.writeWord g w (f w)) m).errors h v
        = if h = g ∧ v ∈ ws then 0 else m.errors h v := by
  induction ws with
  | nil => intro m _ h v; simp
  | cons w ws ih =>
    intro m hc h v
    have written : (m.writeWord g w (f w)).errors h v = if h = g ∧ v = w then 0 else m.errors h v :=
      (Sparse.get_set hc _ _ _).trans (if_congr wordKey_inj rfl rfl)
    rw [List.foldl_cons, ih (Sparse.wf_set hc _ _) h v, written]
    by_cases hg : h = g <;> by_cases hw : v = w <;> simp [hg, hw]

/-- The counts and the poison map after words are written. -/
theorem writeWords_counts (f : Fin 8 → Word) (g : Granule) (ws : List (Fin 8)) {m n : MemController}
    (hn : n = ws.foldl (fun m w => m.writeWord g w (f w)) m) :
    n.corrected = m.corrected ∧ n.uncorrected = m.uncorrected ∧ n.firstFault = m.firstFault ∧ n.poison = m.poison := by
  have h : { n with dram := m.dram, bitErrors := m.bitErrors } = m := hn ▸ writeWords_mem f g ws m
  exact ⟨(congrArg MemController.corrected h :), (congrArg MemController.uncorrected h :),
    (congrArg MemController.firstFault h :), (congrArg MemController.poison h :)⟩

/-- What a full write of a granule leaves: its data, no bit in error, no mark, and the counts as they were (01 R12). -/
structure FullWrite (s : State) (g : Granule) (d : GranuleData) (t : State) : Prop where
  byte : ∀ a, Memory.byte t.mem.dram a = if a / 64 = g.toNat then byteOf d (a % 64) else Memory.byte s.mem.dram a
  errors : ∀ h v, t.mem.errors h v = if h = g then 0 else s.mem.errors h v
  mark : ∀ h, t.mem.mark h = (h != g && s.mem.mark h)
  counts : SameCounts s t

/-- The mark cleared after the words of a granule are written. -/
theorem fullWrite_setMark {g : Granule} {d : GranuleData} {m : MemController} (hc : Sparse.wf false s.mem.poison)
    (hbyte : ∀ a, Memory.byte m.dram a = if a / 64 = g.toNat then byteOf d (a % 64) else Memory.byte s.mem.dram a)
    (herrors : ∀ h v, m.errors h v = if h = g then 0 else s.mem.errors h v)
    (hcounts : m.corrected = s.mem.corrected ∧ m.uncorrected = s.mem.uncorrected ∧ m.firstFault = s.mem.firstFault
      ∧ m.poison = s.mem.poison) : FullWrite s g d (s.setMem (m.setMark g false)) := by
  obtain ⟨hcorr, hunc, hfault, hmap⟩ := hcounts
  refine ⟨hbyte, herrors, fun h => (mark_clear (hmap ▸ hc) g h).trans ?_, hcorr, hunc, hfault, rfl⟩
  unfold MemController.mark
  rw [hmap]

theorem writeFull_spec (hc : s.tablesCanonical) (g : Granule) (d : GranuleData) :
    FullWrite s g d (s.writeFull g d) := by
  obtain ⟨hdram, herrors, hpoison, -⟩ := hc
  refine fullWrite_setMark hpoison (byte_writeGranule hdram g d) (fun h v => ?_)
    (writeWords_counts (fun w => wordOf d w) g allWords rfl)
  refine (errors_writeWords (fun w => wordOf d w) g allWords herrors h v).trans ?_
  simp [mem_allWords]

/-! ### The initializer's completions -/

/-- The state of the hub, the granule count and INIT_DONE, which the end of a completion leaves as its delivery does. -/
structure Stage (hub : HubState) (n : Nat) (ready : Bool) (t : State) : Prop where
  hub : t.svc.hubState = hub
  count : t.mem.granuleCount = n
  ready : t.svc.eventStatus.getLsbD Event.initDone.bit = ready

theorem Move.stage {K : Granule → Prop} {A : Prop} {hub : HubState} {n : Nat} {b : Bool} (m : Move K A s t)
    (h : Stage hub n b s) : Stage hub n b t where
  hub := (congrArg ServicePort.hubState m.quiet.svc :).trans h.hub
  count := (congrArg MemController.granuleCount m.quiet.mem :).trans h.count
  ready := (m.event (by decide)).trans h.ready

theorem stage_afterKept (hub : HubState) (n : Nat) (b : Bool) : AfterKept (Stage hub n b) where
  move := Move.stage
  ctl _ _ h := ⟨h.hub, h.count, h.ready⟩
  left t e he h := by
    refine ⟨h.hub, h.count, ?_⟩
    rw [raise_event, h.ready]
    obtain rfl | rfl := he
    all_goals simp [Event.bit]
  offered t h := by
    have k := (Move.offer (K := fun _ => True) (A := True) t ⟨.init, BitVec.ofNat 23 t.mem.nextInit, .initializer⟩
      trivial).stage h
    exact ⟨k.hub, k.count, k.ready⟩

theorem Stage.performed {hub : HubState} {n : Nat} (p : Performed s t) (h1 : s.svc.hubState = hub)
    (h2 : s.mem.granuleCount = n) : Stage hub n (t.svc.eventStatus.getLsbD Event.initDone.bit) t :=
  ⟨(congrArg ServicePort.hubState p.svc :).trans h1, p.granuleCount.trans h2, rfl⟩

/-- The completion of the initializer's last operation ends initialization, and no other one does (01 R17). -/
theorem completeOldest_initializer (s : State) (k : MemKind) (g : Granule) :
    (s.completeOldest ⟨k, g, .initializer⟩).svc.hubState
        = (if g.toNat + 1 = s.mem.granuleCount then .running else s.svc.hubState)
      ∧ (g.toNat + 1 = s.mem.granuleCount →
        (s.completeOldest ⟨k, g, .initializer⟩).svc.eventStatus.getLsbD Event.initDone.bit = true) := by
  let p := s.perform ⟨k, g, .initializer⟩
  have left : Stage s.svc.hubState s.mem.granuleCount _ p.1.leaveQueue :=
    (stage_afterKept _ _ _).leaveQueue (s := p.1) <| by
      obtain ⟨h1, h2, h3⟩ := Stage.performed (perform_performed s ⟨k, g, .initializer⟩) rfl rfl
      exact ⟨h1, (popped_granuleCount _).trans h2, h3⟩
  have deliver : p.1.leaveQueue.deliver ⟨k, g, .initializer⟩ p.2
      = if g.toNat + 1 = s.mem.granuleCount then p.1.leaveQueue.endInitialization else p.1.leaveQueue := by
    rw [← left.count]
    rfl
  change (p.1.leaveQueue.deliver _ p.2).settle.svc.hubState = _
    ∧ (_ → (p.1.leaveQueue.deliver _ p.2).settle.svc.eventStatus.getLsbD _ = true)
  rw [deliver]
  split
  · have ended : Stage .running s.mem.granuleCount true p.1.leaveQueue.endInitialization :=
      ⟨rfl, left.count, by rw [State.endInitialization, raise_event]; simp⟩
    have settled := (stage_afterKept _ _ _).settle ended
    exact ⟨settled.hub, fun _ => settled.ready⟩
  · rename_i hne
    exact ⟨((stage_afterKept _ _ _).settle left).hub, fun h => absurd h hne⟩

/-- While an offer of the initializer is pending it makes no other (01 R17). -/
theorem offerInits_pending (n : Nat) (h : s.mem.waiting ≠ []) : s.offerInits n = s := by
  cases n with
  | zero => rfl
  | succ n => exact if_neg fun hc => h hc.2

/-- With the queue full and nothing pending the initializer offers one granule, if it has one (01 R17). -/
theorem offerInits_full (n : Nat) (hq : s.mem.queue.length = 16) (hw : s.mem.waiting = []) :
    s.offerInits (n + 1) =
      if s.mem.nextInit < s.mem.granuleCount then
        s.setMem { s.mem with waiting := [initOp s.mem.nextInit], nextInit := s.mem.nextInit + 1 }
      else s := by
  have ho : s.offer (initOp s.mem.nextInit) = s.setMem { s.mem with waiting := [initOp s.mem.nextInit] } := by
    unfold State.offer
    rw [if_neg fun hc => absurd hc.1 (by rw [hq]; decide), hw]
    rfl
  unfold State.offerInits
  by_cases hlt : s.mem.nextInit < s.mem.granuleCount
  · rw [if_pos ⟨hlt, hw⟩, if_pos hlt, show (⟨.init, _, .initializer⟩ : MemOp) = initOp s.mem.nextInit from rfl, ho]
    exact offerInits_pending n (List.cons_ne_nil _ _)
  · rw [if_neg fun hc => hlt hc.1, if_neg hlt]

/-- With its offer pending, the completion of an operation of the initializer lets that offer enter and the next
granule be offered (01 R17). -/
theorem completeOldest_nextInit {k : MemKind} {g : Granule} {op last : MemOp} {rest : List MemOp} (hs : s.settled)
    (hq : s.mem.queue = op :: rest) (hl : rest.length = 15) (hw : s.mem.waiting = [last])
    (ho : last.origin = .initializer) :
    let t := s.completeOldest ⟨k, g, .initializer⟩
    t.mem.queue = rest ++ [last]
      ∧ t.mem.waiting = (if s.mem.nextInit < s.mem.granuleCount then [initOp s.mem.nextInit] else [])
      ∧ t.mem.nextInit = if s.mem.nextInit < s.mem.granuleCount then s.mem.nextInit + 1 else s.mem.nextInit := by
  intro t
  let p := s.perform ⟨k, g, .initializer⟩
  have hp : Performed s p.1 := perform_performed s _
  let u := p.1.setMem { p.1.mem with queue := rest ++ [last], waiting := [] }
  have leave : p.1.leaveQueue = if s.mem.nextInit < s.mem.granuleCount then
      u.setMem { u.mem with waiting := [initOp s.mem.nextInit], nextInit := s.mem.nextInit + 1 } else u := by
    have hpop : p.1.setMem p.1.mem.popped = u := by
      simp only [MemController.popped, u, hp.waiting, hw, hp.queue, hq, List.tail_cons]
    have hlast : p.1.leaveQueue = u.offerInits 17 := by
      unfold State.leaveQueue State.entered
      rw [hp.waiting, hw, hpop]
      simp only [ho]
    rw [hlast, offerInits_full 16 (by simp [u, hl]) rfl]
    simp only [u, setMem_mem, hp.nextInit, hp.granuleCount]
  have still : p.1.leaveQueue.ctl = s.ctl ∧ ∀ i, p.1.leaveQueue.txn i = s.txn i := by
    have hu : u.ctl = s.ctl ∧ ∀ i, u.txn i = s.txn i :=
      ⟨(congrArg State.ctl hp.rest :), fun i => (congrArg (fun x : State => x.txn i) hp.rest :)⟩
    rw [leave]
    split <;> exact hu
  have deliver : p.1.leaveQueue.deliver ⟨k, g, .initializer⟩ p.2 = p.1.leaveQueue.endInitialization
      ∨ p.1.leaveQueue.deliver ⟨k, g, .initializer⟩ p.2 = p.1.leaveQueue := by
    change (if _ then _ else _) = _ ∨ (if _ then _ else _) = _
    split
    · exact .inl rfl
    · exact .inr rfl
  have ht : t.mem = p.1.leaveQueue.mem := by
    change (p.1.leaveQueue.deliver _ p.2).settle.mem = _
    rcases deliver with h | h
    · rw [h, settle_of_settled (settled_same (t := State.endInitialization _) hs still.1 still.2)]
      rfl
    · rw [h, settle_of_settled (settled_same hs still.1 still.2)]
  rw [ht, leave]
  split
  · exact ⟨rfl, rfl, rfl⟩
  · exact ⟨rfl, rfl, hp.nextInit⟩

/-- Settles O43: both operations perform the same full write; the rest is what follows a completion. -/
theorem fullWritesStore : Obligations.FullWritesStore := by
  intro c k data g o rest s hr hc hq hg hk
  have done : exec c s = .next (s.completeOldest ⟨k, g, o⟩) ∧ (s.perform ⟨k, g, o⟩).1 = s.writeFull g data := by
    rcases hk with ⟨rfl, rfl⟩ | ⟨rfl, rfl, rfl⟩
    · exact ⟨complete_oldest hr hq rfl hg, rfl⟩
    · exact ⟨complete_oldest hr hq rfl hg, rfl⟩
  have written := writeFull_spec hc g data
  have stores : Stores (s.writeFull g data) (s.completeOldest ⟨k, g, o⟩) :=
    done.2 ▸ completeOldest_stores s ⟨k, g, o⟩
  have same := written.counts.trans stores.sameCounts
  refine ⟨_, done.1, fun a => ?_, fun h v => ?_, fun h => ?_, same.corrected, same.uncorrected, same.firstFault, ?_, ?_⟩
  · rw [stores.dram, written.byte]
  · rw [stores.errors, written.errors]
  · rw [stores.mark, written.mark]
  · rintro rfl
    exact completeOldest_initializer s k g
  · rintro last n hs - rfl hl hw rfl
    exact completeOldest_nextInit hs hq hl hw rfl

end Sys2Proof.Machine
end

section
/-! PROOFS. WRITE_PARTIAL, ATOMIC_RMW and POISON_SET on the pool and the poison map. -/

namespace Sys2Proof.Machine

variable {s t u : State}

/-! ### Some words of a granule written -/

/-- From `s` to `t` these words of a granule are written with new check bits; the marks and the counts stand. -/
structure WordsWritten (s : State) (g : Granule) (ws : List (Fin 8)) (f : Fin 8 → Word) (t : State) : Prop where
  byte : ∀ a, Memory.byte t.mem.dram a =
    if a / 64 = g.toNat ∧ (⟨a / 8 % 8, by omega⟩ : Fin 8) ∈ ws then wordByte (f ⟨a / 8 % 8, by omega⟩) (a % 8)
    else Memory.byte s.mem.dram a
  errors : ∀ h v, t.mem.errors h v = if h = g ∧ v ∈ ws then 0 else s.mem.errors h v
  mark : ∀ h, t.mem.mark h = s.mem.mark h
  counts : SameCounts s t

theorem wordsWritten (hdram : Memory.wf s.mem.dram) (herrors : Sparse.wf 0 s.mem.bitErrors) (f : Fin 8 → Word)
    (g : Granule) (ws : List (Fin 8)) {n : MemController}
    (hn : n = ws.foldl (fun m w => m.writeWord g w (f w)) s.mem) : WordsWritten s g ws f (s.setMem n) := by
  obtain ⟨hcorr, hunc, hfault, hmap⟩ := writeWords_counts f g ws hn
  refine ⟨fun a => ?_, fun h v => ?_, fun h => ?_, hcorr, hunc, hfault, rfl⟩
  · rw [setMem_mem, hn, byte_writeWords f g ws hdram a, getD_leBytes_word _ (Nat.mod_lt a (by decide))]
  · rw [setMem_mem, hn, errors_writeWords f g ws herrors h v]
  · rw [setMem_mem, MemController.mark, hmap]
    rfl

/-- A byte of the granule, by its word. -/
theorem WordsWritten.byte_word {g : Granule} {ws : List (Fin 8)} {f : Fin 8 → Word} (h : WordsWritten s g ws f t)
    (v : Fin 8) {j : Nat} (hj : j < 8) : Memory.byte t.mem.dram (64 * g.toNat + 8 * v.val + j) =
      if v ∈ ws then wordByte (f v) j else Memory.byte s.mem.dram (64 * g.toNat + 8 * v.val + j) := by
  have hword : (⟨(64 * g.toNat + 8 * v.val + j) / 8 % 8, by omega⟩ : Fin 8) = v := Fin.ext (by simp only; omega)
  rw [h.byte, hword, show (64 * g.toNat + 8 * v.val + j) % 8 = j by omega]
  exact if_congr (and_iff_right (by omega)) rfl rfl

/-! ### WRITE_PARTIAL -/

/-- The value that a read delivers of a word with at most two bits in error (01 R7, R8). -/
theorem readWord_value {m : MemController} {g : Granule} {w : Fin 8} (h : bitCount (m.errors g w) ≤ 2) :
    (m.readWord g w).value =
      if bitCount (m.errors g w) = 2 then m.written g w ^^^ (m.errors g w).extractLsb' 0 64 else m.written g w := by
  unfold MemController.readWord
  dsimp only
  split
  · simp [*]
  · simp [*]
  · simp [*]
  · omega

/-- The data bits of a byte that a read delivers inverted (01 R8). -/
def MemController.readError (m : MemController) (g : Granule) (v : Fin 8) (j : Nat) : Byte :=
  if bitCount (m.errors g v) = 2 then (m.errors g v).extractLsb' (8 * j) 8 else 0

theorem wordByte_readWord {m : MemController} {g : Granule} {v : Fin 8} (h : bitCount (m.errors g v) ≤ 2) {j : Nat}
    (hj : j < 8) :
    wordByte (m.readWord g v).value j
      = Memory.byte m.dram (64 * g.toNat + 8 * v.val + j) ^^^ m.readError g v j := by
  rw [readWord_value h, MemController.readError]
  split
  · rw [wordByte_xor, wordByte_written m g v hj, wordByte_dataBits _ hj]
  · rw [wordByte_written m g v hj]
    exact (BitVec.xor_zero).symm

theorem getLsbD_flagsOf (mask : Mask) (v : Fin 8) {j : Nat} (hj : j < 8) :
    (flagsOf mask v).getLsbD j = mask.getLsbD (8 * v.val + j) := by
  rw [flagsOf, BitVec.getLsbD_extractLsb', decide_eq_true hj, Bool.true_and]

/-- The bytes that a WRITE_PARTIAL leaves in a word: the flagged ones of its data, and the others as they were read (01
R13). -/
theorem wordByte_mergedValue {m : MemController} {g : Granule} {v : Fin 8} (h : bitCount (m.errors g v) ≤ 2)
    (d : GranuleData) (mask : Mask) {j : Nat} (hj : j < 8) :
    wordByte (m.mergedValue g d mask v) j =
      if mask.getLsbD (8 * v.val + j) then byteOf d (8 * v.val + j)
      else Memory.byte m.dram (64 * g.toNat + 8 * v.val + j) ^^^ m.readError g v j := by
  rw [← getLsbD_flagsOf mask v hj]
  unfold MemController.mergedValue
  split
  · rename_i hall
    have hset : (flagsOf mask v).getLsbD j = true := by
      rw [hall, show (255 : Byte) = BitVec.allOnes 8 from rfl, BitVec.getLsbD_allOnes, decide_eq_true hj]
    rw [if_pos hset, wordByte_wordOf d v hj]
  · rw [wordByte_mergeWord _ _ _ hj, wordByte_wordOf d v hj, wordByte_readWord h hj]

/-- What a WRITE_PARTIAL leaves (01 R7 to R10, R13). -/
structure PartialWrite (s : State) (g : Granule) (d : GranuleData) (mask : Mask) (t : State) : Prop where
  others : ∀ a, a / 64 ≠ g.toNat → Memory.byte t.mem.dram a = Memory.byte s.mem.dram a
  byte : ∀ (v : Fin 8) j, j < 8 → Memory.byte t.mem.dram (64 * g.toNat + 8 * v.val + j) =
    if mask.getLsbD (8 * v.val + j) then byteOf d (8 * v.val + j)
    else if flagsOf mask v = 0 then Memory.byte s.mem.dram (64 * g.toNat + 8 * v.val + j)
    else Memory.byte s.mem.dram (64 * g.toNat + 8 * v.val + j) ^^^ s.mem.readError g v j
  errors : ∀ h v, t.mem.errors h v = if h = g ∧ flagsOf mask v ≠ 0 then 0 else s.mem.errors h v
  mark : ∀ h, t.mem.mark h =
    if h = g then mask != fullMask && (s.mem.mark g || s.mem.inError g (mergedWords mask) 2 != 0) else s.mem.mark h
  accounts : Accounts s g (mergedWords mask) t

theorem PartialWrite.stores {g : Granule} {d : GranuleData} {mask : Mask} (h : PartialWrite s g d mask t)
    (k : Stores t u) : PartialWrite s g d mask u where
  others a ha := k.dram ▸ h.others a ha
  byte v j hj := k.dram ▸ h.byte v j hj
  errors h' v := (k.errors h' v).trans (h.errors h' v)
  mark h' := (k.mark h').trans (h.mark h')
  accounts := h.accounts.trans k.sameCounts

/-- With every flag set a WRITE_PARTIAL is a full write (01 R13). -/
theorem writeFull_partialWrite (hc : s.tablesCanonical) (g : Granule) (d : GranuleData) :
    PartialWrite s g d fullMask (s.writeFull g d) := by
  have w := writeFull_spec hc g d
  have flags : ∀ v, flagsOf fullMask v ≠ 0 := by decide
  refine ⟨fun a ha => ?_, fun v j hj => ?_, fun h v => ?_, fun h => ?_, ?_⟩
  · rw [w.byte, if_neg ha]
  · have hset : fullMask.getLsbD (8 * v.val + j) = true := by
      rw [fullMask, BitVec.getLsbD_allOnes, decide_eq_true (by omega)]
    rw [w.byte, if_pos (by omega), if_pos hset]
    congr 1
    omega
  · rw [w.errors]
    exact if_congr (and_iff_left (flags v)).symm rfl rfl
  · rw [w.mark]
    by_cases hg : h = g <;> simp [hg]
  · rw [show mergedWords fullMask = [] by decide]
    exact w.counts.accounts g

theorem mergedWords_sorted (mask : Mask) : (mergedWords mask).Pairwise (· < ·) := allWords_sorted.filter _

theorem performPartial_partialWrite (hc : s.tablesCanonical) {g : Granule} (d : GranuleData) {mask : Mask}
    (hfull : mask ≠ fullMask) (hbits : ∀ v, bitCount (s.mem.errors g v) ≤ 2) :
    PartialWrite s g d mask (s.performPartial g d mask).1 := by
  obtain ⟨hdram, herrors, hpoison, -⟩ := hc
  let r := s.accountReads g ((mergedWords mask).map fun w => s.mem.readWord g w)
  have pool : r.mem.dram = s.mem.dram ∧ r.mem.bitErrors = s.mem.bitErrors := accountReads_pool s g _
  have zero : ∀ h v, r.mem.errors h v = s.mem.errors h v := fun h v => by
    unfold MemController.errors
    rw [pool.2]
  have w : WordsWritten r g (allWords.filter fun w => flagsOf mask w != 0) (s.mem.mergedValue g d mask)
      (s.performPartial g d mask).1 :=
    wordsWritten (pool.1 ▸ hdram) (pool.2 ▸ herrors) _ g _ rfl
  have written : ∀ v, v ∈ (allWords.filter fun w => flagsOf mask w != 0) ↔ flagsOf mask v ≠ 0 := fun v => by
    simp [mem_allWords]
  refine ⟨fun a ha => ?_, fun v j hj => ?_, fun h v => ?_, fun h => ?_, ?_⟩
  · rw [w.byte, if_neg fun h => ha h.1, pool.1]
  · rw [w.byte_word v hj, pool.1, wordByte_mergedValue (hbits v) d mask hj]
    by_cases hflags : flagsOf mask v = 0
    · have hclear : mask.getLsbD (8 * v.val + j) = false := by
        rw [← getLsbD_flagsOf mask v hj, hflags]
        exact BitVec.getLsbD_zero
      rw [if_neg fun h => (written v).1 h hflags, hclear, if_neg (by decide), if_pos hflags]
    · rw [if_pos ((written v).2 hflags), if_neg hflags]
  · rw [w.errors, zero]
    exact if_congr (and_congr_right fun _ => written v) rfl rfl
  · rw [w.mark]
    refine (accountReads_mark hpoison (fun v _ => hbits v) h).trans ?_
    by_cases hg : h = g <;> simp [hg, hfull]
  · exact (accountReads_accounts (mergedWords_sorted mask) fun v _ => hbits v).trans w.counts

/-- Settles O44: with every flag set the full write, else the reads of the merged words and the writes of the flagged
ones. -/
theorem partialWritesMerge : Obligations.PartialWritesMerge := by
  intro data m g o rest s hr hc hq hg hbits flags merged asRead
  have performed : PartialWrite s g data m (s.perform ⟨.writePartial data m, g, o⟩).1 := by
    unfold State.perform
    dsimp only
    split
    · rename_i hfull
      exact hfull ▸ writeFull_partialWrite hc g data
    · exact performPartial_partialWrite hc data ‹_› hbits
  obtain ⟨hothers, hbyte, herrors, hmark, hcorr, hunc, hkept, hcapt, hraised⟩ :=
    performed.stores (completeOldest_stores s ⟨.writePartial data m, g, o⟩)
  have hmerged : ∀ n, s.mem.inError g (mergedWords m) n = merged n := fun n => by
    unfold MemController.inError mergedWords
    rw [List.countP_filter, allWords_eq]
    exact List.countP_congr fun v _ => by simp [flags, flagsOf, and_comm]
  rw [hmerged, hmerged] at hcorr
  rw [hmerged] at hunc hkept hraised
  have hfound : ∀ v, v ∈ mergedWords m ↔ flags v ≠ 0 ∧ flags v ≠ 255 := fun v => by
    simp [mergedWords, mem_allWords, flags, flagsOf]
  refine ⟨_, complete_oldest hr hq rfl hg, hothers, hbyte, herrors, fun h => ?_, hcorr, hunc, hkept,
    fun hf v hv hl => ?_, hraised⟩
  · rw [hmark, hmerged]
    rfl
  · obtain ⟨hzero, hall, h2⟩ := hv
    refine hcapt hf v ((hfound v).2 ⟨hzero, hall⟩) h2 fun u hu hlt hu2 => hl u hlt ?_
    exact ⟨((hfound u).1 hu).1, ((hfound u).1 hu).2, hu2⟩

/-! ### POISON_SET and ATOMIC_RMW -/

/-- A POISON_SET sets the mark and leaves the counts (01 R15). -/
theorem setMark_spec (hc : Sparse.wf false s.mem.poison) (g : Granule) :
    (∀ h, (s.setMem (s.mem.setMark g true)).mem.mark h = (h == g || s.mem.mark h))
      ∧ SameCounts s (s.setMem (s.mem.setMark g true)) := ⟨mark_set hc g, rfl, rfl, rfl, rfl⟩

theorem inError_one (m : MemController) (g : Granule) (v : Fin 8) (n : Nat) :
    m.inError g [v] n = if bitCount (m.errors g v) = n then 1 else 0 := by
  simp [MemController.inError, List.countP_cons]

/-- The reads of an ATOMIC_RMW: its one word. -/
def State.readOne (s : State) (g : Granule) (v : Fin 8) : State := s.accountReads g [s.mem.readWord g v]

theorem readOne_accounts {g : Granule} {v : Fin 8} (h : bitCount (s.mem.errors g v) ≤ 2) :
    Accounts s g [v] (s.readOne g v) :=
  accountReads_accounts (ws := [v]) (List.pairwise_singleton _ _) (by simpa using h)

theorem readOne_mark (hc : Sparse.wf false s.mem.poison) {g : Granule} {v : Fin 8}
    (h : bitCount (s.mem.errors g v) ≤ 2) (k : Granule) :
    (s.readOne g v).mem.mark k = (s.mem.mark k || (k == g && s.mem.inError g [v] 2 != 0)) :=
  accountReads_mark (ws := [v]) hc (by simpa using h) k

theorem readOne_pool (s : State) (g : Granule) (v : Fin 8) :
    (s.readOne g v).mem.dram = s.mem.dram ∧ (s.readOne g v).mem.bitErrors = s.mem.bitErrors := accountReads_pool s g _

/-- Of a marked granule an ATOMIC_RMW changes nothing (01 R14). -/
theorem performAtomic_marked {g : Granule} (h : s.mem.mark g = true) (b : AtomicBlock) :
    (s.performAtomic g b).1 = s := by
  unfold State.performAtomic
  rw [if_pos h]

/-- A word that is uncorrectable is read only (01 R8, R14). -/
theorem performAtomic_uncorrectable {g : Granule} {b : AtomicBlock} (hm : s.mem.mark g = false)
    (h : bitCount (s.mem.errors g b.word) = 2) : (s.performAtomic g b).1 = s.readOne g b.word := by
  have hv := (readWord_verdict (m := s.mem) (g := g) (w := b.word) (by omega)).2.2.2 h
  unfold State.performAtomic
  rw [if_neg (by simp [hm])]
  dsimp only
  rw [hv]
  rfl

/-- The state with a word written, where there is a new one. -/
def State.storeWord (s : State) (g : Granule) (v : Fin 8) : Option Word → State
  | some w => s.setMem (s.mem.writeWord g v w)
  | none => s

/-- Any other word is replaced by the operation's result, if it has one (01 R14). -/
theorem performAtomic_reads {g : Granule} {b : AtomicBlock} (hm : s.mem.mark g = false)
    (h : bitCount (s.mem.errors g b.word) ≤ 1) :
    (s.performAtomic g b).1
      = (s.readOne g b.word).storeWord g b.word (applyAtomic b (s.mem.written g b.word)).1 := by
  have hv : (s.mem.readWord g b.word).verdict ≠ .uncorrectable := fun hc => by
    have := (readWord_verdict (m := s.mem) (g := g) (w := b.word) (by omega)).2.2.1 hc
    omega
  have hval : (s.mem.readWord g b.word).value = s.mem.written g b.word := by
    rw [readWord_value (by omega), if_neg (by omega)]
  unfold State.performAtomic State.readOne
  rw [if_neg (by simp [hm]), ← hval]
  dsimp only
  cases hverdict : (s.mem.readWord g b.word).verdict with
  | uncorrectable => exact absurd hverdict hv
  | clean | corrected =>
    dsimp only
    rcases applyAtomic b (s.mem.readWord g b.word).value with ⟨_ | v, st⟩ <;> rfl

/-- What the read of a word with at most one bit in error leaves: the pool, the marks, and one more corrected word where
a bit is in error (01 R7). -/
theorem readOne_correctable (hc : Sparse.wf false s.mem.poison) {g : Granule} {v : Fin 8} (hm : s.mem.mark g = false)
    (h : bitCount (s.mem.errors g v) ≤ 1) :
    (∀ k, (s.readOne g v).mem.mark k = s.mem.mark k)
      ∧ (s.readOne g v).mem.corrected.toNat = min 65535 (s.mem.corrected.toNat + bitCount (s.mem.errors g v))
      ∧ (s.readOne g v).mem.uncorrected = s.mem.uncorrected ∧ (s.readOne g v).mem.firstFault = s.mem.firstFault := by
  have hone : s.mem.inError g [v] 1 = bitCount (s.mem.errors g v) := by
    rw [inError_one]
    split <;> omega
  have hnone : s.mem.inError g [v] 2 = 0 := by rw [inError_one, if_neg (by omega)]
  obtain ⟨hcorr, hunc, hkept, -, -⟩ := readOne_accounts (s := s) (g := g) (v := v) (by omega)
  rw [if_neg (by simp [hm]), hone] at hcorr
  rw [hnone, ← min_count] at hunc
  refine ⟨fun k => ?_, hcorr, BitVec.eq_of_toNat_eq hunc, hkept (.inr hnone)⟩
  rw [readOne_mark hc (by omega), hnone]
  simp

/-- The word's bytes in the pool are all of it. -/
theorem written_eq {m : MemController} {g : Granule} {v : Fin 8} {old : Word}
    (h : ∀ n, n < 8 → old.extractLsb' (8 * n) 8 = Memory.byte m.dram (64 * g.toNat + 8 * v.val + n)) :
    m.written g v = old :=
  word_ext fun j hj => (wordByte_written m g v hj).trans (h j hj).symm

/-- A byte lies in a word of the pool where its eight-byte line is the word's. -/
theorem line_eq_iff (g : Granule) (v : Fin 8) (a : Nat) :
    a / 64 = g.toNat ∧ (⟨a / 8 % 8, by omega⟩ : Fin 8) ∈ [v] ↔ a / 8 = 8 * g.toNat + v.val := by
  have hv := v.isLt
  rw [List.mem_singleton, Fin.ext_iff]
  simp only
  omega

/-- Settles O45, by the cases of an ATOMIC_RMW: a marked granule, an uncorrectable word, and a word that is read, with
or without a new one to write. -/
theorem atomicsAndPoisonSetsAct : Obligations.AtomicsAndPoisonSetsAct := by
  intro b g o rest s hr hc hg stored kept
  obtain ⟨hdram, herrors, hpoison, -⟩ := hc
  refine ⟨fun hq => ?_, fun hq => ⟨fun hm => ?_, fun hm h2 => ?_, fun old hm h1 hold => ?_⟩⟩
  · have k := completeOldest_stores s ⟨.poisonSet, g, o⟩
    obtain ⟨hmark, counts⟩ := setMark_spec hpoison g
    have same := counts.trans k.sameCounts
    refine ⟨_, complete_oldest hr hq rfl hg, ⟨⟨fun a => ?_, k.bitErrors⟩, same.uncorrected, same.firstFault⟩,
      same.corrected, fun h => (k.mark h).trans (hmark h)⟩
    rw [k.dram]
    rfl
  · have k : Stores (s.performAtomic g b).1 _ := completeOldest_stores s ⟨.atomicRmw b, g, o⟩
    rw [performAtomic_marked hm] at k
    have same := k.sameCounts
    exact ⟨_, complete_oldest hr hq rfl hg,
      ⟨⟨fun a => by rw [k.dram], k.bitErrors⟩, same.uncorrected, same.firstFault⟩, same.corrected, k.mark⟩
  · have k : Stores (s.performAtomic g b).1 _ := completeOldest_stores s ⟨.atomicRmw b, g, o⟩
    rw [performAtomic_uncorrectable hm h2] at k
    have pool := readOne_pool s g b.word
    have hone : s.mem.inError g [b.word] 2 = 1 := by rw [inError_one, if_pos h2]
    have hnone : s.mem.inError g [b.word] 1 = 0 := by rw [inError_one, if_neg (by omega)]
    obtain ⟨hcorr, hunc, hkept, hcapt, hraised⟩ := (readOne_accounts (by omega)).trans k.sameCounts
    rw [hone, hnone, ite_self, ← min_count] at hcorr
    rw [hone] at hunc hkept hraised
    refine ⟨_, complete_oldest hr hq rfl hg, ⟨fun a => by rw [k.dram, pool.1], k.bitErrors.trans pool.2⟩,
      BitVec.eq_of_toNat_eq hcorr, fun h => ?_, hunc, ?_, hraised.trans (Bool.or_true _)⟩
    · rw [k.mark, readOne_mark hpoison (by omega), hone]
      simp [Bool.or_comm]
    · split
      · rename_i hf
        exact hcapt hf b.word (List.mem_singleton_self _) h2 fun u hu hlt => by simp_all
      · rename_i hf
        exact hkept (.inl hf)
  · intro result
    have k : Stores (s.performAtomic g b).1 _ := completeOldest_stores s ⟨.atomicRmw b, g, o⟩
    rw [performAtomic_reads hm h1, written_eq hold] at k
    have hresult : result = (applyAtomic b old).1 := by
      simp only [result, applyAtomic]
      generalize b.op = op
      cases op with
      | fetchAdd => rfl
      | swap => rfl
      | compareSwap =>
        change (if old = b.a then some b.b else none)
          = (if old = b.a then (some b.b, AtomicStatus.ok) else (none, AtomicStatus.casFail)).1
        split <;> rfl
    have pool := readOne_pool s g b.word
    obtain ⟨hmark, hcorr, hunc, hfault⟩ := readOne_correctable hpoison hm h1
    rw [← hresult] at k
    refine ⟨_, complete_oldest hr hq rfl hg, ?_⟩
    cases hnew : result with
    | none =>
      rw [hnew, State.storeWord] at k
      have same := k.sameCounts
      refine ⟨fun h => (k.mark h).trans (hmark h), same.uncorrected.trans hunc, same.firstFault.trans hfault,
        same.corrected ▸ hcorr, fun _ => ?_, fun new hc => nomatch hc⟩
      exact ⟨⟨fun a => by rw [k.dram, pool.1], k.bitErrors.trans pool.2⟩, same.uncorrected.trans hunc,
        same.firstFault.trans hfault⟩
    | some v =>
      rw [hnew, State.storeWord] at k
      have w : WordsWritten (s.readOne g b.word) g [b.word] (fun _ => v) _ :=
        wordsWritten (pool.1 ▸ hdram) (pool.2 ▸ herrors) _ g [b.word] rfl
      have same := w.counts.trans k.sameCounts
      refine ⟨fun h => (k.mark h).trans ((w.mark h).trans (hmark h)), same.uncorrected.trans hunc,
        same.firstFault.trans hfault, same.corrected ▸ hcorr, fun hc => (nomatch hc), fun new hc => ?_⟩
      injection hc with hc
      subst hc
      refine ⟨fun a => ?_, fun h u => ?_⟩
      · rw [k.dram]
        refine (w.byte a).trans ?_
        rw [pool.1]
        exact if_congr (line_eq_iff g b.word a) rfl rfl
      · rw [k.errors]
        refine (w.errors h u).trans ?_
        rw [MemController.errors, pool.2]
        exact if_congr (and_congr_right fun _ => List.mem_singleton) rfl rfl

end Sys2Proof.Machine
end

section
/-! PROOFS. Requests placed: at the tail of a chain, and at the head of a new one with what its activation brings. -/

namespace Sys2Proof.Machine

variable {s t u v : State} {p : Port} {tag : Tag} {g : Granule} {r : Request} {i : SlotId} {w : Fin 8} {e f : Entry}

/-! ### Requests placed -/

/-- Intake admits chain kinds of a port in ACTIVE only (09 R188). -/
theorem State.Admits.active (h : s.Admits p tag g r i) (hb : r.bypass = false) : s.portState p = .active :=
  h.member.resolve_right fun hd => by simp [hb] at hd

theorem State.Admits.slotPort_eq (h : s.Admits p tag g r i) : slotPort i = some p := slotPort_of h.credit h.slot

theorem State.Admits.send_eq (h : s.Admits p tag g r i) (frame : HubFrame) : s.send p frame = s.queued p frame :=
  send_eq_queued h.receives.2.1 (isFenced_of_member h.isMember) frame

/-- An admitted chain kind is placed at its chain. -/
theorem exec_placed (h : s.Admits p tag g r i) (hb : r.bypass = false) :
    exec (r.instr p tag g) s = .next (s.place i (.member r) g).settle := by
  rw [h.exec]
  cases r with
  | returnDirty _ => cases hb
  | release => cases hb
  | _ => rfl

/-- A chain kind of a granule with a chain joins its tail (03 R46). -/
theorem place_joins (h : s.chain g ≠ []) (i : SlotId) (k : TxnKind) :
    s.place i k g = (s.setTxn i (some (newTxn k g))).setChain g (s.chain g ++ [i]) := by
  unfold State.place
  cases hc : s.chain g with
  | nil => exact absurd hc h
  | cons j rest => rfl

/-- Settles O31: the slot joins the chain, and no slot was freed that the tests of R141 and R147 would miss. -/
theorem requestsJoinTheirChain : Obligations.RequestsJoinTheirChain := by
  intro p tag g r i s hs ha hb hc
  have slots := fun j => txn_setTxn s i j (some (newTxn (.member r) g))
  have settled : (s.place i (.member r) g).settled := by
    rw [place_joins hc]
    exact settled_slot hs rfl slots (.inl ha.free)
  refine ⟨_, exec_placed ha hb, ?_⟩
  rw [settle_of_settled settled, place_joins hc]
  exact ⟨rfl, ⟨slots, rfl⟩, chain_setChain_of_ne (by simp)⟩

/-! ### Activation of a request whose granule has no chain -/

/-- The state with slot `i` placed at the head of a new chain, before its activation (03 R46). -/
def State.headed (s : State) (i : SlotId) (k : TxnKind) (g : Granule) : State :=
  (s.setTxn i (some (newTxn k g))).setChain g [i]

theorem headed_txn (s : State) (i : SlotId) (k : TxnKind) (g : Granule) (j : SlotId) :
    (s.headed i k g).txn j = if j = i then some (newTxn k g) else s.txn j := txn_setTxn s i j _

theorem headed_txn_same (s : State) (i : SlotId) (k : TxnKind) (g : Granule) :
    (s.headed i k g).txn i = some (newTxn k g) := txn_setTxn_same s i _

theorem headed_chain (s : State) (i : SlotId) (k : TxnKind) (g : Granule) : s.chainBecomes (s.headed i k g) g [i] :=
  chain_setChain_of_ne (by simp)

theorem State.EntryAt.headed (h : s.EntryAt g w e) (i : SlotId) (k : TxnKind) : (s.headed i k g).EntryAt g w e :=
  h.of_dir rfl

theorem State.NoEntry.headed (h : s.NoEntry g) (i : SlotId) (k : TxnKind) : (s.headed i k g).NoEntry g := h.of_dir rfl

/-- The kinds judged at activation are among those that need WRITE (03 R48 step 1, 06 R116). -/
theorem need_of_judgedAtActivation (h : (TxnKind.member r).judgedAtActivation = true) : r.need = .write := by
  cases r with
  | poke _ _ => rfl
  | atomic _ => rfl
  | _ => cases h

/-- An admitted request keeps its right at activation in the same change, and is activated in place unless it has an
entry to allocate (03 R48). -/
theorem State.Admits.activate_headed (h : s.Admits p tag g r i) (hb : r.bypass = false)
    (he : (TxnKind.member r).allocates = true → (s.entry g).isSome = true) :
    (s.headed i (.member r) g).activate i = (s.headed i (.member r) g).activateInPlace i := by
  have judged : ((TxnKind.member r).judgedAtActivation
      && !((slotPort i).all fun q => (s.right q g).covers .write)) = false := by
    cases hj : (TxnKind.member r).judgedAtActivation with
    | false => rfl
    | true =>
      have hr := (h.right.resolve_left (by simp [hb])).1
      rw [need_of_judgedAtActivation hj] at hr
      simp [h.slotPort_eq, hr]
  have allocates : ((TxnKind.member r).allocates && (s.entry g).isNone) = false := by
    cases ha : (TxnKind.member r).allocates with
    | false => rfl
    | true => simpa using he ha
  unfold State.activate
  rw [headed_txn_same]
  change (if _ then _ else if _ then _ else _) = _
  rw [if_neg (by exact Bool.eq_false_iff.1 judged), if_neg (by exact Bool.eq_false_iff.1 allocates)]

theorem place_headed (h : s.chain g = []) (i : SlotId) (k : TxnKind) :
    s.place i k g = ((s.headed i k g).activate i).1 := place_alone h i k

/-! ### Entries rewritten -/

/-- The way of an entry stands as it is. -/
theorem State.EntryAt.wayBecomes_self (h : s.EntryAt g w e) : s.wayBecomes s g w (some e) := by
  intro k
  split
  · rename_i hk
    subst hk
    exact h.put_self.symm
  · rfl

/-- Of the two states only the directories count. -/
theorem wayBecomes_of_dir {o : Option Entry} (h : s.wayBecomes t g w o) (hu : u.dir = s.dir) (hv : v.dir = t.dir) :
    u.wayBecomes v g w o := by
  unfold State.wayBecomes State.dirSet at *
  rw [hu, hv]
  exact h

/-- The entry of the granule after its way has been rewritten. -/
theorem State.EntryAt.rewritten (h : s.EntryAt g w e) (hb : s.wayBecomes t g w (some f)) (hf : f.granule = g) :
    t.EntryAt g w f := by
  have hd : t.dirSet (setOf g) = (s.dirSet (setOf g)).put w f := (hb _).trans (if_pos rfl)
  unfold State.EntryAt
  rw [hd, DirSet.get_put_eq, if_pos rfl]
  refine ⟨rfl, hf, fun x y hx hy => ?_⟩
  rcases DirSet.get_put hx with ⟨hxw, -⟩ | ⟨-, hx⟩
  · exact hxw
  · exact h.2.2 x y hx hy

/-- A change that does not free the entry rewrites its way. -/
theorem State.EntryAt.wayBecomes_change (h : s.EntryAt g w e) {c : EntryChange} (hf : (e.apply c).freed = false) :
    s.wayBecomes (s.changeEntry g c) g w (some (e.apply c)) :=
  wayBecomes_put g w _ (congrArg State.dir (h.change_kept hf))

/-- An entry with a lock is not free (02 R39). -/
theorem Entry.freed_of_locked (h : e.lock ≠ .none) : e.freed = false := by
  unfold Entry.freed
  simp [h]

theorem Entry.freed_of_held {q : Port} (h : e.holders.get q = true) : e.freed = false := by
  unfold Entry.freed
  simp [noMember_false h]

end Sys2Proof.Machine
end

section
/-! PROOFS. Requests of a held granule: the recalls they send, and the holders in FENCING that they remove. -/

namespace Sys2Proof.Machine

variable {s t u v : State} {p : Port} {tag : Tag} {g : Granule} {r : Request} {i : SlotId} {w : Fin 8} {e : Entry}
  {x : Txn}

/-! ### The entry locked -/

/-- The state in which an admitted request has locked its granule's entry at activation (03 R48 step 3). -/
def State.locking (s : State) (i : SlotId) (r : Request) (g : Granule) : State :=
  (s.headed i (.member r) g).changeEntry g (.lockBusy i)

theorem locking_txn (s : State) (i : SlotId) (r : Request) (g : Granule) (j : SlotId) :
    (s.locking i r g).txn j = if j = i then some (newTxn (.member r) g) else s.txn j := headed_txn s i _ g j

theorem locking_txn_same (s : State) (i : SlotId) (r : Request) (g : Granule) :
    (s.locking i r g).txn i = some (newTxn (.member r) g) := headed_txn_same s i _ g

theorem locking_chain (s : State) (i : SlotId) (r : Request) (g : Granule) :
    s.chainBecomes (s.locking i r g) g [i] := headed_chain s i _ g

theorem State.EntryAt.locking_way (h : s.EntryAt g w e) (i : SlotId) (r : Request) :
    s.wayBecomes (s.locking i r g) g w (some { e with lock := .busy i }) :=
  (h.headed i (.member r)).wayBecomes_change (Entry.freed_of_locked fun hl => nomatch hl)

theorem State.EntryAt.locking (h : s.EntryAt g w e) (i : SlotId) (r : Request) :
    (s.locking i r g).EntryAt g w { e with lock := .busy i } := h.rewritten (h.locking_way i r) h.granule

/-- A slot rewritten after it was placed. -/
theorem locking_slot {y : Option Txn} (h : ∀ j, t.txn j = if j = i then y else (s.locking i r g).txn j) (j : SlotId) :
    t.txn j = if j = i then y else s.txn j := by
  rw [h j, locking_txn]
  split <;> rfl

/-- An admitted request of a granule with an entry and without chain locks the entry and goes on to its recalls. -/
theorem place_locks (ha : s.Admits p tag g r i) (hb : r.bypass = false) (hz : (TxnKind.member r).zeroMask = false)
    (hc : s.chain g = []) (he : s.EntryAt g w e) :
    s.place i (.member r) g = ((s.locking i r g).recallPhase i).1 := by
  have entry : (s.entry g).isSome = true := by rw [he.entry]; rfl
  rw [place_headed hc, ha.activate_headed hb fun _ => entry]
  unfold State.activateInPlace
  rw [headed_txn_same]
  exact congrArg Prod.fst (if_neg (by exact Bool.eq_false_iff.1 hz))

theorem zeroMask_request (h : ∀ d, r ≠ .poke d 0) : (TxnKind.member r).zeroMask = false := by
  cases r with
  | poke d m => exact beq_eq_false_iff_ne.2 fun hm => h d (by rw [hm])
  | _ => rfl

/-! ### Holders in FENCING -/

theorem dropFencedHolder_self {q : Port} (h : s.holds q g = false) (i : SlotId) (own : Bool) :
    State.dropFencedHolder g i own s q = s := by
  unfold State.dropFencedHolder
  simp [h]

/-- A holder in FENCING is removed, with a POISON_SET where it was the owner (03 R48 step 4). -/
theorem dropFencedHolder_fenced {q : Port} (he : s.EntryAt g w e) (hq : e.holders.get q = true)
    (hf : s.portState q = .fencing) (i : SlotId) (own : Bool) :
    State.dropFencedHolder g i own s q
      = (if e.mode = .owner then s.offerPoison g i own else s).changeEntry g (.remove q) := by
  have owns : s.owns q g = decide (e.mode = .owner) := by
    unfold State.owns
    rw [he.entry, Option.any_some, hq, Bool.and_true]
    cases e.mode <;> rfl
  unfold State.dropFencedHolder
  rw [he.holds, hq, hf, owns]
  simp

/-- A holder removed from an entry with a lock (02 R36, R39). -/
theorem State.EntryAt.remove_locked (h : s.EntryAt g w e) (hl : e.lock ≠ .none) (q : Port) :
    s.wayBecomes (s.changeEntry g (.remove q)) g w (some { e with holders := e.holders.set q false }) :=
  h.wayBecomes_change (c := .remove q) (Entry.freed_of_locked hl)

/-- The set without these ports. -/
def without (l : List Port) (m : PerPort Bool) : PerPort Bool := l.foldl (fun m q => m.set q false) m

theorem without_all (m : PerPort Bool) : without Port.all m = .const false := rfl

/-- A directory change after another. -/
theorem dir_changes (h : t = { s with dir := t.dir }) (k : u = { t with dir := u.dir }) : u = { s with dir := u.dir } := by
  calc
    u = { t with dir := u.dir } := k
    _ = { s with dir := u.dir } := by rw [h]

/-- One of several readers, which is in FENCING or no holder. -/
theorem dropFencedHolder_reader {q : Port} (he : s.EntryAt g w e) (hl : e.lock ≠ .none) (hm : e.mode = .readers)
    (hf : e.holders.get q = true → s.portState q = .fencing) (i : SlotId) (own : Bool)
    (ht : State.dropFencedHolder g i own s q = t) :
    t = { s with dir := t.dir } ∧ s.wayBecomes t g w (some { e with holders := e.holders.set q false }) := by
  subst ht
  cases hq : e.holders.get q with
  | false =>
    rw [dropFencedHolder_self (by rw [he.holds, hq]), ← hq, PerPort.set_get]
    exact ⟨rfl, he.wayBecomes_self⟩
  | true =>
    rw [dropFencedHolder_fenced he hq (hf hq), if_neg (by simp [hm])]
    exact ⟨rfl, he.remove_locked hl q⟩

/-- Readers in FENCING are removed one after the other, and nothing else happens. -/
theorem dropFencedHolders_readers (i : SlotId) (own : Bool) (l : List Port) : ∀ {s t : State} {e : Entry},
    s.EntryAt g w e → e.lock ≠ .none → e.mode = .readers →
    (∀ q, e.holders.get q = true → s.portState q = .fencing) → l.foldl (State.dropFencedHolder g i own) s = t →
    t = { s with dir := t.dir } ∧ s.wayBecomes t g w (some { e with holders := without l e.holders }) := by
  induction l with
  | nil => exact fun he _ _ _ ht => ht ▸ ⟨rfl, he.wayBecomes_self⟩
  | cons q l ih =>
    intro s t e he hl hm hf ht
    obtain ⟨hrest, hway⟩ := dropFencedHolder_reader he hl hm (hf q) i own rfl
    have fenced : ∀ a, (e.holders.set q false).get a = true →
        (State.dropFencedHolder g i own s q).portState a = .fencing := fun a ha => by
      rw [PerPort.get_set] at ha
      split at ha
      · cases ha
      · rw [hrest]
        exact hf a ha
    obtain ⟨htail, hways⟩ := ih (he.rewritten hway he.granule) hl hm fenced ht
    exact ⟨dir_changes hrest htail, hway.trans hways⟩

/-- A step that only one of the ports takes. -/
theorem foldl_ports_one {f : State → Port → State} (q : Port) (before : ∀ a, a ≠ q → f s a = s)
    (after : ∀ a, a ≠ q → f (f s q) a = f s q) : Port.all.foldl f s = f s q := by
  unfold Port.all
  cases q <;> simp [before, after]

/-- The POISON_SET of a transaction's own granule (03 R53, 05 R92). -/
theorem offerPoison_own (hx : s.txn i = some x) :
    s.offerPoison g i true
      = (s.setMem (s.mem.offered ⟨.poisonSet, g, .slot i⟩)).setTxn i (some { x with poisonSeen := true }) := by
  have kept : (s.setMem (s.mem.offered ⟨.poisonSet, g, .slot i⟩)).txn i = some x := hx
  unfold State.offerPoison State.modifyTxn
  rw [offer_eq, kept]
  simp

/-- What activation makes of an entry whose holders are all in FENCING (03 R48 step 4, 05 R92). -/
structure HoldersDropped (s : State) (g : Granule) (i : SlotId) (x : Txn) (w : Fin 8) (e : Entry) (t : State) :
    Prop where
  rest : t = { s with
    table := t.table
    dir := t.dir
    mem := if e.mode = .owner then s.mem.offered ⟨.poisonSet, g, .slot i⟩ else s.mem }
  table : t.table = { s.table with slots := t.table.slots }
  slot : ∀ j, t.txn j = if j = i then some { x with poisonSeen := x.poisonSeen || decide (e.mode = .owner) } else s.txn j
  way : s.wayBecomes t g w (some { e with holders := .const false })

theorem holdersDropped (hx : s.txn i = some x) (he : s.EntryAt g w e) (hl : e.lock ≠ .none)
    (hf : ∀ q, e.holders.get q = true → s.portState q = .fencing)
    (ho : e.mode = .owner → ∃ q, ∀ j, e.holders.get j = true ↔ j = q) :
    HoldersDropped s g i x w e (s.dropFencedHolders g i true) := by
  cases hm : e.mode with
  | readers =>
    obtain ⟨hrest, hway⟩ := dropFencedHolders_readers i true Port.all he hl hm hf rfl
    rw [without_all] at hway
    have slots : (s.dropFencedHolders g i true).table = s.table := (congrArg State.table hrest :)
    refine ⟨?_, by rw [slots], fun j => ?_, hway⟩
    · rw [if_neg (by simp [hm]), slots]
      exact hrest
    · unfold State.txn
      rw [slots]
      split
      · rename_i hj
        rw [hj, hm]
        simpa [State.txn] using hx
      · rfl
  | owner =>
    obtain ⟨q, hq⟩ := ho hm
    let a := (s.setMem (s.mem.offered ⟨.poisonSet, g, .slot i⟩)).setTxn i (some { x with poisonSeen := true })
    have one : State.dropFencedHolder g i true s q = a.changeEntry g (.remove q) := by
      rw [dropFencedHolder_fenced he ((hq q).2 rfl) (hf q ((hq q).2 rfl)), if_pos hm, offerPoison_own hx]
    have alone : e.holders.set q false = .const false := PerPort.ext_get fun j => by
      rw [PerPort.get_set, PerPort.get_const]
      split
      · rfl
      · exact Bool.eq_false_iff.2 fun hj => absurd ((hq j).1 hj) ‹_›
    have way : a.wayBecomes (a.changeEntry g (.remove q)) g w (some { e with holders := .const false }) :=
      alone ▸ (he.of_dir (t := a) rfl).remove_locked hl q
    have entry := (he.of_dir (t := a) rfl).rewritten way he.granule
    have all : s.dropFencedHolders g i true = a.changeEntry g (.remove q) := by
      refine (foldl_ports_one q (fun j hj => dropFencedHolder_self ?_ i true) fun j _ => ?_).trans one
      · rw [he.holds]
        exact Bool.eq_false_iff.2 fun h => hj ((hq j).1 h)
      · rw [one]
        exact dropFencedHolder_self (by rw [entry.holds, PerPort.get_const]) i true
    rw [all]
    refine ⟨by rw [if_pos hm]; rfl, rfl, fun j => (txn_setTxn _ i j _).trans ?_, way⟩
    simp only [hm, decide_true, Bool.or_true]
    rfl

end Sys2Proof.Machine
end

section
/-! PROOFS. A request of a held granule, from its arrival to its recalls or to its memory operation. -/

namespace Sys2Proof.Machine

variable {s t u v : State} {p : Port} {tag : Tag} {g : Granule} {r : Request} {i : SlotId} {w : Fin 8} {e : Entry}
  {x : Txn}

/-- A request that locks the entry and recalls its holders, in one change (03 R48, 05 R90, R93, R104). -/
theorem place_recalls (ha : s.Admits p tag g r i) (hb : r.bypass = false) (hz : (TxnKind.member r).zeroMask = false)
    (hc : s.chain g = []) (he : s.EntryAt g w e) {asks : Port → Option RecallKind}
    (hr : (s.locking i r g).recallSet i (.member r) { e with lock := .busy i } = asked asks)
    (hheld : ∀ q, asks q ≠ none → e.holders.get q = true)
    (hm : ∀ q, e.holders.get q = true → s.portState q = .active ∨ s.portState q = .departing)
    (hsome : ∃ q, asks q ≠ none) :
    ∃ t, s.place i (.member r) g = t ∧ t = { s with table := t.table, dir := t.dir, ifaces := t.ifaces }
      ∧ s.slotBecomes t i (some
        { Txn.plain .recalling (.member r) g with
          awaited := awaiting asks, deadline := some (s.now + s.table.recallLimit.toNat) })
      ∧ s.chainBecomes t g [i] ∧ s.wayBecomes t g w (some { e with lock := .busy i }) ∧ s.recallsQueued t g i asks := by
  have entry := he.locking i r
  have unfenced : ∀ q, (s.locking i r g).holds q g = true → (s.locking i r g).portState q ≠ .fencing := fun q hq => by
    rw [entry.holds] at hq
    change s.portState q ≠ .fencing
    rcases hm q hq with h | h <;> simp [h]
  obtain ⟨t, hrecall, hrest, hqueued⟩ := recallPhase_recalls (locking_txn_same s i r g) unfenced entry.entry hr hsome
    fun q hq => isFenced_of_member (hm q (hheld q hq))
  refine ⟨t, by rw [place_locks ha hb hz hc he, hrecall], ?_, ⟨locking_slot (r := r) (g := g) fun j => ?_, ?_⟩, fun h => ?_, fun k => ?_,
    hqueued⟩
  · rw [hrest]
    rfl
  · rw [hrest]
    exact txn_setTxn (s.locking i r g) i j _
  · rw [hrest]
    rfl
  · rw [hrest]
    exact locking_chain s i r g h
  · rw [hrest]
    exact he.locking_way i r k

/-- The operation of a chain kind in MEMORY (03 R52, 04 R67 to R82). -/
theorem ownOperation_request {k : MemKind} (hx : x.kind = .member r) (hz : ∀ d, r ≠ .poke d 0)
    (hp : r = .promote → ∀ q, slotPort i = some q → s.holds q x.granule = false)
    (hk : (r = .readShare ∨ r = .readOwn ∨ r = .promote ∨ r = .peek) ∧ k = .read
      ∨ (∃ d, r = .poke d (BitVec.allOnes 64) ∧ k = .writeFull d)
      ∨ (∃ d m, r = .poke d m ∧ m ≠ BitVec.allOnes 64 ∧ k = .writePartial d m)
      ∨ (∃ b, r = .atomic b ∧ k = .atomicRmw b)) : s.ownOperation i x = some k := by
  unfold State.ownOperation
  rw [hx]
  rcases hk with ⟨rfl | rfl | rfl | rfl, rfl⟩ | ⟨d, rfl, rfl⟩ | ⟨d, m, rfl, hm, rfl⟩ | ⟨b, rfl, rfl⟩
  · rfl
  · rfl
  · refine if_neg fun hc => ?_
    obtain ⟨q, hq, hholds⟩ := (Option.any_eq_true _ _).1 hc
    simp [hp rfl q hq] at hholds
  · rfl
  · exact (if_neg (by decide)).trans (if_pos rfl)
  · exact (if_neg fun h => hz d (by rw [h])).trans (if_neg hm)
  · rfl

/-- Steps 4 to 6 of activation where only holders in FENCING keep the request from its operation. -/
theorem recallPhase_drops (hx : s.txn i = some x) (ht : s.dropFencedHolders x.granule i true = t)
    (hr : ∀ f, t.entry x.granule = some f → t.recallSet i x.kind f = []) : s.recallPhase i = t.enterMemory i := by
  have nobody : ((t.entry x.granule).map (t.recallSet i x.kind)).getD [] = [] := by
    cases he : t.entry x.granule with
    | none => rfl
    | some f => exact hr f he
  unfold State.recallPhase
  rw [hx]
  dsimp only
  rw [ht, nobody]

/-- A request whose granule is held by ports in FENCING only removes them and offers its operation (03 R48 step 4, R52,
05 R92). -/
theorem place_drops (ha : s.Admits p tag g r i) (hb : r.bypass = false) (hz : ∀ d, r ≠ .poke d 0)
    (hc : s.chain g = []) (he : s.EntryAt g w e) {k : MemKind}
    (hf : ∀ q, e.holders.get q = true → s.portState q = .fencing)
    (ho : e.mode = .owner → ∃ q, ∀ j, e.holders.get j = true ↔ j = q)
    (hk : (r = .readShare ∨ r = .readOwn ∨ r = .promote ∨ r = .peek) ∧ k = .read
      ∨ (∃ d, r = .poke d (BitVec.allOnes 64) ∧ k = .writeFull d)
      ∨ (∃ d m, r = .poke d m ∧ m ≠ BitVec.allOnes 64 ∧ k = .writePartial d m)
      ∨ (∃ b, r = .atomic b ∧ k = .atomicRmw b)) :
    let poisoned := if e.mode = .owner then s.mem.offered ⟨.poisonSet, g, .slot i⟩ else s.mem
    ∃ t, s.place i (.member r) g = t
      ∧ t = { s with table := t.table, dir := t.dir, mem := poisoned.offered ⟨k, g, .slot i⟩ }
      ∧ s.slotBecomes t i (some { Txn.plain .memory (.member r) g with poisonSeen := e.mode = .owner })
      ∧ s.chainBecomes t g [i] ∧ s.wayBecomes t g w (some { e with holders := .const false, lock := .busy i }) := by
  intro poisoned
  let x : Txn := { newTxn (.member r) g with poisonSeen := decide (e.mode = .owner) }
  have entry := he.locking i r
  obtain ⟨hrest, htable, hslot, hway⟩ := holdersDropped (locking_txn_same s i r g) entry (fun hl => nomatch hl) hf ho
  generalize hd : (s.locking i r g).dropFencedHolders g i true = d at hrest htable hslot hway
  have dropped := entry.rewritten hway he.granule
  have slot : d.txn i = some x := by
    rw [hslot, if_pos rfl]
    rfl
  have recalls : ∀ f, d.entry g = some f → d.recallSet i (.member r) f = [] := fun f hf => by
    have held : f.holders = .const false :=
      (congrArg Entry.holders (Option.some.inj (dropped.entry.symm.trans hf))).symm
    rw [recallSet_member ha.slotPort_eq hb, held]
    exact asked_eq_nil.2 fun q => if_pos (PerPort.get_const _ q)
  have operation : d.ownOperation i x = some k :=
    ownOperation_request rfl hz (fun _ q _ => by rw [show x.granule = g from rfl, dropped.holds, PerPort.get_const]) hk
  have placed : s.place i (.member r) g
      = (d.setTxn i (some { x with phase := .memory })).setMem (d.mem.offered ⟨k, g, .slot i⟩) := by
    rw [place_locks ha hb (zeroMask_request hz) hc he,
      recallPhase_drops (locking_txn_same s i r g) hd recalls, enterMemory_offers slot operation]
    rfl
  generalize hout : poisoned.offered ⟨k, g, .slot i⟩ = out
  have mem : d.mem.offered ⟨k, g, .slot i⟩ = out := by
    rw [← hout]
    exact congrArg (fun a : State => a.mem.offered ⟨k, g, .slot i⟩) hrest
  rw [mem] at placed
  refine ⟨_, placed, ?_, ⟨locking_slot (r := r) (g := g) fun j => (txn_setTxn d i j _).trans ?_, ?_⟩, fun h => ?_,
    (he.locking_way i r).trans hway⟩
  · exact congrArg (fun a : State => (a.setTxn i (some { x with phase := .memory })).setMem out) hrest
  · rw [hslot]
    split <;> rfl
  · exact (congrArg TxnTable.recallLimit htable :)
  · refine Eq.trans ?_ (locking_chain s i r g h)
    exact (congrArg (fun c : TxnTable => Sparse.get [] c.chains h.toNat) htable :)

/-- Settles O34: the recalls of a held granule, and the fenced holders dropped; the tests of R141 and R147 that follow
find no port that may leave. -/
theorem heldGranulesAreRecalled : Obligations.HeldGranulesAreRecalled := by
  intro p tag g r i w e s hs ha hb hz hc he hl asks
  have done := exec_placed ha hb
  have settled : ∀ {t x}, t.ctl = s.ctl → s.slotBecomes t i x → t.settled := fun hctl hslot =>
    settled_slot hs hctl hslot.1 (.inl ha.free)
  constructor
  · intro hm hsome
    have held : ∀ q, asks q ≠ none → e.holders.get q = true := fun q hq => by
      by_contra hn
      exact hq (if_pos (Bool.eq_false_iff.2 hn))
    obtain ⟨t, hp, hrest, hslot, hchain⟩ := place_recalls ha hb (zeroMask_request hz) hc he
      (recallSet_member (s := s.locking i r g) ha.slotPort_eq hb _) held hm hsome
    rw [hp, settle_of_settled (settled (by rw [hrest]) hslot)] at done
    exact ⟨t, done, hrest, hslot, hchain⟩
  · intro k hf ho hk
    obtain ⟨t, hp, hrest, hslot, hchain⟩ := place_drops ha hb hz hc he hf ho hk
    rw [hp, settle_of_settled (settled (by rw [hrest]) hslot)] at done
    exact ⟨t, done, hrest, hslot, hchain⟩

end Sys2Proof.Machine
end

section
/-! PROOFS. Requests that are answered in the change in which they arrive: at activation, and the bypass frames. -/

namespace Sys2Proof.Machine

variable {s t u v : State} {p : Port} {tag : Tag} {g : Granule} {r : Request} {i : SlotId} {w : Fin 8} {e : Entry}
  {x : Txn}

/-! ### Answers at activation -/

theorem State.Admits.slotTag_eq (h : s.Admits p tag g r i) : slotTag i = tag := slotTag_of h.credit h.slot

/-- The end of a member's transaction: the answer, the change of the entry, and the slot (03 R55). -/
theorem endTxn_member (hx : s.txn i = some x) (hk : x.kind = .member r) (hp : slotPort i = some p) :
    s.endTxn i = ((s.send p (s.replyOf i p x r).frame).changeEntry x.granule (s.replyOf i p x r).change).freeHead i
      x.granule := by
  unfold State.endTxn
  rw [hx]
  dsimp only
  rw [hk]
  dsimp only
  rw [hp]

/-- The release of a lock that the granule's entry does not carry, where the entry has a holder or there is none. -/
theorem unlock_self (hc : Sparse.wf DirSet.empty s.dir)
    (h : s.NoEntry g ∨ ∃ w e, s.EntryAt g w e ∧ e.lock = .none ∧ ∃ q, e.holders.get q = true) (i : SlotId) :
    s.changeEntry g (.unlock i) = s := by
  rcases h with h | ⟨w, e, he, hl, q, hq⟩
  · exact h.change hc _
  · exact he.change_self hc (e.unlock_none hl i) (Entry.freed_of_held hq)

/-- A frame to the port of an admitted request, while its link and its record stand: it is queued (09 R179). -/
theorem send_queued_of_admits (ha : s.Admits p tag g r i) (hi : u.ifaces = s.ifaces) (hc : u.ctl = s.ctl)
    (f : HubFrame) : u.send p f = u.queued p f := by
  refine send_eq_queued (by rw [hi]; exact ha.receives.2.1) ?_ f
  unfold State.portState
  rw [hc]
  exact isFenced_of_member ha.isMember

/-- A POKE without flags ends at activation, and leaves nothing but its answer (03 R48 step 2). -/
theorem place_zeroMask {d : GranuleData} (ha : s.Admits p tag g (.poke d 0) i) (hcan : s.tablesCanonical)
    (hc : s.chain g = [])
    (h : s.NoEntry g ∨ ∃ w e, s.EntryAt g w e ∧ e.lock = .none ∧ ∃ q, e.holders.get q = true) :
    s.place i (.member (.poke d 0)) g = s.queued p (.ack tag g .ok .none false) := by
  obtain ⟨-, -, -, hchains, hdir⟩ := hcan
  let placed := s.headed i (.member (.poke d 0)) g
  let answered := placed.queued p (.ack tag g .ok .none false)
  have hx : placed.txn i = some (newTxn (.member (.poke d 0)) g) := headed_txn_same s i _ g
  have sent : placed.send p (.ack (slotTag i) g .ok .none false) = answered := by
    rw [ha.slotTag_eq]
    exact send_queued_of_admits (u := placed) ha rfl rfl _
  have unlocked : answered.changeEntry g (.unlock i) = answered :=
    unlock_self (s := answered) hdir (h.imp (fun h => h.of_dir rfl) fun ⟨w, e, he, hrest⟩ => ⟨w, e, he.of_dir rfl, hrest⟩) i
  have ended : placed.endTxn i = answered.freeHead i g := by
    rw [endTxn_member hx rfl ha.slotPort_eq]
    change State.freeHead (State.changeEntry (placed.send p (.ack (slotTag i) g .ok .none false)) g (.unlock i)) i g = _
    rw [sent, unlocked]
  have active : placed.activateInPlace i = (placed.endTxn i, true) := by
    unfold State.activateInPlace
    rw [hx]
    exact if_pos rfl
  rw [place_headed hc, ha.activate_headed rfl (fun h => nomatch h), active, ended]
  exact freeHead_placed (u := answered) (x := some (newTxn (.member (.poke d 0)) g)) hchains ha.free hc rfl

/-- The grant of a PROMOTE whose port is still a holder and has its right (04 R72). -/
theorem replyOf_promote (hx : x.granule = g) (ht : slotTag i = tag) (hp : s.portState p = .active)
    (hr : (s.right p g).covers .write = true) :
    s.replyOf i p x .promote = ⟨.grant tag g .owner x.result.readData x.poisonSeen, .grantOwner p i⟩ := by
  simp [State.replyOf, hx, ht, hp, hr]

/-- A PROMOTE whose port is still a holder has no operation of its own (04 R72). -/
theorem ownOperation_holder (hx : x.kind = .member .promote) (hi : slotPort i = some p)
    (hp : s.holds p x.granule = true) : s.ownOperation i x = none := by
  unfold State.ownOperation
  rw [hx]
  dsimp only
  rw [hi, Option.any_some, if_pos hp]

/-- A frame is queued alike where only the transaction table, the directory and the memory differ. -/
theorem queued_of_eq {f : HubFrame} {a : TxnTable} {b : List (Nat × DirSet)} {m : MemController}
    (h : u = { s with table := a, dir := b, mem := m }) :
    u.queued p f = { s.queued p f with table := a, dir := b, mem := m } := by
  subst h
  rfl

/-- A PROMOTE by the only holder ends at activation with its grant (04 R71, R72). -/
theorem place_promote (ha : s.Admits p tag g .promote i) (hcan : s.tablesCanonical) (hc : s.chain g = [])
    (he : s.EntryAt g w e) (hl : e.lock = .none) (hq : ∀ q, e.holders.get q = true ↔ q = p) (ho : s.outstanding i = 0) :
    ∃ d, s.place i (.member .promote) g = { s.queued p (.grant tag g .owner none false) with dir := d }
      ∧ s.wayBecomes { s with dir := d } g w (some { e with mode := .owner }) := by
  obtain ⟨-, -, -, hchains, -⟩ := hcan
  let locked := s.locking i .promote g
  let x := newTxn (.member .promote) g
  let y : Txn := { x with phase := .memory }
  let answered := (locked.setTxn i (some y)).queued p (.grant tag g .owner none false)
  have active : s.portState p = .active := ha.active rfl
  have right : (s.right p g).covers .write = true := (ha.right.resolve_left fun h => nomatch h).1
  have entry : locked.EntryAt g w { e with lock := .busy i } := he.locking i .promote
  have hx : locked.txn i = some x := locking_txn_same s i .promote g
  have unfenced : ∀ q, locked.holds q g = true → locked.portState q ≠ .fencing := fun q hh => by
    rw [entry.holds] at hh
    rw [(hq q).1 hh]
    exact fun h => nomatch active.symm.trans h
  have nobody : ∀ f, locked.entry g = some f → locked.recallSet i (.member .promote) f = [] := fun f hf => by
    have held : f.holders = e.holders := (congrArg Entry.holders (Option.some.inj (entry.entry.symm.trans hf))).symm
    rw [recallSet_member ha.slotPort_eq rfl, held]
    refine asked_eq_nil.2 fun q => ?_
    cases h : e.holders.get q with
    | false => rfl
    | true => simp [(hq q).1 h, (hq p).2 rfl]
  have noRead : locked.ownOperation i x = none :=
    ownOperation_holder rfl ha.slotPort_eq ((entry.holds p).trans ((hq p).2 rfl))
  have sole : (PerPort.const false).set p true = e.holders := PerPort.ext_get fun q => by
    rw [PerPort.get_set, PerPort.get_const, Bool.eq_iff_iff, hq]
    split <;> simp [*]
  have granted : answered.wayBecomes (answered.changeEntry g (.grantOwner p i)) g w (some { e with mode := .owner }) := by
    have way := (entry.of_dir (t := answered) rfl).wayBecomes_change (c := .grantOwner p i)
      (Entry.freed_of_held (q := p) (PerPort.get_set_same _ p true))
    have after : ({ e with lock := .busy i } : Entry).apply (.grantOwner p i) = { e with mode := .owner } := by
      simp only [Entry.apply, Lock.release, sole, true_or, if_true, hl]
    rwa [after] at way
  have ended : (locked.setTxn i (some y)).endTxn i = (answered.changeEntry g (.grantOwner p i)).freeHead i g := by
    rw [endTxn_member (txn_setTxn_same _ i _) rfl ha.slotPort_eq,
      replyOf_promote (s := locked.setTxn i (some y)) (tag := tag) (g := g) rfl ha.slotTag_eq active right]
    change State.freeHead (State.changeEntry (State.send _ p (.grant tag g .owner none false)) g (.grantOwner p i)) i g = _
    rw [send_queued_of_admits (u := locked.setTxn i (some y)) ha rfl rfl]
  have table : (answered.changeEntry g (.grantOwner p i)).table = ((s.setTxn i (some y)).setChain g [i]).table :=
    congrArg (fun a : State => (a.setChain g [i]).table) (setTxn_setTxn i (some x) (some y))
  have way := (he.locking_way i .promote).trans granted
  have locks : locked.setTxn i (some y) = { s with table := (locked.setTxn i (some y)).table, dir := locked.dir } := rfl
  have same : ({ answered.changeEntry g (.grantOwner p i) with table := s.table } : State)
      = { s.queued p (.grant tag g .owner none false) with dir := (answered.changeEntry g (.grantOwner p i)).dir } :=
    congrArg (fun a : State => { a with table := s.table, dir := (answered.changeEntry g (.grantOwner p i)).dir })
      (queued_of_eq locks)
  generalize answered.changeEntry g (.grantOwner p i) = t at ended table way same
  refine ⟨t.dir, ?_, wayBecomes_of_dir way rfl rfl⟩
  rw [place_locks ha rfl rfl hc he, recallPhase_quiet hx unfenced nobody, enterMemory_ends hx noRead ho, ← same]
  exact ended.trans (freeHead_placed (s := s) (u := t) hchains ha.free hc table)

/-- Settles O35: both requests end in the change that places them, which leaves every slot as it was. -/
theorem requestsAnsweredAtActivation : Obligations.RequestsAnsweredAtActivation := by
  intro p tag g i s hs hcan hc
  refine ⟨fun d ha h => ?_, fun w e ha he hl hq ho => ?_⟩
  · have done := exec_placed ha rfl
    rw [place_zeroMask ha hcan hc h, settle_of_settled (settled_same (t := s.queued p _) hs rfl fun _ => rfl)] at done
    exact done
  · obtain ⟨d, hp, hway⟩ := place_promote ha hcan hc he hl hq ho
    have done := exec_placed ha rfl
    rw [hp, settle_of_settled (settled_same (t := { s.queued p _ with dir := d }) hs rfl fun _ => rfl)] at done
    exact ⟨_, done, rfl, wayBecomes_of_dir hway rfl rfl⟩

end Sys2Proof.Machine
end

section
/-! PROOFS. The bypass frames, taken at arrival. -/

namespace Sys2Proof.Machine

variable {s t u v : State} {p : Port} {tag : Tag} {g : Granule} {r : Request} {i : SlotId} {w : Fin 8} {e : Entry}
  {x : Txn}

/-! ### Bypass frames -/

theorem NoEntry.soleOwner (h : s.NoEntry g) (p : Port) : s.soleOwner p g = false := by
  unfold State.soleOwner
  rw [h.entry]
  rfl

/-- The port is the one holder of an entry in OWNER mode (02 R36). -/
theorem State.EntryAt.soleOwner (h : s.EntryAt g w e) (p : Port) :
    s.soleOwner p g = true ↔ e.mode = .owner ∧ ∀ q, e.holders.get q = true ↔ q = p := by
  unfold State.soleOwner
  rw [h.entry, Option.any_some, Bool.and_eq_true, beq_iff_eq, beq_iff_eq]
  refine and_congr_right fun _ => ⟨fun h q => ?_, fun h => PerPort.ext_get fun q => ?_⟩
  · rw [h, PerPort.get_set, PerPort.get_const]
    split <;> simp [*]
  · rw [PerPort.get_set, PerPort.get_const, Bool.eq_iff_iff, h]
    split <;> simp [*]

/-- After the removal of a holder no eviction waits for the entry, where none did before (02 R31). -/
theorem recheckVictim_removed (he : s.EntryAt g w e) (hl : ∀ j, e.lock ≠ .evicting j)
    (ht : s.wayBecomes t g w
      (if e.lock = .none ∧ e.holders.set p false = .const false then none
        else some { e with holders := e.holders.set p false })) : t.recheckVictim g = t :=
  recheckVictim_self fun f hf j hj => by
    have after := ht.entry he hf
    split at after
    · cases after
    · exact hl j ((congrArg Entry.lock (Option.some.inj after)).trans hj)

/-- A RELEASE that fails the test is answered STALE, and nothing else happens (03 R56, 04 R86). -/
theorem takeRelease_stale (ha : s.Admits p tag g r i) (h : s.holds p g = false) :
    s.takeRelease i p g = s.queued p (.ack tag g .stale .none false) := by
  unfold State.takeRelease
  rw [h, ha.slotTag_eq]
  exact ha.send_eq _

/-- A RELEASE of a holder removes it (03 R56, 04 R86). -/
theorem takeRelease_holder (ha : s.Admits p tag g r i) (hc : Sparse.wf DirSet.empty s.dir) (he : s.EntryAt g w e)
    (hp : e.holders.get p = true) (hl : ∀ j, e.lock ≠ .evicting j) :
    s.takeRelease i p g = (s.changeEntry g (.remove p)).queued p (.ack tag g .ok .none false) := by
  unfold State.takeRelease
  rw [he.holds, hp, if_pos rfl, ha.slotTag_eq, send_queued_of_admits (u := s.changeEntry g (.remove p)) ha rfl rfl]
  exact recheckVictim_removed he hl (he.remove hc p)

/-- A RETURN_DIRTY that fails the test is answered STALE, and nothing else happens (03 R56, 04 R85). -/
theorem takeReturn_stale (ha : s.Admits p tag g r i) (h : s.soleOwner p g = false) (data : GranuleData) :
    s.takeReturn i p g data = s.queued p (.ack tag g .stale .none false) := by
  unfold State.takeReturn
  rw [h, ha.slotTag_eq]
  exact ha.send_eq _

/-- A RETURN_DIRTY of the owner removes it and offers its data (03 R56, 04 R85). -/
theorem takeReturn_owner (hc : Sparse.wf DirSet.empty s.dir) (he : s.EntryAt g w e) (h : s.soleOwner p g = true)
    (hl : ∀ j, e.lock ≠ .evicting j) (data : GranuleData) :
    s.takeReturn i p g data
      = ((s.setTxn i (some (.plain .bypass (.member (.returnDirty data)) g))).changeEntry g (.remove p)).setMem
        (s.mem.offered ⟨.writeFull data, g, .slot i⟩) := by
  let bypassed := s.setTxn i (some (.plain .bypass (.member (.returnDirty data)) g))
  have offered : (bypassed.changeEntry g (.remove p)).offer ⟨.writeFull data, g, .slot i⟩
      = (bypassed.changeEntry g (.remove p)).setMem (s.mem.offered ⟨.writeFull data, g, .slot i⟩) := offer_eq _
  unfold State.takeReturn
  rw [h, if_pos rfl]
  change State.recheckVictim ((bypassed.changeEntry g (.remove p)).offer ⟨.writeFull data, g, .slot i⟩) g = _
  rw [offered]
  exact recheckVictim_removed he hl (wayBecomes_of_dir (he.remove hc p) rfl rfl)

/-- Settles O37: the two frames by their tests; a RELEASE takes no slot, and the slot of a RETURN_DIRTY keeps its port
from leaving. -/
theorem bypassFramesAreTaken : Obligations.BypassFramesAreTaken := by
  intro p tag g i s hs hcan
  have hdir : Sparse.wf DirSet.empty s.dir := hcan.2.2.2.2
  have stale : ∀ f, (s.queued p f).settle = s.queued p f := fun f =>
    settle_of_settled (settled_same hs rfl fun _ => rfl)
  refine ⟨fun ha => ⟨fun h => ?_, fun w e he hp hl => ?_⟩, fun data ha => ⟨fun h => ?_, fun w e he hm hq hl => ?_⟩⟩
  · have fails : s.holds p g = false := by
      rcases h with h | ⟨w, e, he, hp⟩
      · exact h.holds p
      · rw [he.holds, hp]
    refine ha.exec.trans (congrArg _ ?_)
    change (s.takeRelease i p g).settle = _
    rw [takeRelease_stale ha fails, stale]
  · refine ⟨(s.changeEntry g (.remove p)).queued p (.ack tag g .ok .none false), ha.exec.trans (congrArg _ ?_), rfl,
      he.remove hdir p⟩
    change (s.takeRelease i p g).settle = _
    rw [takeRelease_holder ha hdir he hp hl]
    exact settle_of_settled (settled_same hs rfl fun _ => rfl)
  · have fails : s.soleOwner p g = false := by
      rcases h with h | ⟨w, e, he, hne⟩
      · exact NoEntry.soleOwner h p
      · exact Bool.eq_false_iff.2 fun h => hne ((he.soleOwner p).1 h)
    refine ha.exec.trans (congrArg _ ?_)
    change (s.takeReturn i p g data).settle = _
    rw [takeReturn_stale ha fails, stale]
  · have way := he.remove hdir p
    have alone : e.holders.set p false = .const false := PerPort.ext_get fun q => by
      rw [PerPort.get_set, PerPort.get_const]
      split
      · rfl
      · exact Bool.eq_false_iff.2 fun h => absurd ((hq q).1 h) ‹_›
    simp only [alone, and_true] at way
    let bypassed := s.setTxn i (some (.plain .bypass (.member (.returnDirty data)) g))
    have slots : ∀ j, bypassed.txn j = _ := fun j => txn_setTxn s i j _
    refine ⟨(bypassed.changeEntry g (.remove p)).setMem (s.mem.offered ⟨.writeFull data, g, .slot i⟩),
      ha.exec.trans (congrArg _ ?_), rfl, ⟨slots, rfl⟩, wayBecomes_of_dir way rfl rfl⟩
    change (s.takeReturn i p g data).settle = _
    rw [takeReturn_owner hdir he ((he.soleOwner p).2 ⟨hm, hq⟩) hl]
    exact settle_of_settled (settled_slot hs rfl slots (.inl ha.free))

end Sys2Proof.Machine
end

section
/-! PROOFS. The commands of the completions; and a READ whose end activates a slot that was DRAINING, so that a port
leaves FENCING in the same change. -/

namespace Sys2Proof.Machine

/-! ### The commands of the completions -/

/-- The command by which an operation of this kind completes (01 R12 to R17). -/
def MemKind.completion : MemKind → Instr
  | .read => .readComplete
  | .writeFull _ => .writeFullComplete
  | .writePartial _ _ => .writePartialComplete
  | .atomicRmw _ => .atomicRmwComplete
  | .poisonSet => .poisonSetComplete
  | .init => .initComplete

/-- The oldest operation completes by its command. -/
theorem exec_completion {s : State} {op : MemOp} {rest : List MemOp} (hr : s.inReset = false)
    (hq : s.mem.queue = op :: rest) (hg : op.granule.toNat < s.mem.granuleCount) :
    exec op.kind.completion s = .next (s.completeOldest op) := by
  cases hk : op.kind with
  | read => exact complete_oldest (kind := MemKind.isRead) hr hq (by rw [hk]; rfl) hg
  | writeFull d => exact complete_oldest (kind := MemKind.isWriteFull) hr hq (by rw [hk]; rfl) hg
  | writePartial d m => exact complete_oldest (kind := MemKind.isWritePartial) hr hq (by rw [hk]; rfl) hg
  | atomicRmw b => exact complete_oldest (kind := MemKind.isAtomicRmw) hr hq (by rw [hk]; rfl) hg
  | poisonSet => exact complete_oldest (kind := MemKind.isPoisonSet) hr hq (by rw [hk]; rfl) hg
  | init => exact complete_oldest (kind := MemKind.isInit) hr hq (by rw [hk]; rfl) hg

/-! ### A DRAINING slot behind the READ -/

/-- Slot 0 of port 0 waits for its READ of granule 0, and behind it in the chain stands slot 12, a PEEK of port 1 in
DRAINING. Port 1 is in FENCING, its sweep finished, and only that slot keeps it there (07 R147). -/
def drainingBehind : State :=
  let s := State.reset
  let slots := (s.setTxn 0 (some { newTxn (.member .peek) 0 with phase := .memory })).setTxn 12
    (some { newTxn (.member .peek) 0 with phase := .draining })
  { slots.setChain 0 [0, 12] with
    inReset := false
    mem := { s.mem with queue := [⟨.read, 0, .slot 0⟩] }
    ctl := { s.ctl with
      ports := ⟨{ PortRec.reset with state := .active }, { PortRec.reset with state := .fencing, sweepFinished := true },
        .reset, .reset⟩ }
    ifaces := .const { linkUp := true, protoErrors := 0, outq := [], waiting := [] } }

theorem drainingBehind_settled : drainingBehind.settled := fun p => by
  have each : drainingBehind.mayLeave .p0 = false ∧ drainingBehind.mayLeave .p1 = false
      ∧ drainingBehind.mayLeave .p2 = false ∧ drainingBehind.mayLeave .p3 = false := by decide +kernel
  obtain ⟨h0, h1, h2, h3⟩ := each
  cases p
  exacts [h0, h1, h2, h3]

theorem drainingBehind_canonical : drainingBehind.tablesCanonical :=
  ⟨Sparse.wf_nil, Sparse.wf_nil, Sparse.wf_nil, by decide +kernel, Sparse.wf_nil⟩

theorem drainingBehind_noEntry : drainingBehind.NoEntry 0 := fun w _ he =>
  nomatch (get_empty w).symm.trans he

/-- The completion of the READ: slot 12 goes on in MEMORY, and port 1 leaves FENCING under a new epoch. -/
theorem drainingBehind_epoch : (drainingBehind.completeOldest ⟨.read, 0, .slot 0⟩).ctl.epoch = 1 := by decide +kernel

/-- Refutes O40, in its clause on the activation of the next slot. Nothing in it says that this slot was WAITING; where
it was DRAINING, its activation lets its port leave FENCING in the same change (R147), and more changes than the answer,
the table and the memory. No run reaches such a state: DRAINING slots stand in no chain (03 R58). -/
theorem not_readsAreAnswered : ¬Obligations.ReadsAreAnswered := by
  intro h
  have nothing : ∀ v, drainingBehind.mem.errors 0 v = 0 := fun _ => rfl
  have zero : bitCount 0 = 0 := by decide
  have last : ∀ op, op ∈ ([] : List MemOp) → op.origin ≠ .slot 0 := fun _ hop => nomatch hop
  obtain ⟨members, -⟩ := h 0 0 { newTxn (.member .peek) 0 with phase := .memory } 0 [] drainingBehind rfl
    drainingBehind_settled drainingBehind_canonical rfl rfl (by decide) last rfl rfl rfl
    (fun v => by rw [nothing, zero]; omega)
    (fun v b _ => by rw [nothing, zero]; simp [byteOf]; rfl)
  obtain ⟨-, next⟩ := (members .p0 0 .peek (by decide) rfl rfl rfl).2 (.inl rfl) rfl drainingBehind_noEntry
  obtain ⟨t, done, same, -⟩ := next 12 { newTxn (.member .peek) 0 with phase := .draining } [] (by decide +kernel)
    (by decide) (by decide +kernel) rfl rfl nothing
  have run := exec_completion (s := drainingBehind) (op := ⟨.read, 0, .slot 0⟩) rfl rfl (by decide +kernel)
  obtain rfl : t = drainingBehind.completeOldest ⟨.read, 0, .slot 0⟩ := by
    injection done.symm.trans run
  have kept : (drainingBehind.completeOldest ⟨.read, 0, .slot 0⟩).ctl.epoch = 0 :=
    congrArg (fun u : State => u.ctl.epoch) same
  exact absurd (drainingBehind_epoch.symm.trans kept) (by decide)

end Sys2Proof.Machine
end

section
/-! PROOFS. What the operations carry to their origin: of words without error, of a marked granule and of an uncorrectable
word. -/

namespace Sys2Proof.Machine

variable {s : State} {g : Granule}

theorem bitCount_zero : bitCount 0#72 = 0 := by decide

/-- The reads of words without error change neither the marks nor anything outside the memory controller. -/
theorem accountReads_clean {ws : List (Fin 8)} (h : ∀ v, s.mem.errors g v = 0) :
    ∃ m, s.accountReads g (ws.map fun w => s.mem.readWord g w) = s.setMem m ∧ m.poison = s.mem.poison := by
  have none_found : uncorrectableWords (ws.map fun w => s.mem.readWord g w) = [] := by
    have bits : ∀ v, bitCount (s.mem.errors g v) = 0 := fun v => by rw [h v]; exact bitCount_zero
    rw [uncorrectableWords_map fun v _ => by rw [bits v]; omega]
    exact List.filter_eq_nil_iff.2 fun v _ => by simp [bits v]
  unfold State.accountReads
  rw [none_found]
  dsimp only
  split
  · exact ⟨s.mem, rfl, rfl⟩
  · exact ⟨_, rfl, rfl⟩

theorem perform_read_clean (h : ∀ v, s.mem.errors g v = 0) (o : Origin) :
    ∃ m c, s.perform ⟨.read, g, o⟩ = (s.setMem m, c) := by
  obtain ⟨m, hm, -⟩ := accountReads_clean (ws := allWords) h
  exact ⟨m, _, congrArg (·, _) hm⟩

/-- A WRITE_PARTIAL into words without error carries the granule's mark (01 R13). -/
theorem perform_partial_clean {d : GranuleData} {mask : Mask} (hf : mask ≠ fullMask) (h : ∀ v, s.mem.errors g v = 0)
    (o : Origin) : ∃ m, s.perform ⟨.writePartial d mask, g, o⟩ = (s.setMem m, .partialWrite (s.mem.mark g)) := by
  obtain ⟨m, hm, hmark⟩ := accountReads_clean (ws := mergedWords mask) h
  obtain ⟨-, -, -, hpoison⟩ := writeWords_counts (s.mem.mergedValue g d mask) g
    (allWords.filter fun w => flagsOf mask w != 0) (m := m) rfl
  have performed : s.perform ⟨.writePartial d mask, g, o⟩ = s.performPartial g d mask := if_neg hf
  rw [performed]
  unfold State.performPartial
  dsimp only
  rw [hm]
  dsimp only [State.setMem]
  generalize List.foldl (fun m w => m.writeWord g w (s.mem.mergedValue g d mask w)) m _ = n at hpoison
  refine ⟨n, congrArg (fun b => (s.setMem n, Completion.partialWrite b)) ?_⟩
  exact congrArg (Sparse.get false · g.toNat) (hpoison.trans hmark)

/-- Of a marked granule an ATOMIC_RMW carries POISONED (01 R14). -/
theorem perform_atomic_marked (h : s.mem.mark g = true) (b : AtomicBlock) (o : Origin) :
    s.perform ⟨.atomicRmw b, g, o⟩ = (s.setMem s.mem, .rmw .poisoned none) := if_pos h

/-- Of a word without error an ATOMIC_RMW carries its status and the old word (01 R14). -/
theorem perform_atomic_clean {b : AtomicBlock} (hm : s.mem.mark g = false) (h : ∀ v, s.mem.errors g v = 0)
    (o : Origin) : ∃ m, s.perform ⟨.atomicRmw b, g, o⟩
      = (s.setMem m, .rmw (applyAtomic b (s.mem.written g b.word)).2 (some (s.mem.written g b.word))) := by
  have bits : bitCount (s.mem.errors g b.word) = 0 := by rw [h]; exact bitCount_zero
  obtain ⟨m, hread, -⟩ := accountReads_clean (ws := [b.word]) h
  have read : s.mem.readWord g b.word = ⟨b.word, s.mem.written g b.word, .clean⟩ := by
    unfold MemController.readWord
    dsimp only
    rw [bits]
  change ∃ m, s.performAtomic g b = _
  unfold State.performAtomic
  rw [if_neg (by simp [hm])]
  dsimp only
  rw [show [s.mem.readWord g b.word] = [b.word].map fun w => s.mem.readWord g w from rfl, hread, read]
  dsimp only
  rcases applyAtomic b (s.mem.written g b.word) with ⟨_ | new, st⟩
  · exact ⟨m, rfl⟩
  · exact ⟨m.writeWord g b.word new, rfl⟩

/-- Of an uncorrectable word an ATOMIC_RMW carries POISONED, and UNCORRECTABLE is latched (01 R8 to R10, R14). -/
theorem perform_atomic_uncorrectable {b : AtomicBlock} (hm : s.mem.mark g = false)
    (h : bitCount (s.mem.errors g b.word) = 2) (o : Origin) :
    ∃ m, s.perform ⟨.atomicRmw b, g, o⟩ = ((s.latched .uncorrectable).setMem m, .rmw .poisoned none) := by
  obtain ⟨-, -, hverdict⟩ := readWord_verdict (m := s.mem) (g := g) (w := b.word) (by omega)
  have found : uncorrectableWords [s.mem.readWord g b.word] = [(s.mem.readWord g b.word).word] := by
    simp [uncorrectableWords, hverdict.2 h]
  change ∃ m, s.performAtomic g b = _
  unfold State.performAtomic State.accountReads
  rw [if_neg (by simp [hm])]
  dsimp only
  rw [hverdict.2 h, found]
  exact ⟨_, rfl⟩

end Sys2Proof.Machine
end

section
/-! PROOFS. The completion that ends a transaction: the slot, its chain and its entry, and the answer. -/

namespace Sys2Proof.Machine

variable {s u v a : State} {p : Port} {tag : Tag} {g : Granule} {r : Request} {i : SlotId} {w : Fin 8} {e : Entry}
  {x : Txn} {k : MemKind} {c : Completion} {m : MemController} {rest : List MemOp}

/-! ### The last operation of a slot -/

/-- The slot's only operation is the oldest of the queue, and no offer is pending. -/
structure State.LastOf (s : State) (k : MemKind) (g : Granule) (i : SlotId) (rest : List MemOp) : Prop where
  queue : s.mem.queue = ⟨k, g, .slot i⟩ :: rest
  waiting : s.mem.waiting = []
  only : ∀ op, op ∈ rest → op.origin ≠ .slot i

/-- What the operation leaves: the rest of the queue, with nothing outstanding for the slot (01 R3, R5). -/
theorem completeOldest_last {sv : ServicePort} (h : s.LastOf k g i rest)
    (hp : s.perform ⟨k, g, .slot i⟩ = (({ s with svc := sv } : State).setMem m, c)) :
    ∃ n : MemController, n.queue = rest ∧ n.waiting = []
      ∧ (({ s with svc := sv } : State).setMem n).outstanding i = 0
      ∧ s.completeOldest ⟨k, g, .slot i⟩ = ((({ s with svc := sv } : State).setMem n).deliverToSlot i c).settle := by
  have performed := perform_performed s ⟨k, g, .slot i⟩
  rw [hp] at performed
  have queue : m.queue = _ := performed.queue.trans h.queue
  have waiting : m.waiting = [] := performed.waiting.trans h.waiting
  obtain ⟨n, popped, nqueue, nwaiting⟩ : ∃ n, m.popped = n ∧ n.queue = rest ∧ n.waiting = [] := by
    unfold MemController.popped
    rw [waiting]
    dsimp only
    rw [queue]
    exact ⟨_, rfl, rfl, rfl⟩
  have left : (({ s with svc := sv } : State).setMem m).leaveQueue = ({ s with svc := sv } : State).setMem n := by
    unfold State.leaveQueue
    rw [setMem_mem, waiting, popped]
    rfl
  refine ⟨n, nqueue, nwaiting, ?_, ?_⟩
  · change (n.queue ++ n.waiting).countP _ = 0
    rw [nqueue, nwaiting, List.append_nil, List.countP_eq_zero]
    intro op hop
    simpa using h.only op hop
  · unfold State.completeOldest
    rw [hp]
    dsimp only
    rw [left]
    rfl

/-- In MEMORY the slot's last completion brings reply time (03 R52). -/
theorem deliver_memory (hx : u.txn i = some x) (hp : x.phase = .memory) (ho : u.outstanding i = 0) (c : Completion) :
    u.deliverToSlot i c = (u.setTxn i (some (x.note c))).finish i := by
  unfold State.deliverToSlot
  rw [hx]
  dsimp only
  rw [hp]
  exact if_pos ho

/-- In BYPASS the last completion brings the ACK and frees the slot (03 R56). -/
theorem deliver_bypass (hx : u.txn i = some x) (hp : x.phase = .bypass) (ho : u.outstanding i = 0)
    (hi : slotPort i = some p) (c : Completion) :
    u.deliverToSlot i c = (u.send p (.ack (slotTag i) x.granule .ok .none false)).setTxn i none := by
  unfold State.deliverToSlot
  rw [hx]
  dsimp only
  rw [hp, hi]
  exact if_pos ho

/-- In DRAINING the last completion frees the slot (03 R59). -/
theorem deliver_draining (hx : u.txn i = some x) (hp : x.phase = .draining) (ho : u.outstanding i = 0)
    (c : Completion) : u.deliverToSlot i c = u.setTxn i none := by
  unfold State.deliverToSlot
  rw [hx]
  dsimp only
  rw [hp]
  exact if_pos ho

theorem note_kind (x : Txn) (c : Completion) : (x.note c).kind = x.kind := by cases c <;> rfl

theorem note_granule (x : Txn) (c : Completion) : (x.note c).granule = x.granule := by cases c <;> rfl

/-! ### The end of a transaction alone in its chain -/

/-- From `s` to `t` the transaction of slot `i`, alone in the chain of `g`, has ended: its slot is free, the chain is empty,
and the granule's entry, if it had one that only the slot's lock kept, is freed. -/
def State.Ends (s t : State) (i : SlotId) (g : Granule) : Prop :=
  s.slotBecomes t i none ∧ s.chainBecomes t g [] ∧ (s.NoEntry g → t.dir = s.dir)
    ∧ ∀ w e, s.EntryAt g w e → e.lock = .busy i → e.holders = .const false → s.wayBecomes t g w none

/-- The release of the lock frees an entry without holders (02 R39). -/
theorem State.EntryAt.unlock_frees (h : s.EntryAt g w e) (hc : Sparse.wf DirSet.empty s.dir) (hl : e.lock = .busy i)
    (hn : e.holders = .const false) : s.wayBecomes (s.changeEntry g (.unlock i)) g w none := by
  have freed : (e.apply (.unlock i)).freed = true := by
    unfold Entry.apply Entry.freed Lock.release
    rw [hl, hn]
    simp [noMember_iff]
  refine wayBecomes_free hc g w ?_
  rw [h.change, if_pos freed]

/-- The lock released, the slot freed and its chain left (03 R55): of the state before only the slot's record may differ. -/
theorem unlocked_ends {y : Option Txn} (hchains : Sparse.wf [] s.table.chains) (hdir : Sparse.wf DirSet.empty s.dir)
    (hc : s.chain g = [i]) (ht : a.table = (s.setTxn i y).table) (hd : a.dir = s.dir) :
    s.Ends ((a.changeEntry g (.unlock i)).freeHead i g) i g := by
  have adir : Sparse.wf DirSet.empty a.dir := hd ▸ hdir
  have chains : a.table.chains = s.table.chains := (congrArg TxnTable.chains ht :)
  have chain : ∀ h, a.chain h = s.chain h := fun h => congrArg (Sparse.get [] · h.toNat) chains
  have slots : ∀ j, a.txn j = if j = i then y else s.txn j := fun j =>
    (congrArg (fun b : TxnTable => b.slots.get j) ht).trans (txn_setTxn s i j y)
  have left : (((a.changeEntry g (.unlock i)).setTxn i none).chain g).erase i = [] := by
    change (a.chain g).erase i = []
    rw [chain, hc]
    simp
  unfold State.freeHead State.leaveChain
  rw [left]
  refine ⟨⟨fun j => ?_, (congrArg TxnTable.recallLimit ht :)⟩, fun h => ?_, fun hn => ?_, fun w e he hl hh => ?_⟩
  · refine (txn_setTxn (a.changeEntry g (.unlock i)) i j none).trans ?_
    change (if j = i then none else a.txn j) = _
    rw [slots]
    split <;> rfl
  · refine (chain_setChain (s := (a.changeEntry g (.unlock i)).setTxn i none) (by exact chains ▸ hchains) g [] h).trans ?_
    change (if h = g then [] else a.chain h) = _
    rw [chain]
  · exact (congrArg State.dir ((hn.of_dir hd).change adir (.unlock i))).trans hd
  · exact wayBecomes_of_dir ((he.of_dir hd).unlock_frees adir hl hh) hd.symm rfl

/-- Reply time of a transaction alone in its chain activates nothing (03 R55 step 4). -/
theorem finish_alone (hx : u.txn i = some x) (hg : x.granule = g) (hi : i ≠ sweepSlot)
    (hc : (u.endTxn i).chain g = []) : u.finish i = u.endTxn i := by
  subst hg
  unfold State.finish
  rw [hx]
  dsimp only
  unfold State.advanceAfter
  rw [hc]
  exact if_neg hi

/-- The end of a MEM_POKE: its result, the lock and the slot (03 R61). -/
theorem endTxn_memPoke {d : GranuleData} {mask : Mask} (hx : u.txn i = some x) (hk : x.kind = .memPoke d mask) :
    u.endTxn i
      = ((u.setResult (.done .poke x.granule none x.poisonSeen)).changeEntry x.granule (.unlock i)).freeHead i x.granule := by
  unfold State.endTxn
  rw [hx]
  dsimp only
  rw [hk]

/-- A completion that ends a transaction alone in its chain: `v` is the state with the answer or the result. -/
theorem completeOldest_ends {sv : ServicePort} (hs : s.settled) (hcan : s.tablesCanonical) (hlast : s.LastOf k g i rest)
    (hp : s.perform ⟨k, g, .slot i⟩ = (({ s with svc := sv } : State).setMem m, c)) (hx : s.txn i = some x)
    (hg : x.granule = g) (hm : x.phase = .memory) (hc : s.chain g = [i]) (hi : i ≠ sweepSlot)
    (hport : ∀ q, slotPort i = some q → s.portState q ≠ .departing ∧ s.portState q ≠ .fencing)
    (hctl : v.ctl = s.ctl) (hd : v.dir = s.dir)
    (hend : ∀ b : State, b = { s with svc := sv, table := (s.setTxn i (some (x.note c))).table, mem := b.mem } →
      b.endTxn i = (State.changeEntry { v with table := b.table, mem := b.mem } g (.unlock i)).freeHead i g) :
    ∃ t, s.completeOldest ⟨k, g, .slot i⟩ = t ∧ t = { v with table := t.table, dir := t.dir, mem := t.mem }
      ∧ t.mem.queue = rest ∧ t.mem.waiting = [] ∧ s.Ends t i g := by
  obtain ⟨-, -, -, hchains, hdir⟩ := hcan
  obtain ⟨n, queue, waiting, nothing, done⟩ := completeOldest_last hlast hp
  let noted : State := { s with svc := sv, table := (s.setTxn i (some (x.note c))).table, mem := n }
  let answered : State := { v with table := noted.table, mem := n }
  have ends : s.Ends ((answered.changeEntry g (.unlock i)).freeHead i g) i g :=
    unlocked_ends hchains hdir hc rfl hd
  have finished : noted.finish i = (answered.changeEntry g (.unlock i)).freeHead i g := by
    rw [← hend noted rfl]
    refine finish_alone (txn_setTxn_same s i _) ((note_granule x c).trans hg) hi ?_
    rw [hend noted rfl, ends.2.1 g, if_pos rfl]
  have delivered : (({ s with svc := sv } : State).setMem n).deliverToSlot i c = noted.finish i :=
    deliver_memory (u := ({ s with svc := sv } : State).setMem n) hx hm nothing c
  have settled : ((answered.changeEntry g (.unlock i)).freeHead i g).settled :=
    settled_slot hs (by exact hctl) ends.1.1 (.inr (.inl hport))
  rw [delivered, finished, settle_of_settled settled] at done
  exact ⟨_, done, rfl, queue, waiting, ends⟩

/-- The end of a member's transaction while its port is active: the answer is queued. -/
theorem completeOldest_member {sv : ServicePort} {answer : HubFrame} (hs : s.settled) (hcan : s.tablesCanonical)
    (hlast : s.LastOf k g i rest)
    (hp : s.perform ⟨k, g, .slot i⟩ = (({ s with svc := sv } : State).setMem m, c)) (hx : s.txn i = some x)
    (hg : x.granule = g) (hm : x.phase = .memory) (hc : s.chain g = [i]) (hi : slotPort i = some p)
    (hact : s.portState p = .active) (hl : (s.ifaces.get p).linkUp = true) (hk : x.kind = .member r)
    (hreply : ∀ b : State, b.replyOf i p (x.note c) r = ⟨answer, .unlock i⟩) :
    ∃ t, s.completeOldest ⟨k, g, .slot i⟩ = t
      ∧ t = { ({ s with svc := sv } : State).queued p answer with table := t.table, dir := t.dir, mem := t.mem }
      ∧ t.mem.queue = rest ∧ t.mem.waiting = [] ∧ s.Ends t i g := by
  have notSweep : i ≠ sweepSlot := by
    rintro rfl
    cases hi
  have port : ∀ q, slotPort i = some q → s.portState q ≠ .departing ∧ s.portState q ≠ .fencing := fun q hq => by
    obtain rfl : p = q := Option.some.inj (hi.symm.trans hq)
    simp [hact]
  refine completeOldest_ends (v := ({ s with svc := sv } : State).queued p answer) hs hcan hlast hp hx hg hm hc notSweep
    port rfl rfl fun b hb => ?_
  have slot : b.txn i = some (x.note c) := by
    rw [hb]
    exact txn_setTxn_same s i _
  have sent : b.send p answer = b.queued p answer :=
    send_eq_queued (by rw [hb]; exact hl) (by rw [hb]; exact isFenced_of_member (.inl hact)) answer
  have queued : b.queued p answer = { ({ s with svc := sv } : State).queued p answer with table := b.table, mem := b.mem } := by
    rw [hb]
    rfl
  rw [endTxn_member slot ((note_kind x c).trans hk) hi, hreply, note_granule, hg, sent, queued]

/-- The end of a MEM_POKE: its result stands in the service port (03 R61). -/
theorem completeOldest_memPoke {d : GranuleData} {mask : Mask} (hs : s.settled) (hcan : s.tablesCanonical)
    (hlast : s.LastOf k g serviceSlot rest)
    (hp : s.perform ⟨k, g, .slot serviceSlot⟩ = (s.setMem m, c)) (hx : s.txn serviceSlot = some x)
    (hg : x.granule = g) (hm : x.phase = .memory) (hc : s.chain g = [serviceSlot]) (hk : x.kind = .memPoke d mask) :
    ∃ t, s.completeOldest ⟨k, g, .slot serviceSlot⟩ = t
      ∧ t = { s.setResult (.done .poke g none (x.note c).poisonSeen) with table := t.table, dir := t.dir, mem := t.mem }
      ∧ t.mem.queue = rest ∧ t.mem.waiting = [] ∧ s.Ends t serviceSlot g := by
  refine completeOldest_ends (sv := s.svc) (v := s.setResult (.done .poke g none (x.note c).poisonSeen)) hs hcan hlast hp
    hx hg hm hc (by decide) (fun q hq => by cases hq) rfl rfl fun b hb => ?_
  have slot : b.txn serviceSlot = some (x.note c) := by
    rw [hb]
    exact txn_setTxn_same s serviceSlot _
  have result : ∀ o, b.setResult o = { s.setResult o with table := b.table, mem := b.mem } := fun o => by
    rw [hb]
    rfl
  rw [endTxn_memPoke slot ((note_kind x c).trans hk), note_granule, hg, result]

/-! ### The end of a slot in no chain -/

/-- A slot is freed, and the tests of R141 and R147 find no port that may leave: the slot's port is neither departing nor
in FENCING, or its sweep is not finished. -/
theorem freed_settles (hs : s.settled) (hc : u.ctl = s.ctl) (ht : u.table = s.table)
    (hi : (∀ q, slotPort i = some q → s.portState q ≠ .departing ∧ s.portState q ≠ .fencing)
      ∨ ∀ q, slotPort i = some q → (s.ctl.ports.get q).sweepFinished = false) :
    (u.setTxn i none).settle = u.setTxn i none ∧ s.slotBecomes (u.setTxn i none) i none := by
  have slots : ∀ j, (u.setTxn i none).txn j = if j = i then none else s.txn j := fun j => by
    rw [txn_setTxn]
    unfold State.txn
    rw [ht]
  have settled : (u.setTxn i none).settled := settled_slot hs (by exact hc) slots (.inr (hi.imp_right .inr))
  exact ⟨settle_of_settled settled, slots, (congrArg TxnTable.recallLimit ht :)⟩

/-- The ACK of a RETURN_DIRTY whose data are written (03 R56). -/
theorem completeOldest_bypass (hs : s.settled) (hlast : s.LastOf k g i rest)
    (hp : s.perform ⟨k, g, .slot i⟩ = (s.setMem m, c)) (hx : s.txn i = some x) (hg : x.granule = g)
    (hb : x.phase = .bypass) (hi : slotPort i = some p) (ht : slotTag i = tag) (hact : s.portState p = .active)
    (hl : (s.ifaces.get p).linkUp = true) :
    ∃ t, s.completeOldest ⟨k, g, .slot i⟩ = t
      ∧ t = { s.queued p (.ack tag g .ok .none false) with
          table := { s.table with slots := t.table.slots }, mem := t.mem }
      ∧ s.slotBecomes t i none ∧ t.mem.queue = rest ∧ t.mem.waiting = [] := by
  obtain ⟨n, queue, waiting, nothing, done⟩ := completeOldest_last (sv := s.svc) hlast hp
  have sent : State.send (s.setMem n) p (.ack tag g .ok .none false) = (s.setMem n).queued p (.ack tag g .ok .none false) :=
    send_eq_queued (by exact hl) (by exact isFenced_of_member (.inl hact)) _
  have delivered : (s.setMem n).deliverToSlot i c = ((s.setMem n).queued p (.ack tag g .ok .none false)).setTxn i none := by
    rw [deliver_bypass (u := s.setMem n) hx hb nothing hi, hg, ht, sent]
  have port : ∀ q, slotPort i = some q → s.portState q ≠ .departing ∧ s.portState q ≠ .fencing := fun q hq => by
    obtain rfl : p = q := Option.some.inj (hi.symm.trans hq)
    simp [hact]
  obtain ⟨still, slot⟩ := freed_settles (u := (s.setMem n).queued p (.ack tag g .ok .none false)) hs rfl rfl (.inl port)
  exact ⟨_, done.trans ((congrArg State.settle delivered).trans still), rfl, slot, queue, waiting⟩

/-- The last operation of a DRAINING slot, while the sweep of its port runs: nothing is answered (03 R59). -/
theorem completeOldest_draining (hs : s.settled) (hlast : s.LastOf k g i rest)
    (hp : s.perform ⟨k, g, .slot i⟩ = (s.setMem m, c)) (hx : s.txn i = some x) (hd : x.phase = .draining)
    (hi : slotPort i = some p) (hf : (s.ctl.ports.get p).sweepFinished = false) :
    ∃ t, s.completeOldest ⟨k, g, .slot i⟩ = t
      ∧ t = { s with table := { s.table with slots := t.table.slots }, mem := t.mem }
      ∧ s.slotBecomes t i none ∧ t.mem.queue = rest ∧ t.mem.waiting = [] := by
  obtain ⟨n, queue, waiting, nothing, done⟩ := completeOldest_last (sv := s.svc) hlast hp
  have delivered : (s.setMem n).deliverToSlot i c = (s.setMem n).setTxn i none :=
    deliver_draining (u := s.setMem n) hx hd nothing c
  have unfinished : ∀ q, slotPort i = some q → (s.ctl.ports.get q).sweepFinished = false := fun q hq => by
    obtain rfl : p = q := Option.some.inj (hi.symm.trans hq)
    exact hf
  obtain ⟨still, slot⟩ := freed_settles (u := s.setMem n) hs rfl rfl (.inr unfinished)
  exact ⟨_, done.trans ((congrArg State.settle delivered).trans still), rfl, slot, queue, waiting⟩

/-! ### The answers -/

/-- An atomic of a compare-swap whose comparison fails writes nothing, every other one writes (01 R14). -/
theorem applyAtomic_status (b : AtomicBlock) (old : Word) :
    ((b.op ≠ .compareSwap ∨ old = b.a) → (applyAtomic b old).2 = .ok)
      ∧ (b.op = .compareSwap → old ≠ b.a → (applyAtomic b old).2 = .casFail) := by
  unfold applyAtomic
  cases b.op with
  | fetchAdd => exact ⟨fun _ => rfl, fun h => nomatch h⟩
  | swap => exact ⟨fun _ => rfl, fun h => nomatch h⟩
  | compareSwap =>
    refine ⟨fun h => ?_, fun _ h => congrArg Prod.snd (if_neg h)⟩
    exact congrArg Prod.snd (if_pos (h.resolve_left fun hn => hn rfl))

/-- The oldest operation is the slot's own, raises no event, and brings the member's answer. -/
def State.Answers (s : State) (k : MemKind) (g : Granule) (i : SlotId) (p : Port) (x : Txn) (answer : HubFrame) : Prop :=
  ∃ r m c, x.kind = .member r ∧ s.perform ⟨k, g, .slot i⟩ = (s.setMem m, c)
    ∧ ∀ b : State, b.replyOf i p (x.note c) r = ⟨answer, .unlock i⟩

/-- A POKE is answered with the poison seen (04 R79). -/
theorem replyOf_poke {d : GranuleData} {mask : Mask} (hg : x.granule = g) (ht : slotTag i = tag) :
    s.replyOf i p (x.note c) (.poke d mask) = ⟨.ack tag g .ok .none (x.note c).poisonSeen, .unlock i⟩ := by
  subst hg ht
  rw [← note_granule x c]
  rfl

/-- An ATOMIC is answered by the status of its completion (04 R83). -/
theorem replyOf_atomic {b : AtomicBlock} {st : AtomicStatus} {old : Option Word} (hg : x.granule = g)
    (ht : slotTag i = tag) :
    s.replyOf i p (x.note (.rmw st old)) (.atomic b) = ⟨atomicAnswer tag g (.word st old), .unlock i⟩ := by
  subst hg ht
  rfl

theorem answers_writeFull {d : GranuleData} {mask : Mask} (hk : x.kind = .member (.poke d mask)) (hg : x.granule = g)
    (ht : slotTag i = tag) : s.Answers (.writeFull d) g i p x (.ack tag g .ok .none x.poisonSeen) :=
  ⟨_, _, .done, hk, rfl, fun _ => replyOf_poke hg ht⟩

theorem answers_writePartial {d : GranuleData} {mask : Mask} (hk : x.kind = .member (.poke d mask))
    (hm : mask ≠ fullMask) (h : ∀ v, s.mem.errors g v = 0) (hg : x.granule = g) (ht : slotTag i = tag) :
    s.Answers (.writePartial d mask) g i p x (.ack tag g .ok .none (x.poisonSeen || s.mem.mark g)) := by
  obtain ⟨m, hp⟩ := perform_partial_clean (d := d) hm h (.slot i)
  exact ⟨_, m, _, hk, hp, fun _ => replyOf_poke hg ht⟩

theorem answers_atomic {b : AtomicBlock} {old : Word} {answer : HubFrame} (hk : x.kind = .member (.atomic b))
    (h : ∀ v, s.mem.errors g v = 0) (hg : x.granule = g) (ht : slotTag i = tag) (hold : s.mem.written g b.word = old)
    (ha : s.mem.mark g = true ∧ answer = .bounce tag g .poisoned
      ∨ s.mem.mark g = false ∧ (b.op ≠ .compareSwap ∨ old = b.a) ∧ answer = .ack tag g .ok (.value old) false
      ∨ s.mem.mark g = false ∧ b.op = .compareSwap ∧ old ≠ b.a
        ∧ answer = .ack tag g .casFail (.value old) false) : s.Answers (.atomicRmw b) g i p x answer := by
  obtain ⟨writes, keeps⟩ := applyAtomic_status b old
  rcases ha with ⟨hm, rfl⟩ | ⟨hm, hb, rfl⟩ | ⟨hm, hb, hne, rfl⟩
  · exact ⟨_, _, _, hk, perform_atomic_marked hm b (.slot i), fun _ => replyOf_atomic hg ht⟩
  · obtain ⟨m, hp⟩ := perform_atomic_clean hm h (.slot i)
    rw [hold, writes hb] at hp
    exact ⟨_, m, _, hk, hp, fun _ => replyOf_atomic hg ht⟩
  · obtain ⟨m, hp⟩ := perform_atomic_clean hm h (.slot i)
    rw [hold, keeps hb hne] at hp
    exact ⟨_, m, _, hk, hp, fun _ => replyOf_atomic hg ht⟩

/-- Settles O41: what each operation carries, and the end that it brings to the slot by its phase and its port. -/
theorem writesAreAnswered : Obligations.WritesAreAnswered := by
  intro c g k i x rest s hr hs hcan hq hw hg hrest hx hxg word mark clean memory ended
  have last : s.LastOf k g i rest := ⟨hq, hw, hrest⟩
  have run : exec k.completion s = .next (s.completeOldest ⟨k, g, .slot i⟩) := exec_completion hr hq hg
  refine ⟨fun p tag htag hi => ?_, ?_⟩
  · have port : slotPort i = some p := slotPort_of htag hi
    have tagged : slotTag i = tag := slotTag_of htag hi
    refine ⟨fun hact hl => ⟨fun ⟨hm, hc, _⟩ => ⟨fun hclean d m b answer old hold hcase => ?_, fun b hcmd hk hkind hmark h2 => ?_⟩,
      fun d hcmd hk hb => ?_⟩, fun hfence hf hd hclean d hcase => ?_⟩
    · obtain ⟨hcmd, r, n, carried, hkind, hp, hreply⟩ : c = k.completion ∧ s.Answers k g i p x answer := by
        rcases hcase with ⟨rfl, rfl, hkind, rfl⟩ | ⟨rfl, rfl, hkind, hm, rfl⟩ | ⟨rfl, rfl, hkind, ha⟩
        · exact ⟨rfl, answers_writeFull hkind hxg tagged⟩
        · exact ⟨rfl, answers_writePartial hkind hm hclean hxg tagged⟩
        · exact ⟨rfl, answers_atomic hkind hclean hxg tagged (written_eq hold) ha⟩
      obtain ⟨t, done, same, hqueue, hwait, hslot, hchain, hends⟩ := completeOldest_member (sv := s.svc) hs hcan last hp hx
        hxg hm hc port hact hl hkind hreply
      exact ⟨t, by rw [hcmd, run, done], same, hslot, hchain, hqueue, hwait, hends⟩
    · subst hcmd hk
      obtain ⟨n, hp⟩ := perform_atomic_uncorrectable hmark h2 (.slot i)
      obtain ⟨t, done, same, hqueue, hwait, hslot, hchain, hends⟩ := completeOldest_member
        (sv := (s.latched .uncorrectable).svc) hs hcan last hp hx hxg hm hc port hact hl hkind
        fun _ => replyOf_atomic hxg tagged
      exact ⟨t, run.trans (congrArg _ done), same, hslot, hchain, hqueue, hwait, hends⟩
    · subst hcmd hk
      obtain ⟨t, done, hend⟩ := completeOldest_bypass hs last rfl hx hxg hb port tagged hact hl
      exact ⟨t, run.trans (congrArg _ done), hend⟩
    · obtain ⟨hcmd, n, carried, hp⟩ : c = k.completion ∧ ∃ n carried, s.perform ⟨k, g, .slot i⟩ = (s.setMem n, carried) := by
        rcases hcase with ⟨rfl, rfl⟩ | ⟨rfl, rfl⟩ | ⟨rfl, rfl⟩
        · exact ⟨rfl, _, _, rfl⟩
        · exact ⟨rfl, perform_read_clean hclean (.slot i)⟩
        · exact ⟨rfl, _, _, rfl⟩
      obtain ⟨t, done, hend⟩ := completeOldest_draining hs last hp hx hd port hf
      exact ⟨t, by rw [hcmd, run, done], hend⟩
  · rintro rfl ⟨hm, hc, -⟩ hclean d m hcase hkind
    obtain ⟨hcmd, n, carried, hp, hpoison⟩ : c = k.completion ∧ ∃ n carried,
        s.perform ⟨k, g, .slot serviceSlot⟩ = (s.setMem n, carried)
          ∧ (x.note carried).poisonSeen = (x.poisonSeen || (mark && m != BitVec.allOnes 64)) := by
      rcases hcase with ⟨rfl, rfl, rfl⟩ | ⟨rfl, rfl, hne⟩
      · exact ⟨rfl, _, .done, rfl, by simp [Txn.note]⟩
      · obtain ⟨n, hp⟩ := perform_partial_clean (d := d) hne hclean (.slot serviceSlot)
        exact ⟨rfl, n, _, hp, by rw [bne_iff_ne.2 hne, Bool.and_true]; rfl⟩
    obtain ⟨t, done, same, hqueue, hwait, hslot, hchain, hends⟩ := completeOldest_memPoke hs hcan last hp hx hxg hm hc hkind
    rw [hpoison] at same
    exact ⟨t, by rw [hcmd, run, done], same, hslot, hchain, hqueue, hwait, hends⟩

end Sys2Proof.Machine
end

section
/-! PROOFS. The time base: the tick of an empty queue, and the expiry of a recall deadline. -/

namespace Sys2Proof.Machine

variable {s : State} {n : Nat} {c : Instr} {i : SlotId} {x : Txn}

/-! ### The deadlines that a tick reaches -/

theorem mem_dueRecalls : c ∈ s.dueRecalls n ↔
    ∃ i x d, c = .recallDeadlineExpiry i ∧ s.txn i = some x ∧ x.deadline = some d ∧ d ≤ n := by
  unfold State.dueRecalls
  simp only [List.mem_map, List.mem_filter, mem_allSlots, true_and, Option.any_eq_true, decide_eq_true_eq]
  constructor
  · rintro ⟨i, ⟨x, hx, d, hd, hle⟩, rfl⟩
    exact ⟨i, x, d, rfl, hx, hd, hle⟩
  · rintro ⟨i, x, d, rfl, hx, hd, hle⟩
    exact ⟨i, ⟨x, hx, d, hd, hle⟩, rfl⟩

theorem mem_dueDepartures : c ∈ s.dueDepartures n ↔
    ∃ p d, c = .departureDeadlineExpiry p ∧ (s.ctl.ports.get p).deadline = some d ∧ d ≤ n := by
  unfold State.dueDepartures
  simp only [List.mem_map, List.mem_filter, mem_allPorts, true_and, Option.any_eq_true, decide_eq_true_eq]
  constructor
  · rintro ⟨p, ⟨d, hd, hle⟩, rfl⟩
    exact ⟨p, d, rfl, hd, hle⟩
  · rintro ⟨p, d, rfl, hd, hle⟩
    exact ⟨p, ⟨d, hd, hle⟩, rfl⟩

/-- Each slot and each port has one deadline, so that no expiry is due twice. -/
theorem due_nodup (s : State) (n : Nat) : (s.dueRecalls n ++ s.dueDepartures n).Nodup := by
  have recalls : (s.dueRecalls n).Nodup :=
    ((List.nodup_finRange 50).filter _).map fun _ _ h => Instr.recallDeadlineExpiry.inj h
  have departures : (s.dueDepartures n).Nodup :=
    (Port.all_nodup.filter _).map fun _ _ h => Instr.departureDeadlineExpiry.inj h
  refine recalls.append departures fun c hr hd => ?_
  obtain ⟨i, x, d, rfl, -⟩ := mem_dueRecalls.1 hr
  obtain ⟨p, d, hc, -⟩ := mem_dueDepartures.1 hd
  cases hc

/-- Settles O2: the tick queues the due expiries in some order, and an order neither adds nor repeats one. -/
theorem emptyQueueTicks : Obligations.EmptyQueueTicks := by
  intro s hq
  have ticks : step s = .next s.tick := by
    unfold step
    rw [hq]
  have queued : s.tick.pending.Perm (s.dueRecalls (s.now + 1) ++ s.dueDepartures (s.now + 1)) := freeOrder_perm _ _ _
  refine ⟨s.tick, ticks, rfl, queued.nodup_iff.2 (due_nodup s _), fun c => ?_⟩
  rw [queued.mem_iff, List.mem_append, mem_dueRecalls, mem_dueDepartures]

/-! ### The expiry of a recall deadline -/

theorem recallExpiry_eq {d : Nat} (hx : s.txn i = some x) (hd : x.deadline = some d) :
    s.recallExpiry i =
      { s.setTxn i (some
          { x with
            deadline := none
            awaited := ⟨timeOut x.awaited.p0, timeOut x.awaited.p1, timeOut x.awaited.p2, timeOut x.awaited.p3⟩ }) with
        now := max s.now d
        ctl := { s.ctl with fenceRequests := s.ctl.fenceRequests ++ x.stillWaiting } } := by
  unfold State.recallExpiry
  rw [hx]
  dsimp only
  rw [hd]
  rfl

/-- The ports that are asked to be fenced, in ascending order (05 R105). -/
theorem stillWaiting_eq (x : Txn) :
    x.stillWaiting = Port.all.flatMap fun p => if (x.awaited.get p).any fun w => !w.timedOut then [p] else [] := by
  unfold Txn.stillWaiting
  generalize Port.all = l
  induction l with
  | nil => rfl
  | cons p l ih =>
    rw [List.filter_cons, List.flatMap_cons, ih]
    split <;> rfl

/-- Settles O39: the expiry changes the slot's record, the time base and the list of fence requests. -/
theorem recallDeadlineExpires : Obligations.RecallDeadlineExpires := by
  intro i x d s hr hx hd out asked
  have requests : x.stillWaiting = asked .p0 ++ asked .p1 ++ asked .p2 ++ asked .p3 := by
    rw [stillWaiting_eq]
    simp [Port.all, asked]
  have done : exec (.recallDeadlineExpiry i) s = .next (s.recallExpiry i) := change_running hr _
  rw [recallExpiry_eq hx hd, requests] at done
  exact ⟨_, done, rfl, fun j => txn_setTxn s i j _, rfl⟩

end Sys2Proof.Machine
end

section
/-! PROOFS. The protocol errors, and the YIELD that a slot awaits. -/

namespace Sys2Proof.Machine

variable {s : State} {p : Port} {tag : Tag} {g : Granule} {r : Request} {i : SlotId} {x : Txn} {a : Awaited}
  {recallId : Byte}

/-! ### Protocol errors -/

theorem satInc_eq (c : BitVec 8) : satInc c = if c = 255 then 255 else c + 1 := by
  revert c
  decide

/-- A protocol error is counted and raised, and that is all (09 R191). -/
theorem protocolError_eq (s : State) (p : Port) : s.protocolError p = s.wronged p := by
  unfold State.protocolError State.wronged
  rw [← satInc_eq]
  rfl

/-- The tags 12 and 13 name no slot (09 R189). -/
theorem memberSlot_none (h : 12 ≤ tag.toNat) (p : Port) : memberSlot p tag = none := dif_neg fun hm => by omega

/-- A request that intake judges an error. -/
theorem exec_request_error (hr : s.receives p) (hf : (s.portState p).isFenced = false)
    (h : s.judgeRequest p tag g r = .error) : exec (r.instr p tag g) s = .next (s.wronged p) := by
  rw [exec_takes_request hr, takeFrame_request hf]
  unfold State.takeRequest
  rw [h, ← protocolError_eq]

/-! ### The slot that awaits a YIELD -/

theorem slotOfRecallId_eq_some : slotOfRecallId recallId = some i ↔ i.val = recallId.toNat := by
  unfold slotOfRecallId
  split
  · rw [Option.some_inj, Fin.ext_iff, eq_comm]
  · exact ⟨fun h => (nomatch h), fun h => absurd (h ▸ i.isLt) ‹_›⟩

/-- A slot awaits the YIELD when it is the one of the recall id, awaits the port and recalls the granule (05 R95). -/
theorem awaitedBy_eq_some : s.awaitedBy p recallId g = some (i, a) ↔
    i.val = recallId.toNat ∧ ∃ x, s.txn i = some x ∧ x.victim.getD x.granule = g ∧ x.awaited.get p = some a := by
  unfold State.awaitedBy
  constructor
  · intro h
    split at h
    · cases h
    · rename_i j hj
      split at h
      · cases h
      · rename_i x hx
        split at h
        · obtain ⟨a, ha, heq⟩ := Option.map_eq_some_iff.1 h
          cases heq
          exact ⟨slotOfRecallId_eq_some.1 hj, x, hx, ‹_›, ha⟩
        · cases h
  · rintro ⟨hi, x, hx, hg, ha⟩
    rw [slotOfRecallId_eq_some.2 hi]
    dsimp only
    rw [hx]
    exact (if_pos hg).trans (by rw [ha]; rfl)

/-- A YIELD of a member is matched at the transaction table (05 R95). -/
theorem exec_yield (hr : s.receives p) (hm : s.portState p = .active ∨ s.portState p = .departing) (tag : Tag)
    (o : YieldOutcome) : exec (.yield p tag g recallId o) s = .next (s.matchYield p g recallId o) := by
  refine (exec_takes hr (.yield tag g recallId o)).trans (congrArg _ ?_)
  unfold State.takeFrame
  rw [isFenced_of_member hm]
  exact if_pos (isMember_of hm)

/-- Settles O28: each of the four is judged an error. -/
theorem protocolErrors : Obligations.ProtocolErrors := by
  intro p s hr hfencing hfenced member
  have unfenced : (s.portState p).isFenced = false := by
    cases h : s.portState p with
    | fencing => exact absurd h hfencing
    | fenced => exact absurd h hfenced
    | _ => rfl
  refine ⟨fun bytes hb => ?_, fun tag g r hm ht => ?_, fun tag g r i hm ht hi hx => ?_, fun tag g b o hm hnone => ?_⟩
  · have done : exec (.malformedFrame p bytes) s = .next (s.takeFrame p (Frame.ofBytes bytes)) :=
      (change_running hr.1 _).trans (congrArg _ (arrive_receives hr _))
    rw [done, (ofBytes_malformed bytes).2 hb, ← protocolError_eq]
    unfold State.takeFrame
    rw [unfenced]
    rfl
  · refine exec_request_error hr unfenced ?_
    rw [judgeRequest_member (by omega) hm.2]
    unfold State.judgeSlot
    rw [hm.1, memberSlot_none (by omega)]
  · refine exec_request_error hr unfenced ?_
    rw [judgeRequest_member (by omega) hm.2, judgeSlot_running hm.1 ht hi, if_pos hx]
  · have unmatched : s.awaitedBy p b g = none := Option.eq_none_iff_forall_ne_some.2 fun ⟨i, a⟩ h => by
      obtain ⟨hi, x, hx, hg, ha⟩ := awaitedBy_eq_some.1 h
      exact hnone i x hi hx (by rw [ha]; rfl) hg
    rw [exec_yield hr hm, ← protocolError_eq]
    unfold State.matchYield
    rw [unmatched]

end Sys2Proof.Machine
end
section
/-! PROOFS. A YIELD that a slot awaits: the recalled entry, the awaited set, and what the last answer brings. -/

namespace Sys2Proof.Machine

variable {s t u : State} {p : Port} {g : Granule} {i : SlotId} {w : Fin 8} {e : Entry} {x : Txn} {a : Awaited}
  {recallId : Byte} {o : YieldOutcome}

/-! ### The recalled entry and the data -/

/-- The recalled entry after the answer (05 R96, R97). -/
def Entry.yielded (e : Entry) (p : Port) : RecallKind → YieldOutcome → Entry
  | .revoke, _ => { e with holders := e.holders.set p false }
  | .demote, .absent => { e with holders := e.holders.set p false }
  | .demote, _ => if e.holders.get p = true then { e with mode := .readers } else e

/-- The memory controller after the answer: DIRTY data are offered (05 R98). -/
def MemController.yielded (m : MemController) (g : Granule) (i : SlotId) : YieldOutcome → MemController
  | .dirty d => m.offered ⟨.writeFull d, g, .slot i⟩
  | _ => m

theorem Entry.yielded_granule (e : Entry) (p : Port) (r : RecallKind) (o : YieldOutcome) :
    (e.yielded p r o).granule = e.granule := by
  unfold Entry.yielded
  split
  · rfl
  · rfl
  · split <;> rfl

theorem Entry.yielded_lock (e : Entry) (p : Port) (r : RecallKind) (o : YieldOutcome) :
    (e.yielded p r o).lock = e.lock := by
  unfold Entry.yielded
  split
  · rfl
  · rfl
  · split <;> rfl

/-- Of an entry with a lock the answer rewrites the way. -/
theorem yieldChange_spec (he : s.EntryAt g w e) (hl : e.lock ≠ .none) (p : Port) (r : RecallKind) (o : YieldOutcome) :
    s.yieldChange p g r o = { s with dir := (s.yieldChange p g r o).dir }
      ∧ s.wayBecomes (s.yieldChange p g r o) g w (some (e.yielded p r o)) := by
  have removed := he.remove_locked hl p
  have demoted : ∀ u, (if s.holds p g then s.changeEntry g .demote else s) = u →
      u = { s with dir := u.dir }
        ∧ s.wayBecomes u g w (some (if e.holders.get p = true then { e with mode := .readers } else e)) := by
    rintro u rfl
    rw [he.holds]
    split
    · exact ⟨rfl, he.wayBecomes_change (c := .demote) (Entry.freed_of_locked hl)⟩
    · exact ⟨rfl, he.wayBecomes_self⟩
  cases r with
  | revoke => exact ⟨rfl, removed⟩
  | demote =>
    cases o with
    | absent => exact ⟨rfl, removed⟩
    | dirty d => exact demoted _ rfl
    | clean => exact demoted _ rfl

theorem offerYielded_eq (s : State) (i : SlotId) (g : Granule) (o : YieldOutcome) :
    s.offerYielded i g o = s.setMem (s.mem.yielded g i o) := by
  cases o with
  | dirty d => exact offer_eq _
  | _ => rfl

/-- The answer of a port before it leaves the awaited set: it changes the directory and the memory controller only. -/
theorem yield_taken (he : s.EntryAt g w e) (hl : e.lock ≠ .none) (p : Port) (i : SlotId) (r : RecallKind)
    (o : YieldOutcome) :
    ∃ d, (s.yieldChange p g r o).offerYielded i g o = { s with dir := d, mem := s.mem.yielded g i o }
      ∧ s.wayBecomes { s with dir := d, mem := s.mem.yielded g i o } g w (some (e.yielded p r o)) := by
  obtain ⟨rest, way⟩ := yieldChange_spec he hl p r o
  refine ⟨(s.yieldChange p g r o).dir, ?_, wayBecomes_of_dir way rfl rfl⟩
  rw [offerYielded_eq, rest]
  rfl

/-! ### A YIELD that is matched -/

/-- The transaction of slot `i` awaits the answer of a member port to its recall of `g`, and intake takes the port's
next frame (05 R95). -/
structure State.AwaitsYield (s : State) (p : Port) (recallId : Byte) (g : Granule) (i : SlotId) (x : Txn)
    (a : Awaited) : Prop where
  receives : s.receives p
  member : s.portState p = .active ∨ s.portState p = .departing
  slot : i.val = recallId.toNat
  txn : s.txn i = some x
  awaited : x.awaited.get p = some a
  granule : x.victim.getD x.granule = g

theorem State.AwaitsYield.awaitedBy (h : s.AwaitsYield p recallId g i x a) :
    s.awaitedBy p recallId g = some (i, a) :=
  awaitedBy_eq_some.2 ⟨h.slot, x, h.txn, h.granule, h.awaited⟩

/-- The answer of a port that is timed out changes nothing (05 R105). -/
theorem State.AwaitsYield.exec_late (h : s.AwaitsYield p recallId g i x a) (ha : a.timedOut = true) (tag : Tag)
    (o : YieldOutcome) : exec (.yield p tag g recallId o) s = .next s := by
  rw [exec_yield h.receives h.member]
  unfold State.matchYield
  rw [h.awaitedBy]
  exact congrArg _ (if_pos ha)

/-- The answer of a port, with a change of the awaiting slot after which no port may leave DEPARTING or FENCING. -/
theorem State.AwaitsYield.exec_settled {y : Option Txn} (h : s.AwaitsYield p recallId g i x a)
    (ha : a.timedOut = false) (hs : s.settled)
    (ht : ((s.yieldChange p g a.kind o).offerYielded i g o).unawait i p = t) (hc : t.ctl = s.ctl)
    (hy : ∀ j, t.txn j = if j = i then y else s.txn j)
    (hkept : (∀ q, slotPort i = some q → s.portState q ≠ .departing ∧ s.portState q ≠ .fencing)
      ∨ ∃ z, y = some z ∧ (x.phase = .draining → z.phase = .draining)) (tag : Tag) :
    exec (.yield p tag g recallId o) s = .next t := by
  have settled : t.settled := settled_slot hs hc hy
    (.inr (hkept.imp_right fun ⟨z, hz, hd⟩ => .inl ⟨x, z, h.txn, hz, hd⟩))
  rw [exec_yield h.receives h.member]
  unfold State.matchYield
  rw [h.awaitedBy]
  refine congrArg _ ((if_neg (by rw [ha]; exact Bool.false_ne_true)).trans ?_)
  rw [ht, settle_of_settled settled]

/-! ### The awaited set -/

theorem noneAwaited_iff (m : PerPort (Option Awaited)) : noneAwaited m = true ↔ m = .const none := by
  obtain ⟨a, b, c, d⟩ := m
  simp [noneAwaited, PerPort.const, and_assoc]

theorem unawait_eq (hx : u.txn i = some x) (p : Port) :
    u.unawait i p = (u.setTxn i (some { x with awaited := x.awaited.set p none })).recallsEnded i := by
  unfold State.unawait State.modifyTxn
  rw [hx]

/-- While another port is awaited nothing follows (05 R99). -/
theorem recallsEnded_others (hx : u.txn i = some x) (hn : x.awaited ≠ .const none) : u.recallsEnded i = u := by
  unfold State.recallsEnded
  rw [hx]
  exact if_neg (mt (noneAwaited_iff _).1 hn)

theorem recallsEnded_recalling (hx : u.txn i = some x) (hn : x.awaited = .const none) (hp : x.phase = .recalling) :
    u.recallsEnded i = (u.setTxn i (some { x with deadline := none })).takeMemory i := by
  unfold State.recallsEnded
  rw [hx]
  dsimp only
  rw [if_pos ((noneAwaited_iff _).2 hn), hp]

theorem recallsEnded_evicting (hx : u.txn i = some x) (hn : x.awaited = .const none) (hp : x.phase = .evicting) :
    u.recallsEnded i = (u.setTxn i (some { x with deadline := none })).checkEviction i := by
  unfold State.recallsEnded
  rw [hx]
  dsimp only
  rw [if_pos ((noneAwaited_iff _).2 hn), hp]

/-- The slot after the last answer to its recalls (05 R99). -/
def Txn.answered (x : Txn) : Txn := { x with awaited := .const none, deadline := none }

/-- The slot in MEMORY (03 R50, R52). -/
def Txn.inMemory (x : Txn) : Txn :=
  { x with phase := .memory, awaited := .const none, victim := none, deadline := none }

theorem unawait_others (hx : u.txn i = some x) (hn : x.awaited.set p none ≠ .const none) :
    u.unawait i p = u.setTxn i (some { x with awaited := x.awaited.set p none }) := by
  rw [unawait_eq hx]
  exact recallsEnded_others (txn_setTxn_same u i _) hn

theorem unawait_recalling (hx : u.txn i = some x) (hn : x.awaited.set p none = .const none)
    (hp : x.phase = .recalling) : u.unawait i p = (u.setTxn i (some x.answered)).takeMemory i := by
  rw [unawait_eq hx]
  refine (recallsEnded_recalling (x := { x with awaited := x.awaited.set p none }) (txn_setTxn_same u i _) hn
    hp).trans ?_
  rw [setTxn_setTxn, hn]
  rfl

theorem unawait_evicting (hx : u.txn i = some x) (hn : x.awaited.set p none = .const none)
    (hp : x.phase = .evicting) : u.unawait i p = (u.setTxn i (some x.answered)).checkEviction i := by
  rw [unawait_eq hx]
  refine (recallsEnded_evicting (x := { x with awaited := x.awaited.set p none }) (txn_setTxn_same u i _) hn
    hp).trans ?_
  rw [setTxn_setTxn, hn]
  rfl

end Sys2Proof.Machine
end

section
/-! PROOFS. The last answer to a recalling transaction: its operation in MEMORY, or the grant of a PROMOTE. -/

namespace Sys2Proof.Machine

variable {s u : State} {p q : Port} {tag : Tag} {g : Granule} {i : SlotId} {w : Fin 8} {e : Entry} {x : Txn}
  {k : MemKind}

/-! ### The operation -/

theorem takeMemory_offers (hx : u.txn i = some x) (hk : u.ownOperation i x = some k) :
    u.takeMemory i = (u.setTxn i (some { x with phase := .memory, victim := none, deadline := none })).setMem
      (u.mem.offered ⟨k, x.granule, .slot i⟩) := by
  unfold State.takeMemory
  rw [hx]
  dsimp only
  rw [enterMemory_offers hx hk]
  rfl

/-- With no operation of its own and none outstanding the transaction is at reply time (03 R52). -/
theorem takeMemory_ends (hx : u.txn i = some x) (hk : u.ownOperation i x = none) (ho : u.outstanding i = 0) :
    u.takeMemory i = (u.setTxn i (some { x with phase := .memory, victim := none, deadline := none })).finish i := by
  unfold State.takeMemory State.finish
  rw [hx, txn_setTxn_same]
  dsimp only
  rw [enterMemory_ends hx hk ho]
  rfl

/-- The last answer takes a recalling transaction to MEMORY with its own operation (05 R99, 03 R52). -/
theorem unawait_takesMemory (hx : u.txn i = some x) (hn : x.awaited.set p none = .const none)
    (hp : x.phase = .recalling) (hk : u.ownOperation i x = some k) :
    u.unawait i p = (u.setTxn i (some x.inMemory)).setMem (u.mem.offered ⟨k, x.granule, .slot i⟩) := by
  have operation : (u.setTxn i (some x.answered)).ownOperation i x.answered = some k := hk
  rw [unawait_recalling hx hn hp, takeMemory_offers (txn_setTxn_same u i _) operation, setTxn_setTxn]
  rfl

theorem ownOperation_of_kind {kind : TxnKind} (hx : x.kind = kind) :
    s.ownOperation i x = s.ownOperation i { x with kind := kind } := by
  subst hx
  rfl

theorem pokeOperation_full (d : GranuleData) : pokeOperation d (BitVec.allOnes 64) = some (.writeFull d) :=
  (if_neg (by decide)).trans (if_pos rfl)

theorem pokeOperation_partial (d : GranuleData) {m : Mask} (h0 : m ≠ 0) (hf : m ≠ BitVec.allOnes 64) :
    pokeOperation d m = some (.writePartial d m) :=
  (if_neg h0).trans (if_neg hf)

/-- The operation of a transaction that has recalled the holders of `g` (03 R52, R61, 04 R67 to R82). -/
theorem ownOperation_recalled (he : s.EntryAt g w e)
    (hk : (x.kind = .member .readShare ∨ x.kind = .member .readOwn ∨ x.kind = .member .peek ∨ x.kind = .memPeek
            ∨ x.kind = .member .promote ∧ x.granule = g ∧ ∀ q, slotPort i = some q → e.holders.get q = false)
          ∧ k = MemKind.read
        ∨ (∃ d, (x.kind = .member (.poke d (BitVec.allOnes 64)) ∨ x.kind = .memPoke d (BitVec.allOnes 64))
          ∧ k = .writeFull d)
        ∨ (∃ d m, (x.kind = .member (.poke d m) ∨ x.kind = .memPoke d m) ∧ m ≠ 0 ∧ m ≠ BitVec.allOnes 64
          ∧ k = .writePartial d m)
        ∨ (∃ b, x.kind = .member (.atomic b) ∧ k = .atomicRmw b)) : s.ownOperation i x = some k := by
  rcases hk with ⟨h | h | h | h | ⟨h, hg, hq⟩, rfl⟩ | ⟨d, h | h, rfl⟩ | ⟨d, m, h | h, h0, hf, rfl⟩ | ⟨b, h, rfl⟩
  · exact ownOperation_of_kind h
  · exact ownOperation_of_kind h
  · exact ownOperation_of_kind h
  · exact ownOperation_of_kind h
  · exact ownOperation_request h (fun _ hr => nomatch hr) (fun _ q hi => by rw [hg, he.holds, hq q hi])
      (.inl ⟨.inr (.inr (.inl rfl)), rfl⟩)
  · exact (ownOperation_of_kind h).trans (pokeOperation_full d)
  · exact (ownOperation_of_kind h).trans (pokeOperation_full d)
  · exact (ownOperation_of_kind h).trans (pokeOperation_partial d h0 hf)
  · exact (ownOperation_of_kind h).trans (pokeOperation_partial d h0 hf)
  · exact ownOperation_of_kind h

/-! ### The grant of a PROMOTE -/

/-- A slot alone in its chain is freed (03 R55). -/
theorem freeHead_alone (hw : Sparse.wf [] u.table.chains) (hc : u.chain g = [i]) :
    u.slotBecomes (u.freeHead i g) i none ∧ u.chainBecomes (u.freeHead i g) g [] := by
  have left : ((u.setTxn i none).chain g).erase i = [] := by
    change (u.chain g).erase i = []
    rw [hc]
    simp
  unfold State.freeHead State.leaveChain
  rw [left]
  exact ⟨⟨fun j => txn_setTxn u i j none, rfl⟩, chain_setChain (s := u.setTxn i none) hw g []⟩

/-- GRANT OWNER recorded, and the lock released (02 R34). -/
theorem State.EntryAt.grantOwner (he : s.EntryAt g w e) (hl : e.lock = .busy i) (q : Port) :
    s.wayBecomes (s.changeEntry g (.grantOwner q i)) g w
      (some { e with mode := .owner, holders := (PerPort.const false).set q true, lock := .none }) := by
  have after : e.apply (.grantOwner q i)
      = { e with mode := .owner, holders := (PerPort.const false).set q true, lock := .none } := by
    simp only [Entry.apply, Lock.release, hl, true_or, if_true]
  have way := he.wayBecomes_change (c := .grantOwner q i) (Entry.freed_of_held (q := q) (PerPort.get_set_same _ q true))
  rwa [after] at way

/-- Reply time of a PROMOTE without data, while its port is active and has its right (04 R72). -/
theorem endTxn_promote (hx : u.txn i = some x) (hk : x.kind = .member .promote) (hg : x.granule = g)
    (hr : x.result = .none) (hi : slotPort i = some q) (ht : slotTag i = tag) (hact : u.portState q = .active)
    (hright : (u.right q g).covers .write = true) (hl : (u.ifaces.get q).linkUp = true) :
    u.endTxn i
      = ((u.queued q (.grant tag g .owner none x.poisonSeen)).changeEntry g (.grantOwner q i)).freeHead i g := by
  rw [endTxn_member hx hk hi, replyOf_promote hg ht hact hright, hr, hg,
    send_eq_queued hl (isFenced_of_member (.inl hact))]
  rfl

/-- The last answer to a PROMOTE, alone in its chain, whose port is still a holder: it ends with its grant (04 R72). -/
theorem unawait_grants (hx : u.txn i = some x) (hn : x.awaited.set p none = .const none) (hp : x.phase = .recalling)
    (hk : x.kind = .member .promote) (hg : x.granule = g) (hr : x.result = .none) (ho : u.outstanding i = 0)
    (hw : Sparse.wf [] u.table.chains) (hc : u.chain g = [i]) (he : u.EntryAt g w e) (hlock : e.lock = .busy i)
    (htag : tag.toNat < 12) (hi : i.val = 12 * q.number + tag.toNat) (hq : e.holders.get q = true)
    (hact : u.portState q = .active) (hright : (u.right q g).covers .write = true)
    (hl : (u.ifaces.get q).linkUp = true) :
    ∃ t, u.unawait i p = t
      ∧ t = { u.queued q (.grant tag g .owner none x.poisonSeen) with table := t.table, dir := t.dir }
      ∧ u.slotBecomes t i none ∧ u.chainBecomes t g []
      ∧ u.wayBecomes t g w
        (some { e with mode := .owner, holders := (PerPort.const false).set q true, lock := .none }) := by
  have port : slotPort i = some q := slotPort_of htag hi
  have notSweep : i ≠ sweepSlot := by
    rintro rfl
    cases port
  let memory := u.setTxn i (some x.inMemory)
  let answered := memory.queued q (.grant tag g .owner none x.poisonSeen)
  let granted := answered.changeEntry g (.grantOwner q i)
  have slot : memory.txn i = some x.inMemory := txn_setTxn_same u i _
  have ended : memory.endTxn i = granted.freeHead i g :=
    endTxn_promote (x := x.inMemory) slot hk hg hr port (slotTag_of htag hi) hact hright hl
  have noRead : (u.setTxn i (some x.answered)).ownOperation i x.answered = none :=
    ownOperation_holder hk port (by
      change u.holds q x.granule = true
      rw [hg, he.holds, hq])
  obtain ⟨⟨slots, limit⟩, chains⟩ := freeHead_alone (u := granted) (g := g) (i := i) hw hc
  have finished : u.unawait i p = granted.freeHead i g := by
    rw [unawait_recalling hx hn hp, takeMemory_ends (txn_setTxn_same u i _) noRead ho, setTxn_setTxn, ← ended]
    refine finish_alone (u := memory) slot hg notSweep ?_
    rw [ended, chains g, if_pos rfl]
  refine ⟨_, finished, rfl, ⟨fun j => (slots j).trans ?_, limit⟩, chains,
    wayBecomes_of_dir ((he.of_dir (t := answered) rfl).grantOwner hlock q) rfl rfl⟩
  change (if j = i then none else memory.txn j) = _
  rw [txn_setTxn]
  split <;> rfl

end Sys2Proof.Machine
end

section
/-! PROOFS. The last answer to an evicting transaction, and the YIELDs that a slot awaits as a whole. -/

namespace Sys2Proof.Machine

variable {s t u : State} {p : Port} {g g' : Granule} {i : SlotId} {w : Fin 8} {e f : Entry} {x : Txn}

/-! ### The victim's way -/

theorem State.NoEntry.rewritten (hn : s.NoEntry g') (hb : s.wayBecomes t g w (some f)) (hf : f.granule ≠ g') :
    t.NoEntry g' := by
  intro v e hv
  rw [hb] at hv
  split at hv
  · rcases DirSet.get_put hv with ⟨-, rfl⟩ | ⟨-, hv⟩
    · exact hf
    · exact hn v e hv
  · exact hn v e hv

/-- The victim's way passes to a granule of the same set without entry (02 R32). -/
theorem replaceVictim_eq (he : u.EntryAt g w e) (hn : u.NoEntry g') (hs : setOf g' = setOf g) (i : SlotId) :
    u.replaceVictim g g' i = u.setDirSet (setOf g) (((u.dirSet (setOf g)).free w).allocate w g' i) := by
  have free : (u.dirSet (setOf g)).wayOf g' = none := hs ▸ hn.wayOf
  unfold State.replaceVictim
  dsimp only
  rw [he.wayOf, free]
  exact if_pos hs

/-- The set after the victim's way has passed on: the way is the last in the allocation order (02 R28, R32). -/
theorem DirSet.free_allocate (d : DirSet) (w : Fin 8) (g' : Granule) (i : SlotId) :
    (d.free w).allocate w g' i
      = ⟨d.ways.set w.val (some (newEntry g' i)) w.isLt, (d.order.filter fun v => v != w) ++ [w]⟩ := by
  unfold DirSet.allocate DirSet.put DirSet.free
  simp only [Vector.set_set]

theorem replaceVictim_dirSet (he : u.EntryAt g w e) (hn : u.NoEntry g') (hs : setOf g' = setOf g) (i : SlotId)
    (k : Nat) :
    (u.replaceVictim g g' i).dirSet k
      = if k = setOf g then
          ⟨(u.dirSet k).ways.set w.val (some (newEntry g' i)) w.isLt,
            ((u.dirSet k).order.filter fun v => v != w) ++ [w]⟩
        else u.dirSet k := by
  have filled : (((u.dirSet (setOf g)).free w).allocate w g' i).ways.get w = some (newEntry g' i) := by
    rw [DirSet.free_allocate]
    exact (getElem_ways_set _ w w _).trans (if_pos rfl)
  rw [replaceVictim_eq he hn hs, dirSet_setDirSet_of_ne (DirSet.ne_empty_of_way filled), DirSet.free_allocate]
  split
  · rename_i hk
    rw [hk]
  · rfl

/-- The requester's granule has its entry in the victim's way. -/
theorem replaceVictim_entryAt (he : u.EntryAt g w e) (hn : u.NoEntry g') (hs : setOf g' = setOf g) (i : SlotId) :
    (u.replaceVictim g g' i).EntryAt g' w (newEntry g' i) := by
  have ways : ∀ v, ((u.replaceVictim g g' i).dirSet (setOf g')).ways.get v
      = if v = w then some (newEntry g' i) else (u.dirSet (setOf g')).ways.get v := fun v => by
    rw [replaceVictim_dirSet he hn hs, if_pos hs]
    exact getElem_ways_set _ w v _
  refine ⟨(ways w).trans (if_pos rfl), rfl, fun v f hv hf => ?_⟩
  rw [ways] at hv
  split at hv
  · assumption
  · exact absurd hf (hn v f hv)

/-! ### The end of an eviction -/

/-- Neither the service slot nor the walk waits for the evicting lock of `g` (02 R26). -/
theorem heldBack_nil (hy : ∀ y, u.txn serviceSlot = some y → y.phase ≠ .waiting ∨ y.granule ≠ g)
    (hp : u.sweep.walk.pause ≠ .evicting) : u.heldBack g = [] := by
  have service : u.serviceHeldBack g = false := by
    unfold State.serviceHeldBack
    cases hx : u.txn serviceSlot with
    | none => rfl
    | some y => rcases hy y hx with h | h <;> simp [h]
  have walk : u.walkHeldBack g = false := by
    unfold State.walkHeldBack
    simp [hp]
  unfold State.heldBack
  rw [service, walk]
  rfl

/-- The eviction of a victim without holders completes when nobody is awaited (02 R32). -/
theorem checkEviction_completes (hx : u.txn i = some x) (hp : x.phase = .evicting) (hv : x.victim = some g)
    (ha : x.awaited = .const none) (he : u.EntryAt g w e) (hn : e.holders = .const false) :
    u.checkEviction i = u.completeEviction i := by
  have unheld : u.unheld g = true := by
    unfold State.unheld
    rw [he.entry]
    exact (noMember_iff _).2 hn
  unfold State.checkEviction
  rw [hx]
  dsimp only
  rw [hp, hv]
  exact if_pos (by rw [(noneAwaited_iff _).2 ha, unheld]; rfl)

/-- The completion of an eviction that nobody waits for: the way passes on, and the READ is offered (02 R32, 03 R50). -/
theorem completeEviction_alone (hx : u.txn i = some x) (hv : x.victim = some g) (hheld : u.heldBack g = [])
    (he : u.EntryAt g w e) (hn : u.NoEntry x.granule) (hs : setOf x.granule = setOf g)
    (hk : x.kind = .member .readShare ∨ x.kind = .member .readOwn ∨ x.kind = .member .promote) :
    u.completeEviction i
      = { u with
          table := (u.setTxn i (some { x with phase := .memory, victim := none, deadline := none })).table
          dir := (u.replaceVictim g x.granule i).dir
          mem := u.mem.offered ⟨.read, x.granule, .slot i⟩ } := by
  let y : Txn := { x with phase := .memory, victim := none, deadline := none }
  let r := u.replaceVictim g x.granule i
  have replaced : r = { u with dir := r.dir } :=
    congrArg (fun v : State => { v with dir := r.dir }) (replaceVictim_eq he hn hs i)
  have slot : r.txn i = some x := (congrArg (State.txn · i) replaced).trans hx
  have entry : (r.setTxn i (some y)).EntryAt x.granule w (newEntry x.granule i) :=
    (replaceVictim_entryAt he hn hs i).of_dir rfl
  have reads : (r.setTxn i (some y)).ownOperation i y = some .read := by
    refine ownOperation_recalled entry (.inl ⟨?_, rfl⟩)
    rcases hk with h | h | h
    · exact .inl h
    · exact .inr (.inl h)
    · exact .inr (.inr (.inr (.inr ⟨h, rfl, fun q _ => PerPort.get_const false q⟩)))
  have placed : r.modifyTxn i (fun t => { t with phase := .memory, victim := none, deadline := none })
      = r.setTxn i (some y) := by
    unfold State.modifyTxn
    rw [slot]
  unfold State.completeEviction
  rw [hx]
  dsimp only
  rw [hv]
  dsimp only
  rw [hheld, placed]
  change ((r.setTxn i (some y)).enterMemory i).1 = _
  rw [enterMemory_offers (txn_setTxn_same r i _) reads, setTxn_setTxn, replaced]
  rfl

/-- The last holder of a victim answers: the eviction completes, and the transaction takes MEMORY (05 R99, 02 R32). -/
theorem unawait_evicts (hx : u.txn i = some x) (hlast : x.awaited.set p none = .const none) (hp : x.phase = .evicting)
    (hv : x.victim = some g) (he : u.EntryAt g w e) (hh : e.holders = .const false) (hn : u.NoEntry x.granule)
    (hs : setOf x.granule = setOf g)
    (hk : x.kind = .member .readShare ∨ x.kind = .member .readOwn ∨ x.kind = .member .promote)
    (hy : ∀ y, u.txn serviceSlot = some y → y.phase ≠ .waiting ∨ y.granule ≠ g) (hw : u.sweep.walk.pause ≠ .evicting) :
    u.unawait i p
      = { u with
          table := (u.setTxn i (some x.inMemory)).table
          dir := (u.replaceVictim g x.granule i).dir
          mem := u.mem.offered ⟨.read, x.granule, .slot i⟩ } := by
  let b := u.setTxn i (some x.answered)
  have slot : b.txn i = some x.answered := txn_setTxn_same u i _
  have entry : b.EntryAt g w e := he.of_dir rfl
  have noEntry : b.NoEntry x.granule := hn.of_dir rfl
  have sameDir : (b.replaceVictim g x.granule i).dir = (u.replaceVictim g x.granule i).dir := by
    rw [replaceVictim_eq entry noEntry hs, replaceVictim_eq he hn hs]
    rfl
  have held : b.heldBack g = [] := by
    refine heldBack_nil (fun y h => ?_) hw
    rw [txn_setTxn] at h
    split at h
    · obtain rfl : x.answered = y := Option.some.inj h
      exact .inl fun hwaiting => nomatch hp.symm.trans hwaiting
    · exact hy y h
  rw [unawait_evicting hx hlast hp, checkEviction_completes slot hp hv rfl entry hh,
    completeEviction_alone slot hv held entry noEntry hs hk, setTxn_setTxn]
  exact congrArg (fun d => { u with
    table := (u.setTxn i (some x.inMemory)).table, dir := d, mem := u.mem.offered ⟨.read, x.granule, .slot i⟩ }) sameDir

/-! ### The YIELDs that a slot awaits -/

/-- Settles O38: the YIELD rewrites the recalled entry and offers its data; what follows goes by the awaited set and the
phase, and leaves no port that the tests of R141 and R147 would let go. -/
theorem matchedYieldsAreTaken : Obligations.MatchedYieldsAreTaken := by
  intro p tag g recallId o i x a s hs hcan hr hm hi hx ha hg
  have awaits : s.AwaitsYield p recallId g i x a := ⟨hr, hm, hi, hx, ha, hg⟩
  refine ⟨fun late => awaits.exec_late late tag o, fun w e intime he hl => ?_⟩
  intro left written rest
  obtain ⟨-, -, -, hchains, -⟩ := hcan
  obtain ⟨d, taken, way⟩ : ∃ d, (s.yieldChange p g a.kind o).offerYielded i g o = { s with dir := d, mem := written }
      ∧ s.wayBecomes { s with dir := d, mem := written } g w (some left) := yield_taken he hl p i a.kind o
  have granule : left.granule = g := (e.yielded_granule p a.kind o).trans he.granule
  have lock : left.lock = e.lock := e.yielded_lock p a.kind o
  generalize left = f at *
  let u : State := { s with dir := d, mem := written }
  have entry : u.EntryAt g w f := he.rewritten way granule
  have slots : ∀ y j, (u.setTxn i y).txn j = if j = i then y else s.txn j := fun y j => txn_setTxn u i j y
  have unawaited : ∀ {t}, u.unawait i p = t → ((s.yieldChange p g a.kind o).offerYielded i g o).unawait i p = t :=
    fun ht => taken ▸ ht
  refine ⟨fun others => ?_, fun last recalling k hk => ?_,
    fun last recalling hkind hgranule hresult hbusy clean idle alone q c hc hslot hheld hact hright hlink => ?_,
    fun last evicting hv hnone hkind hset hentry hservice hwalk => ?_⟩
  · have ended := unawait_others (u := u) hx others
    exact ⟨_, awaits.exec_settled intime hs (unawaited ended) rfl (slots _) (.inr ⟨_, rfl, id⟩) tag, rfl,
      ⟨slots _, rfl⟩, wayBecomes_of_dir way rfl rfl⟩
  · have ended := unawait_takesMemory (u := u) hx last recalling (ownOperation_recalled entry hk)
    exact ⟨_, awaits.exec_settled intime hs (unawaited ended) rfl (slots _)
      (.inr ⟨_, rfl, fun hd => nomatch recalling.symm.trans hd⟩) tag, rfl, ⟨slots _, rfl⟩,
      wayBecomes_of_dir way rfl rfl⟩
  · have unwritten : written = s.mem := by
      cases o with
      | dirty d => exact absurd rfl (clean d)
      | _ => rfl
    have nothing : u.outstanding i = 0 :=
      (congrArg (fun m => State.outstanding { s with mem := m } i) unwritten).trans idle
    obtain ⟨t, ended, same, slot, chain, ways⟩ := unawait_grants (u := u) hx last recalling hkind hgranule hresult
      nothing hchains alone entry (lock.trans hbusy) hc hslot hheld hact hright hlink
    have port : ∀ b, slotPort i = some b → s.portState b ≠ .departing ∧ s.portState b ≠ .fencing := fun b hb => by
      obtain rfl : q = b := Option.some.inj ((slotPort_of hc hslot).symm.trans hb)
      simp [hact]
    have both := way.trans ways
    rw [granule.trans he.granule.symm] at both
    rw [queued_of_eq (s := s) (a := s.table) (b := d) (m := written) rfl, unwritten] at same
    exact ⟨t, awaits.exec_settled intime hs (unawaited ended) (congrArg State.ctl same :) slot.1 (.inl port) tag, same,
      slot, chain, both⟩
  · have granules : f.granule ≠ x.granule := fun h => hentry w e (hset ▸ he.1) (he.granule.trans (granule.symm.trans h))
    have noEntry : u.NoEntry x.granule := hentry.rewritten way granules
    have ended := unawait_evicts (u := u) hx last evicting hv entry hnone noEntry hset hkind hservice hwalk
    refine ⟨_, awaits.exec_settled intime hs (unawaited ended) rfl (slots _)
      (.inr ⟨_, rfl, fun hd => nomatch evicting.symm.trans hd⟩) tag, rfl, ⟨slots _, rfl⟩, fun k => ?_⟩
    refine (replaceVictim_dirSet entry noEntry hset i k).trans ?_
    rw [show u.dirSet k = _ from way k]
    split
    · simp only [Vector.set_set, if_neg (Option.some_ne_none f)]
      rfl
    · rfl

end Sys2Proof.Machine
end

section
/-! PROOFS. The window table: the right of a port for a granule, and SET_WINDOW from the service port and from a member. -/

namespace Sys2Proof.Machine

variable {s : State} {p : Port} {g base limit : Granule} {index : Byte} {k : Fin 8}

/-! ### The covering window -/

/-- A window is valid and covers the granule (06 R115). -/
def Window.Covers (w : Window) (g : Granule) : Prop := w.valid = true ∧ w.base ≤ g ∧ g ≤ w.limit

/-- The test that `State.coveringWindow` makes of a window. -/
theorem Window.covers_iff (w : Window) (g : Granule) : (w.valid && w.base ≤ g && g ≤ w.limit) = true ↔ w.Covers g := by
  simp only [Window.Covers, Bool.and_eq_true, decide_eq_true_eq, and_assoc]

theorem coveringWindow_eq_some (covers : (s.windows.get k).Covers g)
    (first : ∀ j, j < k → ¬(s.windows.get j).Covers g) : s.coveringWindow g = some (s.windows.get k) := by
  refine List.find?_eq_some_iff_getElem.2 ⟨(Window.covers_iff _ g).2 covers, k.val, by simp, rfl, fun j hj => ?_⟩
  have misses := mt (Window.covers_iff _ g).1 (first ⟨j, hj.trans k.isLt⟩ hj)
  exact congrArg not (Bool.eq_false_of_not_eq_true misses)

theorem coveringWindow_eq_none (none_covers : ∀ k, ¬(s.windows.get k).Covers g) : s.coveringWindow g = none := by
  refine List.find?_eq_none.2 fun w hw => mt (Window.covers_iff w g).1 ?_
  obtain ⟨k, hk, rfl⟩ := Vector.mem_iff_getElem.1 (Vector.mem_toList_iff.1 hw)
  exact none_covers ⟨k, hk⟩

/-- Settles O30: the right is read from the covering window, which the search of the table finds. -/
theorem rightIsTheFirstCoveringWindows : Obligations.RightIsTheFirstCoveringWindows := by
  intro s p g
  refine ⟨fun k covers first => ?_, fun none_covers => ?_⟩
  · unfold State.right
    rw [coveringWindow_eq_some covers first]
  · unfold State.right
    rw [coveringWindow_eq_none none_covers]

/-! ### The arguments of SET_WINDOW -/

/-- A SET_WINDOW in range names the entry of its index (06 R119). -/
theorem judgeWindow_eq_some (hi : k.val = index.toNat) (hb : base ≤ limit) (hl : limit.toNat < s.mem.granuleCount) :
    s.judgeWindow index base limit = some k := by
  unfold State.judgeWindow
  rw [dif_pos (hi ▸ k.isLt), if_pos ⟨hb, hl⟩]
  exact congrArg some (Fin.ext hi.symm)

/-- A SET_WINDOW out of range names no entry (06 R119). -/
theorem judgeWindow_eq_none (h : ¬(index.toNat < 8 ∧ base ≤ limit ∧ limit.toNat < s.mem.granuleCount)) :
    s.judgeWindow index base limit = none := by
  unfold State.judgeWindow
  split
  · exact if_neg fun range => h ⟨‹_›, range⟩
  · rfl

/-- The right of the `n`-th pair of bits of a rights byte (09 R185, 10 R198). -/
def rightAt (rights : Byte) (n : Nat) : Right :=
  if rights.getLsbD (2 * n + 1) then .write else if rights.getLsbD (2 * n) then .read else .none

theorem rightOfBits_eq (rights : Byte) (n : Nat) : rightOfBits (rights.extractLsb' (2 * n) 2) = rightAt rights n := by
  simp [rightOfBits, rightAt]

theorem windowOf_eq (valid : Byte) (base limit : Granule) (rights : Byte) :
    windowOf valid base limit rights
      = ⟨valid != 0, base, limit, ⟨rightAt rights 0, rightAt rights 1, rightAt rights 2, rightAt rights 3⟩⟩ := by
  simp only [← rightOfBits_eq]
  rfl

/-! ### The entry replaced -/

/-- The sweep engine after a RECHECK request: the job joins the tail unless one waits there, and in an empty queue its
walk starts (06 R122, 08 R159). -/
def Sweep.withRecheck (w : Sweep) : Sweep :=
  { w with
    jobs := if Job.recheck ∈ w.jobs.tail then w.jobs else w.jobs ++ [.recheck]
    walk := if w.jobs = [] then .start else w.walk }

theorem requestRecheck_eq (s : State) : s.requestRecheck = s.setSweep s.sweep.withRecheck := by
  unfold State.requestRecheck State.queueJob Sweep.withRecheck
  cases hj : s.sweep.jobs with
  | nil => rfl
  | cons job rest =>
    rw [if_neg (List.cons_ne_nil job rest)]
    split
    · rw [← hj]; rfl
    · rfl

theorem replaceWindow_eq (s : State) (k : Fin 8) (w : Window) :
    s.replaceWindow k w = { s with windows := s.windows.set k.val w k.isLt, sweep := s.sweep.withRecheck } :=
  requestRecheck_eq _

/-! ### The answers -/

theorem queued_iface (s : State) (p q : Port) (f : HubFrame) :
    (s.queued p f).ifaces.get q
      = { s.ifaces.get q with outq := (s.ifaces.get q).outq ++ if q = p then [f] else [] } := by
  refine (PerPort.get_set s.ifaces p q _).trans ?_
  split
  · subst q; rfl
  · rw [List.append_nil]

/-- A CONTROL frame of a member comes to the grant check (09 R188, R193). -/
theorem exec_control (hr : s.receives p) (hm : s.portState p = .active ∨ s.portState p = .departing) (g : Granule)
    (b : ControlBlock) : exec (.control p g b) s = .next (s.controlJudged p g b) := by
  refine (exec_takes hr (.control g b)).trans (congrArg _ ?_)
  unfold State.takeFrame
  rw [isFenced_of_member hm]
  exact if_pos (isMember_of hm)

/-- Code 9 of a granted member is SET_WINDOW (09 R185, R193). -/
theorem controlJudged_setWindow {b : ControlBlock} (hg : (s.ctl.ports.get p).controlGrant = true)
    (hc : b.code.toNat = 9) (g : Granule) : s.controlJudged p g b = s.controlWindow p g b := by
  have command : controlCommand b.code = some .setWindow := by
    unfold controlCommand
    rw [hc]
    rfl
  unfold State.controlJudged
  rw [hg, command]
  rfl

/-- What the link of a port is told of a write to entry `k` (06 R120 step 3, R121). -/
def State.windowNotice (s : State) (k : Fin 8) (q : Port) : List HubFrame :=
  if s.portState q = .active ∧ (s.ifaces.get q).linkUp = true then [.notice (.rightsChanged k) s.ctl.epoch] else []

theorem announceWindow_spec (s : State) (k : Fin 8) :
    s.announceWindow k = { s with ifaces := (s.announceWindow k).ifaces }
      ∧ ∀ q, (s.announceWindow k).ifaces.get q =
        { s.ifaces.get q with outq := (s.ifaces.get q).outq ++ s.windowNotice k q } :=
  sendNotice_active (.rightsChanged k)

/-- SET_WINDOW from the service port, in range: the notices, and the answer of the transfer (06 R120). -/
theorem serviceWindow_spec (hj : s.judgeWindow index base limit = some k) (valid rights : Byte) :
    let u := s.replaceWindow k (windowOf valid base limit rights)
    ∃ t, s.serviceWindow index valid base limit rights = t ∧ t = { u.responding [0] with ifaces := t.ifaces }
      ∧ ∀ q, t.ifaces.get q = { u.ifaces.get q with outq := (u.ifaces.get q).outq ++ u.windowNotice k q } := by
  intro u
  obtain ⟨rest, links⟩ := announceWindow_spec u k
  refine ⟨(u.announceWindow k).responding [0], ?_, congrArg (State.responding · [0]) rest, links⟩
  unfold State.serviceWindow
  rw [hj]
  rfl

/-- SET_WINDOW from a member, in range: the ACK on its link, and the notices behind it (06 R120). -/
theorem controlWindow_spec {b : ControlBlock} (hj : s.judgeWindow b.arg b.base (ControlBlock.limit b) = some k)
    (hl : (s.ifaces.get p).linkUp = true) (hm : s.portState p = .active ∨ s.portState p = .departing) (g : Granule) :
    let u := s.replaceWindow k (windowOf b.valid b.base (ControlBlock.limit b) (ControlBlock.rights b))
    ∃ t, s.controlWindow p g b = t ∧ t = { u with ifaces := t.ifaces }
      ∧ ∀ q, t.ifaces.get q = { u.ifaces.get q with
        outq := (u.ifaces.get q).outq ++ (if q = p then [.ack 14 0 .ok (.value 0) false] else [])
          ++ u.windowNotice k q } := by
  intro u
  have same : u = _ := replaceWindow_eq s k _
  let acked := u.queued p (.ack 14 0 .ok (.value 0) false)
  have ack : u.controlAck p 0 = acked :=
    send_eq_queued (by rw [same]; exact hl) (by rw [same]; exact isFenced_of_member hm) _
  obtain ⟨rest, links⟩ := announceWindow_spec acked k
  have told : ∀ q, acked.windowNotice k q = u.windowNotice k q := fun q => by
    unfold State.windowNotice
    rw [queued_iface]
    rfl
  refine ⟨acked.announceWindow k, ?_, rest, fun q => ?_⟩
  · unfold State.controlWindow
    rw [hj, ← ack]
  · rw [links q, told, queued_iface]

/-! ### SET_WINDOW -/

/-- Settles O49: from either source the range of the arguments decides; in range the entry is replaced, the sender
answered and the ports in ACTIVE told. -/
theorem setWindowReplacesTheEntry : Obligations.SetWindowReplacesTheEntry := by
  intro index valid base limit rights s right jobs sweep inRange told changed
  have replaced : ∀ k, s.replaceWindow k (windowOf valid base limit rights) = changed k := fun k => by
    rw [replaceWindow_eq, windowOf_eq]
    rfl
  refine ⟨fun serves => ?_, ?_⟩
  · have taken : exec (.setWindow index valid base limit rights) s
        = .next (s.serviceWindow index valid base limit rights) := transfer_serves serves _
    rw [taken]
    refine ⟨fun out => ?_, fun ⟨_, ordered, installed⟩ k hk => ?_⟩
    · unfold State.serviceWindow
      rw [judgeWindow_eq_none out]
      rfl
    · obtain ⟨t, ends, rest, links⟩ := serviceWindow_spec (judgeWindow_eq_some hk ordered installed) valid rights
      rw [replaced] at rest links
      exact ⟨t, congrArg _ ends, rest, links⟩
  · rintro p g b receives member grant code rfl rfl rfl rfl rfl
    have taken : exec (.control p g b) s = .next (s.controlWindow p g b) := by
      rw [exec_control receives member, controlJudged_setWindow grant code]
    have up : (s.ifaces.get p).linkUp = true := receives.2.1
    rw [taken]
    refine ⟨fun out => ?_, fun ⟨_, ordered, installed⟩ k hk => ?_⟩
    · unfold State.controlWindow
      rw [show s.judgeWindow b.arg b.base (ControlBlock.limit b) = none from judgeWindow_eq_none out]
      exact congrArg _ (send_eq_queued up (isFenced_of_member member) _)
    · obtain ⟨t, ends, rest, links⟩ := controlWindow_spec (judgeWindow_eq_some hk ordered installed) up member g
      rw [show State.replaceWindow s k (windowOf b.valid b.base (ControlBlock.limit b) (ControlBlock.rights b))
        = changed k from replaced k] at rest links
      exact ⟨t, congrArg _ ends, rest, links⟩

end Sys2Proof.Machine
end

section
/-! PROOFS. The laws of the port records and the tests of R141 and R147, of every step: which changes leave the port
records and the member slots alone, and what each command does to them. -/

namespace Sys2Proof.Machine

variable {s t u : State} {p : Port} {i : SlotId} {g : Granule}

/-! ### Changes that leave the ports and their slots alone -/

/-- From `s` to `t` the port records stay, every member slot keeps its phase, and the hub does not return to
initialization. -/
structure Calm (s t : State) : Prop where
  ports : t.ctl.ports = s.ctl.ports
  hub : t.svc.hubState = .initializing → s.svc.hubState = .initializing
  slots : ∀ i p, slotPort i = some p → (t.txn i).map Txn.phase = (s.txn i).map Txn.phase

theorem Calm.refl (s : State) : Calm s s := ⟨rfl, id, fun _ _ _ => rfl⟩

theorem Calm.trans (h : Calm s t) (k : Calm t u) : Calm s u :=
  ⟨k.ports.trans h.ports, fun hu => h.hub (k.hub hu), fun i p hi => (k.slots i p hi).trans (h.slots i p hi)⟩

theorem Calm.portState (h : Calm s t) (p : Port) : t.portState p = s.portState p :=
  congrArg (fun m => (PerPort.get m p).state) h.ports

theorem calm_foldl {α : Type} {f : State → α → State} (hf : ∀ s a, Calm s (f s a)) (l : List α) :
    ∀ s, Calm s (l.foldl f s) := by
  induction l with
  | nil => exact Calm.refl
  | cons a l ih => exact fun s => (hf s a).trans (ih (f s a))

theorem send_calm (s : State) (p : Port) (f : HubFrame) : Calm s (s.send p f) := by
  unfold State.send
  dsimp only
  split <;> exact ⟨rfl, id, fun _ _ _ => rfl⟩

theorem sendNotice_calm (s : State) (ps : List Port) (n : Notice) : Calm s (s.sendNotice ps n) :=
  calm_foldl (fun s p => send_calm s p _) ps s

theorem offer_calm (s : State) (op : MemOp) : Calm s (s.offer op) := by
  unfold State.offer
  split <;> exact ⟨rfl, id, fun _ _ _ => rfl⟩

theorem changeEntry_calm (s : State) (g : Granule) (c : EntryChange) : Calm s (s.changeEntry g c) :=
  ⟨rfl, id, fun _ _ _ => rfl⟩

theorem raise_calm (s : State) (e : Event) : Calm s (s.raise e) := ⟨rfl, id, fun _ _ _ => rfl⟩

theorem setPause_calm (s : State) (w : Pause) : Calm s (s.setPause w) := ⟨rfl, id, fun _ _ _ => rfl⟩

theorem protocolError_calm (s : State) (p : Port) : Calm s (s.protocolError p) := ⟨rfl, id, fun _ _ _ => rfl⟩

theorem respond_calm (s : State) (r : Option Reason) (d : List Byte) : Calm s (s.respond r d) :=
  ⟨rfl, id, fun _ _ _ => rfl⟩

theorem setTxn_calm (hi : slotPort i = none) (x : Option Txn) : Calm s (s.setTxn i x) :=
  ⟨rfl, id, fun j p hj => by rw [txn_setTxn_other s x (fun e => by rw [e, hi] at hj; cases hj)]⟩

theorem queueJob_calm (s : State) (j : Job) : Calm s (s.queueJob j) := by
  unfold State.queueJob
  split <;> exact ⟨rfl, id, fun _ _ _ => rfl⟩

theorem requestRecheck_calm (s : State) : Calm s s.requestRecheck := by
  unfold State.requestRecheck
  split
  · exact .refl s
  · exact queueJob_calm s _

theorem moveOn_calm (s : State) : Calm s s.moveOn := by
  unfold State.moveOn State.completeJob
  split
  · exact ⟨rfl, id, fun _ _ _ => rfl⟩
  · split <;> exact ⟨rfl, id, fun _ _ _ => rfl⟩

/-! ### The sweep slot and the service slot -/

theorem modifyTxn_calm (hi : slotPort i = none) (s : State) (f : Txn → Txn) : Calm s (s.modifyTxn i f) := by
  unfold State.modifyTxn
  split
  · exact .refl s
  · exact setTxn_calm hi _

theorem freeHead_calm (hi : slotPort i = none) (s : State) (g : Granule) : Calm s (s.freeHead i g) :=
  (setTxn_calm hi none).trans ⟨rfl, id, fun _ _ _ => rfl⟩

theorem dropFencedHolders_calm (hi : slotPort i = none) (s : State) (g : Granule) (own : Bool) :
    Calm s (s.dropFencedHolders g i own) := by
  refine calm_foldl (fun s p => ?_) Port.all s
  unfold State.dropFencedHolder
  split
  · refine Calm.trans ?_ (changeEntry_calm _ _ _)
    split
    · exact (offer_calm s _).trans (modifyTxn_calm hi _ _)
    · exact .refl s
  · exact .refl s

theorem issueRecalls_calm (hi : slotPort i = none) (s : State) (g : Granule) (rs : List (Port × RecallKind)) :
    Calm s (s.issueRecalls i g rs) :=
  (calm_foldl (fun s _ => send_calm s _ _) rs s).trans (modifyTxn_calm hi _ _)

theorem endTxn_calm (hi : slotPort i = none) (s : State) : Calm s (s.endTxn i) := by
  have unlocked : ∀ (u : State) (g : Granule), Calm s u → Calm s ((u.changeEntry g (.unlock i)).freeHead i g) :=
    fun u g h => (h.trans (changeEntry_calm u g _)).trans (freeHead_calm hi _ g)
  have result : ∀ r, Calm s (s.setResult r) := fun _ => ⟨rfl, id, fun _ _ _ => rfl⟩
  unfold State.endTxn
  split
  · exact .refl s
  · rw [hi]
    dsimp only
    split
    · exact unlocked s _ (.refl s)
    · exact unlocked _ _ (result _)
    · exact unlocked _ _ (result _)
    all_goals exact unlocked s _ (.refl s)

theorem enterMemory_calm (hi : slotPort i = none) (s : State) : Calm s (s.enterMemory i).1 := by
  unfold State.enterMemory
  split
  · exact .refl s
  · rename_i x _
    have taken := setTxn_calm (s := s) hi (some { x with phase := .memory, victim := none, deadline := none })
    dsimp only
    split <;> split
    · exact (taken.trans (offer_calm _ _)).trans (endTxn_calm hi _)
    · exact taken.trans (offer_calm _ _)
    · exact taken.trans (endTxn_calm hi _)
    · exact taken

theorem recallPhase_calm (hi : slotPort i = none) (s : State) : Calm s (s.recallPhase i).1 := by
  unfold State.recallPhase
  split
  · exact .refl s
  · rename_i x _
    have dropped := dropFencedHolders_calm hi s x.granule true
    dsimp only
    split
    · exact dropped.trans (enterMemory_calm hi _)
    · exact (dropped.trans (issueRecalls_calm hi _ _ _)).trans (modifyTxn_calm hi _ _)

theorem activateInPlace_calm (hi : slotPort i = none) (s : State) : Calm s (s.activateInPlace i).1 := by
  unfold State.activateInPlace
  split
  · exact .refl s
  · split
    · exact endTxn_calm hi s
    · exact (changeEntry_calm s _ _).trans (recallPhase_calm hi _)

theorem placed_calm (hi : slotPort i = none) (s : State) (x : Option Txn) (g : Granule) (c : List SlotId) :
    Calm s ((s.setTxn i x).setChain g c) := (setTxn_calm hi x).trans ⟨rfl, id, fun _ _ _ => rfl⟩

theorem placeSweep_calm (s : State) (k : TxnKind) (g : Granule) : Calm s (s.placeSweep k g) := by
  have hi : slotPort sweepSlot = none := rfl
  have seated := (placed_calm hi s (some (newTxn k g)) g (s.chain g ++ [sweepSlot])).trans (setPause_calm _ .slot)
  have active := seated.trans (activateInPlace_calm hi _)
  unfold State.placeSweep
  dsimp only
  split
  · split
    · exact active.trans (moveOn_calm _)
    · exact active
  · exact seated

theorem removeDirectly_calm (s : State) (e : Entry) (ps : List Port) : Calm s (s.removeDirectly e ps) := by
  unfold State.removeDirectly
  split
  · exact moveOn_calm s
  · have removed := calm_foldl (fun s p => changeEntry_calm s e.granule (.remove p)) (ps.filter e.holders.get) s
    dsimp only
    split
    · exact removed.trans (moveOn_calm _)
    · have offered := removed.trans (offer_calm _ ⟨.poisonSet, e.granule, .sweep⟩)
      split
      · exact offered.trans (moveOn_calm _)
      · exact offered.trans (setPause_calm _ _)

/-- A visit of the walk touches no slot but the sweep slot (08 R161 to R166). -/
theorem visit_calm (s : State) : Calm s s.visit := by
  have slot : ∀ k g, Calm s (s.needSlot k g) := fun k g => by
    unfold State.needSlot
    split
    · exact setPause_calm s _
    · exact placeSweep_calm s k g
  unfold State.visit
  split
  · exact .refl s
  · split
    · exact moveOn_calm s
    · split
      · exact removeDirectly_calm s _ _
      · exact removeDirectly_calm s _ _
      · split
        · exact setPause_calm s _
        · split
          · exact slot _ _
          · exact moveOn_calm s
      · split
        · exact setPause_calm s _
        · split
          · exact moveOn_calm s
          · exact slot _ _

/-- A memory command of the service port touches no slot but the service slot (10 R208). -/
theorem placeService_calm (s : State) {k : TxnKind} (hj : k.judgedAtActivation = false) (ha : k.allocates = false)
    (g : Granule) : Calm s (s.placeService k g) := by
  have hi : slotPort serviceSlot = none := rfl
  unfold State.placeService
  split
  · exact setTxn_calm hi _
  · have seated := placed_calm hi s (some (newTxn k g)) g (s.chain g ++ [serviceSlot])
    unfold State.place
    dsimp only
    split
    · refine seated.trans ?_
      generalize hu : (s.setTxn serviceSlot (some (newTxn k g))).setChain g (s.chain g ++ [serviceSlot]) = u
      have hx : u.txn serviceSlot = some (newTxn k g) := by rw [← hu]; exact txn_setTxn_same s _ _
      have inPlace : u.activate serviceSlot = u.activateInPlace serviceSlot := by
        unfold State.activate
        rw [hx]
        simp [newTxn, hj, ha]
      rw [inPlace]
      exact activateInPlace_calm hi u
    · exact seated

end Sys2Proof.Machine
end

section
/-! PROOFS. The entry into DEPARTING: the WAITING slots of the port, bounced one after the other in any order. -/

namespace Sys2Proof.Machine

variable {s t u : State} {p : Port} {i : SlotId} {g : Granule} {x : Txn}

/-! ### One slot bounced -/

/-- The answer to a WAITING slot of a port that enters DEPARTING (03 R57). -/
def State.departBounce (s : State) (i : SlotId) : Option HubFrame :=
  (s.txn i).map fun x => .bounce (slotTag i) x.granule .notMember

/-- The slot holds a WAITING transaction. -/
def State.waits (s : State) (i : SlotId) : Bool := (s.txn i).any fun x => x.phase == .waiting

theorem waits_iff : s.waits i = true ↔ ∃ x, s.txn i = some x ∧ x.phase = .waiting := by
  unfold State.waits
  rw [Option.any_eq_true]
  simp only [beq_iff_eq]

theorem bounceIfWaiting_of (hx : s.txn i = some x) (hw : x.phase = .waiting) (p : Port) :
    State.bounceIfWaiting p i s = (s.send p (.bounce (slotTag i) x.granule .notMember)).freeHead i x.granule := by
  unfold State.bounceIfWaiting
  rw [hx]
  exact if_pos hw

theorem freeHead_txn (s : State) (i j : SlotId) (g : Granule) :
    (s.freeHead i g).txn j = if j = i then none else s.txn j := txn_setTxn s i j none

theorem send_chain (s : State) (p : Port) (f : HubFrame) (g : Granule) : (s.send p f).chain g = s.chain g := by
  unfold State.send
  dsimp only
  split <;> rfl

theorem send_table (s : State) (p : Port) (f : HubFrame) : (s.send p f).table = s.table := by
  unfold State.send
  dsimp only
  split <;> rfl

theorem send_rest (s : State) (p : Port) (f : HubFrame) : s.send p f = { s with ifaces := (s.send p f).ifaces } := by
  unfold State.send
  dsimp only
  split <;> rfl

/-- Every slot stands in no chain but that of its own granule, and there at most once (03 R45). -/
structure State.ChainsOwn (s : State) : Prop where
  canonical : Sparse.wf [] s.table.chains
  nodup : ∀ g, (s.chain g).Nodup
  own : ∀ g i, i ∈ s.chain g → ∃ x, s.txn i = some x ∧ x.granule = g

theorem State.transactionsLawful.chainsOwn (h : s.transactionsLawful) : s.ChainsOwn where
  canonical := h.canonical.2.2.2.1
  nodup := h.table.nodup
  own g i hi := by
    obtain ⟨x, hx, hg, -⟩ := h.table.inChain g i hi
    exact ⟨x, hx, hg⟩

/-- The slot leaves the one chain that it may stand in, and the others keep their order (03 R47). -/
theorem freeHead_chain (h : s.ChainsOwn) (hx : s.txn i = some x) (g : Granule) :
    (s.freeHead i x.granule).chain g = (s.chain g).filter fun j => j != i := by
  have erased : (s.freeHead i x.granule).chain g
      = if g = x.granule then (s.chain x.granule).erase i else s.chain g :=
    chain_setChain (s := s.setTxn i none) h.canonical _ _ g
  rw [erased]
  split
  · subst g
    exact (h.nodup _).erase_eq_filter i
  · rename_i other
    refine (List.filter_eq_self.2 fun j hj => ?_).symm
    rw [bne_iff_ne]
    rintro rfl
    obtain ⟨y, hy, hg⟩ := h.own g j hj
    rw [hx] at hy
    injection hy with hy
    exact other (by rw [← hg, hy])

theorem State.ChainsOwn.freeHead (h : s.ChainsOwn) (hx : s.txn i = some x) : (s.freeHead i x.granule).ChainsOwn where
  canonical := Sparse.wf_set h.canonical _ _
  nodup g := by
    rw [freeHead_chain h hx]
    exact (h.nodup g).filter _
  own g j hj := by
    rw [freeHead_chain h hx, List.mem_filter, bne_iff_ne] at hj
    rw [freeHead_txn, if_neg hj.2]
    exact h.own g j hj.1

/-! ### The slots of a port bounced -/

/-- From `s` to `t` the slots of a list are bounced on the port's link, are freed and leave their chains. -/
structure Bounced (p : Port) (l : List SlotId) (s t : State) : Prop where
  rest : t = { s with table := t.table, ifaces := t.ifaces }
  limit : t.table.recallLimit = s.table.recallLimit
  slots : ∀ j, t.txn j = if j ∈ l then none else s.txn j
  chains : s.ChainsOwn → ∀ g, t.chain g = (s.chain g).filter fun j => decide (j ∉ l)
  link : (s.ifaces.get p).linkUp = true → (s.portState p).isFenced = false →
    t.ifaces = s.ifaces.set p
      { s.ifaces.get p with outq := (s.ifaces.get p).outq ++ l.filterMap s.departBounce }

theorem bounced_foldl (p : Port) (l : List SlotId) : ∀ s : State, l.Nodup → (∀ i ∈ l, s.waits i = true) →
    Bounced p l s (l.foldl (fun s i => State.bounceIfWaiting p i s) s) := by
  induction l with
  | nil =>
    exact fun s _ _ =>
      { rest := rfl
        limit := rfl
        slots := fun _ => rfl
        chains := fun _ _ => by simp
        link := fun _ _ => by
          rw [List.filterMap_nil, List.append_nil]
          exact (PerPort.set_get _ _).symm }
  | cons i l ih =>
    intro s hnodup hw
    obtain ⟨hnot, hnodup⟩ := List.nodup_cons.1 hnodup
    obtain ⟨x, hx, hphase⟩ := waits_iff.1 (hw i List.mem_cons_self)
    rw [List.foldl_cons, bounceIfWaiting_of hx hphase]
    generalize hf : HubFrame.bounce (slotTag i) x.granule .notMember = f
    have hfs : s.departBounce i = some f := by unfold State.departBounce; rw [hx, ← hf]; rfl
    generalize hu : (s.send p f).freeHead i x.granule = u
    have hxs : (s.send p f).txn i = some x := by rw [send_txn]; exact hx
    have slot : ∀ j, u.txn j = if j = i then none else s.txn j := fun j => by rw [← hu, freeHead_txn, send_txn]
    have own : s.ChainsOwn → (s.send p f).ChainsOwn := fun h =>
      { canonical := by rw [send_table]; exact h.canonical
        nodup := fun g => by rw [send_chain]; exact h.nodup g
        own := fun g j hj => by rw [send_chain] at hj; rw [send_txn]; exact h.own g j hj }
    have rest : u = { s with table := u.table, ifaces := u.ifaces } := by
      rw [← hu]
      have sent := send_rest s p f
      generalize s.send p f = w at sent
      rw [sent]
      rfl
    have kept : ∀ j ∈ l, j ≠ i := fun j hj e => hnot (e ▸ hj)
    have step := ih u hnodup fun j hj => by
      unfold State.waits
      rw [slot j, if_neg (kept j hj)]
      exact hw j (List.mem_cons_of_mem i hj)
    generalize l.foldl (fun s i => State.bounceIfWaiting p i s) u = v at step ⊢
    refine
      { rest := ?_
        limit := ?_
        slots := fun j => ?_
        chains := fun h g => ?_
        link := fun up notFenced => ?_ }
    · have e := step.rest
      rw [rest] at e
      exact e
    · rw [step.limit, ← hu]
      exact (congrArg TxnTable.recallLimit (send_table s p f) : (s.send p f).table.recallLimit = _)
    · rw [step.slots j, slot j]
      by_cases hj : j = i <;> simp [hj]
    · have hown : u.ChainsOwn := hu ▸ (own h).freeHead hxs
      rw [step.chains hown, ← hu, freeHead_chain (own h) hxs, send_chain, List.filter_filter]
      refine List.filter_congr fun j _ => ?_
      by_cases hj : j = i <;> simp [hj]
    · have sent : u.ifaces = (s.queued p f).ifaces := by
        rw [← hu, ← send_eq_queued up notFenced]
        rfl
      have bounces : l.filterMap u.departBounce = l.filterMap s.departBounce :=
        List.filterMap_congr fun j hj => by
          unfold State.departBounce
          rw [slot j, if_neg (kept j hj)]
      have state : u.portState p = s.portState p := by rw [rest]; rfl
      have iface : u.ifaces.get p = { s.ifaces.get p with outq := (s.ifaces.get p).outq ++ [f] } := by
        rw [sent]
        exact PerPort.get_set_same _ _ _
      rw [step.link (by rw [iface]; exact up) (by rw [state]; exact notFenced), bounces, iface, sent,
        List.filterMap_cons, hfs]
      unfold State.queued
      simp

/-! ### The entry into DEPARTING -/

theorem mem_portSlots : i ∈ portSlots p ↔ slotPort i = some p := by simp [portSlots]

/-- The slots of the port that wait. -/
def State.waitingSlots (s : State) (p : Port) : List SlotId := (portSlots p).filter s.waits

theorem mem_waitingSlots : i ∈ s.waitingSlots p ↔ slotPort i = some p ∧ s.waits i = true := by
  unfold State.waitingSlots
  rw [List.mem_filter, mem_portSlots]

theorem portSlots_nodup (p : Port) : (portSlots p).Nodup := (List.nodup_finRange 50).filter _

theorem queueJob_eq (s : State) (j : Job) :
    s.queueJob j = s.setSweep { s.sweep with
      jobs := s.sweep.jobs ++ [j], walk := if s.sweep.jobs = [] then .start else s.sweep.walk } := by
  unfold State.queueJob
  cases h : s.sweep.jobs with
  | nil => rfl
  | cons a l => simp

/-- The record of a port that enters DEPARTING (07 R139). -/
def State.departed (s : State) (p : Port) : PortRec :=
  { s.ctl.ports.get p with
    state := .departing
    sweepFinished := false
    deadline := if s.ctl.departLimit = 0 then none else some (s.now + 1000 * s.ctl.departLimit.toNat) }

/-- The sweep queue with the DEPART job of a port at its tail (08 R159). -/
def State.departQueued (s : State) (p : Port) : Sweep :=
  { s.sweep with
    jobs := s.sweep.jobs ++ [.depart p], walk := if s.sweep.jobs = [] then .start else s.sweep.walk }

/-- The entry into DEPARTING: the port's WAITING slots are bounced in some order, then the job is queued and the record
is as R139 says. -/
theorem enterDeparting_spec (s : State) (p : Port) :
    ∃ (n : Nat) (l : List SlotId) (v : State), l.Perm (s.waitingSlots p)
      ∧ Bounced p l { s.movePort p .departing with freeDraws := n } v
      ∧ (s.waitingSlots p = [] → n = s.freeDraws ∧ v.table = s.table ∧ v.ifaces = s.ifaces)
      ∧ s.enterDeparting p =
        { s with
          freeDraws := n, table := v.table, ifaces := v.ifaces, sweep := s.departQueued p
          ctl := { s.ctl with ports := s.ctl.ports.set p (s.departed p) } } := by
  obtain ⟨n, l, perm, order⟩ :=
    inFreeOrder_map (s := s.movePort p .departing) (State.bounceIfWaiting p) (s.waitingSlots p)
  have bounced := bounced_foldl p l { s.movePort p .departing with freeDraws := n }
    (perm.nodup_iff.2 ((portSlots_nodup p).filter _))
    fun i hi => (mem_waitingSlots.1 (perm.mem_iff.1 hi)).2
  rw [← order] at bounced
  refine ⟨n, l, _, perm, bounced, fun none_waits => ?_, ?_⟩
  · have still := order
    rw [none_waits] at still perm
    rw [List.perm_nil.1 perm] at still
    refine ⟨(congrArg State.freeDraws still).symm, ?_, ?_⟩ <;> rw [none_waits] <;> rfl
  · have ends : s.enterDeparting p = (((s.movePort p .departing).inFreeOrder
        ((s.waitingSlots p).map (State.bounceIfWaiting p))).queueJob (.depart p)).modifyPort p fun r =>
          { r with
            sweepFinished := false
            deadline := (((s.movePort p .departing).inFreeOrder
              ((s.waitingSlots p).map (State.bounceIfWaiting p))).queueJob (.depart p)).departureDeadline } := rfl
    rw [ends]
    generalize (s.movePort p .departing).inFreeOrder ((s.waitingSlots p).map (State.bounceIfWaiting p)) = v at bounced
    rw [bounced.rest, queueJob_eq]
    unfold State.modifyPort State.setPort State.departed
    simp only [setSweep_ctl, movePort_ports, PerPort.get_set_same, PerPort.set_set]
    rfl

end Sys2Proof.Machine
end

section
/-! PROOFS. A law of the port records is shown to be kept by every step: what it has to be kept by, and each command
through it. -/

namespace Sys2Proof.Machine

variable {s t u : State} {p : Port} {i : SlotId} {g : Granule} {P : State → Prop}

/-! ### What a law of the ports has to be kept by -/

/-- A step of a port record that keeps it lawful, makes a member only of a member or while the hub runs, and brings no
port with its sweep finished into DEPARTING or FENCING. -/
structure RecordStep (hub : HubState) (old new : PortRec) : Prop where
  lawful : old.lawful → new.lawful
  member : new.state.isMember = true → old.state.isMember = true ∨ hub = .running
  leaving : new.state = .departing ∨ new.state = .fencing → new.sweepFinished = true →
    new.state = old.state ∧ old.sweepFinished = true

/-- What makes a law of the port records and of the phases of the member slots one that every step keeps. -/
structure PortsKept (P : State → Prop) : Prop where
  reset : ∀ s, P (State.enterReset s)
  calm : ∀ {s t}, Calm s t → P s → P t
  record : ∀ {s p r}, RecordStep s.svc.hubState (s.ctl.ports.get p) r → P s → P (s.setPort p r)
  departs : ∀ {s p}, s.portState p = .active → P s → P (s.enterDeparting p)
  acts : ∀ {s t}, Acts (fun _ => True) s t → t.settled → P s → P t
  fenced : ∀ {s p} (r : PortRec) (reason : FenceReason), r.state = s.portState p → (s.portState p).isMember = true →
    P s → P ((s.setPort p r).fenceMember p reason)

/-! ### Records -/

/-- A step of the settings of a record. -/
theorem RecordStep.of_state {hub : HubState} {old new : PortRec} (hstate : new.state = old.state)
    (hpresent : old.present = true → new.present = true) (hhold : old.holdFlag = false → new.holdFlag = false)
    (hsweep : new.sweepFinished = old.sweepFinished) : RecordStep hub old new where
  lawful h := ⟨fun hs => hpresent (h.1 (hstate ▸ hs)), fun hm => hhold (h.2 (by rwa [hstate] at hm))⟩
  member hm := .inl (hstate ▸ hm)
  leaving _ hf := ⟨hstate, hsweep ▸ hf⟩

/-- A port comes to a state that is no member's, nor FENCING. -/
theorem RecordStep.idle {hub : HubState} {old new : PortRec} (hm : new.state.isMember = false)
    (hf : new.state ≠ .fencing) (hs : new.state.seated = true → old.lawful → new.present = true)
    (hj : new.state = .joinable → new.holdFlag = false) : RecordStep hub old new where
  lawful h := ⟨fun hn => hs hn h, fun hn => hn.elim (fun hn => by rw [hm] at hn; cases hn) hj⟩
  member hn := by rw [hm] at hn; cases hn
  leaving hn _ := by
    rcases hn with hn | hn
    · rw [hn] at hm; cases hm
    · exact absurd hn hf

theorem modifyPort_modifyPort (s : State) (p : Port) (f f' : PortRec → PortRec) :
    (s.modifyPort p f).modifyPort p f' = s.modifyPort p fun r => f' (f r) := by
  unfold State.modifyPort State.setPort
  simp only [PerPort.get_set_same, PerPort.set_set]

theorem modifyPort_movePort (s : State) (p : Port) (f : PortRec → PortRec) (st : PortState) :
    (s.modifyPort p f).movePort p st = s.modifyPort p fun r => { f r with state := st } :=
  modifyPort_modifyPort s p f _

theorem setPort_self (s : State) (p : Port) : s.setPort p (s.ctl.ports.get p) = s := by
  unfold State.setPort
  rw [PerPort.set_get]

theorem modifyPort_portState (s : State) (p : Port) (f : PortRec → PortRec) :
    (s.modifyPort p f).portState p = (f (s.ctl.ports.get p)).state :=
  congrArg PortRec.state (PerPort.get_set_same _ p _)

/-- A record in a state that has a card in it shows the card. -/
theorem PortRec.lawful.present_of {r : PortRec} {st : PortState} (h : r.lawful) (hst : r.state = st)
    (hseat : st.seated = true) : r.present = true := h.1 (hst ▸ hseat)

theorem judgeMember_ok {c : MemberCommand} {port : Byte} (h : s.judgeMember c port = .ok p) :
    c.applies (s.ctl.ports.get p) = true := by
  unfold State.judgeMember at h
  split at h
  · cases h
  · split at h
    · injection h with h
      subst h
      assumption
    · cases h

theorem kept_foldl {α : Type} {f : State → α → State} (hf : ∀ s a, P s → P (f s a)) (l : List α) :
    ∀ {s : State}, P s → P (l.foldl f s) := by
  induction l with
  | nil => exact fun h => h
  | cons a l ih => exact fun h => ih (hf _ a h)

section
variable (k : PortsKept P)
include k

theorem PortsKept.modify {f : PortRec → PortRec} (h : RecordStep s.svc.hubState (s.ctl.ports.get p) (f (s.ctl.ports.get p)))
    (hs : P s) : P (s.modifyPort p f) := k.record h hs

theorem PortsKept.settle (hs : P s) : P s.settle := k.acts (settle_acts (inside_true s)) (settle_settled s) hs

theorem PortsKept.fenceMember (p : Port) (reason : FenceReason) (hs : P s) : P (s.fenceMember p reason) := by
  by_cases hm : (s.portState p).isMember = true
  · have kept := k.fenced (s.ctl.ports.get p) reason rfl hm hs
    rwa [setPort_self] at kept
  · unfold State.fenceMember
    rwa [if_neg hm]

/-! ### Line events and membership commands -/

/-- A port that has a card in it comes to admission (07 R132). -/
theorem PortsKept.admission (hp : (s.ctl.ports.get p).lawful → (s.ctl.ports.get p).present = true) (hs : P s) :
    P (s.admission p) := by
  unfold State.admission
  split
  · exact k.calm (raise_calm _ _) (k.record (.idle rfl nofun (fun _ => hp) nofun) hs)
  · rename_i hold
    simp only [Bool.or_eq_true, not_or, Bool.not_eq_true] at hold
    exact k.record (.idle rfl nofun (fun _ => hp) fun _ => hold.1) hs

theorem PortsKept.placeCard (hp : (s.ctl.ports.get p).lawful → (s.ctl.ports.get p).present = true) (hs : P s) :
    P (s.placeCard p) := by
  unfold State.placeCard
  split
  · exact k.admission hp hs
  · exact k.record (.idle rfl nofun (fun _ => hp) nofun) hs

theorem PortsKept.presence (p : Port) (asserted : Bool) (hs : P s) : P (State.presence p asserted s) := by
  unfold State.presence
  split
  · exact hs
  · cases asserted with
    | true =>
      have recorded : P (s.modifyPort p fun r => { r with present := true }) :=
        k.modify (.of_state rfl (fun _ => rfl) id rfl) hs
      dsimp only
      split
      · refine k.calm (raise_calm _ _) (k.placeCard (fun _ => ?_) recorded)
        rw [modifyPort_ports, PerPort.get_set_same]
      · exact recorded
      all_goals contradiction
    | false =>
      have lost : P ((s.modifyPort p fun r => { r with present := false }).movePort p .empty) := by
        rw [modifyPort_movePort]
        exact k.modify (.idle rfl nofun nofun nofun) hs
      dsimp only
      rw [modifyPort_portState]
      have recorded : (s.portState p).seated = false → P (s.modifyPort p fun r => { r with present := false }) :=
        fun hst => k.modify
          { lawful := fun h => ⟨fun hn => absurd ((show (s.portState p).seated = true from hn).symm.trans hst) nofun, h.2⟩
            member := .inl
            leaving := fun _ hf => ⟨rfl, hf⟩ } hs
      split
      · contradiction
      · contradiction
      · exact lost
      · exact lost
      · exact lost
      · exact lost
      · rename_i hst
        exact k.fenced _ _ rfl (isMember_of (.inl hst)) hs
      · rename_i hst
        exact k.fenced _ _ rfl (isMember_of (.inr hst)) hs
      · rename_i hst
        exact recorded (by rw [show s.portState p = _ from hst]; rfl)
      · rename_i hst
        exact recorded (by rw [show s.portState p = _ from hst]; rfl)

theorem PortsKept.latch (p : Port) (closed : Bool) (hs : P s) : P (State.latch p closed s) := by
  unfold State.latch
  split
  · exact hs
  · have recorded : P (s.modifyPort p fun r => { r with latchClosed := closed }) :=
      k.modify (.of_state rfl id id rfl) hs
    dsimp only
    generalize s.modifyPort p (fun r => { r with latchClosed := closed }) = u at recorded
    split
    · rename_i hst _
      exact k.admission (fun h => h.present_of hst rfl) recorded
    · exact k.calm (sendNotice_calm _ _ _) (k.modify (.of_state rfl id id rfl) recorded)
    · exact k.calm ((sendNotice_calm _ _ _).trans (raise_calm _ _)) (k.modify (.of_state rfl id id rfl) recorded)
    · rename_i hst _
      exact k.record (.idle rfl nofun (fun _ h => h.present_of hst rfl) nofun) recorded
    · rename_i hst _
      exact k.record (.idle rfl nofun (fun _ h => h.present_of hst rfl) nofun) recorded
    · exact recorded

theorem PortsKept.holdOn (p : Port) (hs : P s) : P (s.holdOn p) := by
  have held : ∀ st : PortState, st.isMember = false → st ≠ .fencing → st ≠ .joinable →
      (st.seated = true → (s.portState p).seated = true) →
      P (s.modifyPort p fun r => { r with holdFlag := true, state := st }) := fun st hm hf hj hseat =>
    k.modify (.idle hm hf (fun h hl => hl.1 (hseat h)) fun h => absurd h hj) hs
  have recorded : (s.portState p).isMember = false → s.portState p ≠ .joinable →
      P (s.modifyPort p fun r => { r with holdFlag := true }) := fun hm hj =>
    k.modify
      { lawful := fun h => ⟨h.1, fun hn => hn.elim
          (fun hn => by rw [show (s.portState p).isMember = true from hn] at hm; cases hm) fun hn => absurd hn hj⟩
        member := .inl
        leaving := fun _ hf => ⟨rfl, hf⟩ } hs
  unfold State.holdOn
  dsimp only
  rw [modifyPort_portState]
  split
  · rename_i hst
    exact k.fenced _ _ rfl (isMember_of (.inl hst)) hs
  · rename_i hst
    exact k.fenced _ _ rfl (isMember_of (.inr hst)) hs
  · rename_i hst
    rw [modifyPort_movePort]
    exact held .held rfl nofun nofun fun _ => by rw [show s.portState p = _ from hst]; rfl
  all_goals
    rename_i hst
    exact recorded (by rw [show s.portState p = _ from hst]; rfl) (by rw [show s.portState p = _ from hst]; nofun)

/-- An accepted membership command (07 R148 to R151). -/
theorem PortsKept.applyMember {c : MemberCommand} (hc : c.applies (s.ctl.ports.get p) = true) (hs : P s) :
    P (State.applyMember c p s) := by
  cases c with
  | admission =>
    have hc : ((s.ctl.ports.get p).state == .held && !(s.ctl.ports.get p).holdFlag) = true := hc
    simp only [Bool.and_eq_true, beq_iff_eq, Bool.not_eq_true'] at hc
    exact k.record (.idle rfl nofun (fun _ h => h.present_of hc.1 rfl) fun _ => hc.2) hs
  | eject => exact k.calm (sendNotice_calm _ _ _) (k.departs (beq_iff_eq.1 hc) hs)
  | fence => exact k.fenceMember p _ hs
  | release => exact k.placeCard (fun h => h.present_of (beq_iff_eq.1 hc) rfl) hs
  | holdOn => exact k.holdOn p hs
  | holdOff => exact k.modify (f := fun r => { r with holdFlag := false }) (.of_state rfl id (fun _ => rfl) rfl) hs

end

end Sys2Proof.Machine
end

section
/-! PROOFS. The commands that are no line event and no membership command, and every step, through a law that the ports
keep. -/

namespace Sys2Proof.Machine

variable {s t u : State} {p : Port} {i : SlotId} {g : Granule} {P : State → Prop}

/-! ### Events from inside the part -/

/-- The record of a port with its sweep finished, a step of the controller (08 R171). -/
theorem sweepFinished_acts (s : State) (p : Port) :
    Acts (fun _ => True) s (s.modifyPort p fun r => { r with sweepFinished := true }) :=
  modifyPort_acts ⟨rfl, rfl, rfl, rfl, rfl, id, .inl⟩

theorem finishFenced_acts (s : State) (p : Port) : Acts (fun _ => True) s (s.finishFenced p) := by
  unfold State.finishFenced
  split
  · exact sweepFinished_acts s p
  · exact .refl s

theorem dropReport_acts (s : State) : Acts (fun _ => True) s s.dropReport := (Move.sweep s _).moves.acts

/-- The expiry of a recall deadline leaves every slot in its phase (05 R105). -/
theorem recallExpiry_calm (s : State) (i : SlotId) : Calm s (State.recallExpiry i s) := by
  unfold State.recallExpiry
  split
  · exact .refl s
  · rename_i x hx
    split
    · exact .refl s
    · refine ⟨rfl, id, fun j q _ => ?_⟩
      refine (congrArg _ (txn_setTxn s i j _)).trans ?_
      split
      · subst j
        rw [hx]
        rfl
      · rfl

/-- Two parties in an open order are the one and then the other. -/
theorem inFreeOrder_two (s : State) (f f' : State → State) :
    ∃ n, s.inFreeOrder [f, f'] = f' (f { s with freeDraws := n }) ∨ s.inFreeOrder [f, f'] = f (f' { s with freeDraws := n }) := by
  obtain ⟨n, l, perm, order⟩ := inFreeOrder_map (s := s) (fun f => f) [f, f']
  rw [List.map_id'] at order
  have cases : l = [f, f'] ∨ l = [f', f] := by
    have len : l.length = 2 := perm.length_eq
    obtain ⟨a, b, rfl⟩ := List.length_eq_two.1 len
    have ha : a = f ∨ a = f' := by simpa using perm.mem_iff.1 (List.mem_cons_self (a := a) (l := [b]))
    rcases ha with rfl | rfl
    · exact .inl (by rw [List.singleton_perm_singleton.1 ((List.perm_cons a).1 perm)])
    · have swapped := perm.trans (List.Perm.swap a f [])
      exact .inr (by rw [List.singleton_perm_singleton.1 ((List.perm_cons a).1 swapped)])
  refine ⟨n, ?_⟩
  rw [order]
  rcases cases with rfl | rfl
  · exact .inl rfl
  · exact .inr rfl

/-! ### Calm changes of the service port and of the memory controller -/

theorem replaceWindow_calm (s : State) (j : Fin 8) (w : Window) : Calm s (s.replaceWindow j w) :=
  by
  have replaced : Calm s { s with windows := s.windows.set j.val w j.isLt } := ⟨rfl, id, fun _ _ _ => rfl⟩
  exact replaced.trans (requestRecheck_calm _)

theorem serviceWindow_calm (index valid : Byte) (base limit : Granule) (rights : Byte) (s : State) :
    Calm s (State.serviceWindow index valid base limit rights s) := by
  unfold State.serviceWindow
  split
  · exact respond_calm _ _ _
  · exact ((replaceWindow_calm s _ _).trans (sendNotice_calm _ _ _)).trans (respond_calm _ _ _)

theorem serviceRead_calm (offset : BitVec 16) (s : State) : Calm s (State.serviceRead offset s) := by
  unfold State.serviceRead
  split <;> exact respond_calm _ _ _

theorem memoryCommand_calm {c : TxnKind} (hj : c.judgedAtActivation = false) (ha : c.allocates = false) (g : Granule)
    (s : State) : Calm s (State.memoryCommand c g s) := by
  have result : ∀ r, Calm s (s.setResult r) := fun _ => ⟨rfl, id, fun _ _ _ => rfl⟩
  unfold State.memoryCommand
  split
  · exact respond_calm _ _ _
  · split
    · exact (result _).trans (respond_calm _ _ _)
    · exact ((result _).trans (placeService_calm _ hj ha g)).trans (respond_calm _ _ _)

theorem offerInit_calm (s : State) : Calm s s.offerInit := (offer_calm s _).trans ⟨rfl, id, fun _ _ _ => rfl⟩

theorem entered_calm (s : State) (op : MemOp) : Calm s (s.entered op) := by
  unfold State.entered
  split
  · exact .refl s
  · unfold State.sweepOfferEntered
    split
    · exact moveOn_calm s
    · exact .refl s
  · exact offerInits_keeps (P := Calm s) (fun u _ h => h.trans (offerInit_calm u)) 17 (.refl s)

theorem leaveQueue_calm (s : State) : Calm s s.leaveQueue := by
  have popped : Calm s (s.setMem s.mem.popped) := ⟨rfl, id, fun _ _ _ => rfl⟩
  rcases leaveQueue_eq s with he | ⟨op, he⟩
  · rw [he]
    exact popped
  · rw [he]
    exact popped.trans (entered_calm _ op)

theorem Performed.calm (h : Performed s t) : Calm s t where
  ports := (congrArg (fun u : State => u.ctl.ports) h.rest :)
  hub hi := by
    have same : t.svc.hubState = s.svc.hubState := (congrArg ServicePort.hubState h.svc :)
    rwa [same] at hi
  slots i _ _ := (congrArg (fun u : State => (u.txn i).map Txn.phase) h.rest :)

section
variable (k : PortsKept P)
include k

theorem PortsKept.same (hs : P s) (h : Calm s t) : P t := k.calm h hs

theorem PortsKept.linkLostTaken (p : Port) (hs : P s) : P (State.linkLostTaken p s) := by
  unfold State.linkLostTaken
  split
  · exact hs
  · exact k.fenceMember p _ (k.same hs ⟨rfl, id, fun _ _ _ => rfl⟩)

theorem PortsKept.fenceRequestTaken (p : Port) (hs : P s) : P (State.fenceRequestTaken p s) := by
  unfold State.fenceRequestTaken
  split
  · exact k.fenceMember p _ (k.same hs ⟨rfl, id, fun _ _ _ => rfl⟩)
  · exact hs

theorem PortsKept.departureExpiry (p : Port) (hs : P s) : P (State.departureExpiry p s) := by
  unfold State.departureExpiry
  split
  · exact k.fenceMember p _ (k.same hs ⟨rfl, id, fun _ _ _ => rfl⟩)
  · exact hs

/-- Acts and the tests at their end. -/
theorem PortsKept.actsSettle (h : Acts (fun _ => True) s t) (hs : P s) : P t.settle :=
  k.acts (h.trans (settle_acts (inside_true t))) (settle_settled t) hs

theorem PortsKept.sweepReportTaken (hs : P s) : P s.sweepReportTaken := by
  have dropped : P s.dropReport := k.same hs ⟨rfl, id, fun _ _ _ => rfl⟩
  unfold State.sweepReportTaken
  split
  · dsimp only
    split
    · exact k.actsSettle ((dropReport_acts s).trans (sweepFinished_acts _ _)) hs
    · exact dropped
  · dsimp only
    split
    · exact k.actsSettle ((dropReport_acts s).trans (sweepFinished_acts _ _)) hs
    · exact dropped
  · exact hs

theorem PortsKept.clearReportTaken (hs : P s) : P s.clearReportTaken := by
  unfold State.clearReportTaken
  split
  · have finished : Acts (fun _ => True) s (Port.all.foldl State.finishFenced s.dropReport) :=
      (dropReport_acts s).trans (acts_foldl (fun u p _ => finishFenced_acts u p) Port.all (inside_true _))
    have settled := k.actsSettle finished hs
    dsimp only
    generalize (Port.all.foldl State.finishFenced s.dropReport).settle = u at settled
    exact k.same settled ⟨rfl, nofun, fun _ _ _ => rfl⟩
  · exact hs

theorem PortsKept.hubClear (hs : P s) : P s.hubClear := by
  unfold State.hubClear
  split
  · exact k.calm (respond_calm _ _ _) hs
  · refine k.calm (respond_calm _ _ _) (k.acts (clearMembers_acts (inside_true _)) (settle_settled _) ?_)
    exact k.same hs ⟨rfl, nofun, fun _ _ _ => rfl⟩

/-! ### Registers -/

theorem PortsKept.writeRegister {src : Source} {r : Reg} {v : Word} (h : s.writeRegister src r v = .ok t) (hs : P s) :
    P t := by
  unfold State.writeRegister at h
  cases r with
  | eventStatus =>
    cases src with
    | service => injection h with h; subst h; exact k.same hs ⟨rfl, id, fun _ _ _ => rfl⟩
    | card => cases h
  | portControl q =>
    injection h with h
    subst h
    cases src
    · exact k.modify (p := q)
        (f := fun r => { r with controlGrant := v.getLsbD 0, indicatorForced := v.getLsbD 1 })
        (.of_state rfl id id rfl) hs
    · exact k.modify (p := q) (f := fun r => { r with indicatorForced := v.getLsbD 1 }) (.of_state rfl id id rfl) hs
  | eventEnable | admitMode | recallLimit | departLimit | corrected | uncorrected | firstFault | protoErrors =>
    injection h with h
    subst h
    exact k.same hs ⟨rfl, id, fun _ _ _ => rfl⟩
  | hubState | epoch | memGranules | sweepState | portStatus | window => cases h

/-! ### Intake -/

theorem PortsKept.send (p : Port) (f : HubFrame) (hs : P s) : P (s.send p f) := k.calm (send_calm s p f) hs

theorem PortsKept.takeRequest (p : Port) (tag : Tag) (g : Granule) (r : Request) (hs : P s) :
    P (s.takeRequest p tag g r) := by
  unfold State.takeRequest
  split
  · exact k.send p _ hs
  · exact k.calm (protocolError_calm s p) hs
  · exact k.actsSettle (placeRequest_moves (inside_true s) _ p trivial r).acts hs

theorem PortsKept.takeYield (p : Port) (tag : Tag) (g : Granule) (recallId : Byte) (o : YieldOutcome) (hs : P s) :
    P (s.takeYield p tag g recallId o) := by
  unfold State.takeYield
  split
  · unfold State.matchYield
    split
    · exact k.calm (protocolError_calm s p) hs
    · rename_i i w _
      split
      · exact hs
      · exact k.actsSettle (((yieldChange_moves p g w.kind o).trans (offerYielded_moves i trivial o)).trans
          (unawait_moves (inside_true _) i p)).acts hs
  · exact k.send p _ hs

theorem PortsKept.joinFrame (p : Port) (g : Granule) (hs : P s) : P (s.joinFrame p g) := by
  unfold State.joinFrame
  split
  · rename_i hst
    split
    · rename_i hrun
      have joined : P (s.bumpEpoch.modifyPort p fun r =>
          { r with state := .active, joinedEpoch := some s.bumpEpoch.ctl.epoch, fenceReason := none }) :=
        k.modify
          { lawful := fun h => ⟨fun _ => h.present_of hst rfl, fun _ => h.2 (.inr hst)⟩
            member := fun _ => .inr hrun
            leaving := nofun } (k.same hs ⟨rfl, id, fun _ _ _ => rfl⟩)
      exact k.calm (((send_calm _ _ _).trans (sendNotice_calm _ _ _)).trans (raise_calm _ _)) joined
    · exact k.send p _ hs
    · exact k.send p _ hs
  all_goals first
    | exact k.send p _ hs
    | exact hs

theorem PortsKept.leaveFrame (p : Port) (g : Granule) (hs : P s) : P (s.leaveFrame p g) := by
  unfold State.leaveFrame
  split
  · rename_i hst
    split
    · exact k.departs (((send_calm s p _).portState p).trans hst) (k.send p _ hs)
    · exact k.send p _ hs
  all_goals first
    | exact k.send p _ hs
    | exact hs

theorem PortsKept.controlMember (p : Port) (g : Granule) (c : MemberCommand) (port : Byte) (hs : P s) :
    P (s.controlMember p g c port) := by
  unfold State.controlMember
  split
  · exact k.send p _ hs
  · rename_i q hq
    have hc := judgeMember_ok hq
    obtain ⟨n, order | order⟩ := inFreeOrder_two s (fun s => s.controlAck p 0) (State.applyMember c q) <;> rw [order]
    · have drawn : P { s with freeDraws := n } := k.same hs ⟨rfl, id, fun _ _ _ => rfl⟩
      refine k.applyMember ?_ (k.send p _ drawn)
      have kept : (State.send { s with freeDraws := n } p (.ack 14 0 .ok (.value 0) false)).ctl = s.ctl := by
        rw [send_rest]
      unfold State.controlAck
      rwa [kept]
    · exact k.send p _ (k.applyMember hc (k.same hs ⟨rfl, id, fun _ _ _ => rfl⟩))

theorem PortsKept.takeControl (p : Port) (g : Granule) (b : ControlBlock) (hs : P s) : P (s.takeControl p g b) := by
  unfold State.takeControl State.controlJudged
  split
  · split
    · exact k.send p _ hs
    · split
      · exact k.send p _ hs
      · unfold State.controlRead
        split <;> exact k.send p _ hs
      · unfold State.controlWrite
        split
        · exact k.send p _ hs
        · split
          · exact k.send p _ hs
          · rename_i written
            exact k.send p _ (k.writeRegister written hs)
      · exact k.controlMember p g _ _ hs
      · unfold State.controlWindow
        split
        · exact k.send p _ hs
        · exact k.calm (((replaceWindow_calm s _ _).trans (send_calm _ _ _)).trans (sendNotice_calm _ _ _)) hs
  · exact k.send p _ hs

theorem PortsKept.takeFrame (p : Port) (f : Frame) (hs : P s) : P (State.takeFrame p s f) := by
  unfold State.takeFrame
  split
  · exact hs
  · cases f with
    | request tag g r => exact k.takeRequest p tag g r hs
    | yield tag g recallId o => exact k.takeYield p tag g recallId o hs
    | join g => exact k.joinFrame p g hs
    | leave g => exact k.leaveFrame p g hs
    | control g b => exact k.takeControl p g b hs
    | malformed => exact k.calm (protocolError_calm s p) hs

theorem PortsKept.arrive (p : Port) (f : Frame) (hs : P s) : P (State.arrive p f s) := by
  unfold State.arrive
  dsimp only
  split
  · exact hs
  · split
    · exact k.takeFrame p f hs
    · exact k.same hs ⟨rfl, id, fun _ _ _ => rfl⟩

theorem PortsKept.resumeIntake (p : Port) (l : List Frame) : ∀ {s : State}, P s → P (State.resumeIntake p l s) := by
  induction l with
  | nil => exact fun h => h
  | cons f l ih =>
    intro s hs
    simp only [State.resumeIntake]
    split
    · exact ih (k.takeFrame p f hs)
    · exact k.same hs ⟨rfl, id, fun _ _ _ => rfl⟩

theorem PortsKept.linkLost (p : Port) (hs : P s) : P (State.linkLost p s) := by
  unfold State.linkLost
  dsimp only
  split
  · exact hs
  · exact kept_foldl (fun _ f h => k.takeFrame p f h) _ (k.same hs ⟨rfl, id, fun _ _ _ => rfl⟩)

theorem PortsKept.frameSent (p : Port) (hs : P s) : P (State.frameSent p s) := by
  unfold State.frameSent
  dsimp only
  split
  · exact hs
  · exact k.resumeIntake p _ (k.same hs ⟨rfl, id, fun _ _ _ => rfl⟩)

/-! ### The service port -/

theorem PortsKept.serviceWrite (r : Reg) (v : Word) (hs : P s) : P (State.serviceWrite r v s) := by
  unfold State.serviceWrite
  split
  · exact k.calm (respond_calm _ _ _) hs
  · rename_i written
    exact k.calm (respond_calm _ _ _) (k.writeRegister written hs)

theorem PortsKept.serviceWriteAt (offset : BitVec 16) (v : Word) (hs : P s) : P (State.serviceWriteAt offset v s) := by
  unfold State.serviceWriteAt
  split
  · exact k.calm (respond_calm _ _ _) hs
  · exact k.serviceWrite _ v hs

theorem PortsKept.serviceMember (c : MemberCommand) (port : Byte) (hs : P s) : P (State.serviceMember c port s) := by
  unfold State.serviceMember
  split
  · exact k.calm (respond_calm _ _ _) hs
  · rename_i accepted
    exact k.calm (respond_calm _ _ _) (k.applyMember (judgeMember_ok accepted) hs)

/-! ### Completions -/

theorem PortsKept.completeOldest (op : MemOp) (hs : P s) : P (s.completeOldest op) := by
  have left : P (s.perform op).1.leaveQueue := k.calm (leaveQueue_calm _) (k.calm (perform_performed s op).calm hs)
  change P (((s.perform op).1.leaveQueue.deliver op (s.perform op).2).settle)
  unfold State.deliver
  split
  · exact k.actsSettle (deliverToSlot_moves (inside_true _) _ _).acts left
  · exact k.settle left
  · split
    · exact k.settle (k.same left ⟨rfl, nofun, fun _ _ _ => rfl⟩)
    · exact k.settle left

end

end Sys2Proof.Machine
end

section
/-! PROOFS. Every step keeps the laws of the port records, and leaves no port waiting to leave DEPARTING or FENCING. -/

namespace Sys2Proof.Machine

variable {s t u : State} {p : Port} {i : SlotId} {g : Granule} {P : State → Prop}

/-! ### Every step -/

theorem kept_change {f : State → State} (hf : ∀ u, P u → P (f u)) (hs : P s) (h : change f s = .next t) : P t := by
  unfold Machine.change at h
  injection h with h
  subst h
  split
  · exact hs
  · exact hf s hs

section
variable (k : PortsKept P)
include k

theorem PortsKept.sampleLines (l : ResetLines) (hs : P s) : P (s.sampleLines l) := by
  have latches : P (Port.all.foldl (fun s p => s.modifyPort p fun r => { r with latchClosed := l.latch.get p }) s) :=
    kept_foldl (fun u p hu => k.modify (f := fun r => { r with latchClosed := l.latch.get p })
      (.of_state rfl id id rfl) hu) Port.all hs
  exact k.same latches ⟨rfl, id, fun _ _ _ => rfl⟩

theorem PortsKept.leaveReset (l : ResetLines) (hs : P s) : P (s.leaveReset l) :=
  offerInits_keeps (P := P) (fun u _ hu => k.calm (offerInit_calm u) hu) 17
    (kept_foldl (fun _ p hu => k.presence p true hu) _ (k.sampleLines l hs))

theorem PortsKept.transfer {f : State → State} (hf : ∀ u, P u → P (f u)) (hs : P s) (h : transfer f s = .next t) :
    P t := by
  refine kept_change (fun u hu => ?_) hs h
  split
  · exact k.same hu ⟨rfl, id, fun _ _ _ => rfl⟩
  · exact hf u hu

theorem PortsKept.complete {kind : MemKind → Bool} (hs : P s) (h : complete kind s = .next t) : P t := by
  rcases complete_cases h with rfl | ⟨op, -, -, -, -, -, rfl⟩
  · exact hs
  · exact k.completeOldest op hs

theorem PortsKept.exec {c : Instr} (h : exec c s = .next t) (hs : P s) : P t := by
  cases c with
  | hubReset => injection h with h; exact h ▸ k.reset s
  | hubResetEnd l =>
    injection h with h
    subst h
    split
    · exact k.leaveReset l hs
    · exact hs
  | readComplete | writeFullComplete | writePartialComplete | atomicRmwComplete | poisonSetComplete | initComplete =>
    exact k.complete hs h
  | presenceEvent p a => exact kept_change (fun _ => k.presence p a) hs h
  | latchEvent p a => exact kept_change (fun _ => k.latch p a) hs h
  | linkUp p => exact kept_change (fun u hu => k.same (t := State.linkUp p u) hu ⟨rfl, id, fun _ _ _ => rfl⟩) hs h
  | linkLost p => exact kept_change (fun _ => k.linkLost p) hs h
  | linkLostAtController p => exact kept_change (fun _ => k.linkLostTaken p) hs h
  | frameSent p => exact kept_change (fun _ => k.frameSent p) hs h
  | readShare p | readOwn p | promote p | peek p | poke p | atomic p | returnDirty p | release p | yield p | join p
  | leave p | control p | malformedFrame p =>
    exact kept_change (fun _ => k.arrive p _) hs h
  | recallDeadlineExpiry i => exact kept_change (fun u => k.calm (recallExpiry_calm u i)) hs h
  | fenceRequest p => exact kept_change (fun _ => k.fenceRequestTaken p) hs h
  | departureDeadlineExpiry p => exact kept_change (fun _ => k.departureExpiry p) hs h
  | walkVisit =>
    refine kept_change (fun u hu => ?_) hs h
    unfold State.walkVisit
    split
    · exact k.calm (visit_calm u) hu
    · exact hu
  | sweepReport => exact kept_change (fun _ => k.sweepReportTaken) hs h
  | clearReport => exact kept_change (fun _ => k.clearReportTaken) hs h
  | dramBitsInError g w b =>
    refine kept_change (fun u hu => ?_) hs h
    unfold State.bitsInError
    split
    · exact k.same hu ⟨rfl, id, fun _ _ _ => rfl⟩
    · exact hu
  | regRead o => exact k.transfer (fun u => k.calm (serviceRead_calm o u)) hs h
  | regWrite o v => exact k.transfer (fun _ => k.serviceWriteAt o v) hs h
  | eventStatusWrite v | eventEnableWrite v | portControlWrite _ v | admitModeWrite v | recallLimitWrite v
  | departLimitWrite v | correctedWrite v | uncorrectedWrite v | firstFaultWrite v | protoErrorsWrite _ v =>
    exact k.transfer (fun _ => k.serviceWrite _ v) hs h
  | admitPort b | ejectPort b | fencePort b | releasePort b | holdOn b | holdOff b =>
    exact k.transfer (fun _ => k.serviceMember _ b) hs h
  | setWindow i v b l r => exact k.transfer (fun u => k.calm (serviceWindow_calm i v b l r u)) hs h
  | hubClear => exact k.transfer (fun _ => k.hubClear) hs h
  | memPeek g => exact k.transfer (fun u => k.calm (memoryCommand_calm rfl rfl g u)) hs h
  | memPoke g d m => exact k.transfer (fun u => k.calm (memoryCommand_calm rfl rfl g u)) hs h
  | slotStatus => exact k.transfer (fun u hu => k.same (t := u.readSlot) hu ⟨rfl, id, fun _ _ _ => rfl⟩) hs h
  | incompleteSelection => exact k.transfer (fun _ hu => hu) hs h
  | unknownServiceCommand => exact k.transfer (fun u => k.calm (respond_calm u _ _)) hs h

theorem PortsKept.step (h : step s = .next t) (hs : P s) : P t := by
  rcases step_cases h with ⟨c, rest, -, he⟩ | rfl
  · exact k.exec he (k.same hs ⟨rfl, id, fun _ _ _ => rfl⟩)
  · exact k.same hs ⟨rfl, id, fun _ _ _ => rfl⟩

end

/-! ### The laws of the port records -/

/-- The law of one port record: its own, and that of its HOLD line while it is a member (07 R130). -/
theorem portsLawful_iff : s.portsLawful ↔ ∀ p, (s.ctl.ports.get p).lawful
    ∧ ((s.ctl.ports.get p).state.isMember = true → s.svc.hubState ≠ .initializing) := by
  refine forall_congr' fun p => and_congr_right fun hl => ⟨fun h hm => member_running (h hm), fun h hm => ?_⟩
  exact holdLine_of_member hm (h hm) (hl.2 (.inl hm))

theorem portsLawful_calm (h : Calm s t) (hs : s.portsLawful) : t.portsLawful := by
  rw [portsLawful_iff] at hs ⊢
  rw [h.ports]
  exact fun p => ⟨(hs p).1, fun hm hi => (hs p).2 hm (h.hub hi)⟩

theorem portsLawful_record {r : PortRec} (hub : t.svc.hubState = s.svc.hubState)
    (ports : t.ctl.ports = s.ctl.ports.set p r) (hr : (s.ctl.ports.get p).lawful → r.lawful)
    (hm : r.state.isMember = true → (s.ctl.ports.get p).state.isMember = true ∨ s.svc.hubState = .running)
    (hs : s.portsLawful) : t.portsLawful := by
  rw [portsLawful_iff] at hs ⊢
  intro q
  rw [ports, hub, PerPort.get_set]
  split
  · refine ⟨hr (hs p).1, fun h => ?_⟩
    rcases hm h with h | h
    · exact (hs p).2 h
    · rw [h]; nofun
  · exact hs q

/-- What fences a port after the record and the interface have changed. -/
theorem fenceEntries_moves_after (s : State) (ps : List Port) (reason : FenceReason) :
    Moves (fun _ => True) True (ps.foldl (State.enterFencing reason) s) (s.fenceEntries ps reason) := by
  unfold State.fenceEntries
  dsimp only
  refine Moves.trans (moves_foldl (fun _ i _ => dropIfWaiting_moves i) _ (inside_true _))
    (inFreeOrder_moves (fun f hf u h => ?_) (inside_true _))
  obtain ⟨i, -, hi⟩ := List.mem_filterMap.1 hf
  unfold State.fenceTask at hi
  split at hi
  · cases hi
  · split at hi
    · injection hi with hi; subst hi; exact abandon_moves h trivial i
    · split at hi
      · injection hi with hi; subst hi
        exact moves_foldl (fun _ p h => resolveAbsent_moves h p true i) _ h
      · cases hi

/-- A member is fenced by the change of its record and its interface, by moves, and by the tests at the end. -/
theorem fenceMember_moves (hm : (s.portState p).isMember = true) (reason : FenceReason) :
    ∃ u, Moves (fun _ => True) True (State.enterFencing reason (s.requestFence p) p) u
      ∧ s.fenceMember p reason = u.settle := by
  have entry := fenceEntries_moves_after (s.requestFence p) [p] reason
  unfold State.fenceMember
  rw [if_pos hm]
  refine ⟨_, ?_, rfl⟩
  split
  · exact entry.trans (visit_moves (inside_true _))
  · exact entry

/-- What follows the record of a member in its fence entry. -/
theorem fenceMember_acts_after (hm : (s.portState p).isMember = true) (reason : FenceReason) :
    Acts (fun _ => True) (State.enterFencing reason (s.requestFence p) p) (s.fenceMember p reason) := by
  obtain ⟨u, moves, ends⟩ := fenceMember_moves hm reason
  rw [ends]
  exact moves.acts.trans (settle_acts (inside_true u))

theorem portsLawful_kept : PortsKept State.portsLawful where
  reset s p := by
    have empty : s.enterReset.ctl.ports.get p = .reset := enterReset_rec s p
    have none_there : (s.enterReset.portState p).isMember = false := by
      unfold State.portState
      rw [empty]
      rfl
    rw [empty]
    exact ⟨⟨nofun, fun _ => rfl⟩, fun hm => by rw [none_there] at hm; cases hm⟩
  calm := portsLawful_calm
  record {s p r} h hs := portsLawful_record (s := s) (p := p) (r := r) rfl rfl h.lawful h.member hs
  departs hp hs := (enterDeparting_acts (K := fun _ => True) (inside_true _) hp).steady.lawful hs
  acts h _ hs := h.steady.lawful hs
  fenced {s p} r reason hr hm hs := by
    have member : ((s.setPort p r).portState p).isMember = true := by
      have : (s.setPort p r).portState p = r.state := congrArg PortRec.state (PerPort.get_set_same _ p r)
      rw [this, hr]
      exact hm
    refine (fenceMember_acts_after member reason).steady.lawful ?_
    have asked := (requestFence_moves (K := fun _ => True) (A := True) (s := s.setPort p r) p).quiet
    have hub : ((s.setPort p r).requestFence p).svc.hubState = s.svc.hubState :=
      (congrArg ServicePort.hubState asked.svc :)
    generalize (s.setPort p r).requestFence p = v at asked hub
    refine portsLawful_record (p := p)
      (r := { r with
        state := .fencing, fenceReason := some reason, deadline := none, leaveAsked := false, sweepFinished := false })
      hub ?_ (fun _ => ⟨nofun, nofun⟩) nofun hs
    change v.ctl.ports.set p _ = _
    rw [asked.ctl, setPort_ports, PerPort.get_set_same, PerPort.set_set]

/-- Settles O58: the laws of the port records are kept by each part of a command. -/
theorem stepKeepsPortLaws : Obligations.StepKeepsPortLaws := fun _ _ h => portsLawful_kept.step h

/-! ### No port waits to leave -/

theorem occupied_eq (h : ∀ i, slotPort i = some p → (t.txn i).map Txn.phase = (s.txn i).map Txn.phase) :
    t.occupied p = s.occupied p := List.countP_congr fun i hi => by
  have same := congrArg Option.isSome (h i (mem_portSlots.1 hi))
  simp only [Option.isSome_map] at same
  rw [same]

theorem draining_eq (h : ∀ i, slotPort i = some p → (t.txn i).map Txn.phase = (s.txn i).map Txn.phase) :
    t.draining p = s.draining p := by
  have phase : ∀ o : Option Txn, (o.any fun x => x.phase == .draining)
      = (o.map Txn.phase).any fun y => y == .draining := fun o => by cases o <;> rfl
  unfold State.draining
  rw [Bool.eq_iff_iff, List.any_eq_true, List.any_eq_true]
  refine exists_congr fun i => and_congr_right fun hi => ?_
  rw [phase, phase, h i (mem_portSlots.1 hi)]

/-- A port that could not leave cannot while its record brings it no nearer to it and its slots keep their phases. -/
theorem mayLeave_false (hs : s.mayLeave p = false)
    (h : t.portState p = .departing ∨ t.portState p = .fencing → (t.ctl.ports.get p).sweepFinished = true →
      t.portState p = s.portState p ∧ (s.ctl.ports.get p).sweepFinished = true
        ∧ ∀ i, slotPort i = some p → (t.txn i).map Txn.phase = (s.txn i).map Txn.phase) : t.mayLeave p = false := by
  by_contra hc
  rw [Bool.not_eq_false] at hc
  have stays : s.mayLeave p = true := by
    unfold State.mayLeave at hc ⊢
    simp only [Bool.or_eq_true, Bool.and_eq_true, beq_iff_eq] at hc ⊢
    rcases hc with ⟨⟨hst, hf⟩, rest⟩ | ⟨⟨hst, hf⟩, rest⟩
    · obtain ⟨same, finished, phases⟩ := h (.inl hst) hf
      exact .inl ⟨⟨same ▸ hst, finished⟩, occupied_eq phases ▸ rest⟩
    · obtain ⟨same, finished, phases⟩ := h (.inr hst) hf
      exact .inr ⟨⟨same ▸ hst, finished⟩, draining_eq phases ▸ rest⟩
  rw [hs] at stays
  cases stays

theorem settled_kept : PortsKept State.settled where
  reset s p := by
    have empty : s.enterReset.portState p = .empty := congrArg PortRec.state (enterReset_rec s p)
    unfold State.mayLeave
    rw [empty]
    rfl
  calm h hs p := mayLeave_false (hs p)
    fun _ hf => ⟨h.portState p, by rwa [h.ports] at hf, fun i hi => h.slots i p hi⟩
  record {s p r} h hs q := by
    refine mayLeave_false (hs q) ?_
    unfold State.portState
    rw [setPort_ports, PerPort.get_set]
    split
    · subst q
      exact fun hst hf => ⟨(h.leaving hst hf).1, (h.leaving hst hf).2, fun _ _ => rfl⟩
    · exact fun _ hf => ⟨rfl, hf, fun _ _ => rfl⟩
  departs {s p} _ hs q := by
    obtain ⟨n, l, v, perm, bounced, -, ends⟩ := enterDeparting_spec s p
    have others : ∀ i, slotPort i ≠ some p → v.txn i = s.txn i := fun i hi =>
      (bounced.slots i).trans (if_neg fun hl => hi (mem_waitingSlots.1 (perm.mem_iff.1 hl)).1)
    rw [ends]
    refine mayLeave_false (hs q) ?_
    unfold State.portState
    dsimp only
    rw [PerPort.get_set]
    split
    · nofun
    · rename_i other
      exact fun _ hf => ⟨rfl, hf, fun i hi => congrArg _ (others i fun hp => other (by rw [hi] at hp; injection hp))⟩
  acts _ ht _ := ht
  fenced {s p} r reason hr hm _ := by
    have member : ((s.setPort p r).portState p).isMember = true := by
      have : (s.setPort p r).portState p = r.state := congrArg PortRec.state (PerPort.get_set_same _ p r)
      rw [this, hr]
      exact hm
    unfold State.fenceMember
    rw [if_pos member]
    exact settle_settled _

/-- Settles O60: the tests end every change that may free a slot or finish a walk, and no other change brings a port
nearer to leaving. -/
theorem stepKeepsPortsSettled : Obligations.StepKeepsPortsSettled := fun _ _ h => settled_kept.step h

end Sys2Proof.Machine
end

section
/-! PROOFS. The output lines, and the membership commands but those that fence: refused, taken, and the entry into
DEPARTING. -/

namespace Sys2Proof.Machine

variable {s t u : State} {p q : Port} {i : SlotId} {g : Granule} {c : MemberCommand}

/-! ### Output lines -/

/-- Settles O12, by the three terms of the line and the records of hub reset. -/
theorem indicatorLine : Obligations.IndicatorLine := by
  refine fun s p => ⟨?_, fun t h => ?_⟩
  · unfold State.indicatorLine State.portState
    simp only [Bool.or_eq_true, beq_iff_eq, or_assoc]
  · injection h with h
    subst h
    unfold State.indicatorLine
    rw [enterReset_rec]
    rfl

theorem holdLine_iff (s : State) (p : Port) : s.holdLine p = true ↔
    s.svc.hubState = .initializing ∨ s.portState p = .fenced ∨ (s.ctl.ports.get p).holdFlag = true := by
  unfold State.holdLine State.portState
  simp only [Bool.or_eq_true, beq_iff_eq, or_assoc]

/-- Every bit of EVENT_STATUS is the bit of an event (10 R202). -/
theorem event_of_bit : ∀ n : Fin 11, ∃ e : Event, e.bit = n.val
  | 0 => ⟨.seated, rfl⟩
  | 1 => ⟨.admitWait, rfl⟩
  | 2 => ⟨.joined, rfl⟩
  | 3 => ⟨.leaveAsked, rfl⟩
  | 4 => ⟨.parked, rfl⟩
  | 5 => ⟨.fenced, rfl⟩
  | 6 => ⟨.protocol, rfl⟩
  | 7 => ⟨.uncorrectable, rfl⟩
  | 8 => ⟨.sweepIdle, rfl⟩
  | 9 => ⟨.initDone, rfl⟩
  | 10 => ⟨.clearDone, rfl⟩

/-- Two sets of events share an event just when their masks share a bit. -/
theorem events_meet (a b : BitVec 11) :
    (a &&& b) ≠ 0 ↔ ∃ e : Event, a.getLsbD e.bit = true ∧ b.getLsbD e.bit = true := by
  constructor
  · intro h
    by_contra apart
    refine h (BitVec.eq_of_getLsbD_eq fun n hn => ?_)
    obtain ⟨e, he⟩ := event_of_bit ⟨n, hn⟩
    rw [BitVec.getLsbD_and, BitVec.ofNat_eq_ofNat, BitVec.getLsbD_zero, ← Bool.not_eq_true, Bool.and_eq_true]
    exact fun both => apart ⟨e, he ▸ both⟩
  · rintro ⟨e, ha, hb⟩ h
    have bit := congrArg (fun v : BitVec 11 => v.getLsbD e.bit) h
    simp [ha, hb] at bit

/-- Settles O13: HOLD by its three terms, ALERT by the bits that the two registers share. -/
theorem holdAndAlertLines : Obligations.HoldAndAlertLines := fun s =>
  ⟨holdLine_iff s, bne_iff_ne.trans (events_meet _ _)⟩

/-! ### Membership commands from the service port -/

theorem exec_member (hs : s.serves) (c : MemberCommand) (port : Byte) :
    exec (c.instr port) s = .next (s.serviceMember c port) := by
  cases c <;> exact transfer_serves hs _

theorem judgeMember_byte (s : State) (c : MemberCommand) (p : Port) :
    s.judgeMember c p.byte = if c.applies (s.ctl.ports.get p) then .ok p else .error .wrongState := by
  cases p <;> rfl

theorem judgeMember_noPort {port : Byte} (h : 4 ≤ port.toNat) (s : State) (c : MemberCommand) :
    s.judgeMember c port = .error .badArgument := by
  have none_there : portOfNumber port.toNat = none := by
    match port.toNat, h with
    | _ + 4, _ => rfl
  unfold State.judgeMember
  rw [none_there]

/-- A command that applies is taken and answered OK (07 R149, 10 R205). -/
theorem exec_member_applies (hs : s.serves) (h : c.applies (s.ctl.ports.get p) = true) :
    exec (c.instr p.byte) s = .next ((State.applyMember c p s).responding [0]) := by
  rw [exec_member hs]
  unfold State.serviceMember
  rw [judgeMember_byte, if_pos h]
  rfl

/-- A command in a state where it does not apply is answered WRONG_STATE (07 R149, 10 R205). -/
theorem exec_member_wrongState (hs : s.serves) (h : c.applies (s.ctl.ports.get p) = false) :
    exec (c.instr p.byte) s = .next (s.responding [9]) := by
  rw [exec_member hs]
  unfold State.serviceMember
  rw [judgeMember_byte, h]
  rfl

/-- Settles O16: the port byte is judged first, and then the state of the port. -/
theorem membershipCommandsAreRefused : Obligations.MembershipCommandsAreRefused := by
  refine fun c s hs => ⟨fun port h => ?_, fun p h => exec_member_wrongState hs ?_⟩
  · rw [exec_member hs]
    unfold State.serviceMember
    rw [judgeMember_noPort h]
    rfl
  · unfold State.portState at h
    rcases h with ⟨rfl, h⟩ | ⟨rfl, h⟩ | ⟨rfl, h, h'⟩ | ⟨rfl, h⟩
    · by_contra applies
      simp only [MemberCommand.applies, Bool.not_eq_false, Bool.and_eq_true, beq_iff_eq, Bool.not_eq_true'] at applies
      exact h applies
    · exact beq_eq_false_iff_ne.2 h
    · change (s.ctl.ports.get p).state.isMember = false
      cases hst : (s.ctl.ports.get p).state <;> first | rfl | exact absurd hst h | exact absurd hst h'
    · exact beq_eq_false_iff_ne.2 h

/-! ### Admission -/

/-- A port is to wait for admission: its hold flag is set or ADMIT_MODE is MANAGED (07 R132). -/
def State.admitsLater (s : State) (p : Port) : Prop :=
  (s.ctl.ports.get p).holdFlag = true ∨ s.ctl.admitMode = .managed

theorem placeCard_open (h : (s.ctl.ports.get p).latchClosed = false) : s.placeCard p = s.movePort p .parked := by
  unfold State.placeCard
  rw [h]
  rfl

theorem admission_later (h : s.admitsLater p) : s.admission p = (s.movePort p .held).raise .admitWait := by
  refine if_pos ?_
  rw [Bool.or_eq_true, beq_iff_eq]
  exact h

theorem admission_now (hf : (s.ctl.ports.get p).holdFlag = false) (hm : s.ctl.admitMode = .auto) :
    s.admission p = s.movePort p .joinable := by
  refine if_neg ?_
  rw [hf, hm]
  nofun

theorem placeCard_closed (h : (s.ctl.ports.get p).latchClosed = true) : s.placeCard p = s.admission p := by
  unfold State.placeCard
  rw [h]
  rfl

/-- Settles O17: ADMIT moves the port, and RELEASE places its card by the latch. -/
theorem portsAreAdmittedAndReleased : Obligations.PortsAreAdmittedAndReleased := by
  intro p s hs r moved
  refine ⟨fun hst hf => ?_, fun hst => ?_⟩
  · refine exec_member_applies (c := .admission) hs ?_
    change ((s.portState p == .held) && !(s.ctl.ports.get p).holdFlag) = true
    rw [hst, show (s.ctl.ports.get p).holdFlag = false from hf]
    rfl
  · have taken : exec (.releasePort p.byte) s = .next ((s.placeCard p).responding [0]) :=
      exec_member_applies (c := .release) hs (beq_iff_eq.2 hst)
    rw [taken]
    refine ⟨fun hl => ?_, fun hl later => ?_, fun hl hf hm => ?_⟩
    · rw [placeCard_open hl]
      rfl
    · rw [placeCard_closed hl, admission_later later]
      rfl
    · rw [placeCard_closed hl, admission_now hf hm]
      rfl

/-! ### The entry into DEPARTING -/

/-- The slots of the port that wait, among all slots. -/
theorem waitingSlots_eq (s : State) (p : Port) :
    s.waitingSlots p = allSlots.filter fun i => slotPort i == some p && s.waits i := by
  unfold State.waitingSlots portSlots
  rw [List.filter_filter]
  exact List.filter_congr fun i _ => Bool.and_comm _ _

/-- A LEAVE of a port whose slots are FREE (07 R138). -/
theorem leaveFrame_idle (hr : s.receives p) (hst : s.portState p = .active) (ho : s.occupied p = 0) (g : Granule) :
    s.leaveFrame p g =
      { s.queued p (.ack 15 0 .ok .none false) with
        sweep := s.departQueued p
        ctl := { s.ctl with ports := s.ctl.ports.set p (s.departed p) } } := by
  have accepted : s.leaveFrame p g = (s.queued p (.ack 15 0 .ok .none false)).enterDeparting p := by
    unfold State.leaveFrame
    rw [hst]
    dsimp only
    rw [if_pos ho, send_eq_queued hr.2.1 (isFenced_of_member (.inl hst))]
  have idle : (s.queued p (.ack 15 0 .ok .none false)).waitingSlots p = [] := by
    refine List.filter_eq_nil_iff.2 fun i hi waits => ?_
    obtain ⟨x, hx, -⟩ := waits_iff.1 waits
    exact List.countP_eq_zero.1 ho i hi (by rw [show s.txn i = some x from hx]; rfl)
  obtain ⟨n, l, v, -, -, unchanged, ends⟩ := enterDeparting_spec (s.queued p (.ack 15 0 .ok .none false)) p
  obtain ⟨rfl, table, ifaces⟩ := unchanged idle
  rw [accepted, ends, table, ifaces]
  rfl

/-- Settles O18: an accepted LEAVE and an EJECT are the one entry into DEPARTING, from which the slots that wait, the
chains and the bounces are read. -/
theorem portsEnterDeparting : Obligations.PortsEnterDeparting := by
  intro p s hst left sweep wait
  refine ⟨fun hr ho g => ?_, fun hs up => ?_⟩
  · refine (exec_takes hr (.leave g)).trans (congrArg _ ?_)
    unfold State.takeFrame
    rw [isFenced_of_member (.inl hst)]
    exact leaveFrame_idle hr hst ho g
  · obtain ⟨n, l, v, perm, bounced, -, ends⟩ := enterDeparting_spec s p
    have mem : ∀ i, i ∈ l ↔ wait i = true := fun i => by
      rw [perm.mem_iff, waitingSlots_eq, List.mem_filter]
      exact and_iff_right (mem_allSlots i)
    have own : s.transactionsLawful → State.ChainsOwn { s.movePort p .departing with freeDraws := n } := fun hlaw =>
      ⟨hlaw.chainsOwn.canonical, hlaw.chainsOwn.nodup, hlaw.chainsOwn.own⟩
    have state : (s.movePort p .departing).portState p = .departing := modifyPort_portState s p _
    have links := bounced.link up (congrArg PortState.isFenced state)
    have taken := exec_member_applies (c := .eject) (p := p) hs (beq_iff_eq.2 hst)
    have told : State.applyMember .eject p s = (s.enterDeparting p).queued p (.notice (.leaveAskedEject p) s.ctl.epoch) := by
      change (s.enterDeparting p).send p (.notice (.leaveAskedEject p) (s.enterDeparting p).ctl.epoch) = _
      rw [ends]
      refine send_eq_queued ?_ ?_ _
      · rw [links, PerPort.get_set_same]
        exact up
      · unfold State.portState
        rw [PerPort.get_set_same]
        rfl
    refine ⟨_, l.filterMap s.departBounce, taken, ?_, ?_, fun i => ?_, fun hlaw g => ?_, ?_⟩
    · rw [told, ends]
      unfold State.queued State.responding
      dsimp only
      rw [links, PerPort.get_set_same, PerPort.set_set]
      rfl
    · rw [told, ends]
      exact bounced.limit
    · rw [told, ends]
      refine (bounced.slots i).trans ?_
      simp only [mem]
      rfl
    · rw [told, ends]
      refine (bounced.chains (own hlaw) g).trans (List.filter_congr fun i _ => ?_)
      simp only [mem]
      cases wait i <;> rfl
    · refine (perm.filterMap s.departBounce).trans ?_
      rw [waitingSlots_eq]
      exact .refl _

/-! ### HOLD_OFF -/

/-- Code 8 of a granted member is HOLD_OFF (09 R185, R193). -/
theorem controlJudged_holdOff {b : ControlBlock} (hg : (s.ctl.ports.get q).controlGrant = true)
    (hc : b.code.toNat = 8) (g : Granule) : s.controlJudged q g b = s.controlMember q g .holdOff b.arg := by
  have command : controlCommand b.code = some (.member .holdOff) := by
    unfold controlCommand
    rw [hc]
    rfl
  unfold State.controlJudged
  rw [hg, command]
  rfl

/-- The record of a port whose hold flag has been cleared, and its HOLD line (07 R129, R151). -/
theorem holdLine_released (hub : t.svc.hubState = s.svc.hubState)
    (hr : t.ctl.ports.get p = { s.ctl.ports.get p with holdFlag := false }) :
    t.portState p = s.portState p ∧ (t.ctl.ports.get p).holdFlag = false
      ∧ (t.holdLine p = true ↔ s.portState p = .fenced ∨ s.svc.hubState = .initializing) := by
  have state : t.portState p = s.portState p := (congrArg PortRec.state hr :)
  refine ⟨state, (congrArg PortRec.holdFlag hr :), ?_⟩
  rw [holdLine_iff, hub, state, hr]
  simp only [Bool.false_eq_true, or_false]
  exact or_comm

/-- Settles O20: HOLD_OFF is one change of the record from either source, and the ACK to a member may stand before or
behind it. -/
theorem holdOffReleases : Obligations.HoldOffReleases := by
  intro p s cleared released
  have record : cleared.ctl.ports.get p = { s.ctl.ports.get p with holdFlag := false } := PerPort.get_set_same _ p _
  refine ⟨fun hs => ⟨_, exec_member_applies (c := .holdOff) hs rfl, rfl, holdLine_released rfl record⟩, ?_⟩
  rintro q g b hr hm hg hc harg
  have ack : ∀ u : State, u.ifaces = s.ifaces → u.portState q = s.portState q →
      u.controlAck q 0 = u.queued q (.ack 14 0 .ok (.value 0) false) := fun u hi hst =>
    send_eq_queued (by rw [hi]; exact hr.2.1) (by rw [hst]; exact isFenced_of_member hm) _
  have state : ∀ n, ({ cleared with freeDraws := n } : State).portState q = s.portState q := fun n => by
    unfold State.portState
    refine (congrArg PortRec.state (PerPort.get_set s.ctl.ports p q _)).trans ?_
    split
    · subst q; rfl
    · rfl
  have taken : ∃ n, s.controlJudged q g b
      = ({ cleared with freeDraws := n } : State).queued q (.ack 14 0 .ok (.value 0) false) := by
    rw [controlJudged_holdOff hg hc]
    unfold State.controlMember
    rw [harg, judgeMember_byte, if_pos (show MemberCommand.holdOff.applies _ = true from rfl)]
    obtain ⟨n, order | order⟩ := inFreeOrder_two s (fun s => s.controlAck q 0) (State.applyMember .holdOff p)
    · exact ⟨n, order.trans (congrArg (State.applyMember .holdOff p) (ack { s with freeDraws := n } rfl rfl))⟩
    · refine ⟨n, order.trans ?_⟩
      exact ack { cleared with freeDraws := n } rfl (state n)
  obtain ⟨n, taken⟩ := taken
  refine ⟨_, (exec_control hr hm g b).trans (congrArg _ taken), rfl, holdLine_released rfl record⟩

end Sys2Proof.Machine
end

section
/-! PROOFS. Line events of ports that no event fences, and the answers to JOIN and LEAVE. -/

namespace Sys2Proof.Machine

variable {s t u : State} {p q : Port} {i : SlotId} {g : Granule}

/-! ### Presence events -/

theorem exec_presence (hr : s.inReset = false) (p : Port) (asserted : Bool) :
    exec (.presenceEvent p asserted) s = .next (State.presence p asserted s) := change_running hr _

theorem modifyPort_rec (s : State) (p : Port) (f : PortRec → PortRec) :
    (s.modifyPort p f).ctl.ports.get p = f (s.ctl.ports.get p) := PerPort.get_set_same _ p _

theorem modified_admission_now (f : PortRec → PortRec) (hf : (f (s.ctl.ports.get p)).holdFlag = false)
    (hm : s.ctl.admitMode = .auto) :
    (s.modifyPort p f).admission p = s.modifyPort p fun r => { f r with state := .joinable } := by
  rw [admission_now (s := s.modifyPort p f) ((congrArg _ (modifyPort_rec s p f)).trans hf) hm, modifyPort_movePort]

theorem modified_admission_later (f : PortRec → PortRec)
    (h : (f (s.ctl.ports.get p)).holdFlag = true ∨ s.ctl.admitMode = .managed) :
    (s.modifyPort p f).admission p = (s.modifyPort p fun r => { f r with state := .held }).raise .admitWait := by
  have later : (s.modifyPort p f).admitsLater p := by
    unfold State.admitsLater
    rw [modifyPort_rec]
    exact h
  rw [admission_later later, modifyPort_movePort]

theorem modified_placeCard_open (f : PortRec → PortRec) (hl : (f (s.ctl.ports.get p)).latchClosed = false) :
    (s.modifyPort p f).placeCard p = s.modifyPort p fun r => { f r with state := .parked } := by
  rw [placeCard_open (s := s.modifyPort p f) ((congrArg _ (modifyPort_rec s p f)).trans hl), modifyPort_movePort]

theorem modified_placeCard_closed (f : PortRec → PortRec) (hl : (f (s.ctl.ports.get p)).latchClosed = true) :
    (s.modifyPort p f).placeCard p = (s.modifyPort p f).admission p :=
  placeCard_closed (s := s.modifyPort p f) ((congrArg _ (modifyPort_rec s p f)).trans hl)

/-- A card comes into a port: the field is updated, and the card placed where the port was EMPTY (07 R131). -/
theorem presence_comes (h : (s.ctl.ports.get p).present = false) :
    State.presence p true s =
      if s.portState p = .empty then
        ((s.modifyPort p fun r => { r with present := true }).placeCard p).raise .seated
      else s.modifyPort p fun r => { r with present := true } := by
  unfold State.presence
  rw [h, if_neg nofun]
  dsimp only
  rw [modifyPort_portState]
  unfold State.portState
  cases (s.ctl.ports.get p).state <;> rfl

/-- A card is lost that no member loses: the port is EMPTY, or still FENCING (07 R134, R147, R148). -/
theorem presence_goes (h : (s.ctl.ports.get p).present = true) (hm : (s.portState p).isMember = false) :
    State.presence p false s =
      if s.portState p = .empty ∨ s.portState p = .fencing then s.modifyPort p fun r => { r with present := false }
      else s.modifyPort p fun r => { r with present := false, state := .empty } := by
  unfold State.presence
  rw [h, if_neg nofun]
  dsimp only
  rw [modifyPort_portState, modifyPort_movePort]
  unfold State.portState at hm ⊢
  cases hst : (s.ctl.ports.get p).state
  case active => rw [hst] at hm; cases hm
  case departing => rw [hst] at hm; cases hm
  all_goals rfl

/-- Settles O23: a card that comes is placed where the port is EMPTY, and a card that goes leaves it EMPTY. -/
theorem presenceEvents : Obligations.PresenceEvents := by
  intro p s hr r
  refine ⟨fun hpres hst => ?_, fun hpres hst => ?_, fun hpres hst => ?_, fun hpres hst => ?_⟩
  · intro seated
    rw [exec_presence hr, presence_comes hpres, if_pos hst]
    refine ⟨fun hl => ?_, fun hl hf hm => ?_, fun hl later => ?_⟩
    · rw [modified_placeCard_open _ hl]
      rfl
    · rw [modified_placeCard_closed _ hl, modified_admission_now _ hf hm]
      rfl
    · rw [modified_placeCard_closed _ hl, modified_admission_later _ later]
      rfl
  · rw [exec_presence hr, presence_comes hpres, if_neg hst]
    rfl
  · have leaves : (s.portState p).isMember = false ∧ ¬ (s.portState p = .empty ∨ s.portState p = .fencing) := by
      rcases hst with h | h | h | h <;> rw [h] <;> exact ⟨rfl, by decide⟩
    rw [exec_presence hr, presence_goes hpres leaves.1, if_neg leaves.2]
    rfl
  · have stays : (s.portState p).isMember = false := by rcases hst with h | h <;> rw [h] <;> rfl
    rw [exec_presence hr, presence_goes hpres stays, if_pos hst]
    rfl

/-! ### Latch events -/

theorem exec_latch (hr : s.inReset = false) (p : Port) (closed : Bool) :
    exec (.latchEvent p closed) s = .next (State.latch p closed s) := change_running hr _

theorem sendNotice_one (s : State) (p : Port) (n : Notice) :
    s.sendNotice [p] n = s.send p (.notice n s.ctl.epoch) := rfl

/-- A latch event that closes the latch, by the port's state (07 R131, R137). -/
theorem latch_closes (h : (s.ctl.ports.get p).latchClosed = false) :
    State.latch p true s =
      let recorded := s.modifyPort p fun r => { r with latchClosed := true }
      if s.portState p = .parked then recorded.admission p
      else if s.portState p = .active then
        (s.modifyPort p fun r => { r with latchClosed := true, leaveAsked := false }).send p
          (.notice (.leaveWithdrawn p) s.ctl.epoch)
      else recorded := by
  unfold State.latch
  rw [h, if_neg nofun]
  dsimp only
  rw [modifyPort_portState, modifyPort_modifyPort]
  unfold State.portState
  cases (s.ctl.ports.get p).state <;> rfl

/-- A latch event that opens the latch, by the port's state (07 R134, R137). -/
theorem latch_opens (h : (s.ctl.ports.get p).latchClosed = true) :
    State.latch p false s =
      if s.portState p = .active then
        ((s.modifyPort p fun r => { r with latchClosed := false, leaveAsked := true }).send p
          (.notice (.leaveAskedLatch p) s.ctl.epoch)).raise .leaveAsked
      else if s.portState p = .held ∨ s.portState p = .joinable then
        s.modifyPort p fun r => { r with latchClosed := false, state := .parked }
      else s.modifyPort p fun r => { r with latchClosed := false } := by
  unfold State.latch
  rw [h, if_neg nofun]
  dsimp only
  simp only [modifyPort_portState, modifyPort_modifyPort, modifyPort_movePort]
  unfold State.portState
  cases (s.ctl.ports.get p).state <;> rfl

/-- Settles O24, by the state of the port for either level of the line. -/
theorem latchEvents : Obligations.LatchEvents := by
  intro p s hr r recorded
  refine ⟨fun hl hst => ?_, fun hl hst => ?_, fun hl h1 h2 => ?_, fun hl hst => ?_, fun hl hst => ?_,
    fun hl h1 h2 h3 => ?_⟩
  · have admits : State.latch p true s = (s.modifyPort p fun r => { r with latchClosed := true }).admission p :=
      (latch_closes hl).trans (if_pos hst)
    rw [exec_latch hr, admits]
    refine ⟨fun hf hm => ?_, fun later => ?_⟩
    · rw [modified_admission_now _ hf hm]
      rfl
    · rw [modified_admission_later _ later]
      rfl
  · rw [exec_latch hr, latch_closes hl, hst]
    rfl
  · rw [exec_latch hr, latch_closes hl]
    dsimp only
    rw [if_neg h1, if_neg h2]
    rfl
  · have other : s.portState p ≠ .active := by rcases hst with h | h <;> rw [h] <;> nofun
    rw [exec_latch hr, latch_opens hl, if_neg other, if_pos hst]
    rfl
  · rw [exec_latch hr, latch_opens hl, if_pos hst]
    rfl
  · rw [exec_latch hr, latch_opens hl, if_neg h3, if_neg (not_or.2 ⟨h1, h2⟩)]
    rfl

/-! ### JOIN and LEAVE -/

theorem exec_join (hr : s.receives p) (hf : (s.portState p).isFenced = false) (g : Granule) :
    exec (.join p g) s = .next (s.joinFrame p g) := by
  refine (exec_takes hr (.join g)).trans (congrArg _ ?_)
  unfold State.takeFrame
  rw [hf]
  rfl

theorem exec_leave (hr : s.receives p) (hf : (s.portState p).isFenced = false) (g : Granule) :
    exec (.leave p g) s = .next (s.leaveFrame p g) := by
  refine (exec_takes hr (.leave g)).trans (congrArg _ ?_)
  unfold State.takeFrame
  rw [hf]
  rfl

/-- Settles O25: the ACK stands on the port's link, and the notice behind it there and on the link of every other port in
ACTIVE. -/
theorem joinIsAccepted : Obligations.JoinIsAccepted := by
  intro p g s hr hst hrun up
  have accepted : exec (.join p g) s = .next (s.joinAccepted p) := by
    rw [exec_join hr (by rw [hst]; rfl)]
    unfold State.joinFrame
    rw [hst, hrun]
  let member : State := s.bumpEpoch.modifyPort p fun r =>
    { r with state := .active, joinedEpoch := some (s.ctl.epoch + 1), fenceReason := none }
  have states : ∀ q, member.portState q = if q = p then .active else s.portState q := fun q => by
    refine (congrArg PortRec.state (PerPort.get_set s.ctl.ports p q _)).trans ?_
    split <;> rfl
  let ack : HubFrame := .ack 15 0 .ok (.value ((s.ctl.epoch + 1).setWidth 64)) false
  have acked : member.send p ack = member.queued p ack :=
    send_eq_queued (s := member) hr.2.1 (by rw [states, if_pos rfl]; rfl) _
  have joined : s.joinAccepted p
      = ((member.queued p ack).sendNotice (member.queued p ack).activePorts (.memberUp p)).raise .joined := by
    rw [← acked]
    rfl
  obtain ⟨rest, links⟩ := sendNotice_active (s := member.queued p ack) (.memberUp p)
  refine ⟨_, accepted.trans (congrArg _ joined), congrArg (State.raise · .joined) rest, fun q => ?_⟩
  · change ((member.queued p ack).sendNotice (member.queued p ack).activePorts (.memberUp p)).ifaces.get q = _
    rw [links, show (member.queued p ack).portState q = member.portState q from rfl, states, queued_iface]
    by_cases hq : q = p
    · subst hq
      have linkUp : (s.ifaces.get q).linkUp = true := hr.2.1
      simp only [if_true, true_and]
      rw [if_pos (show (member.ifaces.get q).linkUp = true from linkUp), List.append_assoc]
      rfl
    · simp only [if_neg hq, List.append_nil]
      rfl

/-- Settles O26, by the state of the port and of the hub. -/
theorem joinAndLeaveAreAnswered : Obligations.JoinAndLeaveAreAnswered := by
  intro p g s hr bounced
  have bounce : (s.portState p).isFenced = false → ∀ reason, s.bounce15 p g reason = bounced reason :=
    fun hf _ => send_eq_queued hr.2.1 hf _
  have join : ∀ reason, (s.portState p).isFenced = false → s.joinFrame p g = s.bounce15 p g reason →
      exec (.join p g) s = .next (bounced reason) := fun reason hf h => by rw [exec_join hr hf, h, bounce hf]
  have leave : ∀ reason, (s.portState p).isFenced = false → s.leaveFrame p g = s.bounce15 p g reason →
      exec (.leave p g) s = .next (bounced reason) := fun reason hf h => by rw [exec_leave hr hf, h, bounce hf]
  refine ⟨fun hst hub => ?_, fun hst hub => ?_, fun hst => ?_, fun hst => ?_, fun hst ho => ?_, fun hst => ?_,
    fun hst => ?_⟩
  · exact join _ (by rw [hst]; rfl) (by unfold State.joinFrame; rw [hst, hub])
  · exact join _ (by rw [hst]; rfl) (by unfold State.joinFrame; rw [hst, hub])
  · rcases hst with hst | hst | hst <;> exact join _ (by rw [hst]; rfl) (by unfold State.joinFrame; rw [hst])
  · rcases hst with hst | hst <;> exact join _ (by rw [hst]; rfl) (by unfold State.joinFrame; rw [hst])
  · exact leave _ (by rw [hst]; rfl) (by unfold State.leaveFrame; rw [hst]; exact if_neg (by omega))
  · exact leave _ (by rw [hst]; rfl) (by unfold State.leaveFrame; rw [hst])
  · rcases hst with hst | hst | hst | hst <;> exact leave _ (by rw [hst]; rfl) (by unfold State.leaveFrame; rw [hst])

end Sys2Proof.Machine
end

section
/-! PROOFS. The record of a fenced member, and HOLD_ON. -/

namespace Sys2Proof.Machine

variable {s t u : State} {p q : Port} {i : SlotId} {g : Granule} {r : PortRec}

/-! ### The record of a fenced member -/

/-- The record of a port at the entry into FENCING (07 R144). -/
def PortRec.fencedFor (r : PortRec) (reason : FenceReason) : PortRec :=
  { r with
    state := .fencing, fenceReason := some reason, deadline := none, leaveAsked := false, sweepFinished := false }

theorem mayLeave_unfinished (h : (s.ctl.ports.get p).sweepFinished = false) : s.mayLeave p = false := by
  unfold State.mayLeave
  simp [h]

/-- The tests leave a port alone whose sweep has not finished. -/
theorem settleRounds_record (n : Nat) : ∀ {s : State}, (s.ctl.ports.get p).sweepFinished = false →
    (s.settleRounds n).ctl.ports.get p = s.ctl.ports.get p := by
  induction n with
  | zero => exact fun _ => rfl
  | succ n ih =>
    intro s h
    simp only [State.settleRounds]
    split
    · rfl
    · rename_i q qs ready
      rw [← ready]
      have out : p ∉ Port.all.filter s.mayLeave := fun hp => by
        have may := (List.mem_filter.1 hp).2
        rw [mayLeave_unfinished h] at may
        cases may
      obtain ⟨m, l, perm, order⟩ := inFreeOrder_map (s := s) State.leaveIfReady (Port.all.filter s.mayLeave)
      have nodup : l.Nodup := perm.nodup_iff.2 ((by decide : Port.all.Nodup).filter _)
      obtain ⟨-, others⟩ := round_spec l { s with freeDraws := m } nodup fun a ha =>
        (List.mem_filter.1 (perm.mem_iff.1 ha)).2
      have same := others p fun hp => out (perm.mem_iff.1 hp)
      rw [order]
      exact (ih (same.symm ▸ h : _)).trans same

theorem enterFencing_record (s : State) (p : Port) (reason : FenceReason) :
    (State.enterFencing reason s p).ctl.ports.get p = (s.ctl.ports.get p).fencedFor reason :=
  PerPort.get_set_same s.ctl.ports p _

theorem requestFence_ctl (s : State) (p : Port) : (s.requestFence p).ctl = s.ctl :=
  (requestFence_moves (K := fun _ => True) (A := True) p).quiet.ctl

/-- Whatever its slots and the sweep do, the record of a fenced member is the one of fence entry (07 R144). -/
theorem fenceMember_record (hm : (s.portState p).isMember = true) (reason : FenceReason) :
    (s.fenceMember p reason).ctl.ports.get p = (s.ctl.ports.get p).fencedFor reason := by
  obtain ⟨u, moves, ends⟩ := fenceMember_moves hm reason
  have record : u.ctl.ports.get p = (s.ctl.ports.get p).fencedFor reason := by
    rw [moves.quiet.ctl, enterFencing_record, requestFence_ctl]
  rw [ends]
  exact (settleRounds_record 4 (congrArg PortRec.sweepFinished record)).trans record

/-! ### HOLD_ON -/

/-- HOLD_ON of a member fences it with the flag set (07 R150). -/
theorem holdOn_member (hm : (s.portState p).isMember = true) :
    s.holdOn p = (s.modifyPort p fun r => { r with holdFlag := true }).fenceMember p .hold := by
  unfold State.holdOn
  dsimp only
  rw [modifyPort_portState]
  unfold State.portState at hm
  dsimp only
  generalize (s.ctl.ports.get p).state = st at hm
  cases st with
  | active | departing => rfl
  | empty | parked | held | joinable | fencing | fenced => cases hm

/-- HOLD_ON of a port that is neither a member nor JOINABLE sets the flag (07 R150). -/
theorem holdOn_kept (hm : (s.portState p).isMember = false) (hj : s.portState p ≠ .joinable) :
    s.holdOn p = s.modifyPort p fun r => { r with holdFlag := true } := by
  unfold State.holdOn
  dsimp only
  rw [modifyPort_portState]
  unfold State.portState at hm hj
  dsimp only
  generalize (s.ctl.ports.get p).state = st at hm hj
  cases st with
  | active | departing => cases hm
  | joinable => exact absurd rfl hj
  | empty | parked | held | fencing | fenced => rfl

theorem holdOn_joinable (h : s.portState p = .joinable) :
    s.holdOn p = s.modifyPort p fun r => { r with holdFlag := true, state := .held } := by
  unfold State.holdOn
  dsimp only
  rw [modifyPort_portState, modifyPort_movePort]
  unfold State.portState at h
  rw [h]

/-- Settles O19: the flag is set in every state, and a member's fence entry keeps it. -/
theorem holdOnHolds : Obligations.HoldOnHolds := by
  intro p s hs r
  have taken : exec (.holdOn p.byte) s = .next ((s.holdOn p).responding [0]) := exec_member_applies (c := .holdOn) hs rfl
  have member : (s.portState p).isMember = true →
      (s.holdOn p).ctl.ports.get p = { r with holdFlag := true }.fencedFor .hold := fun hm => by
    rw [holdOn_member hm, fenceMember_record (by rw [modifyPort_portState]; exact hm), modifyPort_rec]
  refine ⟨fun hst => ?_, fun hst => ?_, fun hst => ?_, fun t h => ?_⟩
  · rw [taken, holdOn_joinable hst]
    rfl
  · have kept : (s.portState p).isMember = false ∧ s.portState p ≠ .joinable := by
      rcases hst with h | h | h | h | h <;> rw [h] <;> exact ⟨rfl, nofun⟩
    rw [taken, holdOn_kept kept.1 kept.2]
    rfl
  · exact ⟨_, taken, rfl, member (by rcases hst with h | h <;> rw [h] <;> rfl)⟩
  · have flag : ((s.holdOn p).ctl.ports.get p).holdFlag = true := by
      by_cases hm : (s.portState p).isMember = true
      · rw [member hm]
        rfl
      · rw [Bool.not_eq_true] at hm
        by_cases hj : s.portState p = .joinable
        · rw [holdOn_joinable hj, modifyPort_rec]
        · rw [holdOn_kept hm hj, modifyPort_rec]
    rw [taken] at h
    injection h with h
    subst h
    exact (holdLine_iff _ p).2 (.inr (.inr flag))

end Sys2Proof.Machine
end

section
/-! PROOFS. The fence entry of a member whose slots are FREE and which no transaction awaits. -/

namespace Sys2Proof.Machine

variable {s t u : State} {p q : Port} {i : SlotId} {g : Granule} {v w : Sweep}

/-! ### The FENCE request -/

/-- The sweep engine before and after a FENCE request of a port that has none: the job is queued, or takes the place of
the port's DEPART job, and the wait of a running one ends (07 R145, 08 R160). -/
def Sweep.FenceAsked (v w : Sweep) (p : Port) : Prop :=
  .depart p ∉ v.jobs ∧ .fence p ∉ v.jobs
      ∧ w = { v with jobs := v.jobs ++ [.fence p], walk := if v.jobs = [] then .start else v.walk }
    ∨ ∃ a b, v.jobs = a ++ .depart p :: b ∧ .depart p ∉ a ++ b ∧ .fence p ∉ a ++ b
        ∧ w = { v with
          jobs := a ++ .fence p :: b
          walk :=
            if v.jobs.head? == some (.depart p) && (v.walk.pause == .evicting || v.walk.pause == .slotInUse)
            then { v.walk with pause := .none } else v.walk }

theorem requestFence_fresh (hd : .depart p ∉ s.sweep.jobs) (hf : .fence p ∉ s.sweep.jobs) :
    s.requestFence p = s.queueJob (.fence p) := by
  unfold State.requestFence
  cases hj : s.sweep.jobs with
  | nil => rfl
  | cons j js =>
    rw [hj, List.mem_cons, not_or] at hd hf
    dsimp only
    rw [if_neg (not_or.2 ⟨Ne.symm hf.1, hf.2⟩), if_neg (Ne.symm hd.1), if_neg hd.2]

/-- The running DEPART job is converted (08 R160). -/
theorem requestFence_running {b : List Job} (hj : s.sweep.jobs = .depart p :: b) (hf : .fence p ∉ b) :
    s.requestFence p = s.setSweep { s.sweep with
      jobs := .fence p :: b
      walk := if s.departWaits p then { s.sweep.walk with pause := .none } else s.sweep.walk } := by
  unfold State.requestFence
  rw [hj]
  dsimp only
  rw [if_neg (not_or.2 ⟨nofun, hf⟩), if_pos rfl]
  split <;> rfl

/-- A DEPART job that waits is replaced (08 R159). -/
theorem requestFence_waiting {a b : List Job} {j : Job} (hj : s.sweep.jobs = j :: a ++ .depart p :: b)
    (hd : .depart p ∉ j :: a ++ b) (hf : .fence p ∉ j :: a ++ b) :
    s.requestFence p = s.setSweep { s.sweep with jobs := j :: a ++ .fence p :: b } := by
  simp only [List.cons_append, List.mem_cons, List.mem_append, not_or] at hd hf
  obtain ⟨hdj, hda, hdb⟩ := hd
  obtain ⟨hfj, hfa, hfb⟩ := hf
  have kept : ∀ l : List Job, .depart p ∉ l → (l.map fun x => if x = .depart p then .fence p else x) = l := fun l hl =>
    (List.map_congr_left fun x hx => if_neg fun h => hl (by rwa [h] at hx)).trans (List.map_id l)
  unfold State.requestFence
  rw [hj, List.cons_append]
  dsimp only
  rw [if_neg (by simp [Ne.symm hfj, hfa, hfb]), if_neg (Ne.symm hdj), if_pos (by simp), List.map_append,
    List.map_cons, kept a hda, kept b hdb, if_pos rfl]
  rfl

theorem requestFence_asked (h : s.sweep.FenceAsked w p) : s.requestFence p = s.setSweep w := by
  rcases h with ⟨hd, hf, rfl⟩ | ⟨a, b, hj, hd, hf, rfl⟩
  · rw [requestFence_fresh hd hf, queueJob_eq]
  · cases a with
    | nil => exact requestFence_running hj hf
    | cons j a =>
      have later : ¬ ((s.sweep.jobs.head? == some (.depart p)
          && (s.sweep.walk.pause == .evicting || s.sweep.walk.pause == .slotInUse)) = true) := by
        rw [hj, List.cons_append, List.head?_cons, Bool.and_eq_true, beq_iff_eq, Option.some_inj]
        exact fun h => hd (h.1 ▸ List.mem_cons_self)
      rw [requestFence_waiting hj hd hf, if_neg later]

/-- A DEPART job that waited is the FENCE job at the head now, and waits no more. -/
theorem departWaits_asked (h : s.sweep.FenceAsked w p) (hw : s.departWaits p = true) :
    w.walk.pause = .none ∧ ∃ js, w.jobs = .fence p :: js := by
  have running : s.sweep.jobs.head? = some (.depart p) := by
    unfold State.departWaits at hw
    rw [Bool.and_eq_true, beq_iff_eq] at hw
    exact hw.1
  rcases h with ⟨hd, -, -⟩ | ⟨a, b, hj, hd, -, rfl⟩
  · exact absurd (List.mem_of_mem_head? running) hd
  · have ended : (if s.departWaits p then { s.sweep.walk with pause := .none } else s.sweep.walk)
        = { s.sweep.walk with pause := .none } := if_pos hw
    refine ⟨congrArg Walk.pause ended, ?_⟩
    cases a with
    | nil => exact ⟨b, rfl⟩
    | cons j a =>
      rw [hj, List.cons_append, List.head?_cons, Option.some_inj] at running
      exact absurd (running ▸ List.mem_cons_self) hd

/-! ### The fence entry -/

/-- A member whose slots are FREE and which no transaction awaits, while no other port waits to leave. -/
structure State.IdleMember (s : State) (p : Port) : Prop where
  member : (s.portState p).isMember = true
  slots : ∀ i, slotPort i = some p → s.txn i = none
  unawaited : ∀ i x, s.txn i = some x → x.awaited.get p = none
  settled : ∀ q, q ≠ p → s.mayLeave q = false

theorem State.IdleMember.mono (h : s.IdleMember p) (hm : (t.portState p).isMember = true) (table : t.table = s.table)
    (others : ∀ q, q ≠ p → t.ctl.ports.get q = s.ctl.ports.get q) : t.IdleMember p := by
  have txn : ∀ i, t.txn i = s.txn i := fun i => by unfold State.txn; rw [table]
  refine ⟨hm, fun i hi => (txn i).trans (h.slots i hi), fun i x hx => h.unawaited i x ((txn i).symm.trans hx),
    fun q hq => mayLeave_false (h.settled q hq) fun _ hf => ?_⟩
  rw [others q hq] at hf
  exact ⟨congrArg PortRec.state (others q hq), hf, fun i _ => congrArg _ (txn i)⟩

/-- The slot's transaction awaits the port. -/
def State.awaits (s : State) (p : Port) (i : SlotId) : Bool := (s.txn i).any fun x => (x.awaited.get p).isSome

/-- The fence entry of a member whose own slots are FREE resolves it in the slots that await it. -/
theorem fenceEntries_free (free : ∀ i, slotPort i = some p → s.txn i = none) (reason : FenceReason) :
    s.fenceEntries [p] reason = (State.enterFencing reason s p).inFreeOrder
      ((allSlots.filter (s.awaits p)).map (State.resolveAbsent p true)) := by
  have txn : ∀ i, (State.enterFencing reason s p).txn i = s.txn i := fun _ => rfl
  generalize hu : State.enterFencing reason s p = u at txn
  have owned : ∀ {i}, ownedBy [p] i = true → u.txn i = none := fun {i} hi => by
    refine (txn i).trans (free i ?_)
    unfold ownedBy at hi
    rw [Option.any_eq_true] at hi
    obtain ⟨q, hq, hp⟩ := hi
    rw [hq, List.mem_singleton.1 (List.contains_iff_mem.1 hp)]
  have dropped : (allSlots.filter (ownedBy [p])).foldl State.dropIfWaiting u = u := by
    have none_waits : ∀ l : List SlotId, (∀ i ∈ l, u.txn i = none) → l.foldl State.dropIfWaiting u = u := fun l => by
      induction l with
      | nil => exact fun _ => rfl
      | cons i l ih =>
        intro hl
        have drop : u.dropIfWaiting i = u := by
          unfold State.dropIfWaiting
          rw [hl i List.mem_cons_self]
        rw [List.foldl_cons, drop]
        exact ih fun j hj => hl j (List.mem_cons_of_mem i hj)
    exact none_waits _ fun i hi => owned (List.mem_filter.1 hi).2
  have task : u.fenceTask [p] = fun i => if s.awaits p i = true then some (State.resolveAbsent p true i) else none := by
    funext i
    unfold State.fenceTask State.awaits
    cases hx : u.txn i with
    | none => rw [← txn, hx]; rfl
    | some x =>
      have other : ownedBy [p] i ≠ true := fun hi => by rw [owned hi] at hx; cases hx
      dsimp only
      rw [if_neg other, ← txn, hx, List.any_cons, List.any_nil, Bool.or_false]
      rfl
  unfold State.fenceEntries
  rw [List.foldl_cons, List.foldl_nil, hu]
  dsimp only
  rw [dropped, task]
  refine congrArg _ ?_
  rw [← List.filterMap_eq_map, List.filterMap_filter]
  rfl

theorem fenceEntries_idle (h : s.IdleMember p) (reason : FenceReason) :
    s.fenceEntries [p] reason = State.enterFencing reason s p := by
  have unawaited : allSlots.filter (s.awaits p) = [] := List.filter_eq_nil_iff.2 fun i _ hi => by
    obtain ⟨x, hx, awaits⟩ := (Option.any_eq_true _ _).1 hi
    rw [h.unawaited i x hx] at awaits
    cases awaits
  rw [fenceEntries_free h.slots, unawaited]
  rfl

/-- The fence entry of an idle member: its record, its interface and the sweep queue change, and a converted walk that
waited visits its entry (07 R144, R145, 08 R160). -/
theorem fenceMember_idle (h : s.IdleMember p) (hw : s.sweep.FenceAsked w p) (reason : FenceReason) :
    s.fenceMember p reason =
      if s.departWaits p then (State.enterFencing reason (s.setSweep w) p).visit
      else State.enterFencing reason (s.setSweep w) p := by
  have asked : (s.setSweep w).IdleMember p := h.mono h.member rfl fun _ _ => rfl
  have settled : (State.enterFencing reason (s.setSweep w) p).settled := fun q => by
    by_cases hq : q = p
    · subst hq
      refine mayLeave_unfinished ?_
      rw [enterFencing_record]
      rfl
    · refine mayLeave_false (asked.settled q hq) fun _ hf => ?_
      have same : (State.enterFencing reason (s.setSweep w) p).ctl.ports.get q = (s.setSweep w).ctl.ports.get q :=
        (PerPort.get_set _ p q _).trans (if_neg hq)
      rw [same] at hf
      exact ⟨congrArg PortRec.state same, hf, fun _ _ => rfl⟩
  unfold State.fenceMember
  rw [if_pos h.member, requestFence_asked hw, fenceEntries_idle asked]
  dsimp only
  split
  · exact settle_of_settled (settled_kept.calm (visit_calm _) settled)
  · exact settle_of_settled settled

/-! ### The visit and the response -/

/-- What the response bytes of the service port have no part in. -/
def Unanswering (f : State → State) : Prop := ∀ (s : State) (r : List Byte), f (s.responding r) = (f s).responding r

theorem moveOn_responding : Unanswering State.moveOn := by
  intro s r
  have complete : (s.responding r).completeJob = s.completeJob.responding r := by
    unfold State.completeJob
    change (match s.sweep.jobs with | [] => _ | [j] => _ | j :: js => _) = _
    match s.sweep.jobs with
    | [] => rfl
    | [_] => rfl
    | _ :: _ :: _ => rfl
  unfold State.moveOn
  rw [complete]
  change (match s.sweep.walk.next with | some w => _ | none => _) = _
  cases s.sweep.walk.next <;> rfl

theorem offer_responding (op : MemOp) : Unanswering (State.offer · op) := by
  intro s r
  change (s.responding r).offer op = (s.offer op).responding r
  unfold State.offer
  change (if s.mem.queue.length < _ ∧ s.mem.waiting = [] then _ else _) = _
  split <;> rfl

theorem removeDirectly_responding (e : Entry) (ps : List Port) : Unanswering (State.removeDirectly · e ps) := by
  intro s r
  change (s.responding r).removeDirectly e ps = (s.removeDirectly e ps).responding r
  unfold State.removeDirectly
  cases ps.filter e.holders.get with
  | nil => exact moveOn_responding s r
  | cons q held =>
    have removed : ∀ (l : List Port) (u : State),
        l.foldl (fun s p => s.changeEntry e.granule (.remove p)) (u.responding r)
          = (l.foldl (fun s p => s.changeEntry e.granule (.remove p)) u).responding r := fun l => by
      induction l with
      | nil => exact fun _ => rfl
      | cons a l ih => exact fun u => ih (u.changeEntry e.granule (.remove a))
    dsimp only
    rw [removed]
    generalize (q :: held).foldl (fun s p => s.changeEntry e.granule (.remove p)) s = u
    cases e.mode with
    | readers => exact moveOn_responding u r
    | owner =>
      have offered := offer_responding ⟨.poisonSet, e.granule, .sweep⟩ u r
      dsimp only at offered ⊢
      rw [offered]
      generalize u.offer ⟨.poisonSet, e.granule, .sweep⟩ = v
      change (if v.mem.waiting = [] then _ else _) = _
      split
      · exact moveOn_responding v r
      · rfl

theorem visit_responding {js : List Job} (h : s.sweep.jobs = .fence p :: js) (r : List Byte) :
    (s.responding r).visit = s.visit.responding r := by
  unfold State.visit
  change (match s.sweep.jobs with | [] => _ | job :: _ => _) = _
  rw [h]
  dsimp only
  change (match s.currentEntry with | none => _ | some e => _) = _
  cases s.currentEntry with
  | none => exact moveOn_responding s r
  | some e => exact removeDirectly_responding e [p] s r

/-! ### The causes -/

/-- What a cause comes to: the fence entry alone, or with the visit of a converted walk as WALK_VISIT makes it. -/
theorem fenceMember_leaves (h : s.IdleMember p) (hr : s.inReset = false) (hw : s.sweep.FenceAsked w p)
    (reason : FenceReason) :
    Host.Outcome.next (s.fenceMember p reason) =
      if s.departWaits p then exec .walkVisit (State.enterFencing reason (s.setSweep w) p)
      else .next (State.enterFencing reason (s.setSweep w) p) := by
  rw [fenceMember_idle h hw]
  split
  · rename_i waits
    exact ((change_running (s := State.enterFencing reason (s.setSweep w) p) hr _).trans
      (congrArg _ (if_pos (departWaits_asked hw waits).1))).symm
  · rfl

/-- The same of a command of the service port, which is answered in the same change. -/
theorem fenceMember_leaves_answered (h : s.IdleMember p) (hr : s.inReset = false) (hw : s.sweep.FenceAsked w p)
    (reason : FenceReason) (bytes : List Byte) :
    Host.Outcome.next ((s.fenceMember p reason).responding bytes) =
      if s.departWaits p then exec .walkVisit ((State.enterFencing reason (s.setSweep w) p).responding bytes)
      else .next ((State.enterFencing reason (s.setSweep w) p).responding bytes) := by
  rw [fenceMember_idle h hw]
  split
  · rename_i waits
    obtain ⟨pause, js, head⟩ := departWaits_asked hw waits
    have visits : exec .walkVisit ((State.enterFencing reason (s.setSweep w) p).responding bytes)
        = .next ((State.enterFencing reason (s.setSweep w) p).responding bytes).visit :=
      (change_running (s := (State.enterFencing reason (s.setSweep w) p).responding bytes) hr _).trans
        (congrArg _ (if_pos pause))
    rw [visits, visit_responding head]
  · rfl

/-- The fence entry of a state whose record of the port has just changed. -/
theorem enterFencing_modified (s : State) (p : Port) (f : PortRec → PortRec) (reason : FenceReason) (w : Sweep) :
    State.enterFencing reason ((s.modifyPort p f).setSweep w) p =
      { s with
        ctl := { s.ctl with ports := s.ctl.ports.set p ((f (s.ctl.ports.get p)).fencedFor reason) }
        ifaces := s.ifaces.set p { s.ifaces.get p with outq := [], waiting := [] }
        sweep := w } := by
  unfold State.enterFencing State.modifyPort State.setPort State.setSweep
  simp only [PerPort.get_set_same, PerPort.set_set, State.setIface, PortRec.fencedFor]

theorem presence_member (h : (s.ctl.ports.get p).present = true) (hm : (s.portState p).isMember = true) :
    State.presence p false s = (s.modifyPort p fun r => { r with present := false }).fenceMember p .removed := by
  unfold State.presence
  rw [h, if_neg nofun]
  dsimp only
  rw [modifyPort_portState]
  unfold State.portState at hm
  dsimp only
  generalize (s.ctl.ports.get p).state = st at hm
  cases st with
  | active | departing => rfl
  | empty | parked | held | joinable | fencing | fenced => cases hm

/-- Settles O21: each cause is the fence entry of an idle member, of the state with the cause recorded. -/
theorem idleMemberIsFenced : Obligations.IdleMemberIsFenced := by
  intro p s w waits hs settled hm free unawaited (hw : s.sweep.FenceAsked w p) r gone fenced leaves
  have member : (s.portState p).isMember = true := by rcases hm with h | h <;> rw [h] <;> rfl
  have idle : s.IdleMember p :=
    ⟨member, fun i hi => Option.not_isSome_iff_eq_none.1 (List.countP_eq_zero.1 free i (mem_portSlots.2 hi)),
      unawaited, fun q _ => settled q⟩
  have recorded : ∀ f : PortRec → PortRec, (f r).state = r.state → (s.modifyPort p f).IdleMember p := fun f hf =>
    idle.mono (by rw [modifyPort_portState, hf]; exact member) rfl fun q hq =>
      (PerPort.get_set _ p q _).trans (if_neg hq)
  have untouched : ∀ u : State, u.ctl.ports = s.ctl.ports → u.table = s.table → u.IdleMember p := fun u ports table =>
    idle.mono (by unfold State.portState; rw [ports]; exact member) table fun q _ => by rw [ports]
  refine ⟨?_, ?_, fun hp => ?_, fun n hn => ?_, fun hq => ?_, fun d hst hd => ?_⟩
  · exact (exec_member_applies (c := .fence) hs member).trans (fenceMember_leaves_answered idle hs.1 hw .manager [0])
  · have held := fenceMember_leaves_answered (recorded (fun r => { r with holdFlag := true }) rfl) hs.1 hw .hold [0]
    rw [enterFencing_modified] at held
    refine (exec_member_applies (c := .holdOn) hs rfl).trans (Eq.trans ?_ held)
    exact congrArg (fun u : State => Host.Outcome.next (u.responding [0])) (holdOn_member member)
  · have removed := fenceMember_leaves (recorded (fun r => { r with present := false }) rfl) hs.1 hw .removed
    rw [enterFencing_modified] at removed
    exact ((exec_presence hs.1 p false).trans (congrArg _ (presence_member hp member))).trans removed
  · refine Eq.trans ?_ (fenceMember_leaves
      (untouched { s with ctl := { s.ctl with linkLost := s.ctl.linkLost.set p n } } rfl rfl) hs.1 hw .linkLost)
    refine (change_running hs.1 _).trans ?_
    unfold State.linkLostTaken
    rw [hn]
  · exact Eq.trans ((change_running hs.1 _).trans (congrArg _ (if_pos (List.contains_iff_mem.2 hq)))) (fenceMember_leaves
      (untouched { s with ctl := { s.ctl with fenceRequests := s.ctl.fenceRequests.erase p } } rfl rfl) hs.1 hw
      .recallTimeout)
  · refine Eq.trans ?_ (fenceMember_leaves (untouched { s with now := max s.now d } rfl rfl) hs.1 hw .departTimeout)
    refine (change_running hs.1 _).trans ?_
    unfold State.departureExpiry
    rw [hst, hd]

end Sys2Proof.Machine
end

section
/-! PROOFS. The fence entry of a member that other slots await, where a FENCE job of that member is paused for the sweep
slot. -/

namespace Sys2Proof.Machine

variable {s t u : State} {p q : Port} {i j : SlotId} {g : Granule} {k : TxnKind} {result : SlotResult}

/-! ### Two recalls and nothing else -/

/-- The law of a table of two transactions in RECALLING, each alone in its chain; the granule of the first has an entry,
that of the second has none. -/
theorem tableLaw_two_recalls {slot : SlotId → Option Txn} {chain : Granule → List SlotId} {lock : Granule → Option Lock}
    {x y : Txn} (apart : x.granule ≠ y.granule) (hx : slot i = some x) (hy : slot j = some y)
    (only : ∀ n z, slot n = some z → n = i ∧ z = x ∨ n = j ∧ z = y)
    (chains : ∀ g, chain g = if g = x.granule then [i] else if g = y.granule then [j] else [])
    (phases : x.phase = .recalling ∧ y.phase = .recalling) (locks : ∀ g l, lock g = some l ↔ g = x.granule ∧ l = .busy i)
    (seats : x.seatedIn i ∧ y.seatedIn j)
    (res : (∀ z, slot serviceSlot = some z → result = z.underWay)
      ∧ (slot serviceSlot = none → ∀ c g, result ≠ .pending c g)) :
    TableLaw (fun _ => False) slot chain lock result := by
  obtain ⟨px, py⟩ := phases
  have recalling : ∀ n z, slot n = some z → z.phase = .recalling := fun n z h => by
    rcases only n z h with ⟨-, rfl⟩ | ⟨-, rfl⟩ <;> assumption
  have at_x : chain x.granule = [i] := (chains _).trans (if_pos rfl)
  have at_y : chain y.granule = [j] := (chains _).trans ((if_neg (Ne.symm apart)).trans (if_pos rfl))
  have alone : ∀ g n rest, chain g = n :: rest → rest = [] ∧ ∃ z, slot n = some z ∧ z.granule = g := fun g n rest h => by
    rw [chains] at h
    split at h
    · rename_i hg
      injection h with hn hr
      exact ⟨hr.symm, x, hn ▸ hx, hg.symm⟩
    · split at h
      · rename_i hg
        injection h with hn hr
        exact ⟨hr.symm, y, hn ▸ hy, hg.symm⟩
      · cases h
  exact
    { nodup := fun g => by
        cases h : chain g with
        | nil => exact .nil
        | cons n rest =>
          rw [(alone g n rest h).1]
          exact List.nodup_singleton n
      inChain := fun g n hn => by
        cases h : chain g with
        | nil => rw [h] at hn; cases hn
        | cons m rest =>
          obtain ⟨rfl, z, hz, hg⟩ := alone g m rest h
          rw [h, List.mem_singleton] at hn
          subst hn
          exact ⟨z, hz, hg, .inl (by rw [recalling n z hz]; rfl)⟩
      head := fun g n rest h => by
        obtain ⟨rfl, z, hz, -⟩ := alone g n rest h
        exact ⟨fun _ => ⟨z, hz, by rw [recalling n z hz]; rfl⟩, nofun⟩
      placed := fun n z hz _ => by
        rcases only n z hz with ⟨rfl, rfl⟩ | ⟨rfl, rfl⟩
        · rw [at_x]; exact List.mem_singleton_self n
        · rw [at_y]; exact List.mem_singleton_self n
      seated := fun n z hz => by
        rcases only n z hz with ⟨rfl, rfl⟩ | ⟨rfl, rfl⟩
        · exact seats.1
        · exact seats.2
      busy := fun g n h => by
        obtain ⟨rfl, hl⟩ := (locks g _).1 h
        injection hl with hn
        exact ⟨x, hn ▸ hx, rfl, .inl px⟩
      locked := fun n z l hz _ hl => by
        obtain ⟨hg, rfl⟩ := (locks _ l).1 hl
        rcases only n z hz with ⟨rfl, -⟩ | ⟨-, rfl⟩
        · rfl
        · exact absurd hg.symm apart
      evicting := fun g n h => nomatch ((locks g _).1 h).2
      evicts := fun n z hz h => by rw [recalling n z hz] at h; cases h
      result := res
      opened := fun _ h => h.elim }

/-! ### A FENCE job paused between two recalls -/

/-- A transaction that has recalled its granule from port 0. -/
def recallOfZero (k : TxnKind) (g : Granule) : Txn :=
  { newTxn k g with phase := .recalling, awaited := ⟨some ⟨.revoke, false⟩, none, none, none⟩ }

/-- The directory set in which port 0 owns granule 0 while slot `i` recalls it. -/
def recalledSet (i : SlotId) : DirSet :=
  ⟨(Vector.replicate 8 none).set 0 (some ⟨0, .owner, ⟨true, false, false, false⟩, .busy i⟩), [0]⟩

/-- Port 0 is ACTIVE and owns granule 0, which slot `i` recalls from it, as the sweep slot does with granule 1; at the
entry of granule 0 a FENCE job of port 0 is paused for the sweep slot. No run of the part comes here: the port of a FENCE
job is FENCING (08 R160), which `State.sweepLawful` says and `State.transactionsLawful` does not. -/
def pausedFence (i : SlotId) (k : TxnKind) (result : SlotResult) : State :=
  let recalls := (State.reset.setTxn i (some (recallOfZero k 0))).setTxn sweepSlot (some (recallOfZero .sweepRecheck 1))
  { recalls with
    inReset := false
    dir := [(0, recalledSet i)]
    table := { recalls.table with chains := [(0, [i]), (1, [sweepSlot])] }
    ctl := { recalls.ctl with
      ports := (PerPort.const .reset).set .p0 { PortRec.reset with state := .active, present := true } }
    sweep := ⟨[.fence .p0], ⟨0, 0, .slotInUse⟩, []⟩
    svc := { recalls.svc with hubState := .running, result := result } }

theorem pausedFence_sweepSlot : (pausedFence i k result).txn sweepSlot = some (recallOfZero .sweepRecheck 1) :=
  txn_setTxn_same _ sweepSlot _

theorem pausedFence_slot (hi : i ≠ sweepSlot) : (pausedFence i k result).txn i = some (recallOfZero k 0) :=
  (txn_setTxn_other _ _ hi).trans (txn_setTxn_same _ i _)

theorem pausedFence_other (hi : j ≠ i) (hj : j ≠ sweepSlot) : (pausedFence i k result).txn j = none :=
  (txn_setTxn_other _ _ hj).trans ((txn_setTxn_other _ _ hi).trans (reset_txn j))

theorem pausedFence_only {n : SlotId} {z : Txn} (hi : i ≠ sweepSlot) (h : (pausedFence i k result).txn n = some z) :
    n = i ∧ z = recallOfZero k 0 ∨ n = sweepSlot ∧ z = recallOfZero .sweepRecheck 1 := by
  by_cases hn : n = sweepSlot
  · subst hn
    rw [pausedFence_sweepSlot] at h
    exact .inr ⟨rfl, (Option.some.inj h).symm⟩
  · by_cases hni : n = i
    · subst hni
      rw [pausedFence_slot hi] at h
      exact .inl ⟨rfl, (Option.some.inj h).symm⟩
    · rw [pausedFence_other hni hn] at h
      cases h

theorem pausedFence_chain (g : Granule) : (pausedFence i k result).chain g =
    if g = (recallOfZero k 0).granule then [i]
    else if g = (recallOfZero .sweepRecheck 1).granule then [sweepSlot] else [] := by
  have number : ∀ n : Granule, g = n ↔ n.toNat = g.toNat := fun n => eq_comm.trans BitVec.toNat_inj.symm
  simp only [number]
  rfl

theorem pausedFence_chains : Sparse.wf [] (pausedFence i k result).table.chains := by
  refine ⟨List.pairwise_pair.2 Nat.one_pos, fun e he => ?_⟩
  rcases List.mem_pair.1 he with rfl | rfl <;> exact List.cons_ne_nil _ _

theorem pausedFence_dirSet (n : Nat) :
    (pausedFence i k result).dirSet n = if 0 = n then recalledSet i else DirSet.empty := rfl

theorem recalledSet_way (w : Fin 8) : (recalledSet i).ways.get w =
    if w = 0 then some ⟨0, .owner, ⟨true, false, false, false⟩, .busy i⟩ else none := by fin_cases w <;> rfl

theorem recalledSet_lawful (i : SlotId) : (recalledSet i).Lawful 0 where
  place w e h := by
    rw [recalledSet_way] at h
    split at h
    · injection h with h
      subst h
      exact ⟨rfl, fun _ => (by decide : (members ⟨true, false, false, false⟩).length ≤ 1), nofun⟩
    · cases h
  once v w e f h h' _ := by
    have at_zero : ∀ {w e}, (recalledSet i).ways.get w = some e → w = 0 := fun {w e} h => by
      by_contra hw
      rw [recalledSet_way, if_neg hw] at h
      cases h
    rw [at_zero h, at_zero h']
  nodup := List.nodup_singleton 0
  listed w := by
    rw [recalledSet_way]
    change w ∈ [0] ↔ _
    by_cases hw : w = 0 <;> simp [hw]

theorem recalledSet_ne_empty (i : SlotId) : recalledSet i ≠ DirSet.empty := fun h =>
  List.cons_ne_nil _ _ (congrArg DirSet.order h)

theorem pausedFence_directoryLawful : (pausedFence i k result).directoryLawful := by
  refine ⟨⟨List.pairwise_singleton _ _, fun e he => ?_⟩, fun n => ?_⟩
  · rw [List.mem_singleton.1 he]
    exact recalledSet_ne_empty i
  · rw [pausedFence_dirSet]
    split
    · rename_i hn
      exact hn ▸ recalledSet_lawful i
    · exact DirSet.lawful_empty n

theorem pausedFence_lockOf (g : Granule) (l : Lock) :
    (pausedFence i k result).lockOf g = some l ↔ g = (recallOfZero k 0).granule ∧ l = .busy i := by
  unfold State.lockOf
  rw [Option.map_eq_some_iff]
  constructor
  · rintro ⟨e, he, rfl⟩
    obtain ⟨w, hw, hg⟩ := (entry_iff pausedFence_directoryLawful).1 he
    rw [pausedFence_dirSet] at hw
    split at hw
    · rw [recalledSet_way] at hw
      split at hw
      · injection hw with hw
        subst hw
        exact ⟨hg.symm, rfl⟩
      · cases hw
    · rw [get_empty] at hw
      cases hw
  · rintro ⟨rfl, rfl⟩
    exact ⟨_, (entry_iff pausedFence_directoryLawful).2 ⟨0, recalledSet_way 0, rfl⟩, rfl⟩

theorem pausedFence_result (hi : i ≠ sweepSlot) (res : (i = serviceSlot → result = (recallOfZero k 0).underWay)
      ∧ (i ≠ serviceSlot → ∀ c g, result ≠ .pending c g)) :
    (∀ z, (pausedFence i k result).txn serviceSlot = some z → result = z.underWay)
      ∧ ((pausedFence i k result).txn serviceSlot = none → ∀ c g, result ≠ .pending c g) := by
  by_cases served : i = serviceSlot
  · subst served
    rw [pausedFence_slot hi]
    refine ⟨fun z h => ?_, fun h => nomatch h⟩
    injection h with h
    subst h
    exact res.1 rfl
  · rw [pausedFence_other (Ne.symm served) (by decide)]
    exact ⟨fun _ h => (nomatch h), fun _ => res.2 served⟩

theorem pausedFence_lawful (hi : i ≠ sweepSlot) (seat : (recallOfZero k 0).seatedIn i)
    (res : (i = serviceSlot → result = (recallOfZero k 0).underWay)
      ∧ (i ≠ serviceSlot → ∀ c g, result ≠ .pending c g)) :
    (pausedFence i k result).transactionsLawful where
  canonical := ⟨Sparse.wf_nil, Sparse.wf_nil, Sparse.wf_nil, pausedFence_chains, pausedFence_directoryLawful.1⟩
  directory := pausedFence_directoryLawful
  table := tableLaw_two_recalls (by nofun) (pausedFence_slot hi) pausedFence_sweepSlot (fun n z => pausedFence_only hi)
    pausedFence_chain ⟨rfl, rfl⟩ pausedFence_lockOf ⟨seat, nofun, fun _ => rfl, rfl⟩
    (pausedFence_result hi res)
  awaiting n x hx _ hr := by
    rcases pausedFence_only hi hx with ⟨-, rfl⟩ | ⟨-, rfl⟩ <;> exact absurd rfl hr

/-! ### The order in which the sweep slot comes first -/

theorem inFreeOrder_pair (s : State) (f f' : State → State) :
    s.inFreeOrder [f, f'] =
      if Config.pick s.freeDraws % 2 = 0 then f' (f { s with freeDraws := s.freeDraws + 2 })
      else f (f' { s with freeDraws := s.freeDraws + 2 }) := by
  unfold State.inFreeOrder
  have draw : Config.pick s.freeDraws % 2 = 0 ∨ Config.pick s.freeDraws % 2 = 1 := by omega
  rcases draw with h | h <;> simp [Config.freeOrder, h]

/-- The fence entry of port 0 where slot `a` comes before slot `b`. -/
def fencedInOrder (a b i : SlotId) (k : TxnKind) (result : SlotResult) : State :=
  (State.resolveAbsent .p0 true b (State.resolveAbsent .p0 true a
    (State.enterFencing .manager { pausedFence i k result with freeDraws := 2 } .p0))).settle

/-- A FENCE job that runs already takes the request (08 R160). -/
theorem requestFence_again {js : List Job} (h : s.sweep.jobs = .fence p :: js) : s.requestFence p = s := by
  unfold State.requestFence
  rw [h]
  exact if_pos (.inl rfl)

theorem pausedFence_fencePort {a b : SlotId} (away : slotPort i ≠ some .p0)
    (two : allSlots.filter ((pausedFence i k result).awaits .p0) = [a, b]) :
    exec (.fencePort (Port.byte .p0)) (pausedFence i k result) =
      .next ((if Config.pick 0 % 2 = 0 then fencedInOrder a b i k result else fencedInOrder b a i k result).responding
        [0]) := by
  have free : ∀ j, slotPort j = some .p0 → (pausedFence i k result).txn j = none := fun j hj =>
    pausedFence_other (fun h => away (h ▸ hj)) (fun h => by rw [h] at hj; cases hj)
  have asked : (pausedFence i k result).requestFence .p0 = pausedFence i k result := requestFence_again rfl
  refine (exec_member_applies (c := .fence) (p := .p0) ⟨rfl, rfl⟩ rfl).trans
    (congrArg (fun u : State => Host.Outcome.next (u.responding [0])) ?_)
  change (pausedFence i k result).fenceMember .p0 .manager = _
  unfold State.fenceMember
  have member : ((pausedFence i k result).portState .p0).isMember = true := rfl
  have ready : ¬ (pausedFence i k result).departWaits .p0 = true := by nofun
  rw [if_pos member, asked, fenceEntries_free free, two]
  dsimp only
  rw [if_neg ready, List.map_cons, List.map_cons, List.map_nil, inFreeOrder_pair]
  exact apply_ite State.settle (Config.pick 0 % 2 = 0) _ _

/-- The fence entry refutes the statement where the sweep slot comes first: the walk's visit of granule 0 has taken port 0
out of the entry, and the poison is the sweep's. -/
theorem everyMemberIsFenced_poison (hi : i ≠ sweepSlot) (seat : (recallOfZero k 0).seatedIn i)
    (res : (i = serviceSlot → result = (recallOfZero k 0).underWay) ∧ (i ≠ serviceSlot → ∀ c g, result ≠ .pending c g))
    (taken : exec (.fencePort (Port.byte .p0)) (pausedFence i k result) = .next t)
    (others : ∀ q, slotPort i = some q → t.portState q ≠ .fencing) (h : Obligations.EveryMemberIsFenced) :
    (⟨.poisonSet, 0, .slot i⟩ : MemOp) ∈ t.mem.queue ++ t.mem.waiting := by
  obtain ⟨⟨u, hu, -, -, -, -, -, -, -, -, -, -, -, laws⟩, -⟩ := h .p0 (pausedFence i k result) ⟨rfl, rfl⟩ (.inl rfl)
  rw [taken] at hu
  injection hu with hu
  subst hu
  obtain ⟨-, absent⟩ := (laws (pausedFence_lawful hi seat res)).2 i others
  exact (absent (recallOfZero k 0) 0 (pausedFence_slot hi) rfl (.inl ⟨rfl, rfl, rfl⟩)).2 rfl

/-- Refutes O22, in states that no run reaches: granule 0 is recalled from its owner, port 0, while a FENCE job of port 0 is
paused at its entry for the sweep slot. The fence entry ends the recall of the sweep slot; where that comes first, the walk
visits the entry, and granule 0 is poisoned with origin SWEEP, not with the origin of the slot that recalls it. The order
of the two slots is open (log 8), so there is a state for either draw. -/
theorem not_everyMemberIsFenced : ¬ Obligations.EveryMemberIsFenced := by
  intro h
  by_cases draw : Config.pick 0 % 2 = 0
  · have seat : (recallOfZero .memPeek 0).seatedIn serviceSlot := ⟨nofun, fun _ => rfl, rfl⟩
    have taken := pausedFence_fencePort (i := serviceSlot) (k := .memPeek) (result := .pending .peek 0) (a := sweepSlot)
      (b := serviceSlot) (by decide) (by decide +kernel)
    rw [if_pos draw] at taken
    have poison := everyMemberIsFenced_poison (by decide) seat ⟨fun _ => rfl, fun h => absurd rfl h⟩ taken nofun h
    exact absurd poison (by decide +kernel)
  · have seat : (recallOfZero (.member .readOwn) 0).seatedIn 12 := ⟨nofun, fun _ => rfl, by decide, fun _ => rfl⟩
    have taken := pausedFence_fencePort (i := 12) (k := .member .readOwn) (result := .idle) (a := 12) (b := sweepSlot)
      (by decide) (by decide +kernel)
    rw [if_neg draw] at taken
    have poison := everyMemberIsFenced_poison (result := .idle) (by decide) seat
      ⟨fun h => absurd h (by decide), fun _ _ _ => nofun⟩ taken
      (fun q hq => by injection hq with hq; subst hq; decide +kernel) h
    exact absurd poison (by decide +kernel)

end Sys2Proof.Machine
end

section
/-! PROOFS. The walk: the position that it passes, and the actions of the jobs at an entry. -/

namespace Sys2Proof.Machine

variable {s t u : State} {p : Port} {g : Granule} {w : Fin 8} {e : Entry} {js : List Job} {job : Job}

/-! ### The position passed -/

/-- The walk moves on as `State.passed` says (08 R161, R170). -/
theorem moveOn_eq_passed (s : State) : s.moveOn = s.passed := by
  have next : s.sweep.walk.next = if s.sweep.walk.way.val < 7 then some ⟨s.sweep.walk.set, s.sweep.walk.way + 1, .none⟩
      else if s.sweep.walk.set.val < 1023 then some ⟨s.sweep.walk.set + 1, 0, .none⟩ else none := rfl
  unfold State.moveOn State.passed
  dsimp only
  rw [next]
  by_cases way : s.sweep.walk.way.val < 7
  · simp only [if_pos way]
    rfl
  · by_cases set : s.sweep.walk.set.val < 1023
    · simp only [if_neg way, if_pos set]
      rfl
    · simp only [if_neg way, if_neg set]
      unfold State.completeJob
      match s.sweep.jobs with
      | [] => rfl
      | [j] => cases j <;> rfl
      | j :: _ :: _ => cases j <;> rfl

/-- Only the sweep engine and the events have a part in it. -/
theorem passed_of_sweep (hs : t.sweep = s.sweep) (hv : t.svc = s.svc) :
    t.passed = { t with sweep := s.passed.sweep, svc := s.passed.svc } := by
  unfold State.passed
  rw [hs]
  dsimp only
  by_cases way : s.sweep.walk.way.val < 7
  · simp only [if_pos way, ← hv]
  · by_cases set : s.sweep.walk.set.val < 1023
    · simp only [if_neg way, if_pos set, ← hv]
    · simp only [if_neg way, if_neg set]
      match s.sweep.jobs with
      | [] => simp only [← hs, ← hv]
      | [_] =>
        rw [← hv]
        rfl
      | _ :: _ :: _ =>
        rw [← hv]
        rfl

theorem passed_eq (s : State) : s.passed = { s with sweep := s.passed.sweep, svc := s.passed.svc } :=
  passed_of_sweep rfl rfl

@[simp] theorem passed_freeDraws (s : State) : s.passed.freeDraws = s.freeDraws := by rw [passed_eq]

@[simp] theorem passed_dir (s : State) : s.passed.dir = s.dir := by rw [passed_eq]

@[simp] theorem passed_table (s : State) : s.passed.table = s.table := by rw [passed_eq]

@[simp] theorem passed_ctl (s : State) : s.passed.ctl = s.ctl := by rw [passed_eq]

@[simp] theorem passed_mem (s : State) : s.passed.mem = s.mem := by rw [passed_eq]

theorem passed_setMem (s : State) (m : MemController) : (s.setMem m).passed = s.passed.setMem m :=
  (passed_of_sweep (s := s) (t := s.setMem m) rfl rfl).trans (congrArg (State.setMem · m) (passed_eq s)).symm

/-- The pause has no part in it while a job is running. -/
theorem passed_setPause (hj : s.sweep.jobs = job :: js) (p : Pause) : (s.setPause p).passed = s.passed := by
  unfold State.passed State.setPause
  simp only [setSweep_sweep, hj]
  rfl

theorem passed_calm (s : State) : Calm s s.passed := moveOn_eq_passed s ▸ moveOn_calm s

/-! ### The action of the running job -/

theorem exec_walkVisit (hr : s.inReset = false) : exec .walkVisit s = .next s.walkVisit := change_running hr _

theorem walkVisit_running (hp : s.sweep.walk.pause = .none) : s.walkVisit = s.visit := if_pos hp

theorem walkVisit_paused (hp : s.sweep.walk.pause ≠ .none) : s.walkVisit = s := if_neg hp

theorem visit_idle (hj : s.sweep.jobs = []) : s.visit = s := by
  unfold State.visit
  rw [hj]

theorem exec_visit (hr : s.inReset = false) (hp : s.sweep.walk.pause = .none) : exec .walkVisit s = .next s.visit := by
  rw [exec_walkVisit hr, walkVisit_running hp]

/-- An invalid way is passed (08 R161). -/
theorem visit_invalid (hj : s.sweep.jobs = job :: js) (he : s.currentEntry = none) : s.visit = s.passed := by
  unfold State.visit
  rw [hj, he]
  exact moveOn_eq_passed s

theorem visit_fence (hj : s.sweep.jobs = .fence p :: js) (he : s.currentEntry = some e) :
    s.visit = s.removeDirectly e [p] := by
  unfold State.visit
  rw [hj, he]

theorem visit_clear (hj : s.sweep.jobs = .clear :: js) (he : s.currentEntry = some e) :
    s.visit = s.removeDirectly e Port.all := by
  unfold State.visit
  rw [hj, he]

theorem isEvicting_iff (l : Lock) : l.isEvicting = true ↔ ∃ j, l = .evicting j := by
  cases l <;> simp [Lock.isEvicting]

/-- An entry locked evicting holds a DEPART or RECHECK (08 R167). -/
theorem visit_evicting (hj : s.sweep.jobs = job :: js) (he : s.currentEntry = some e) (hl : ∃ j, e.lock = .evicting j)
    (hk : job = .recheck ∨ ∃ p, job = .depart p) : s.visit = s.setPause .evicting := by
  have locked := (isEvicting_iff e.lock).2 hl
  unfold State.visit
  rw [hj, he]
  obtain rfl | ⟨p, rfl⟩ := hk
  · exact if_pos locked
  · exact if_pos locked

/-- A DEPART of an entry that no eviction locks (08 R164). -/
theorem visit_depart (hj : s.sweep.jobs = .depart p :: js) (he : s.currentEntry = some e)
    (hl : ∀ j, e.lock ≠ .evicting j) :
    s.visit = if e.holders.get p = true then s.needSlot (.sweepDepart p) e.granule else s.passed := by
  have unlocked : ¬e.lock.isEvicting = true := fun h => ((isEvicting_iff e.lock).1 h).elim hl
  unfold State.visit
  rw [hj, he, ← moveOn_eq_passed]
  exact if_neg unlocked

/-- What a DEPART or RECHECK asks of each port (08 R164 to R166). -/
def State.jobAsks (s : State) (job : Job) (e : Entry) (q : Port) : Option RecallKind :=
  if e.holders.get q = false then none
  else
    match job with
    | .depart p => if q = p then some .revoke else none
    | _ =>
      if s.right q e.granule = .none then some .revoke
      else if s.right q e.granule = .read ∧ e.mode = .owner then some .demote else none

theorem recheckRecalls_eq (s : State) (e : Entry) : s.recheckRecalls e = asked (s.jobAsks .recheck e) := by
  unfold State.recheckRecalls members asked
  rw [List.filterMap_filter]
  refine List.filterMap_congr fun q _ => ?_
  unfold State.jobAsks
  cases e.holders.get q with
  | false => rfl
  | true => cases e.mode <;> cases s.right q e.granule <;> rfl

/-- A RECHECK of an entry that no eviction locks (08 R165). -/
theorem visit_recheck (hj : s.sweep.jobs = .recheck :: js) (he : s.currentEntry = some e)
    (hl : ∀ j, e.lock ≠ .evicting j) :
    s.visit = if asked (s.jobAsks .recheck e) = [] then s.passed else s.needSlot .sweepRecheck e.granule := by
  have unlocked : ¬e.lock.isEvicting = true := fun h => ((isEvicting_iff e.lock).1 h).elim hl
  unfold State.visit
  rw [hj, he, ← moveOn_eq_passed, ← recheckRecalls_eq]
  exact if_neg unlocked

/-! ### Holders removed directly -/

theorem removeDirectly_nobody {l : List Port} (h : l.filter e.holders.get = []) : s.removeDirectly e l = s.passed := by
  unfold State.removeDirectly
  rw [h]
  exact moveOn_eq_passed s

/-- Holders of an entry removed one after the other: the last one frees it where no lock keeps it (02 R36, R39). -/
theorem removed_holders (l : List Port) : ∀ {s : State} {e : Entry}, Sparse.wf DirSet.empty s.dir → s.EntryAt g w e →
    l ≠ [] → l.Nodup → (∀ q ∈ l, e.holders.get q = true) →
    ∃ d, l.foldl (fun s q => s.changeEntry g (.remove q)) s = { s with dir := d }
      ∧ s.wayBecomes { s with dir := d } g w
        (if e.lock = .none ∧ without l e.holders = .const false then none
          else some { e with holders := without l e.holders }) := by
  induction l with
  | nil => exact fun _ _ h => absurd rfl h
  | cons q l ih =>
    intro s e hc he _ hn hl
    obtain ⟨hq, hn⟩ := List.nodup_cons.1 hn
    cases l with
    | nil => exact ⟨_, rfl, he.remove hc q⟩
    | cons a l =>
      have stays : ∀ b ∈ a :: l, (e.holders.set q false).get b = true := fun b hb => by
        rw [PerPort.get_set_other _ _ (fun h => hq (by rw [← h]; exact hb))]
        exact hl b (List.mem_cons_of_mem q hb)
      have kept : (e.apply (.remove q)).freed = false := Entry.freed_of_held (stays a List.mem_cons_self)
      have way := he.wayBecomes_change kept
      obtain ⟨d, rest, ways⟩ := ih (s := s.changeEntry g (.remove q)) (Sparse.wf_set hc _ _)
        (he.rewritten way he.granule) (List.cons_ne_nil a l) hn stays
      exact ⟨d, rest, way.trans ways⟩

/-- The memory controller after the action: an owned granule is poisoned (08 R162, R163). -/
def State.swept (s : State) (e : Entry) : MemController :=
  if e.mode = .owner then s.mem.offered ⟨.poisonSet, e.granule, .sweep⟩ else s.mem

/-- The state after the action: the walk passes, or it waits for its POISON_SET to enter the queue (08 R168). -/
def State.goesOn (s : State) (e : Entry) : State :=
  if e.mode = .readers ∨ s.mem.waiting = [] then s.passed else s.setPause .memory

/-- The FENCE or CLEAR action of an entry with such holders (08 R162, R163). -/
theorem removeDirectly_some {l : List Port} (hc : Sparse.wf DirSet.empty s.dir) (he : s.EntryAt e.granule w e)
    (hn : l.Nodup) (hl : l.filter e.holders.get ≠ []) :
    ∃ d, s.removeDirectly e l = ({ s with dir := d, mem := s.swept e } : State).goesOn e
      ∧ s.wayBecomes { s with dir := d } e.granule w
        (if e.lock = .none ∧ without (l.filter e.holders.get) e.holders = .const false then none
          else some { e with holders := without (l.filter e.holders.get) e.holders }) := by
  obtain ⟨d, removed, way⟩ := removed_holders (l.filter e.holders.get) hc he hl (hn.filter _)
    fun q hq => (List.mem_filter.1 hq).2
  refine ⟨d, ?_, way⟩
  unfold State.removeDirectly
  cases held : l.filter e.holders.get with
  | nil => exact absurd held hl
  | cons q r =>
    rw [held] at removed
    dsimp only
    rw [removed]
    unfold State.swept State.goesOn
    cases e.mode with
    | readers => exact moveOn_eq_passed _
    | owner =>
      dsimp only
      rw [offer_eq, moveOn_eq_passed]
      simp only [reduceCtorEq, if_true, false_or]
      rfl

end Sys2Proof.Machine
end

section
/-! PROOFS. The visits that do not need the sweep slot, and the ends of the pauses MEMORY and EVICTING. -/

namespace Sys2Proof.Machine

variable {s t u : State} {p : Port} {g h : Granule} {i : SlotId} {w : Fin 8} {e : Entry} {x : Txn} {js : List Job}
  {job : Job}

/-! ### The actions that remove holders -/

theorem without_get (l : List Port) : ∀ (m : PerPort Bool) (q : Port),
    (without l m).get q = if q ∈ l then false else m.get q := by
  induction l with
  | nil => exact fun _ _ => (if_neg List.not_mem_nil).symm
  | cons a l ih =>
    intro m q
    refine (ih _ q).trans ?_
    rw [PerPort.get_set]
    by_cases hl : q ∈ l <;> by_cases ha : q = a <;> simp [hl, ha]

theorem members_nil_iff (m : PerPort Bool) : Port.all.filter m.get = [] ↔ m = .const false := by
  rw [List.filter_eq_nil_iff]
  constructor
  · exact fun none_in => PerPort.ext_get fun q => by
      rw [PerPort.get_const]
      exact Bool.eq_false_iff.2 (none_in q (mem_allPorts q))
  · rintro rfl q -
    simp

theorem without_members (m : PerPort Bool) : without (Port.all.filter m.get) m = .const false :=
  PerPort.ext_get fun q => by
    rw [without_get, PerPort.get_const]
    cases hq : m.get q <;> simp [hq]

/-- The FENCE or CLEAR action where it concerns the entry (08 R162, R163). -/
theorem visit_removes {kept : PerPort Bool} (hc : Sparse.wf DirSet.empty s.dir) (hj : s.sweep.jobs = job :: js)
    (hcur : s.currentEntry = some e) (he : s.EntryAt e.granule w e)
    (hk : (∃ p, job = .fence p ∧ e.holders.get p = true ∧ kept = e.holders.set p false)
      ∨ job = .clear ∧ e.holders ≠ .const false ∧ kept = .const false) :
    ∃ d, s.visit = ({ s with dir := d, mem := s.swept e } : State).goesOn e
      ∧ s.wayBecomes { s with dir := d } e.granule w
        (if e.lock = .none ∧ kept = .const false then none else some { e with holders := kept }) := by
  rcases hk with ⟨p, rfl, hp, rfl⟩ | ⟨rfl, hp, rfl⟩
  · have holder : [p].filter e.holders.get = [p] := by simp [hp]
    have removed := removeDirectly_some hc he (List.nodup_singleton p) (by rw [holder]; exact List.cons_ne_nil p [])
    rw [holder] at removed
    rw [visit_fence hj hcur]
    exact removed
  · have removed := removeDirectly_some hc he Port.all_nodup (mt (members_nil_iff e.holders).1 hp)
    rw [without_members] at removed
    rw [visit_clear hj hcur]
    exact removed

theorem goesOn_dir (s : State) (e : Entry) : (s.goesOn e).dir = s.dir := by
  unfold State.goesOn
  split
  · exact passed_dir s
  · rfl

/-- The FENCE or CLEAR action where it concerns no holder (08 R162, R163). -/
theorem visit_removes_nobody (hj : s.sweep.jobs = job :: js) (hcur : s.currentEntry = some e)
    (hk : (∃ p, job = .fence p ∧ e.holders.get p = false) ∨ job = .clear ∧ e.holders = .const false) :
    s.visit = s.passed := by
  rcases hk with ⟨p, rfl, hp⟩ | ⟨rfl, hp⟩
  · rw [visit_fence hj hcur]
    exact removeDirectly_nobody (by simp [hp])
  · rw [visit_clear hj hcur]
    exact removeDirectly_nobody ((members_nil_iff e.holders).2 hp)

/-! ### The actions that recall -/

/-- No holder is asked by a RECHECK whose right allows what it holds (08 R165). -/
theorem recheck_asks_nobody
    (h : ∀ q, e.holders.get q = true →
      s.right q e.granule = .write ∨ s.right q e.granule = .read ∧ e.mode = .readers) :
    asked (s.jobAsks .recheck e) = [] := by
  refine asked_eq_nil.2 fun q => ?_
  unfold State.jobAsks
  cases hq : e.holders.get q with
  | false => rfl
  | true =>
    rcases h q hq with hr | ⟨hr, hm⟩
    · simp [hr]
    · simp [hr, hm]

/-- A DEPART or RECHECK that concerns no holder (08 R164, R165). -/
theorem visit_recalls_nobody (hj : s.sweep.jobs = job :: js) (hcur : s.currentEntry = some e)
    (hl : ∀ j, e.lock ≠ .evicting j)
    (hk : (∃ p, job = .depart p ∧ e.holders.get p = false)
      ∨ job = .recheck ∧ ∀ q, e.holders.get q = true →
        s.right q e.granule = .write ∨ s.right q e.granule = .read ∧ e.mode = .readers) :
    s.visit = s.passed := by
  rcases hk with ⟨p, rfl, hp⟩ | ⟨rfl, hp⟩
  · rw [visit_depart hj hcur hl]
    exact if_neg (by simp [hp])
  · rw [visit_recheck hj hcur hl]
    exact if_pos (recheck_asks_nobody hp)

/-! ### The end of the pause MEMORY -/

/-- The pending POISON_SET of the walk enters the queue as an older one leaves it, and the walk passes (08 R168). -/
theorem completeOldest_walk {rest : List MemOp} (hs : s.settled) (hp : s.sweep.walk.pause = .memory)
    (hq : s.mem.queue = ⟨.poisonSet, g, .sweep⟩ :: rest) (hw : s.mem.waiting = [⟨.poisonSet, h, .sweep⟩]) :
    s.completeOldest ⟨.poisonSet, g, .sweep⟩ = State.passed
      { s with
        mem := { s.mem with
          queue := rest ++ [⟨.poisonSet, h, .sweep⟩], waiting := [], poison := (s.mem.setMark g true).poison } } := by
  have popped : (s.mem.setMark g true).popped = { s.mem with
      queue := rest ++ [⟨.poisonSet, h, .sweep⟩], waiting := [], poison := (s.mem.setMark g true).poison } := by
    unfold MemController.popped
    rw [show (s.mem.setMark g true).waiting = _ from hw]
    dsimp only
    rw [show (s.mem.setMark g true).queue = _ from hq]
    rfl
  have left : (s.setMem (s.mem.setMark g true)).leaveQueue
      = (s.setMem (s.mem.setMark g true).popped).sweepOfferEntered := by
    unfold State.leaveQueue
    rw [setMem_mem, show (s.mem.setMark g true).waiting = _ from hw]
    rfl
  have entered : (s.setMem (s.mem.setMark g true).popped).sweepOfferEntered
      = (s.setMem (s.mem.setMark g true).popped).passed := by
    rw [← moveOn_eq_passed]
    exact if_pos ⟨hp, by rw [popped]; exact fun _ h => absurd h List.not_mem_nil⟩
  have settled : (s.setMem (s.mem.setMark g true).popped).passed.settled :=
    settled_kept.calm (passed_calm _) (settled_same hs rfl fun _ => rfl)
  change ((s.setMem (s.mem.setMark g true)).leaveQueue).settle = _
  rw [left, entered, settle_of_settled settled, popped]
  rfl

/-! ### The end of the pause EVICTING -/

theorem setTxn_self (hx : s.txn i = some x) : s.setTxn i (some x) = s := by
  rw [← hx]
  exact (setTxn_setTxn i none _).symm.trans (setTxn_back i none)

/-- The walk, which alone waits for the evicting lock of `g`, goes on when it is released (02 R26, 08 R167). -/
theorem heldBack_walk (hy : ∀ y, u.txn serviceSlot = some y → y.phase ≠ .waiting ∨ y.granule ≠ g)
    (hp : u.sweep.walk.pause = .evicting) (hcur : u.currentEntry = some e) (hg : e.granule = g) :
    u.heldBack g = [State.visitAfresh] := by
  have service : u.serviceHeldBack g = false := by
    unfold State.serviceHeldBack
    cases hx : u.txn serviceSlot with
    | none => rfl
    | some y => rcases hy y hx with h | h <;> simp [h]
  have walk : u.walkHeldBack g = true := by
    unfold State.walkHeldBack
    simp [hp, hcur, hg]
  unfold State.heldBack
  rw [service, walk]
  rfl

/-- A DEPART or RECHECK walk passes the new entry of an eviction that has ended (08 R167). -/
theorem visitAfresh_newEntry (hj : u.sweep.jobs = job :: js) (hk : job = .recheck ∨ ∃ q, job = .depart q)
    (hcur : u.currentEntry = some (newEntry g i)) : u.visitAfresh = u.passed := by
  have nobody : ∀ q, (newEntry g i).holders.get q = false := PerPort.get_const false
  rw [← passed_setPause hj .none]
  refine visit_recalls_nobody (s := u.setPause .none) hj hcur (fun j hl => nomatch hl) ?_
  obtain rfl | ⟨q, rfl⟩ := hk
  · exact .inr ⟨rfl, fun q hq => by rw [nobody q] at hq; cases hq⟩
  · exact .inl ⟨q, rfl, nobody q⟩

/-- The completion of an eviction that the walk alone waits for: the way passes on, the READ is offered, and the walk
passes the new entry (02 R26, R32, 08 R167). -/
theorem completeEviction_walk (hx : u.txn i = some x) (hv : x.victim = some g)
    (hheld : u.heldBack g = [State.visitAfresh])
    (he : u.EntryAt g w e) (hn : u.NoEntry x.granule) (hs : setOf x.granule = setOf g)
    (hk : x.kind = .member .readShare ∨ x.kind = .member .readOwn ∨ x.kind = .member .promote)
    (hj : u.sweep.jobs = job :: js) (haction : job = .recheck ∨ ∃ q, job = .depart q)
    (hset : u.sweep.walk.set.val = setOf g) (hway : u.sweep.walk.way = w) :
    ∃ n, u.completeEviction i = State.passed
      { u with
        freeDraws := n
        table := (u.setTxn i (some { x with phase := .memory, victim := none, deadline := none })).table
        dir := (u.replaceVictim g x.granule i).dir
        mem := u.mem.offered ⟨.read, x.granule, .slot i⟩ } := by
  let y : Txn := { x with phase := .memory, victim := none, deadline := none }
  let r := u.replaceVictim g x.granule i
  let b : State := { u with table := (u.setTxn i (some y)).table, dir := r.dir }
  have replaced : r = { u with dir := r.dir } :=
    congrArg (fun v : State => { v with dir := r.dir }) (replaceVictim_eq he hn hs i)
  have placed : r.modifyTxn i (fun t => { t with phase := .memory, victim := none, deadline := none }) = b := by
    have slot : r.txn i = some x := (congrArg (State.txn · i) replaced).trans hx
    unfold State.modifyTxn
    rw [slot]
    exact congrArg (fun v : State => v.setTxn i (some y)) replaced
  have reads : ∀ c : State, c.table = b.table → c.dir = b.dir →
      (c.enterMemory i).1 = c.setMem (c.mem.offered ⟨.read, x.granule, .slot i⟩) := fun c ht hd => by
    have slot : c.txn i = some y :=
      (congrArg (fun t : TxnTable => t.slots.get i) ht).trans (txn_setTxn_same u i (some y))
    have entry : c.EntryAt x.granule w (newEntry x.granule i) := (replaceVictim_entryAt he hn hs i).of_dir hd
    have operation : c.ownOperation i y = some .read := by
      refine ownOperation_recalled entry (.inl ⟨?_, rfl⟩)
      rcases hk with h | h | h
      · exact .inl h
      · exact .inr (.inl h)
      · exact .inr (.inr (.inr (.inr ⟨h, rfl, fun q _ => PerPort.get_const false q⟩)))
    have ended := congrArg Prod.fst (enterMemory_offers slot operation)
    rw [show c.setTxn i (some { y with phase := .memory, victim := none, deadline := none }) = c from
      setTxn_self slot] at ended
    exact ended
  have visits : ∀ c : State, c.sweep = u.sweep → c.dir = b.dir → c.visitAfresh = c.passed := fun c hsweep hd => by
    refine visitAfresh_newEntry (hsweep ▸ hj) haction (g := x.granule) (i := i) ?_
    have entry : c.EntryAt x.granule w (newEntry x.granule i) := (replaceVictim_entryAt he hn hs i).of_dir hd
    unfold State.currentEntry
    rw [hsweep, hset, hway, ← hs]
    exact entry.1
  have completes : u.completeEviction i = b.inFreeOrder [fun s => (s.enterMemory i).1, State.visitAfresh] := by
    unfold State.completeEviction
    rw [hx]
    dsimp only
    rw [hv]
    dsimp only
    rw [hheld]
    exact congrArg (State.inFreeOrder · _) placed
  obtain ⟨n, order⟩ := inFreeOrder_two b (fun s => (s.enterMemory i).1) State.visitAfresh
  let c : State := { b with freeDraws := n }
  let read : MemOp := ⟨.read, x.granule, .slot i⟩
  refine ⟨n, completes.trans ?_⟩
  rcases order with order | order
  · calc
      _ = (c.enterMemory i).1.visitAfresh := order
      _ = (c.setMem (c.mem.offered read)).visitAfresh := congrArg State.visitAfresh (reads c rfl rfl)
      _ = _ := visits _ rfl rfl
  · calc
      _ = (c.visitAfresh.enterMemory i).1 := order
      _ = (c.passed.enterMemory i).1 := by rw [visits c rfl rfl]
      _ = c.passed.setMem (c.passed.mem.offered read) := reads c.passed (passed_table c) (passed_dir c)
      _ = (c.setMem (c.mem.offered read)).passed := by rw [passed_setMem, passed_mem]

/-- The last holder of a victim at which the walk waits answers (05 R99, 02 R32, 08 R167). -/
theorem unawait_evicts_walk (hx : u.txn i = some x) (hlast : x.awaited.set p none = .const none)
    (hp : x.phase = .evicting) (hv : x.victim = some g) (he : u.EntryAt g w e) (hh : e.holders = .const false)
    (hn : u.NoEntry x.granule) (hs : setOf x.granule = setOf g)
    (hk : x.kind = .member .readShare ∨ x.kind = .member .readOwn ∨ x.kind = .member .promote)
    (hy : ∀ y, u.txn serviceSlot = some y → y.phase ≠ .waiting ∨ y.granule ≠ g)
    (hj : u.sweep.jobs = job :: js) (haction : job = .recheck ∨ ∃ q, job = .depart q)
    (hpause : u.sweep.walk.pause = .evicting) (hset : u.sweep.walk.set.val = setOf g) (hway : u.sweep.walk.way = w) :
    ∃ n, u.unawait i p = State.passed
      { u with
        freeDraws := n
        table := (u.setTxn i (some x.inMemory)).table
        dir := (u.replaceVictim g x.granule i).dir
        mem := u.mem.offered ⟨.read, x.granule, .slot i⟩ } := by
  let b := u.setTxn i (some x.answered)
  have slot : b.txn i = some x.answered := txn_setTxn_same u i _
  have entry : b.EntryAt g w e := he.of_dir rfl
  have noEntry : b.NoEntry x.granule := hn.of_dir rfl
  have sameDir : (b.replaceVictim g x.granule i).dir = (u.replaceVictim g x.granule i).dir := by
    rw [replaceVictim_eq entry noEntry hs, replaceVictim_eq he hn hs]
    rfl
  have current : b.currentEntry = some e := by
    unfold State.currentEntry
    change (b.dirSet u.sweep.walk.set.val).ways.get u.sweep.walk.way = _
    rw [hset, hway]
    exact entry.1
  have held : b.heldBack g = [State.visitAfresh] := by
    refine heldBack_walk (fun y h => ?_) hpause current he.granule
    rw [txn_setTxn] at h
    split at h
    · obtain rfl : x.answered = y := Option.some.inj h
      exact .inl fun hwaiting => nomatch hp.symm.trans hwaiting
    · exact hy y h
  obtain ⟨n, completed⟩ := completeEviction_walk slot hv held entry noEntry hs hk hj haction hset hway
  refine ⟨n, ?_⟩
  rw [unawait_evicting hx hlast hp, checkEviction_completes slot hp hv rfl entry hh, completed, setTxn_setTxn]
  exact congrArg (fun d => State.passed { u with
    freeDraws := n, table := (u.setTxn i (some x.inMemory)).table, dir := d
    mem := u.mem.offered ⟨.read, x.granule, .slot i⟩ }) sameDir

/-- The YIELD that ends an eviction at which the walk waits: the way passes on, the READ is offered, and the walk passes
the new entry (02 R32, 05 R99, 08 R167). -/
theorem State.AwaitsYield.exec_evicts_walk {recallId : Byte} (h : s.AwaitsYield p recallId g i x ⟨.revoke, false⟩)
    (hs : s.settled) (hlast : x.awaited.set p none = .const none) (hphase : x.phase = .evicting)
    (hv : x.victim = some g) (hk : x.kind = .member .readShare ∨ x.kind = .member .readOwn ∨ x.kind = .member .promote)
    (he : s.EntryAt g w e) (hl : e.lock = .evicting i) (hheld : e.holders.set p false = .const false)
    (hset : setOf x.granule = setOf g) (hno : s.NoEntry x.granule)
    (hservice : ∀ y, s.txn serviceSlot = some y → y.phase ≠ .waiting ∨ y.granule ≠ g)
    (hj : s.sweep.jobs = job :: js) (haction : job = .recheck ∨ ∃ q, job = .depart q)
    (hpause : s.sweep.walk.pause = .evicting) (hwset : s.sweep.walk.set.val = setOf g) (hway : s.sweep.walk.way = w)
    (tag : Tag) :
    ∃ t, exec (.yield p tag g recallId .clean) s = .next t
      ∧ t = State.passed
        { s with
          freeDraws := t.freeDraws
          table := { s.table with slots := t.table.slots }
          dir := t.dir
          mem := s.mem.offered ⟨.read, x.granule, .slot i⟩ }
      ∧ s.slotBecomes t i (some x.inMemory)
      ∧ (t.dirSet (setOf g)).ways.get w = some (newEntry x.granule i) := by
  obtain ⟨d, taken, way⟩ := yield_taken he (fun h => nomatch hl.symm.trans h) p i .revoke .clean
  let u : State := { s with dir := d }
  have entry : u.EntryAt g w (e.yielded p .revoke .clean) := he.rewritten way he.granule
  have noEntry : u.NoEntry x.granule := hno.rewritten way fun h => hno w e (hset ▸ he.1) h
  obtain ⟨n, ended⟩ := unawait_evicts_walk (u := u) h.txn hlast hphase hv entry hheld noEntry hset hk hservice hj
    haction hpause hwset hway
  let t : State :=
    { u with
      freeDraws := n
      table := (u.setTxn i (some x.inMemory)).table
      dir := (u.replaceVictim g x.granule i).dir
      mem := u.mem.offered ⟨.read, x.granule, .slot i⟩ }
  have slots : ∀ j, t.passed.txn j = if j = i then some x.inMemory else s.txn j := fun j =>
    (congrArg (fun a : TxnTable => a.slots.get j) (passed_table t)).trans (txn_setTxn u i j _)
  refine ⟨t.passed, h.exec_settled rfl hs (taken ▸ ended) (passed_ctl t) slots
    (.inr ⟨_, rfl, fun hd => nomatch hphase.symm.trans hd⟩) tag, ?_,
    ⟨slots, (congrArg TxnTable.recallLimit (passed_table t) :)⟩, ?_⟩
  · rw [passed_freeDraws, passed_table, passed_dir]
    rfl
  · unfold State.dirSet
    rw [passed_dir]
    change ((u.replaceVictim g x.granule i).dirSet (setOf g)).ways.get w = _
    rw [replaceVictim_dirSet entry noEntry hset, if_pos rfl]
    exact (getElem_ways_set _ w w _).trans (if_pos rfl)

/-! ### The walk's visits -/

/-- Settles O50: each visit by the running job and the entry, and the ends of the two pauses by what follows the
completion of the older operation and of the eviction. -/
theorem walkVisits : Obligations.WalkVisits := by
  intro s hr hcan walk paused
  obtain ⟨-, -, -, -, hdir⟩ := hcan
  refine ⟨fun h => ?_, fun job jobs hj hp => ⟨fun hcur => ?_, fun e hcur => ⟨fun hl hk => ?_, fun hl hk => ?_,
    fun hk => ?_, fun kept hk he => ?_⟩⟩, fun g h rest hs hp hq hw hg => ?_, ?_⟩
  · rw [exec_walkVisit hr]
    by_cases hp : s.sweep.walk.pause = .none
    · rw [walkVisit_running hp, visit_idle (h.resolve_right (not_not_intro hp))]
    · rw [walkVisit_paused hp]
  · rw [exec_visit hr hp, visit_invalid hj hcur]
  · rw [exec_visit hr hp, visit_evicting hj hcur hl hk]
    rfl
  · rw [exec_visit hr hp, visit_recalls_nobody hj hcur hl hk]
  · rw [exec_visit hr hp, visit_removes_nobody hj hcur hk]
  · obtain ⟨d, visited, way⟩ := visit_removes hdir hj hcur he hk
    have dir := goesOn_dir ({ s with dir := d, mem := s.swept e } : State) e
    refine ⟨_, (exec_visit hr hp).trans (congrArg _ visited), ?_, wayBecomes_of_dir way rfl dir⟩
    dsimp only
    rw [dir]
    rfl
  · exact ⟨_, exec_completion (op := ⟨.poisonSet, g, .sweep⟩) hr hq hg, by
      rw [completeOldest_walk hs hp hq hw, passed_mem]⟩
  · intro job jobs p tag g recallId i x w e hs hrec hm hi hx hphase hv hkind haw he hlock hheld hset hno hservice hj
      haction hp hwset hway
    have awaits : s.AwaitsYield p recallId g i x ⟨.revoke, false⟩ :=
      ⟨hrec, hm, hi, hx, by rw [haw, PerPort.get_set_same], by rw [hv]; rfl⟩
    have last : x.awaited.set p none = .const none := by
      rw [haw]
      cases p <;> rfl
    have empty : e.holders.set p false = .const false := by
      rw [hheld]
      cases p <;> rfl
    exact awaits.exec_evicts_walk hs last hphase hv hkind he hlock empty hset hno hservice hj haction hp hwset hway tag

end Sys2Proof.Machine
end

section
/-! PROOFS. The completion reports at their owners: a sweep finished, the port that leaves by it, and the end of a
clear. -/

namespace Sys2Proof.Machine

variable {s t u : State} {p q : Port} {r : PortRec} {n : Notice} {ev : Event} {rest : List Report}

/-! ### One port that leaves -/

theorem settleRounds_of_settled (h : s.settled) (k : Nat) : s.settleRounds k = s := by
  cases k with
  | zero => rfl
  | succ k =>
    have nobody : Port.all.filter s.mayLeave = [] := List.filter_eq_nil_iff.2 fun p _ => by simp [h p]
    simp only [State.settleRounds, nobody]

/-- The tests let one port go, and no other after it (07 R141, R147). -/
theorem settle_one (hp : s.mayLeave p = true) (ho : ∀ q, q ≠ p → s.mayLeave q = false)
    (h : (State.leaveIfReady p s).settled) : s.settle = State.leaveIfReady p s := by
  have ready : Port.all.filter s.mayLeave = [p] := by
    have only : Port.all.filter s.mayLeave = Port.all.filter (· == p) := List.filter_congr fun q _ => by
      by_cases hq : q = p
      · rw [hq, hp, beq_self_eq_true]
      · rw [ho q hq, beq_eq_false_iff_ne.2 hq]
    rw [only]
    cases p <;> rfl
  have first : s.settle = (State.leaveIfReady p s).settleRounds 3 := by
    unfold State.settle
    rw [State.settleRounds, ready]
    rfl
  rw [first, settleRounds_of_settled h]

/-- The record of a port rewritten, the epoch increased, a notice to every port in ACTIVE and an event: how a port
leaves DEPARTING or FENCING (07 R141, R147). -/
def State.goesDown (s : State) (p : Port) (r : PortRec) (n : Notice) (ev : Event) : State :=
  ((s.setPort p r).bumpEpoch.sendNotice (s.setPort p r).bumpEpoch.activePorts n).raise ev

theorem goesDown_spec (hs : s.portState p ≠ .active) (hr : r.state ≠ .active) :
    s.goesDown p r n ev = { s.latched ev with
        ctl := (s.goesDown p r n ev).ctl, ifaces := (s.goesDown p r n ev).ifaces }
      ∧ (s.goesDown p r n ev).ctl = { s.ctl with epoch := s.ctl.epoch + 1, ports := s.ctl.ports.set p r }
      ∧ ∀ q, (s.goesDown p r n ev).ifaces.get q = { s.ifaces.get q with
        outq := (s.ifaces.get q).outq
          ++ if s.portState q = .active ∧ (s.ifaces.get q).linkUp = true then [.notice n (s.ctl.epoch + 1)]
            else [] } := by
  have active : ∀ q, (s.setPort p r).bumpEpoch.portState q = .active ↔ s.portState q = .active := fun q => by
    unfold State.portState
    rw [bumpEpoch_ports, setPort_ports, PerPort.get_set]
    split
    · subst q
      exact iff_of_false hr hs
    · rfl
  obtain ⟨told, queues⟩ := sendNotice_active (s := (s.setPort p r).bumpEpoch) n
  unfold State.goesDown
  generalize (s.setPort p r).bumpEpoch.sendNotice (s.setPort p r).bumpEpoch.activePorts n = v at told queues ⊢
  refine ⟨?_, ?_, fun q => ?_⟩
  · rw [told]
    rfl
  · rw [told]
    rfl
  · refine (queues q).trans ?_
    simp only [active]
    rfl

/-- A port has left, and no other comes nearer to leaving. -/
theorem goesDown_settled (ho : ∀ q, q ≠ p → s.mayLeave q = false) (hs : s.portState p ≠ .active)
    (hr : r.state ≠ .active ∧ r.state ≠ .departing ∧ r.state ≠ .fencing) : (s.goesDown p r n ev).settled := by
  obtain ⟨rest, ctl, -⟩ := goesDown_spec (n := n) (ev := ev) hs hr.1
  have record : ∀ q, (s.goesDown p r n ev).ctl.ports.get q = if q = p then r else s.ctl.ports.get q := fun q => by
    rw [ctl]
    exact PerPort.get_set _ _ _ _
  have slots : ∀ i, (s.goesDown p r n ev).txn i = s.txn i := fun i => by rw [rest]; rfl
  intro q
  by_cases hq : q = p
  · have state : (s.goesDown p r n ev).portState q = r.state := by
      unfold State.portState
      rw [record, if_pos hq]
    unfold State.mayLeave
    rw [state, beq_eq_false_iff_ne.2 hr.2.1, beq_eq_false_iff_ne.2 hr.2.2]
    rfl
  · have same : (s.goesDown p r n ev).ctl.ports.get q = s.ctl.ports.get q := (record q).trans (if_neg hq)
    exact mayLeave_false (ho q hq) fun _ hf =>
      ⟨congrArg PortRec.state same, same ▸ hf, fun i _ => congrArg _ (slots i)⟩

/-- The record of a port that passes to PARKED (07 R141). -/
def PortRec.passed (r : PortRec) : PortRec :=
  { r with state := .parked, deadline := none, leaveAsked := false, sweepFinished := false, joinedEpoch := none }

/-- The record of a port that leaves FENCING (07 R147). -/
def PortRec.exited (r : PortRec) : PortRec :=
  { r with state := if r.present then .fenced else .empty, sweepFinished := false, joinedEpoch := none }

/-- The passage to PARKED of a port that no slot awaits (07 R141). -/
theorem passToParked_unawaited (h : ∀ i x, s.txn i = some x → x.awaited.get p = none) :
    s.passToParked p = s.goesDown p (s.ctl.ports.get p).passed (.memberDown p none) .parked := by
  have unawaited : (s.setPort p (s.ctl.ports.get p).passed).bumpEpoch.awaiting p = [] := by
    refine List.filter_eq_nil_iff.2 fun i _ => ?_
    change ¬((s.txn i).any fun x => (x.awaited.get p).isSome) = true
    cases hx : s.txn i with
    | none => nofun
    | some x => simp [h i x hx]
  have alone : (s.setPort p (s.ctl.ports.get p).passed).bumpEpoch.inFreeOrder
      (((s.setPort p (s.ctl.ports.get p).passed).bumpEpoch.awaiting p).map (State.resolveAbsent p false))
        = (s.setPort p (s.ctl.ports.get p).passed).bumpEpoch := by
    rw [unawaited]
    rfl
  exact congrArg (fun v : State => (v.sendNotice v.activePorts (.memberDown p none)).raise .parked) alone

theorem exitFencing_eq (s : State) (p : Port) :
    s.exitFencing p
      = s.goesDown p (s.ctl.ports.get p).exited (.memberDown p (s.ctl.ports.get p).fenceReason) .fenced := by
  have reason : ((s.setPort p (s.ctl.ports.get p).exited).bumpEpoch.ctl.ports.get p).fenceReason
      = (s.ctl.ports.get p).fenceReason := by
    rw [bumpEpoch_ports, setPort_ports, PerPort.get_set_same]
    rfl
  rw [← reason]
  rfl

/-! ### A sweep that is finished -/

/-- The state with the sweep of a port finished (08 R171). -/
def State.finishing (s : State) (p : Port) : State := s.withPort p { s.ctl.ports.get p with sweepFinished := true }

theorem finishing_record (s : State) (p : Port) :
    (s.finishing p).ctl.ports.get p = { s.ctl.ports.get p with sweepFinished := true } := PerPort.get_set_same _ p _

theorem finishing_portState (s : State) (p : Port) : (s.finishing p).portState p = s.portState p :=
  (congrArg PortRec.state (finishing_record s p) :)

theorem finishing_others (hs : s.settled) (hq : q ≠ p) : (s.finishing p).mayLeave q = false := by
  have same : (s.finishing p).ctl.ports.get q = s.ctl.ports.get q := PerPort.get_set_other _ _ hq
  exact mayLeave_false (hs q) fun _ hf => ⟨congrArg PortRec.state same, same ▸ hf, fun _ _ => rfl⟩

theorem finishing_mayLeave (s : State) (p : Port) :
    (s.finishing p).mayLeave p
      = (s.portState p == .departing && s.occupied p == 0 || s.portState p == .fencing && !s.draining p) := by
  unfold State.mayLeave
  rw [finishing_portState, finishing_record, Bool.and_true, Bool.and_true]
  rfl

/-- The tests find the port still kept by its slots (07 R141, R147). -/
theorem settle_finishing_stays (hs : s.settled)
    (h : s.portState p = .departing ∧ 0 < s.occupied p ∨ s.portState p = .fencing ∧ s.draining p = true) :
    (s.finishing p).settle = s.finishing p := by
  refine settle_of_settled fun q => ?_
  by_cases hq : q = p
  · subst q
    rw [finishing_mayLeave]
    rcases h with ⟨hst, hn⟩ | ⟨hst, hd⟩
    · rw [hst, beq_eq_false_iff_ne.2 (Nat.pos_iff_ne_zero.1 hn)]
      rfl
    · rw [hst, hd]
      rfl
  · exact finishing_others hs hq

theorem finishing_goesDown (s : State) (p : Port) (r : PortRec) (n : Notice) (ev : Event) :
    (s.finishing p).goesDown p r n ev = s.goesDown p r n ev := by
  have once : (s.finishing p).setPort p r = s.setPort p r :=
    congrArg (fun m => { s with ctl := { s.ctl with ports := m } }) (PerPort.set_set _ p _ r)
  unfold State.goesDown
  rw [once]

/-- The tests let a departing port go that no slot keeps and none awaits (07 R141). -/
theorem settle_finishing_parks (hs : s.settled) (hst : s.portState p = .departing) (ho : s.occupied p = 0)
    (ha : ∀ i x, s.txn i = some x → x.awaited.get p = none) :
    (s.finishing p).settle = s.goesDown p (s.ctl.ports.get p).passed (.memberDown p none) .parked := by
  have may : (s.finishing p).mayLeave p = true := by
    rw [finishing_mayLeave, hst, ho]
    rfl
  have state := (finishing_portState s p).trans hst
  have leaves : State.leaveIfReady p (s.finishing p)
      = (s.finishing p).goesDown p (s.ctl.ports.get p).passed (.memberDown p none) .parked := by
    unfold State.leaveIfReady
    rw [if_pos may, state, if_pos (beq_self_eq_true _), passToParked_unawaited (s := s.finishing p) ha,
      finishing_record]
    rfl
  rw [settle_one may (fun q hq => finishing_others hs hq), leaves, finishing_goesDown]
  rw [leaves]
  exact goesDown_settled (fun q hq => finishing_others hs hq) (by rw [state]; nofun) ⟨nofun, nofun, nofun⟩

/-- The tests let a port in FENCING go that no slot keeps (07 R147). -/
theorem settle_finishing_exits (hs : s.settled) (hst : s.portState p = .fencing) (hd : s.draining p = false) :
    (s.finishing p).settle
      = s.goesDown p (s.ctl.ports.get p).exited (.memberDown p (s.ctl.ports.get p).fenceReason) .fenced := by
  have may : (s.finishing p).mayLeave p = true := by
    rw [finishing_mayLeave, hst, hd]
    rfl
  have state := (finishing_portState s p).trans hst
  have leaves : State.leaveIfReady p (s.finishing p) = (s.finishing p).goesDown p (s.ctl.ports.get p).exited
      (.memberDown p (s.ctl.ports.get p).fenceReason) .fenced := by
    unfold State.leaveIfReady
    rw [if_pos may, state, if_neg (by nofun), exitFencing_eq, finishing_record]
    rfl
  have left : (s.ctl.ports.get p).exited.state ≠ .active ∧ (s.ctl.ports.get p).exited.state ≠ .departing
      ∧ (s.ctl.ports.get p).exited.state ≠ .fencing := by
    unfold PortRec.exited
    cases (s.ctl.ports.get p).present <;> exact ⟨nofun, nofun, nofun⟩
  rw [settle_one may (fun q hq => finishing_others hs hq), leaves, finishing_goesDown]
  rw [leaves]
  exact goesDown_settled (fun q hq => finishing_others hs hq) (by rw [state]; nofun) left

/-! ### The reports -/

/-- The state with other reports on their way (08 R171). -/
def State.reporting (s : State) (l : List Report) : State := s.setSweep { s.sweep with reports := l }

theorem reporting_settled (hs : s.settled) (l : List Report) : (s.reporting l).settled :=
  settled_same hs rfl fun _ => rfl

theorem exec_sweepReport (hr : s.inReset = false) : exec .sweepReport s = .next s.sweepReportTaken :=
  change_running hr _

/-- A DEPART report is taken where its port is in DEPARTING, a FENCE report where it is in FENCING (08 R171). -/
theorem sweepReportTaken_finishes
    (h : s.sweep.reports = .depart p :: rest ∧ s.portState p = .departing
      ∨ s.sweep.reports = .fence p :: rest ∧ s.portState p = .fencing) :
    s.sweepReportTaken = ((s.reporting rest).finishing p).settle := by
  unfold State.sweepReportTaken State.dropReport State.reporting
  rcases h with ⟨hrep, hst⟩ | ⟨hrep, hst⟩ <;> rw [hrep] <;> exact if_pos hst

theorem sweepReportTaken_drops
    (h : s.sweep.reports = .depart p :: rest ∧ s.portState p ≠ .departing
      ∨ s.sweep.reports = .fence p :: rest ∧ s.portState p ≠ .fencing) :
    s.sweepReportTaken = s.reporting rest := by
  unfold State.sweepReportTaken State.dropReport State.reporting
  rcases h with ⟨hrep, hst⟩ | ⟨hrep, hst⟩ <;> rw [hrep] <;> exact if_neg hst

/-- The record of a port after the CLEAR report (08 R175, 07 R153). -/
def PortRec.cleared (r : PortRec) : PortRec := if r.state = .fencing then { r with sweepFinished := true } else r

/-- The state with every port in FENCING finished. -/
def State.clearing (s : State) : State :=
  { s with ctl := { s.ctl with
      ports := ⟨s.ctl.ports.p0.cleared, s.ctl.ports.p1.cleared, s.ctl.ports.p2.cleared, s.ctl.ports.p3.cleared⟩ } }

theorem clearing_record (s : State) (p : Port) : s.clearing.ctl.ports.get p = (s.ctl.ports.get p).cleared := by
  cases p <;> rfl

theorem finishFenced_eq (s : State) (p : Port) : s.finishFenced p = s.setPort p (s.ctl.ports.get p).cleared := by
  by_cases h : s.portState p = .fencing
  · exact (if_pos h).trans (congrArg (s.setPort p) (if_pos h).symm)
  · exact (if_neg h).trans ((setPort_self s p).symm.trans (congrArg (s.setPort p) (if_neg h).symm))

theorem finishFenced_all (s : State) : Port.all.foldl State.finishFenced s = s.clearing := by
  unfold Port.all
  simp only [List.foldl_cons, List.foldl_nil, finishFenced_eq]
  rfl

theorem clearing_settled (hs : s.settled) (hd : ∀ p, s.portState p = .fencing → s.draining p = true) :
    s.clearing.settled := by
  intro p
  by_cases hst : s.portState p = .fencing
  · have state : s.clearing.portState p = .fencing := by
      refine (congrArg PortRec.state (clearing_record s p)).trans ?_
      unfold PortRec.cleared
      rw [if_pos (show (s.ctl.ports.get p).state = .fencing from hst)]
      exact hst
    have drains : s.clearing.draining p = true := hd p hst
    unfold State.mayLeave
    rw [state, drains]
    simp
  · have same : s.clearing.ctl.ports.get p = s.ctl.ports.get p := (clearing_record s p).trans (if_neg hst)
    exact mayLeave_false (hs p) fun _ hf => ⟨congrArg PortRec.state same, same ▸ hf, fun _ _ => rfl⟩

theorem clearReportTaken_eq (h : s.sweep.reports = .clear :: rest) :
    s.clearReportTaken
      = ({ (s.reporting rest).clearing.settle with
          svc := { (s.reporting rest).clearing.settle.svc with hubState := .running } } : State).raise .clearDone := by
  unfold State.clearReportTaken State.dropReport
  rw [h]
  dsimp only
  rw [finishFenced_all]
  rfl

/-- Settles O52: a report finishes the sweep of its port, and the tests let go the port that no slot keeps. -/
theorem reportsAreTaken : Obligations.ReportsAreTaken := by
  intro s rest hr hs dropped
  have settled : dropped.settled := reporting_settled hs rest
  refine ⟨fun p h => ?_, fun p h => ?_, fun p hrep hst ho ha => ?_, fun p hrep hst hd => ?_, fun hrep hd => ?_⟩
  · rw [exec_sweepReport hr, sweepReportTaken_drops h]
    rfl
  · have taken : s.sweepReportTaken = (dropped.finishing p).settle := sweepReportTaken_finishes
      (h.imp (fun ⟨hrep, hst, _⟩ => ⟨hrep, hst⟩) fun ⟨hrep, hst, _⟩ => ⟨hrep, hst⟩)
    have stays : (dropped.finishing p).settle = dropped.finishing p := settle_finishing_stays settled
      (h.imp (fun ⟨_, hst, ho⟩ => ⟨hst, ho⟩) fun ⟨_, hst, hd⟩ => ⟨hst, hd⟩)
    rw [exec_sweepReport hr, taken, stays]
    rfl
  · have taken : s.sweepReportTaken = _ := (sweepReportTaken_finishes (.inl ⟨hrep, hst⟩)).trans
      (settle_finishing_parks settled hst ho ha)
    obtain ⟨same, ctl, told⟩ := goesDown_spec (s := dropped) (p := p) (r := (s.ctl.ports.get p).passed)
      (n := .memberDown p none) (ev := .parked) (by rw [show dropped.portState p = _ from hst]; nofun) nofun
    exact ⟨_, (exec_sweepReport hr).trans (congrArg _ taken), same, ctl, told⟩
  · have taken : s.sweepReportTaken = _ := (sweepReportTaken_finishes (.inr ⟨hrep, hst⟩)).trans
      (settle_finishing_exits settled hst hd)
    obtain ⟨same, ctl, told⟩ := goesDown_spec (s := dropped) (p := p) (r := (s.ctl.ports.get p).exited)
      (n := .memberDown p (s.ctl.ports.get p).fenceReason) (ev := .fenced)
      (by rw [show dropped.portState p = _ from hst]; nofun)
      (by unfold PortRec.exited; cases (s.ctl.ports.get p).present <;> nofun)
    exact ⟨_, (exec_sweepReport hr).trans (congrArg _ taken), same, ctl, told⟩
  · have taken := clearReportTaken_eq hrep
    have stays : (s.reporting rest).clearing.settle = (s.reporting rest).clearing :=
      settle_of_settled (clearing_settled settled hd)
    rw [stays] at taken
    exact ⟨_, (change_running hr _).trans (congrArg _ taken), rfl, clearing_record s⟩

end Sys2Proof.Machine
end

section
/-! PROOFS. The visits that recall through the sweep slot, and the walk after the slot's transaction has ended. -/

namespace Sys2Proof.Machine

variable {s t u : State} {p : Port} {g : Granule} {w : Fin 8} {e : Entry} {x : Txn} {js : List Job} {job : Job}
  {kind : TxnKind} {asks : Port → Option RecallKind}

/-! ### The sweep slot placed -/

/-- The action of the running job is the one of the sweep slot's kind (03 R60). -/
def Job.acts (job : Job) (kind : TxnKind) : Prop :=
  (∃ p, job = .depart p ∧ kind = .sweepDepart p) ∨ job = .recheck ∧ kind = .sweepRecheck

/-- The recall set of the sweep slot asks what the walk's action asks (03 R60, 08 R166). -/
theorem recallSet_sweep (hk : job.acts kind) (i : SlotId) (e : Entry) :
    s.recallSet i kind e = asked (s.jobAsks job e) := by
  rcases hk with ⟨p, rfl, rfl⟩ | ⟨rfl, rfl⟩
  · change (if e.holders.get p then [(p, RecallKind.revoke)] else []) = _
    unfold asked State.jobAsks Port.all
    cases hp : e.holders.get p <;> cases p <;> simp [hp]
  · exact recheckRecalls_eq s e

/-- A visit that asks a holder needs the sweep slot (08 R164, R165). -/
theorem visit_needs (hk : job.acts kind) (hj : s.sweep.jobs = job :: js) (hcur : s.currentEntry = some e)
    (hl : ∀ j, e.lock ≠ .evicting j) (ha : ∃ q, s.jobAsks job e q ≠ none) :
    s.visit = s.needSlot kind e.granule := by
  rcases hk with ⟨p, rfl, rfl⟩ | ⟨rfl, rfl⟩
  · rw [visit_depart hj hcur hl]
    refine if_pos ?_
    obtain ⟨q, hq⟩ := ha
    by_contra hp
    refine hq ?_
    unfold State.jobAsks
    by_cases hqp : q = p
    · subst q
      exact if_pos (Bool.eq_false_iff.2 hp)
    · simp [hqp]
  · rw [visit_recheck hj hcur hl]
    exact if_neg fun h => ha.elim fun q hq => hq (asked_eq_nil.1 h q)

/-- In a chain the sweep slot waits at the tail (03 R46, 08 R164). -/
theorem needSlot_joins (hx : s.txn sweepSlot = none) (hc : s.chain g ≠ []) (kind : TxnKind) :
    s.needSlot kind g
      = ((s.setTxn sweepSlot (some (newTxn kind g))).setChain g (s.chain g ++ [sweepSlot])).setPause .slot := by
  unfold State.needSlot State.placeSweep
  rw [hx, if_neg (by nofun)]
  dsimp only
  split
  · rename_i h
    exact absurd h hc
  · rfl

/-- While the sweep slot is in use it is not placed (08 R169). -/
theorem needSlot_inUse (hx : s.txn sweepSlot ≠ none) (kind : TxnKind) (g : Granule) :
    s.needSlot kind g = s.setPause .slotInUse := if_pos (Option.isSome_iff_ne_none.2 hx)

/-- At the head of a new chain the sweep slot recalls (03 R48, R60, 05 R90). -/
theorem needSlot_recalls (hk : job.acts kind) (hx : s.txn sweepSlot = none) (hc : s.chain e.granule = [])
    (he : s.EntryAt e.granule w e) (ha : ∃ q, s.jobAsks job e q ≠ none)
    (hm : ∀ q, e.holders.get q = true → s.portState q = .active ∨ s.portState q = .departing) :
    ∃ t, s.needSlot kind e.granule = t
      ∧ t = { s with
          table := t.table, dir := t.dir, ifaces := t.ifaces
          sweep := { s.sweep with walk := { s.sweep.walk with pause := .slot } } }
      ∧ s.slotBecomes t sweepSlot (some
        { Txn.plain .recalling kind e.granule with
          awaited := awaiting (s.jobAsks job e), deadline := some (s.now + s.table.recallLimit.toNat) })
      ∧ s.chainBecomes t e.granule [sweepSlot]
      ∧ s.wayBecomes t e.granule w (some { e with lock := .busy sweepSlot })
      ∧ s.recallsQueued t e.granule sweepSlot (s.jobAsks job e) := by
  let a := (s.headed sweepSlot kind e.granule).setPause .slot
  let b := a.setDirSet (setOf e.granule) ((a.dirSet (setOf e.granule)).put w { e with lock := .busy sweepSlot })
  have placed : a.txn sweepSlot = some (newTxn kind e.granule) := headed_txn_same s sweepSlot kind e.granule
  have masked : kind.zeroMask = false := by
    rcases hk with ⟨p, rfl, rfl⟩ | ⟨rfl, rfl⟩ <;> rfl
  have entryA : a.EntryAt e.granule w e := he.of_dir rfl
  have way : a.wayBecomes b e.granule w (some { e with lock := .busy sweepSlot }) := wayBecomes_put _ _ _ rfl
  have entry : b.EntryAt e.granule w { e with lock := .busy sweepSlot } := entryA.rewritten way rfl
  have holder : ∀ q, s.jobAsks job e q ≠ none → e.holders.get q = true := fun q hq => by
    by_contra h
    exact hq (if_pos (Bool.eq_false_iff.2 h))
  obtain ⟨t, recalled, rest, queued⟩ := recallPhase_recalls (s := b) (i := sweepSlot) (asks := s.jobAsks job e) placed
    (fun q hq => by
      rw [show (newTxn kind e.granule).granule = e.granule from rfl, entry.holds] at hq
      rcases hm q hq with h | h <;> rw [show b.portState q = s.portState q from rfl, h] <;> nofun)
    entry.entry (recallSet_sweep (s := b) hk sweepSlot _) ha
    (fun q hq => isFenced_of_member (hm q (holder q hq)))
  have ended : s.needSlot kind e.granule = t := by
    have activated : a.activateInPlace sweepSlot = (t, false) :=
      (activateInPlace_locks placed masked rfl entryA).trans recalled
    unfold State.needSlot State.placeSweep
    rw [hx, if_neg (by nofun)]
    dsimp only
    rw [hc]
    change (if (a.activateInPlace sweepSlot).2 then _ else (a.activateInPlace sweepSlot).1) = t
    rw [activated]
    rfl
  refine ⟨t, ended, ?_, ⟨fun j => ?_, ?_⟩, fun h => ?_, ?_, queued⟩
  · rw [rest]
    rfl
  · rw [rest]
    refine (txn_setTxn b sweepSlot j _).trans ?_
    rw [show b.txn j = _ from headed_txn s sweepSlot kind e.granule j]
    split <;> rfl
  · rw [rest]
    rfl
  · rw [rest]
    exact headed_chain s sweepSlot kind e.granule h
  · exact wayBecomes_of_dir way rfl (by rw [rest]; rfl)

/-! ### The end of the sweep slot's transaction -/

/-- The kinds of the sweep slot (03 R60, 08 R174). -/
def TxnKind.ofSweep (k : TxnKind) : Prop := k = .sweepRecheck ∨ k = .sweepWithdrawn ∨ ∃ q, k = .sweepDepart q

/-- The sweep slot's transaction ends without an answer (03 R60). -/
theorem endTxn_sweep {i : SlotId} (hx : u.txn i = some x) (hk : x.kind.ofSweep) :
    u.endTxn i = (u.changeEntry x.granule (.unlock i)).freeHead i x.granule := by
  unfold State.endTxn
  rw [hx]
  dsimp only
  obtain h | h | ⟨q, h⟩ := hk <;> rw [h]

/-- The sweep slot alone in its chain: the last answer ends its transaction, and the walk is told (03 R60, 05 R99). -/
theorem unawait_sweep (hx : u.txn sweepSlot = some x) (hlast : x.awaited.set p none = .const none)
    (hp : x.phase = .recalling) (hg : x.granule = g) (hk : x.kind.ofSweep) (ho : u.outstanding sweepSlot = 0)
    (hchains : Sparse.wf [] u.table.chains) (hc : u.chain g = [sweepSlot]) :
    ∃ v, u.unawait sweepSlot p = v.sweepSlotFreed
      ∧ v = { u with table := v.table, dir := (u.changeEntry g (.unlock sweepSlot)).dir }
      ∧ u.slotBecomes v sweepSlot none ∧ u.chainBecomes v g [] := by
  subst hg
  let b := u.setTxn sweepSlot (some x.inMemory)
  let v := (b.changeEntry x.granule (.unlock sweepSlot)).freeHead sweepSlot x.granule
  have nothing : (u.setTxn sweepSlot (some x.answered)).ownOperation sweepSlot x.answered = none := by
    obtain h | h | ⟨q, h⟩ := hk
    all_goals exact ownOperation_of_kind h
  have ended : u.unawait sweepSlot p = b.finish sweepSlot := by
    rw [unawait_recalling hx hlast hp, takeMemory_ends (txn_setTxn_same u _ _) nothing ho, setTxn_setTxn]
    rfl
  have chain : u.chainBecomes v x.granule [] := by
    have left : (u.chain x.granule).erase sweepSlot = [] := by
      rw [hc]
      rfl
    intro h
    change (State.setChain ((b.changeEntry x.granule (.unlock sweepSlot)).setTxn sweepSlot none) x.granule
      ((u.chain x.granule).erase sweepSlot)).chain h = _
    rw [left]
    exact chain_setChain hchains _ _ h
  have slots : ∀ j, v.txn j = if j = sweepSlot then none else u.txn j := fun j => by
    refine (freeHead_txn (b.changeEntry x.granule (.unlock sweepSlot)) sweepSlot j x.granule).trans ?_
    change (if j = sweepSlot then none else b.txn j) = _
    rw [show b.txn j = _ from txn_setTxn u sweepSlot j _]
    split <;> rfl
  refine ⟨v, ?_, rfl, ⟨slots, rfl⟩, chain⟩
  rw [ended]
  unfold State.finish
  rw [show b.txn sweepSlot = _ from txn_setTxn_same u sweepSlot _]
  dsimp only
  unfold State.advanceAfter
  rw [show b.endTxn sweepSlot = v from endTxn_sweep (x := x.inMemory) (txn_setTxn_same u sweepSlot _) hk]
  change (State.advance (v.chain x.granule) v).afterEnd sweepSlot = _
  rw [chain, if_pos rfl]
  rfl

/-- The entry after the release of the lock that the sweep slot alone held (02 R27, R39). -/
def Entry.leftBy (e : Entry) : Option Entry := if e.holders = .const false then none else some { e with lock := .none }

theorem State.EntryAt.unlock_left {i : SlotId} (h : s.EntryAt g w e) (hc : Sparse.wf DirSet.empty s.dir)
    (hl : e.lock = .busy i) : s.wayBecomes (s.changeEntry g (.unlock i)) g w e.leftBy := by
  by_cases hn : e.holders = .const false
  · rw [show e.leftBy = none from if_pos hn]
    exact h.unlock_frees hc hl hn
  · have unlocked : e.apply (.unlock i) = { e with lock := .none } :=
      congrArg (fun l => { e with lock := l }) (if_pos (.inl hl))
    have kept : (e.apply (.unlock i)).freed = false := by
      rw [unlocked]
      unfold Entry.freed
      rw [Bool.eq_false_iff.2 fun hm => hn ((noMember_iff e.holders).1 hm)]
      rfl
    rw [show e.leftBy = some { e with lock := .none } from if_neg hn, ← unlocked]
    exact h.wayBecomes_change kept

theorem sweepSlotFreed_slot (h : s.sweep.walk.pause = .slot) : s.sweepSlotFreed = s.passed := by
  unfold State.sweepSlotFreed
  rw [h, moveOn_eq_passed]

theorem sweepSlotFreed_inUse (h : s.sweep.walk.pause = .slotInUse) : s.sweepSlotFreed = (s.setPause .none).visit := by
  unfold State.sweepSlotFreed
  rw [h]
  rfl

/-- A YIELD that a slot awaits, with a change after which no port may leave (05 R95). -/
theorem State.AwaitsYield.exec_calm {recallId : Byte} {i : SlotId} {a : Awaited} {o : YieldOutcome}
    (h : s.AwaitsYield p recallId g i x a) (ha : a.timedOut = false)
    (ht : ((s.yieldChange p g a.kind o).offerYielded i g o).unawait i p = t) (hs : t.settled) (tag : Tag) :
    exec (.yield p tag g recallId o) s = .next t := by
  rw [exec_yield h.receives h.member]
  unfold State.matchYield
  rw [h.awaitedBy]
  refine congrArg _ ((if_neg (by rw [ha]; exact Bool.false_ne_true)).trans ?_)
  rw [ht, settle_of_settled hs]

theorem yieldChange_canonical (hc : Sparse.wf DirSet.empty s.dir) (p : Port) (g : Granule) (r : RecallKind)
    (o : YieldOutcome) : Sparse.wf DirSet.empty (s.yieldChange p g r o).dir := by
  have changed : ∀ c, Sparse.wf DirSet.empty (s.changeEntry g c).dir := fun c => Sparse.wf_set hc _ _
  unfold State.yieldChange
  split
  · exact changed _
  · exact changed _
  · split
    · exact changed _
    · exact hc
  · split
    · exact changed _
    · exact hc

/-- The entry that the sweep slot leaves after the last answer (05 R96, R97, 02 R39). -/
theorem yielded_leftBy {o : YieldOutcome} (ho : o = .clean ∨ o = .absent) (e : Entry) (p : Port) (r : RecallKind) :
    (e.yielded p r o).leftBy =
      if r = .demote ∧ o = .clean then
        if e.holders = .const false then none
        else some { e with mode := if e.holders.get p = true then .readers else e.mode, lock := .none }
      else if e.holders.set p false = .const false then none
      else some { e with holders := e.holders.set p false, lock := .none } := by
  cases r with
  | revoke => rfl
  | demote =>
    obtain rfl | rfl := ho
    · unfold Entry.yielded Entry.leftBy
      cases e.holders.get p <;> rfl
    · rfl

/-- The last answer to the sweep slot: the recalled entry is left without lock, the slot is FREE, and the walk is told
(03 R60, 05 R96 to R99). -/
theorem yield_frees_sweepSlot {o : YieldOutcome} (hdir : Sparse.wf DirSet.empty s.dir)
    (hchains : Sparse.wf [] s.table.chains) (he : s.EntryAt g w e) (hl : e.lock = .busy sweepSlot)
    (hx : s.txn sweepSlot = some x) (hlast : x.awaited.set p none = .const none) (hp : x.phase = .recalling)
    (hg : x.granule = g) (hk : x.kind.ofSweep) (hn : s.outstanding sweepSlot = 0) (hc : s.chain g = [sweepSlot])
    (ho : o = .clean ∨ o = .absent) (r : RecallKind) :
    ∃ v, ((s.yieldChange p g r o).offerYielded sweepSlot g o).unawait sweepSlot p = v.sweepSlotFreed
      ∧ v = { s with table := v.table, dir := v.dir }
      ∧ s.slotBecomes v sweepSlot none ∧ s.chainBecomes v g [] ∧ s.wayBecomes v g w (e.yielded p r o).leftBy := by
  have locked : e.lock ≠ .none := fun h => nomatch hl.symm.trans h
  obtain ⟨rest, way⟩ := yieldChange_spec he locked p r o
  let u : State := { s with dir := (s.yieldChange p g r o).dir }
  have taken : (s.yieldChange p g r o).offerYielded sweepSlot g o = u := by
    obtain rfl | rfl := ho <;> exact rest
  have way : s.wayBecomes u g w (some (e.yielded p r o)) := wayBecomes_of_dir way rfl rfl
  have granule : (e.yielded p r o).granule = g := (e.yielded_granule p r o).trans he.granule
  have unlocked := (he.rewritten way granule).unlock_left (yieldChange_canonical hdir p g r o)
    ((e.yielded_lock p r o).trans hl)
  obtain ⟨v, ended, same, slots, chain⟩ := unawait_sweep (u := u) hx hlast hp hg hk hn hchains hc
  refine ⟨v, taken ▸ ended, ?_, slots, chain, way.trans (wayBecomes_of_dir unlocked rfl ?_)⟩
  · rw [same]
  · rw [same]

/-- Settles O51: a visit that asks a holder needs the sweep slot, which is placed, waits or is in use; and the end of
the slot's transaction is told to the walk. -/
theorem walkRecallsThroughTheSweepSlot : Obligations.WalkRecallsThroughTheSweepSlot := by
  intro s hr
  refine ⟨?_, ?_⟩
  · intro job js kind e hj hp hcur he hl asks hk ha paused
    have visited : exec .walkVisit s = .next (s.needSlot kind e.granule) :=
      (exec_visit hr hp).trans (congrArg _ (visit_needs hk hj hcur hl ha))
    refine ⟨fun hx hc _ hm => ?_, fun hx hc => ?_, fun hx => ?_⟩
    · obtain ⟨t, recalled, result⟩ := needSlot_recalls hk hx hc he ha hm
      exact ⟨t, visited.trans (congrArg _ recalled), result⟩
    · rw [needSlot_joins hx hc] at visited
      exact ⟨_, visited, rfl, ⟨fun j => txn_setTxn s sweepSlot j _, rfl⟩, chain_setChain_of_ne (by simp)⟩
    · rw [visited, needSlot_inUse hx]
      rfl
  · intro p tag g recallId o x kind w e hs hcan hrec hm hi hx hphase hg hv hk haw hnothing hc he hl ho gone left freed
    obtain ⟨-, -, -, hchains, hdir⟩ := hcan
    have awaits : s.AwaitsYield p recallId g sweepSlot x ⟨kind, false⟩ :=
      ⟨hrec, hm, hi.symm, hx, by rw [haw, PerPort.get_set_same], by rw [hv]; exact hg⟩
    have last : x.awaited.set p none = .const none := by
      rw [haw]
      cases p <;> rfl
    obtain ⟨v, ended, rest, slots, chain, way⟩ :=
      yield_frees_sweepSlot hdir hchains he hl hx last hphase hg hk hnothing hc ho kind
    rw [yielded_leftBy ho] at way
    have result : ∀ t : State, t.table = v.table → t.dir = v.dir → freed t := fun t table dir =>
      ⟨⟨fun j => (congrArg (fun b : TxnTable => b.slots.get j) table).trans (slots.1 j),
          (congrArg TxnTable.recallLimit table).trans slots.2⟩,
        fun h => (congrArg (fun b : TxnTable => Sparse.get [] b.chains h.toNat) table).trans (chain h),
        wayBecomes_of_dir way rfl dir⟩
    have settled : v.settled := settled_slot hs (by rw [rest]) slots.1 (.inr (.inl fun q hq => nomatch hq))
    have sweep : v.sweep = s.sweep := by rw [rest]
    refine ⟨fun hp => ?_, fun hp => ?_⟩
    · have goes : v.sweepSlotFreed = v.passed := sweepSlotFreed_slot (sweep ▸ hp)
      refine ⟨v.passed, awaits.exec_calm rfl (ended.trans goes) (settled_kept.calm (passed_calm v) settled) tag,
        ?_, result _ (passed_table v) (passed_dir v)⟩
      rw [passed_table, passed_dir]
      exact congrArg State.passed (by rw [rest])
    · have goes : v.sweepSlotFreed = (v.setPause .none).visit := sweepSlotFreed_inUse (sweep ▸ hp)
      have calm : (v.setPause .none).visit.settled :=
        settled_kept.calm (visit_calm _) (settled_kept.calm (setPause_calm v .none) settled)
      have running : (v.setPause .none).inReset = false := by
        rw [rest]
        exact hr
      refine ⟨v.setPause .none, ?_, ?_, result _ rfl rfl⟩
      · rw [exec_visit running rfl]
        exact awaits.exec_calm rfl (ended.trans goes) calm tag
      · rw [rest]
        rfl

end Sys2Proof.Machine
end

section
/-! PROOFS. The frames that intake does not take, those that it refuses, and the events of a link. -/

namespace Sys2Proof.Machine

variable {s : State} {p : Port} {tag : Tag} {g : Granule} {r : Request} {i : SlotId} {f : Frame} {reason : Reason}

/-! ### Frames that are not taken -/

theorem exec_arrives (hr : s.inReset = false) (p : Port) (f : Frame) :
    exec (f.instr p) s = .next (State.arrive p f s) := by
  rw [exec_frame, change_running hr]

theorem arrive_down (h : (s.ifaces.get p).linkUp = false) (f : Frame) : State.arrive p f s = s :=
  if_pos (by rw [h]; rfl)

/-- A frame waits while intake is held back, and behind a frame that waits (09 R179). -/
theorem arrive_waits (hl : (s.ifaces.get p).linkUp = true)
    (h : 32 ≤ (s.ifaces.get p).outq.length ∨ (s.ifaces.get p).waiting ≠ []) (f : Frame) :
    State.arrive p f s
      = s.setIface p { s.ifaces.get p with waiting := (s.ifaces.get p).waiting ++ [f] } := by
  have held : ¬((s.ifaces.get p).outq.length < Config.intakeLimit ∧ (s.ifaces.get p).waiting = []) :=
    fun ⟨few, none_waits⟩ => h.elim (Nat.not_le.2 few) (· none_waits)
  exact (if_neg (by rw [hl]; nofun)).trans (if_neg held)

theorem takeFrame_fenced (h : (s.portState p).isFenced = true) (f : Frame) : s.takeFrame p f = s := if_pos h

/-- Settles O27: the link, the queue and the state of the port are looked at before the frame is. -/
theorem framesThatAreNotTaken : Obligations.FramesThatAreNotTaken := by
  intro p f s running i
  refine ⟨fun down => ?_, fun up held => ?_, fun receives fenced => ?_⟩
  · rw [exec_arrives running, arrive_down down]
  · rw [exec_arrives running, arrive_waits up held]
    rfl
  · have discarded : (s.portState p).isFenced = true := by rcases fenced with h | h <;> rw [h] <;> rfl
    refine ⟨by rw [exec_takes receives, takeFrame_fenced discarded], fun bytes => ?_⟩
    have arrives : exec (.malformedFrame p bytes) s = .next (State.arrive p (Frame.ofBytes bytes) s) :=
      change_running running _
    rw [arrives, arrive_receives receives, takeFrame_fenced discarded]

/-! ### Requests that are refused -/

/-- A request that intake refuses is answered BOUNCE, and nothing else comes of it (09 R188 to R190). -/
theorem exec_request_bounced (hr : s.receives p) (hf : (s.portState p).isFenced = false)
    (h : s.judgeRequest p tag g r = .bounce reason) :
    exec (r.instr p tag g) s = .next (s.queued p (.bounce tag g reason)) := by
  rw [exec_takes_request hr, takeFrame_request hf]
  unfold State.takeRequest
  rw [h]
  exact congrArg _ (send_eq_queued hr.2.1 hf _)

/-- A port that is no member, and one in DEPARTING whose request is no bypass frame (09 R188). -/
theorem judgeRequest_notMember (ht : tag.toNat < 14)
    (h : (s.portState p).isMember = false ∨ s.portState p = .departing ∧ r.bypass = false) (g : Granule) :
    s.judgeRequest p tag g r = .bounce .notMember := by
  unfold State.judgeRequest
  rw [if_neg (Nat.not_le.2 ht)]
  rcases h with outside | ⟨departs, chained⟩
  · cases hst : s.portState p with
    | active | departing => rw [hst] at outside; cases outside
    | empty | parked | held | joinable | fencing | fenced => rfl
  · rw [departs, chained]
    rfl

theorem judgeSlot_starting (h : s.svc.hubState = .initializing) (p : Port) (tag : Tag) (g : Granule) (r : Request) :
    s.judgeSlot p tag g r = .bounce .starting := by
  unfold State.judgeSlot
  rw [h]

theorem judgeSlot_clearing (h : s.svc.hubState = .clearing) (p : Port) (tag : Tag) (g : Granule) (r : Request) :
    s.judgeSlot p tag g r = .bounce .busy := by
  unfold State.judgeSlot
  rw [h]

theorem judgeGranule_badAddress (h : s.mem.granuleCount ≤ g.toNat) (p : Port) (i : SlotId) (r : Request) :
    s.judgeGranule p i g r = .bounce .badAddress := if_pos h

theorem judgeGranule_denied (hg : g.toNat < s.mem.granuleCount) (hb : r.bypass = false)
    (h : (s.right p g).covers r.need = false) (i : SlotId) : s.judgeGranule p i g r = .bounce .denied := by
  unfold State.judgeGranule
  rw [if_neg (Nat.not_le.2 hg), hb, h]
  rfl

theorem judgeGranule_busy (hg : g.toNat < s.mem.granuleCount) (hb : r.bypass = false)
    (hc : (s.right p g).covers r.need = true) (h : s.evictingEntry g = true) (i : SlotId) :
    s.judgeGranule p i g r = .bounce .busy := by
  unfold State.judgeGranule
  rw [if_neg (Nat.not_le.2 hg), hb, hc, h]
  rfl

theorem State.EntryAt.evictingEntry {w : Fin 8} {e : Entry} {j : SlotId} (h : s.EntryAt g w e)
    (hl : e.lock = .evicting j) : s.evictingEntry g = true := by
  unfold State.evictingEntry
  rw [h.entry, Option.any_some, hl]

/-- Settles O29: the checks of intake one after the other, each by what it judges. -/
theorem refusedFramesAreBounced : Obligations.RefusedFramesAreBounced := by
  intro p tag g s receives bounced outside
  have stranger : outside → (s.portState p).isFenced = false ∧ (s.portState p).isMember = false := by
    rintro (h | h | h | h) <;> rw [h] <;> exact ⟨rfl, rfl⟩
  have told : outside → ∀ tag reason, s.send p (.bounce tag g reason) = bounced tag reason := fun h _ _ =>
    send_eq_queued receives.2.1 (stranger h).1 _
  refine ⟨fun out => ⟨fun recallId o => ?_, fun block => ?_⟩, fun r tagged => ⟨fun refused => ?_, fun member => ?_⟩⟩
  · refine (exec_takes receives (.yield tag g recallId o)).trans (congrArg _ ?_)
    unfold State.takeFrame State.takeYield
    rw [(stranger out).1, (stranger out).2]
    exact told out tag .notMember
  · refine (exec_takes receives (.control g block)).trans (congrArg _ ?_)
    unfold State.takeFrame State.takeControl
    rw [(stranger out).1, (stranger out).2]
    exact told out 14 .notMember
  · have notFenced : (s.portState p).isFenced = false :=
      refused.elim (fun out => (stranger out).1) fun departs => by rw [departs.1]; rfl
    exact exec_request_bounced receives notFenced (judgeRequest_notMember (Nat.lt_succ_of_le tagged)
      (refused.imp_left fun out => (stranger out).2) g)
  · have judged : ∀ {reason}, s.judgeSlot p tag g r = .bounce reason →
        exec (r.instr p tag g) s = .next (bounced tag reason) := fun h =>
      exec_request_bounced receives (isFenced_of_member (member.imp_right And.left))
        ((judgeRequest_member (Nat.lt_succ_of_le tagged) member g).trans h)
    refine ⟨fun starting => judged (judgeSlot_starting starting p tag g r),
      fun clearing => judged (judgeSlot_clearing clearing p tag g r), fun i running credit slot free => ?_⟩
    have placed : s.judgeSlot p tag g r = s.judgeGranule p i g r := by
      rw [judgeSlot_running running credit slot, free]
      rfl
    refine ⟨fun beyond => judged (placed.trans (judgeGranule_badAddress beyond p i r)), fun installed chained =>
      ⟨fun denied => judged (placed.trans (judgeGranule_denied installed chained denied i)), fun covered evicting => ?_⟩⟩
    obtain ⟨w, e, j, entry, locked⟩ := evicting
    exact judged (placed.trans (judgeGranule_busy installed chained covered (entry.evictingEntry locked) i))

/-! ### The events of a link -/

/-- The link is lost while no frame waits: the outbound queue is emptied, and the report is on its way (09 R178, R179). -/
theorem linkLost_idle (hl : (s.ifaces.get p).linkUp = true) (hw : (s.ifaces.get p).waiting = []) :
    State.linkLost p s =
      { s with
        freeDraws := s.freeDraws + 1
        ifaces := s.ifaces.set p { s.ifaces.get p with linkUp := false, outq := [] }
        ctl := { s.ctl with linkLost := s.ctl.linkLost.set p (s.ctl.linkLost.get p + 1) } } := by
  unfold State.linkLost
  dsimp only
  rw [hl, if_neg nofun, hw, List.take_nil]
  rfl

/-- The oldest frame is sent, and the frames that wait come to intake (09 R179). -/
theorem frameSent_cons {a : HubFrame} {as : List HubFrame} (h : (s.ifaces.get p).outq = a :: as) :
    State.frameSent p s = State.resumeIntake p (s.ifaces.get p).waiting
      (s.setIface p { s.ifaces.get p with outq := as, waiting := [] }) := by
  unfold State.frameSent
  dsimp only
  rw [h]

/-- While 32 frames or more are queued, the frames that wait go on waiting (09 R179). -/
theorem resumeIntake_held {i : Iface} (hi : s.ifaces.get p = { i with waiting := [] }) (h : 32 ≤ i.outq.length) :
    State.resumeIntake p i.waiting s = s.setIface p i := by
  cases hw : i.waiting with
  | nil =>
    have whole : s.ifaces.get p = i := by rw [hi, ← hw]
    exact (congrArg (fun m => { s with ifaces := m }) (whole ▸ PerPort.set_get s.ifaces p)).symm
  | cons f fs =>
    refine (if_neg (by rw [hi]; exact Nat.not_lt.2 h)).trans ?_
    rw [hi, ← hw]

/-- Settles O46: each event changes the interface, and a frame that waits is taken by the queue's length. -/
theorem linkEvents : Obligations.LinkEvents := by
  intro p s running i
  refine ⟨change_running running _, fun up none_waits =>
    ⟨_, (change_running running _).trans (congrArg _ (linkLost_idle up none_waits)), rfl⟩, ?_⟩
  intro f fs queued sent
  have taken : exec (.frameSent p) s = .next (State.resumeIntake p i.waiting sent) :=
    (change_running running _).trans (congrArg _ (frameSent_cons queued))
  have iface : sent.ifaces.get p = { i with outq := fs, waiting := [] } := PerPort.get_set_same _ _ _
  refine ⟨fun none_waits => ?_, fun many => ?_, fun w up waits few => ?_⟩
  · rw [taken, none_waits]
    rfl
  · have held := resumeIntake_held (i := { i with outq := fs }) iface many
    rw [taken, held]
    exact congrArg _ (congrArg (fun m => { s with ifaces := m }) (PerPort.set_set s.ifaces p _ _))
  · have length : (sent.ifaces.get p).outq.length < Config.intakeLimit := by rw [iface]; exact few
    have receives : sent.receives p := ⟨running, by rw [iface]; exact up, length, by rw [iface]⟩
    rw [taken, exec_takes receives, waits]
    exact congrArg _ (if_pos length)

end Sys2Proof.Machine
end

section
/-! PROOFS. CONTROL frames of a member: the grant, the command code and the answers, and REG_WRITE. -/

namespace Sys2Proof.Machine

variable {s t : State} {p q : Port} {g : Granule} {b : ControlBlock} {c : MemberCommand} {r : Reg} {offset : BitVec 16}
  {v : Word} {reason : Reason}

/-! ### The answers -/

theorem controlBounce_eq (hr : s.receives p) (hm : s.portState p = .active ∨ s.portState p = .departing) (g : Granule)
    (reason : Reason) : s.controlBounce p g reason = s.queued p (.bounce 14 g reason) :=
  send_eq_queued hr.2.1 (isFenced_of_member hm) _

theorem controlAck_eq (hl : (s.ifaces.get p).linkUp = true) (hf : (s.portState p).isFenced = false) (v : Word) :
    s.controlAck p v = s.queued p (.ack 14 0 .ok (.value v) false) := send_eq_queued hl hf _

/-! ### The grant and the command code -/

/-- The code of a membership command in a control block (09 R185). -/
def MemberCommand.controlCode : MemberCommand → Nat
  | .admission => 3
  | .eject => 4
  | .fence => 5
  | .release => 6
  | .holdOn => 7
  | .holdOff => 8

theorem controlCommand_member {code : Byte} (h : code.toNat = c.controlCode) :
    controlCommand code = some (.member c) := by
  unfold controlCommand
  rw [h]
  cases c <;> rfl

theorem exists_controlCode {n : Nat} (h3 : 3 ≤ n) (h8 : n ≤ 8) : ∃ c : MemberCommand, n = c.controlCode :=
  match n, h3, h8 with
  | 3, _, _ => ⟨.admission, rfl⟩
  | 4, _, _ => ⟨.eject, rfl⟩
  | 5, _, _ => ⟨.fence, rfl⟩
  | 6, _, _ => ⟨.release, rfl⟩
  | 7, _, _ => ⟨.holdOn, rfl⟩
  | 8, _, _ => ⟨.holdOff, rfl⟩

/-- A code of the block that names no command (09 R185). -/
theorem controlCommand_none {code : Byte} (h : code = 0 ∨ 10 ≤ code.toNat) : controlCommand code = none := by
  unfold controlCommand
  rcases h with rfl | h
  · rfl
  · match code.toNat, h with
    | _ + 10, _ => rfl

/-- A member without the control grant is refused, whatever it commands (09 R193). -/
theorem controlJudged_ungranted (h : (s.ctl.ports.get p).controlGrant = false) (g : Granule) (b : ControlBlock) :
    s.controlJudged p g b = s.controlBounce p g .refused := if_pos (by rw [h]; rfl)

section Granted
variable (granted : (s.ctl.ports.get p).controlGrant = true) (g : Granule)
include granted

theorem controlJudged_noCommand (h : controlCommand b.code = none) :
    s.controlJudged p g b = s.controlBounce p g .badArgument := by
  unfold State.controlJudged
  rw [granted, h]
  rfl

theorem controlJudged_regRead (h : b.code.toNat = 1) : s.controlJudged p g b = s.controlRead p g b.offset := by
  unfold State.controlJudged controlCommand
  rw [granted, h]
  rfl

theorem controlJudged_regWrite (h : b.code.toNat = 2) :
    s.controlJudged p g b = s.controlWrite p g b.offset b.value := by
  unfold State.controlJudged controlCommand
  rw [granted, h]
  rfl

theorem controlJudged_member (h : b.code.toNat = c.controlCode) :
    s.controlJudged p g b = s.controlMember p g c b.arg := by
  unfold State.controlJudged
  rw [granted, controlCommand_member h]
  rfl

end Granted

/-! ### Registers -/

theorem controlRead_register (h : offset.toNat = r.offset) (p : Port) (g : Granule) :
    s.controlRead p g offset = s.controlAck p (readRegister s r) := by
  unfold State.controlRead
  rw [(ofOffset_iff offset r).2 h]

theorem controlRead_noRegister (h : ∀ r : Reg, offset.toNat ≠ r.offset) (p : Port) (g : Granule) :
    s.controlRead p g offset = s.controlBounce p g .badArgument := by
  unfold State.controlRead
  rw [(ofOffset_none offset).2 h]

theorem controlWrite_noRegister (h : ∀ r : Reg, offset.toNat ≠ r.offset) (p : Port) (g : Granule) (v : Word) :
    s.controlWrite p g offset v = s.controlBounce p g .badArgument := by
  unfold State.controlWrite
  rw [(ofOffset_none offset).2 h]

theorem controlWrite_error (h : offset.toNat = r.offset) (hw : s.writeRegister .card r v = .error reason) (p : Port)
    (g : Granule) : s.controlWrite p g offset v = s.controlBounce p g reason := by
  unfold State.controlWrite
  rw [(ofOffset_iff offset r).2 h]
  dsimp only
  rw [hw]

theorem controlWrite_ok (h : offset.toNat = r.offset) (hw : s.writeRegister .card r v = .ok t) (p : Port)
    (g : Granule) : s.controlWrite p g offset v = t.controlAck p 0 := by
  unfold State.controlWrite
  rw [(ofOffset_iff offset r).2 h]
  dsimp only
  rw [hw]

theorem writeRegister_readOnly (h : r.readOnly = true) (s : State) (src : Source) (v : Word) :
    s.writeRegister src r v = .error .badArgument := by
  cases r with
  | hubState | epoch | memGranules | sweepState | portStatus | window => rfl
  | admitMode | recallLimit | departLimit | eventStatus | eventEnable | corrected | uncorrected | firstFault
  | portControl | protoErrors => cases h

/-- RECALL_LIMIT stores its sixteen bits, and 10 for a value below 10 (05 R103). -/
theorem storeRecallLimit_eq (s : State) (v : Word) :
    s.storeRecallLimit v = { s with table := { s.table with
      recallLimit := if (v.extractLsb' 0 16).toNat < 10 then 10 else v.extractLsb' 0 16 } } := by
  have bits : v.setWidth 16 = v.extractLsb' 0 16 := BitVec.setWidth_eq_extractLsb' (by decide)
  have limit : BitVec.ofNat 16 (max 10 (v.setWidth 16 : BitVec 16).toNat)
      = if (v.extractLsb' 0 16).toNat < 10 then 10 else v.extractLsb' 0 16 := by
    rw [bits]
    split
    · rw [Nat.max_eq_left (by omega)]
      rfl
    · rw [Nat.max_eq_right (by omega), BitVec.ofNat_toNat, BitVec.setWidth_eq]
  exact congrArg (fun l => { s with table := { s.table with recallLimit := l } }) limit

theorem withPort_portState {r : PortRec} (h : r.state = s.portState q) (p : Port) :
    (s.withPort q r).portState p = s.portState p := by
  refine (congrArg PortRec.state (PerPort.get_set s.ctl.ports q p r)).trans ?_
  split
  · subst p
    exact h
  · rfl

/-- Settles O48: the register is judged at its owner, and a write that is taken is answered behind it. -/
theorem controlFramesWriteRegisters : Obligations.ControlFramesWriteRegisters := by
  intro p g b r s receives member granted code offset bounced done v
  have taken : exec (.control p g b) s = .next (s.controlWrite p g b.offset v) := by
    rw [exec_control receives member, controlJudged_regWrite granted g code]
  have refused : ∀ {reason}, s.writeRegister .card r v = .error reason →
      exec (.control p g b) s = .next (bounced reason) := fun h => by
    rw [taken, controlWrite_error offset h, controlBounce_eq receives member]
  have written : ∀ {t : State}, s.writeRegister .card r v = .ok t → (t.ifaces.get p).linkUp = true →
      t.portState p = s.portState p → exec (.control p g b) s = .next (done t) := fun h up state => by
    rw [taken, controlWrite_ok offset h, controlAck_eq up (by rw [state]; exact isFenced_of_member member)]
  have up : (s.ifaces.get p).linkUp = true := receives.2.1
  have low : ∀ n, n ≤ 64 → v.setWidth n = v.extractLsb' 0 n := fun n hn => BitVec.setWidth_eq_extractLsb' hn
  refine ⟨fun readOnly => refused (writeRegister_readOnly readOnly s _ v), ?_, ?_, ?_, ?_, ?_, ?_, ?_, ?_, ?_, ?_⟩
  · rintro rfl
    exact refused rfl
  · rintro q rfl
    exact written rfl up (withPort_portState (by rfl) p)
  · rintro rfl
    rw [← low 11 (by decide)]
    exact written rfl up rfl
  · rintro rfl
    exact written rfl up rfl
  · rintro rfl
    rw [← storeRecallLimit_eq]
    exact written rfl up rfl
  · rintro rfl
    rw [← low 16 (by decide)]
    exact written rfl up rfl
  · rintro rfl
    exact written rfl up rfl
  · rintro rfl
    exact written rfl up rfl
  · rintro rfl
    exact written rfl up rfl
  · rintro q rfl
    refine written rfl ?_ rfl
    change ((s.ifaces.set q _).get p).linkUp = true
    rw [PerPort.get_set]
    split
    · subst q
      exact up
    · exact up

end Sys2Proof.Machine
end

section
/-! PROOFS. What becomes of the queued frames and of the other ports when a member is fenced, or enters DEPARTING. -/

namespace Sys2Proof.Machine

variable {K : Granule → Prop} {s t u : State} {p q k : Port} {i : SlotId} {r : PortRec} {f : HubFrame}
  {reason : FenceReason} {P : State → Prop}

/-! ### Properties that every order keeps -/

/-- What each party keeps is kept by the parties in any order. -/
theorem inFreeOrder_keeps {fs : List (State → State)} (draws : ∀ s n, P s → P { s with freeDraws := n })
    (party : ∀ a ∈ fs, ∀ s, P s → P (a s)) (h : P s) : P (s.inFreeOrder fs) := by
  obtain ⟨n, l, perm, order⟩ := inFreeOrder_map (s := s) (fun a => a) fs
  rw [List.map_id'] at order
  rw [order]
  exact List.foldlRecOn l _ (draws s n h) fun u hu a ha => party a (perm.mem_iff.1 ha) u hu

/-- What is kept where a port leaves DEPARTING or FENCING is kept by the tests of R141 and R147. -/
theorem settle_keeps (draws : ∀ s n, P s → P { s with freeDraws := n })
    (leaves : ∀ s p, s.mayLeave p = true → P s → P (State.leaveIfReady p s)) (h : P s) : P s.settle := by
  have rounds : ∀ n, ∀ {s : State}, P s → P (s.settleRounds n) := fun n => by
    induction n with
    | zero => exact id
    | succ n ih =>
      intro s h
      simp only [State.settleRounds]
      split
      · exact h
      · refine ih (inFreeOrder_keeps draws (fun a ha u hu => ?_) h)
        obtain ⟨p, -, rfl⟩ := List.mem_map.1 ha
        by_cases may : u.mayLeave p = true
        · exact leaves u p may hu
        · unfold State.leaveIfReady
          rwa [if_neg may]
  exact rounds 4 h

/-- A port that leaves DEPARTING or FENCING: its record is rewritten, the epoch rises, what moves leave alone stays, and
an event is raised (07 R141, R147). -/
theorem leaveIfReady_left (may : s.mayLeave p = true) :
    ∃ (r : PortRec) (u : State) (e : Event), Quiet (fun _ => True) (s.setPort p r).bumpEpoch u
      ∧ State.leaveIfReady p s = u.raise e ∧ ((s.portState p).isFenced = false → r.state.isFenced = false) := by
  unfold State.leaveIfReady
  rw [if_pos may]
  split
  · refine ⟨(s.ctl.ports.get p).passed, _, .parked, Quiet.trans (Moves.quiet (A := True) ?_)
      (sendNotice_moves (A := True) _ _ (inside_true _)).quiet, rfl, fun _ => rfl⟩
    refine inFreeOrder_moves (fun a ha u hu => ?_) (inside_true _)
    obtain ⟨i, -, rfl⟩ := List.mem_map.1 ha
    exact resolveAbsent_moves hu p false i
  · rename_i stays
    have fencing : s.portState p = .fencing := by
      unfold State.mayLeave at may
      rw [Bool.or_eq_true, Bool.and_eq_true, Bool.and_eq_true, Bool.and_eq_true, Bool.and_eq_true] at may
      exact may.elim (fun departs => absurd departs.1.1 stays) fun fenced => beq_iff_eq.1 fenced.1.1
    refine ⟨(s.ctl.ports.get p).exited, _, .fenced, (sendNotice_moves (A := True) _ _ (inside_true _)).quiet,
      exitFencing_eq s p, fun unfenced => ?_⟩
    rw [fencing] at unfenced
    cases unfenced

/-! ### Frames that are queued -/

theorem Quiet.mem_outq (h : Quiet K s t) (hf : f ∈ (s.ifaces.get k).outq) : f ∈ (t.ifaces.get k).outq := by
  obtain ⟨fs, grown⟩ := h.frames k
  rw [grown]
  exact List.mem_append_left fs hf

theorem mem_queued (s : State) (p : Port) (f : HubFrame) : f ∈ ((s.queued p f).ifaces.get p).outq := by
  rw [queued_iface, if_pos rfl]
  exact List.mem_append_right _ (List.mem_singleton_self f)

theorem mem_queued_of_mem (h : f ∈ (s.ifaces.get k).outq) (p : Port) (a : HubFrame) :
    f ∈ ((s.queued p a).ifaces.get k).outq := by
  rw [queued_iface]
  exact List.mem_append_left _ h

theorem settle_mem_outq (h : f ∈ (s.ifaces.get k).outq) : f ∈ (s.settle.ifaces.get k).outq :=
  settle_keeps (P := fun u => f ∈ (u.ifaces.get k).outq) (fun _ _ => id) (fun u p may hu => by
    obtain ⟨r, v, e, quiet, ends, -⟩ := leaveIfReady_left may
    rw [ends]
    exact quiet.mem_outq (s := (u.setPort p r).bumpEpoch) hu) h

/-- The tests bring no port into FENCING or FENCED that is not there. -/
theorem settle_notFenced (h : (s.portState k).isFenced = false) : (s.settle.portState k).isFenced = false :=
  settle_keeps (P := fun u => (u.portState k).isFenced = false) (fun _ _ => id) (fun u p may hu => by
    obtain ⟨r, v, e, quiet, ends, stays⟩ := leaveIfReady_left may
    rw [ends]
    refine (congrArg PortState.isFenced (quiet.portState k)).trans ?_
    have record : (u.setPort p r).bumpEpoch.portState k = if k = p then r.state else u.portState k := by
      refine (congrArg PortRec.state (PerPort.get_set u.ctl.ports p k r)).trans ?_
      split <;> rfl
    rw [record]
    split
    · subst k
      exact stays hu
    · exact hu) h

/-! ### A port that is fenced -/

/-- A port in FENCING or FENCED whose sweep has not finished and for which nothing is queued. -/
structure State.Silenced (s : State) (p : Port) : Prop where
  fenced : (s.portState p).isFenced = true
  unfinished : (s.ctl.ports.get p).sweepFinished = false
  empty : (s.ifaces.get p).outq = []

theorem State.Silenced.quiet (h : s.Silenced p) (m : Quiet K s t) : t.Silenced p where
  fenced := by rw [m.portState]; exact h.fenced
  unfinished := by rw [m.ctl]; exact h.unfinished
  empty := (m.silent p (.inr h.fenced)).trans h.empty

theorem State.Silenced.settle (h : s.Silenced p) : s.settle.Silenced p :=
  settle_keeps (P := fun u => u.Silenced p) (fun _ _ hu => ⟨hu.fenced, hu.unfinished, hu.empty⟩) (fun u q may hu => by
    obtain ⟨r, v, e, quiet, ends, -⟩ := leaveIfReady_left may
    have other : p ≠ q := by
      rintro rfl
      rw [mayLeave_unfinished hu.unfinished] at may
      cases may
    have same : (u.setPort q r).bumpEpoch.ctl.ports.get p = u.ctl.ports.get p := PerPort.get_set_other _ _ other
    have rewritten : (u.setPort q r).bumpEpoch.Silenced p :=
      { fenced := by unfold State.portState; rw [same]; exact hu.fenced
        unfinished := by rw [same]; exact hu.unfinished
        empty := hu.empty }
    rw [ends]
    have left := rewritten.quiet quiet
    exact ⟨left.fenced, left.unfinished, left.empty⟩) h

/-- From `s` to `t` a member is fenced: its record is `r`, its queue is empty, and no other port loses a frame or is
fenced with it (07 R144). -/
structure FencedAs (p : Port) (r : PortRec) (s t : State) : Prop where
  record : t.ctl.ports.get p = r
  fencing : r.state = .fencing
  silent : (t.ifaces.get p).outq = []
  frames : ∀ k f, k ≠ p → f ∈ (s.ifaces.get k).outq → f ∈ (t.ifaces.get k).outq
  unfenced : ∀ k, k ≠ p → (s.portState k).isFenced = false → (t.portState k).isFenced = false
  link : ∀ k, (t.ifaces.get k).linkUp = (s.ifaces.get k).linkUp

theorem fenceMember_fencedAs (hm : (s.portState p).isMember = true) (reason : FenceReason) :
    FencedAs p ((s.ctl.ports.get p).fencedFor reason) s (s.fenceMember p reason) := by
  obtain ⟨u, moves, ends⟩ := fenceMember_moves hm reason
  have asked : Quiet (fun _ => True) s (s.requestFence p) := (requestFence_moves (A := True) p).quiet
  have entered := enterFencing_record (s.requestFence p) p reason
  refine
    { record := fenceMember_record hm reason
      fencing := rfl
      silent := ?_
      frames := fun k f hk hf => ?_
      unfenced := fun k hk unfenced => ?_
      link := (fenceMember_acts (inside_true s) p reason).steady.link }
  · have silenced : (State.enterFencing reason (s.requestFence p) p).Silenced p :=
      { fenced := by unfold State.portState; rw [entered]; rfl
        unfinished := by rw [entered]; rfl
        empty := congrArg Iface.outq (PerPort.get_set_same _ p _) }
    rw [ends]
    exact (silenced.quiet moves.quiet).settle.empty
  · have others : (State.enterFencing reason (s.requestFence p) p).ifaces.get k = (s.requestFence p).ifaces.get k :=
      PerPort.get_set_other _ _ hk
    rw [ends]
    exact settle_mem_outq (moves.quiet.mem_outq (by rw [others]; exact asked.mem_outq hf))
  · have others : (State.enterFencing reason (s.requestFence p) p).portState k = (s.requestFence p).portState k :=
      congrArg PortRec.state (PerPort.get_set_other _ _ hk)
    rw [ends]
    refine settle_notFenced ?_
    rw [moves.quiet.portState, others, asked.portState]
    exact unfenced

/-- HOLD_ON of a member fences it with the flag set (07 R150). -/
theorem holdOn_fencedAs (hm : (s.portState p).isMember = true) :
    FencedAs p ({ s.ctl.ports.get p with holdFlag := true }.fencedFor .hold) s (s.holdOn p) := by
  have state : ∀ k, (s.modifyPort p fun r => { r with holdFlag := true }).portState k = s.portState k :=
    withPort_portState (by rfl)
  have fenced := fenceMember_fencedAs (s := s.modifyPort p fun r => { r with holdFlag := true })
    (by rw [state]; exact hm) .hold
  rw [modifyPort_rec] at fenced
  rw [holdOn_member hm]
  exact { fenced with unfenced := fun k hk unfenced => fenced.unfenced k hk (by rw [state]; exact unfenced) }

/-! ### A port that enters DEPARTING -/

theorem send_other (hk : k ≠ p) (s : State) (f : HubFrame) : (s.send p f).ifaces.get k = s.ifaces.get k := by
  unfold State.send
  dsimp only
  split
  · rfl
  · exact PerPort.get_set_other _ _ hk

theorem bounceIfWaiting_other (hk : k ≠ p) (i : SlotId) (s : State) :
    (State.bounceIfWaiting p i s).ifaces.get k = s.ifaces.get k := by
  unfold State.bounceIfWaiting
  split
  · rfl
  · split
    · exact send_other hk s _
    · rfl

/-- The links as the bounces of the port's WAITING slots leave them (07 R139, 03 R57). -/
theorem enterDeparting_ifaces (s : State) (p : Port) :
    (s.enterDeparting p).ifaces = ((s.movePort p .departing).inFreeOrder
      ((s.waitingSlots p).map (State.bounceIfWaiting p))).ifaces :=
  (congrArg State.ifaces (queueJob_eq ((s.movePort p .departing).inFreeOrder
    ((s.waitingSlots p).map (State.bounceIfWaiting p))) (.depart p)) :)

theorem enterDeparting_other (hk : k ≠ p) (s : State) : (s.enterDeparting p).ifaces.get k = s.ifaces.get k := by
  rw [enterDeparting_ifaces]
  refine inFreeOrder_keeps (P := fun u => u.ifaces.get k = s.ifaces.get k) (fun _ _ => id) (fun a ha u hu => ?_) rfl
  obtain ⟨i, -, rfl⟩ := List.mem_map.1 ha
  exact (bounceIfWaiting_other hk i u).trans hu

/-- The bounces are queued behind the frames that were there, and the links stay. -/
theorem enterDeparting_frames (s : State) (p k : Port) :
    ((s.enterDeparting p).ifaces.get k).linkUp = (s.ifaces.get k).linkUp
      ∧ ∀ f ∈ (s.ifaces.get k).outq, f ∈ ((s.enterDeparting p).ifaces.get k).outq := by
  have quiet : Quiet (fun _ => True) (s.movePort p .departing) ((s.movePort p .departing).inFreeOrder
      ((s.waitingSlots p).map (State.bounceIfWaiting p))) := by
    refine Moves.quiet (A := True) (inFreeOrder_moves (fun a ha u _ => ?_) (inside_true _))
    obtain ⟨i, -, rfl⟩ := List.mem_map.1 ha
    exact bounceIfWaiting_moves p i
  rw [enterDeparting_ifaces]
  exact ⟨quiet.linkUp k, fun f => quiet.mem_outq⟩

/-- From `s` to `t` a port is ejected: its WAITING slots are freed, its DEPART job is queued, its record is as R139 says,
its link is told, and no other link changes. -/
structure Ejected (p : Port) (s t : State) : Prop where
  rest : t =
    { s with
      freeDraws := t.freeDraws, table := t.table, ifaces := t.ifaces, sweep := s.departQueued p
      ctl := { s.ctl with ports := s.ctl.ports.set p (s.departed p) } }
  limit : t.table.recallLimit = s.table.recallLimit
  slots : ∀ i, t.txn i = if slotPort i = some p ∧ s.waits i = true then none else s.txn i
  told : (s.ifaces.get p).linkUp = true → .notice (.leaveAskedEject p) s.ctl.epoch ∈ (t.ifaces.get p).outq
  frames : ∀ k, ∀ f ∈ (s.ifaces.get k).outq, f ∈ (t.ifaces.get k).outq
  link : ∀ k, (t.ifaces.get k).linkUp = (s.ifaces.get k).linkUp
  others : ∀ k, k ≠ p → t.ifaces.get k = s.ifaces.get k

theorem eject_ejected (s : State) (p : Port) : Ejected p s (State.applyMember .eject p s) := by
  obtain ⟨n, l, v, perm, bounced, -, ends⟩ := enterDeparting_spec s p
  have links := enterDeparting_frames s p
  have others := fun k (hk : k ≠ p) => enterDeparting_other hk s
  have notice : State.applyMember .eject p s
      = (s.enterDeparting p).send p (.notice (.leaveAskedEject p) (s.enterDeparting p).ctl.epoch) := rfl
  have epoch : (s.enterDeparting p).ctl.epoch = s.ctl.epoch := by rw [ends]
  have unfenced : ((s.enterDeparting p).portState p).isFenced = false := by
    rw [ends]
    exact congrArg (PortState.isFenced ∘ PortRec.state) (PerPort.get_set_same _ p _)
  rw [epoch] at notice
  have quiet := send_quiet (K := fun _ => True) (s.enterDeparting p) p (.notice (.leaveAskedEject p) s.ctl.epoch)
  have rest := send_rest (s.enterDeparting p) p (.notice (.leaveAskedEject p) s.ctl.epoch)
  have told : (s.ifaces.get p).linkUp = true → .notice (.leaveAskedEject p) s.ctl.epoch
      ∈ (((s.enterDeparting p).send p (.notice (.leaveAskedEject p) s.ctl.epoch)).ifaces.get p).outq := fun up => by
    rw [send_eq_queued ((links p).1.trans up) unfenced]
    exact mem_queued _ p _
  rw [notice]
  refine
    { rest := ?_
      limit := ?_
      slots := fun i => ?_
      told := told
      frames := fun k f hf => quiet.mem_outq ((links k).2 f hf)
      link := fun k => (quiet.linkUp k).trans (links k).1
      others := fun k hk => (send_other hk _ _).trans (others k hk) }
  · rw [rest, ends]
  · rw [send_table, ends]
    exact bounced.limit
  · rw [send_txn, ends]
    refine (bounced.slots i).trans ?_
    simp only [perm.mem_iff, mem_waitingSlots]
    rfl

end Sys2Proof.Machine
end

section
/-! PROOFS. Membership commands in CONTROL frames: refused, and taken with the ACK before or behind the effect. -/

namespace Sys2Proof.Machine

variable {s u : State} {p q : Port} {g : Granule} {b : ControlBlock} {c : MemberCommand} {r : PortRec}

/-! ### A command that is judged -/

/-- A granted member whose CONTROL frame, with this membership command for this port, is taken from its link. -/
structure State.Commands (s : State) (p : Port) (b : ControlBlock) (c : MemberCommand) (q : Port) : Prop where
  receives : s.receives p
  member : s.portState p = .active ∨ s.portState p = .departing
  granted : (s.ctl.ports.get p).controlGrant = true
  code : b.code.toNat = c.controlCode
  arg : b.arg = q.byte

/-- The sender is another port than one that is no member, and its own state stays. -/
theorem State.Commands.portState_withPort (h : s.Commands p b c q) (hq : (s.portState q).isMember = false)
    (r : PortRec) : (s.withPort q r).portState p = s.portState p :=
  congrArg PortRec.state (PerPort.get_set_other _ r fun same => by
    rw [← same, isMember_of h.member] at hq
    cases hq)

theorem admission_not_applies (h : r.state ≠ .held ∨ r.holdFlag = true) :
    MemberCommand.admission.applies r = false := by
  unfold MemberCommand.applies
  rcases h with state | flag
  · rw [beq_eq_false_iff_ne.2 state]
    rfl
  · rw [flag]
    exact Bool.and_false _

theorem fence_not_applies (ha : r.state ≠ .active) (hd : r.state ≠ .departing) :
    MemberCommand.fence.applies r = false := by
  change r.state.isMember = false
  cases hst : r.state with
  | active => exact absurd hst ha
  | departing => exact absurd hst hd
  | empty | parked | held | joinable | fencing | fenced => rfl

theorem State.Commands.exec_judged (h : s.Commands p b c q) (g : Granule) :
    exec (.control p g b) s = .next (s.controlMember p g c q.byte) := by
  rw [exec_control h.receives h.member, controlJudged_member h.granted g h.code, h.arg]

/-- A command in a state where it does not apply is refused, and nothing changes (07 R149). -/
theorem State.Commands.exec_wrongState (h : s.Commands p b c q) (hc : c.applies (s.ctl.ports.get q) = false)
    (g : Granule) : exec (.control p g b) s = .next (s.queued p (.bounce 14 g .wrongState)) := by
  rw [h.exec_judged, ← controlBounce_eq h.receives h.member]
  unfold State.controlMember
  rw [judgeMember_byte, hc]
  rfl

/-- A command that applies is answered ACK OK with value 0, before or behind its effect (09 R193; log 13). -/
theorem State.Commands.exec_applies (h : s.Commands p b c q) (hc : c.applies (s.ctl.ports.get q) = true)
    (g : Granule) : ∃ n,
      exec (.control p g b) s = .next (State.applyMember c q
          (({ s with freeDraws := n } : State).queued p (.ack 14 0 .ok (.value 0) false)))
        ∨ exec (.control p g b) s = .next ((State.applyMember c q { s with freeDraws := n }).controlAck p 0) := by
  have taken : s.controlMember p g c q.byte = s.inFreeOrder [fun s => s.controlAck p 0, State.applyMember c q] := by
    unfold State.controlMember
    rw [judgeMember_byte, if_pos hc]
  rw [h.exec_judged, taken]
  obtain ⟨n, order | order⟩ := inFreeOrder_two s (fun s => s.controlAck p 0) (State.applyMember c q)
  · have acked := controlAck_eq (s := { s with freeDraws := n }) h.receives.2.1 (isFenced_of_member h.member) 0
    exact ⟨n, .inl (congrArg _ (order.trans (congrArg _ acked)))⟩
  · exact ⟨n, .inr (congrArg _ order)⟩

/-! ### A command that moves a port -/

/-- The state with other draws and other interfaces. -/
def State.reframed (s : State) (n : Nat) (links : PerPort Iface) : State :=
  { s with freeDraws := n, ifaces := links }

/-- A command that looks at no frame and leaves the frames and the sender's state alone: the order of its effect and the
ACK makes no difference. -/
theorem State.Commands.exec_moves (h : s.Commands p b c q) (hc : c.applies (s.ctl.ports.get q) = true)
    (moves : ∀ n links, State.applyMember c q (s.reframed n links) = u.reframed n links)
    (links : u.ifaces = s.ifaces) (state : u.portState p = s.portState p) (g : Granule) :
    ∃ t, exec (.control p g b) s = .next t
      ∧ t = { u.queued p (.ack 14 0 .ok (.value 0) false) with freeDraws := t.freeDraws } := by
  obtain ⟨n, taken | taken⟩ := h.exec_applies hc g
  · refine ⟨_, taken.trans (congrArg _ (moves n _)), ?_⟩
    unfold State.queued
    rw [links]
    rfl
  · have moved : State.applyMember c q { s with freeDraws := n } = { u with freeDraws := n } := by
      rw [links]
      exact moves n s.ifaces
    rw [moved, controlAck_eq (s := { u with freeDraws := n }) (by rw [links]; exact h.receives.2.1)
      ((congrArg PortState.isFenced state).trans (isFenced_of_member h.member))] at taken
    exact ⟨_, taken, rfl⟩

/-! ### A command that fences a member -/

/-- A command that fences a port: the sender's ACK stands on its link, and a card that fences itself receives none. -/
theorem State.Commands.exec_fences (h : s.Commands p b c q) (hc : c.applies (s.ctl.ports.get q) = true)
    (fences : ∀ u : State, u.ctl.ports.get q = s.ctl.ports.get q → FencedAs q r u (State.applyMember c q u))
    (g : Granule) : ∃ t, exec (.control p g b) s = .next t ∧ t.ctl.ports.get q = r
      ∧ (q = p → (t.ifaces.get p).outq = [])
      ∧ (q ≠ p → .ack 14 0 .ok (.value 0) false ∈ (t.ifaces.get p).outq ∧ (t.ifaces.get q).outq = []) := by
  obtain ⟨n, taken | taken⟩ := h.exec_applies hc g
  · have fenced := fences (({ s with freeDraws := n } : State).queued p (.ack 14 0 .ok (.value 0) false)) rfl
    refine ⟨_, taken, fenced.record, ?_, fun other => ⟨?_, fenced.silent⟩⟩
    · rintro rfl
      exact fenced.silent
    · exact fenced.frames p _ (Ne.symm other) (mem_queued _ p _)
  · have fenced := fences { s with freeDraws := n } rfl
    generalize State.applyMember c q { s with freeDraws := n } = v at taken fenced
    refine ⟨_, taken, ?_, ?_, fun other => ?_⟩
    · exact (congrArg (fun m => m.ports.get q) (congrArg State.ctl (send_rest v p _))).trans fenced.record
    · rintro rfl
      have gone : (v.portState q).isFenced = true := by
        unfold State.portState
        rw [fenced.record, fenced.fencing]
        rfl
      rw [show v.controlAck q 0 = v from send_down (.inr gone) _]
      exact fenced.silent
    · rw [controlAck_eq ((fenced.link p).trans h.receives.2.1)
        (fenced.unfenced p (Ne.symm other) (isFenced_of_member h.member))]
      refine ⟨mem_queued v p _, ?_⟩
      rw [queued_iface, if_neg other, List.append_nil]
      exact fenced.silent

/-! ### EJECT -/

/-- EJECT from a member: the port enters DEPARTING, and the ACK and the NOTICE stand on their links. -/
theorem State.Commands.exec_ejects (h : s.Commands p b .eject q) (hst : s.portState q = .active) (g : Granule) :
    ∃ t, exec (.control p g b) s = .next t
      ∧ t = { s with
          freeDraws := t.freeDraws, table := t.table, ifaces := t.ifaces, sweep := s.departQueued q
          ctl := { s.ctl with ports := s.ctl.ports.set q (s.departed q) } }
      ∧ t.table.recallLimit = s.table.recallLimit
      ∧ (∀ i, t.txn i = if slotPort i = some q ∧ s.waits i = true then none else s.txn i)
      ∧ .ack 14 0 .ok (.value 0) false ∈ (t.ifaces.get p).outq
      ∧ ((s.ifaces.get q).linkUp = true → .notice (.leaveAskedEject q) s.ctl.epoch ∈ (t.ifaces.get q).outq)
      ∧ ∀ k, k ≠ p → k ≠ q → t.ifaces.get k = s.ifaces.get k := by
  obtain ⟨n, taken | taken⟩ := h.exec_applies (beq_iff_eq.2 hst) g
  · have ejected := eject_ejected (({ s with freeDraws := n } : State).queued p (.ack 14 0 .ok (.value 0) false)) q
    refine ⟨_, taken, ejected.rest, ejected.limit, ejected.slots, ejected.frames p _ (mem_queued _ p _),
      fun up => ejected.told ?_, fun k hp hq => (ejected.others k hq).trans ?_⟩
    · rw [queued_iface]
      exact up
    · rw [queued_iface, if_neg hp, List.append_nil]
  · have ejected := eject_ejected { s with freeDraws := n } q
    generalize State.applyMember .eject q { s with freeDraws := n } = v at taken ejected
    have unfenced : (v.portState p).isFenced = false := by
      rw [ejected.rest]
      refine (congrArg (PortState.isFenced ∘ PortRec.state) (PerPort.get_set s.ctl.ports q p _)).trans ?_
      split
      · rfl
      · exact isFenced_of_member h.member
    rw [controlAck_eq ((ejected.link p).trans h.receives.2.1) unfenced] at taken
    refine ⟨_, taken, ?_, ejected.limit, ejected.slots, mem_queued v p _,
      fun up => mem_queued_of_mem (ejected.told up) p _, fun k hp hq => ?_⟩
    · exact congrArg (State.queued · p (.ack 14 0 .ok (.value 0) false)) ejected.rest
    · rw [queued_iface, if_neg hp, List.append_nil]
      exact ejected.others k hq

/-! ### CONTROL frames -/

/-- Settles O47: the grant, the code and the port byte are judged in turn, and each command that is taken has its effect
before or behind the ACK. -/
theorem controlFramesAreAnswered : Obligations.ControlFramesAreAnswered := by
  intro p g b s receives member bounced acked granted
  have judged : exec (.control p g b) s = .next (s.controlJudged p g b) := exec_control receives member g b
  have bounce : ∀ reason, s.controlBounce p g reason = bounced reason := controlBounce_eq receives member g
  have commands : ∀ {c : MemberCommand} {q : Port}, granted → b.code.toNat = c.controlCode → b.arg = q.byte →
      s.Commands p b c q := fun grant code arg => ⟨receives, member, grant, code, arg⟩
  refine ⟨fun ungranted => ?_, fun grant code => ?_, fun grant code r offset => ?_, fun grant code offset => ?_,
    fun grant low high arg => ?_, fun grant code q arg => ⟨fun wrong => ?_, fun held noFlag => ?_⟩, ?_⟩
  · rw [judged, controlJudged_ungranted ungranted, bounce]
  · rw [judged, controlJudged_noCommand grant g (controlCommand_none code), bounce]
  · rw [judged, controlJudged_regRead grant g code, controlRead_register offset,
      controlAck_eq receives.2.1 (isFenced_of_member member)]
  · rcases code with code | code
    · rw [judged, controlJudged_regRead grant g code, controlRead_noRegister offset, bounce]
    · rw [judged, controlJudged_regWrite grant g code, controlWrite_noRegister offset, bounce]
  · obtain ⟨c, code⟩ := exists_controlCode low high
    rw [judged, controlJudged_member grant g code]
    unfold State.controlMember
    rw [judgeMember_noPort arg]
    exact congrArg _ (bounce .badArgument)
  · exact (commands (c := .admission) grant code arg).exec_wrongState (admission_not_applies wrong) g
  · have command := commands (c := .admission) grant code arg
    refine command.exec_moves (u := s.withPort q { s.ctl.ports.get q with state := .joinable }) ?_ (fun _ _ => rfl) rfl
      (command.portState_withPort (by rw [held]; rfl) _) g
    change ((s.portState q == .held) && !(s.ctl.ports.get q).holdFlag) = true
    rw [held, noFlag]
    rfl
  · intro q grant arg r ack gone fenced moved wait
    refine ⟨fun wrong => ?_, fun code active => ?_, fun code state => ?_, fun code state => ⟨fun latch => ?_,
      fun latch later => ?_, fun latch flag mode => ?_⟩, fun code => ⟨fun state => ?_, fun state => ?_, fun state => ?_⟩⟩
    · rcases wrong with ⟨code, state⟩ | ⟨code, active, departing⟩ | ⟨code, state⟩
      · exact (commands (c := .eject) grant code arg).exec_wrongState (beq_eq_false_iff_ne.2 state) g
      · exact (commands (c := .fence) grant code arg).exec_wrongState (fence_not_applies active departing) g
      · exact (commands (c := .release) grant code arg).exec_wrongState (beq_eq_false_iff_ne.2 state) g
    · obtain ⟨t, taken, rest, limit, slots, answered, told, others⟩ :=
        (commands (c := .eject) grant code arg).exec_ejects active g
      refine ⟨t, taken, rest, limit, fun i => (slots i).trans ?_, answered, told, others⟩
      have waiting : wait i = true ↔ slotPort i = some q ∧ s.waits i = true := by
        rw [← beq_iff_eq (a := slotPort i), ← Bool.and_eq_true]
        rfl
      simp only [waiting]
    · refine (commands (c := .fence) grant code arg).exec_fences (isMember_of state)
        (fun u (same : u.ctl.ports.get q = r) => ?_) g
      have stands : u.portState q = s.portState q := congrArg PortRec.state same
      exact same ▸ fenceMember_fencedAs (by rw [stands]; exact isMember_of state) .manager
    · have command := commands (c := .release) grant code arg
      exact command.exec_moves (u := s.withPort q { r with state := .parked }) (beq_iff_eq.2 state)
        (fun n links => placeCard_open (s := s.reframed n links) latch) rfl
        (command.portState_withPort (by rw [state]; rfl) _) g
    · have command := commands (c := .release) grant code arg
      exact command.exec_moves (u := (s.withPort q { r with state := .held }).latched .admitWait) (beq_iff_eq.2 state)
        (fun n links => (placeCard_closed (s := s.reframed n links) latch).trans (admission_later later)) rfl
        (command.portState_withPort (by rw [state]; rfl) _) g
    · have command := commands (c := .release) grant code arg
      exact command.exec_moves (u := s.withPort q { r with state := .joinable }) (beq_iff_eq.2 state)
        (fun n links => (placeCard_closed (s := s.reframed n links) latch).trans (admission_now flag mode)) rfl
        (command.portState_withPort (by rw [state]; rfl) _) g
    · refine (commands (c := .holdOn) grant code arg).exec_fences rfl
        (fun u (same : u.ctl.ports.get q = r) => ?_) g
      have stands : u.portState q = s.portState q := congrArg PortRec.state same
      exact same ▸ holdOn_fencedAs (by rw [stands]; exact isMember_of state)
    · have command := commands (c := .holdOn) grant code arg
      exact command.exec_moves (u := s.withPort q { r with holdFlag := true, state := .held }) rfl
        (fun n links => holdOn_joinable (s := s.reframed n links) state) rfl
        (command.portState_withPort (by rw [state]; rfl) _) g
    · have outside : (s.portState q).isMember = false ∧ s.portState q ≠ .joinable := by
        rcases state with h | h | h | h | h <;> rw [h] <;> exact ⟨rfl, nofun⟩
      have command := commands (c := .holdOn) grant code arg
      exact command.exec_moves (u := s.withPort q { r with holdFlag := true }) rfl
        (fun n links => holdOn_kept (s := s.reframed n links) outside.1 outside.2) rfl
        (command.portState_withPort outside.1 _) g

end Sys2Proof.Machine
end

section
/-! PROOFS. The registers at the service port: REG_READ and REG_WRITE by offset, and the rows of the writable
registers. -/

namespace Sys2Proof.Machine

variable {s t : State} {c : Instr} {r : Reg} {offset : BitVec 16} {v : Word} {reason : Reason}

/-! ### Reads -/

theorem serviceRead_register (h : offset.toNat = r.offset) (s : State) :
    State.serviceRead offset s
      = s.responding (0 :: (List.range 8).map fun k => (readRegister s r).extractLsb' (56 - 8 * k) 8) := by
  unfold State.serviceRead
  rw [(ofOffset_iff offset r).2 h]
  dsimp only
  rw [beBytes_word]
  rfl

theorem serviceRead_noRegister (h : ∀ r : Reg, offset.toNat ≠ r.offset) (s : State) :
    State.serviceRead offset s = s.responding [8, 0, 0, 0, 0, 0, 0, 0, 0] := by
  unfold State.serviceRead
  rw [(ofOffset_none offset).2 h]
  rfl

/-! ### Writes -/

theorem serviceWrite_error (h : s.writeRegister .service r v = .error reason) :
    State.serviceWrite r v s = s.respond (some reason) [] := by
  unfold State.serviceWrite
  rw [h]

theorem serviceWrite_ok (h : s.writeRegister .service r v = .ok t) : State.serviceWrite r v s = t.responding [0] := by
  unfold State.serviceWrite
  rw [h]
  rfl

theorem serviceWriteAt_register (h : offset.toNat = r.offset) (v : Word) (s : State) :
    State.serviceWriteAt offset v s = State.serviceWrite r v s := by
  unfold State.serviceWriteAt
  rw [(ofOffset_iff offset r).2 h]

theorem serviceWriteAt_noRegister (h : ∀ r : Reg, offset.toNat ≠ r.offset) (v : Word) (s : State) :
    State.serviceWriteAt offset v s = s.responding [8] := by
  unfold State.serviceWriteAt
  rw [(ofOffset_none offset).2 h]
  rfl

/-- A REG_WRITE that names no register, or a read-only one, is refused (10 R203). -/
theorem serviceWriteAt_refused (h : ∀ r : Reg, offset.toNat = r.offset → r.readOnly = true) (v : Word) (s : State) :
    State.serviceWriteAt offset v s = s.responding [8] := by
  cases named : Reg.ofOffset offset with
  | none => exact serviceWriteAt_noRegister ((ofOffset_none offset).1 named) v s
  | some r =>
    have place := (ofOffset_iff offset r).1 named
    rw [serviceWriteAt_register place, serviceWrite_error (writeRegister_readOnly (h r place) s .service v)]
    rfl

/-- Settles O8: the register table is read through `Reg.offset`, and a read-only register takes no write. -/
theorem registersAreNamedByOffset : Obligations.RegistersAreNamedByOffset := by
  intro offset s serves
  refine ⟨fun r named => ?_, fun unnamed => ?_, fun v readOnly => ?_⟩
  · exact (transfer_serves serves _).trans (congrArg _ (serviceRead_register named s))
  · exact (transfer_serves serves _).trans (congrArg _ (serviceRead_noRegister unnamed s))
  · exact (transfer_serves serves _).trans (congrArg _ (serviceWriteAt_refused readOnly v s))

/-- A write that its owner takes is answered OK, as the row of its register and as a REG_WRITE at its offset. -/
theorem exec_registerWrite (serves : s.serves) (row : exec c s = transfer (State.serviceWrite r v) s)
    (taken : s.writeRegister .service r v = .ok t) :
    exec c s = .next (t.responding [0])
      ∧ ∀ offset : BitVec 16, offset.toNat = r.offset → exec (.regWrite offset v) s = .next (t.responding [0]) := by
  refine ⟨?_, fun offset named => ?_⟩
  · rw [row, transfer_serves serves, serviceWrite_ok taken]
  · refine (transfer_serves serves _).trans (congrArg _ ?_)
    rw [serviceWriteAt_register named, serviceWrite_ok taken]

/-- EVENT_STATUS keeps the events whose bit in the value is zero (10 R213). -/
theorem getLsbD_keptEvents (status : BitVec 11) (v : Word) (n : Nat) :
    (status &&& ~~~(v.setWidth 11)).getLsbD n = (status.getLsbD n && !v.getLsbD n) := by
  by_cases event : n < 11
  · simp [event]
  · simp [BitVec.getLsbD_of_ge status n (by omega)]

/-- Settles O9: each row is the write of its register, which its owner takes. -/
theorem registerWritesAreTaken : Obligations.RegisterWritesAreTaken := by
  intro v s serves takes
  have low : ∀ n, n ≤ 64 → v.setWidth n = v.extractLsb' 0 n := fun n hn => BitVec.setWidth_eq_extractLsb' hn
  refine ⟨?_, ?_, ?_, ?_, fun p => ?_, ⟨_, ?_, getLsbD_keptEvents s.svc.eventStatus v⟩, ?_, ?_, ?_, fun p => ?_⟩
  · rw [← low 11 (by decide)]
    exact exec_registerWrite (t := s.storeEnable v) serves rfl rfl
  · exact exec_registerWrite serves rfl rfl
  · rw [← storeRecallLimit_eq]
    exact exec_registerWrite serves rfl rfl
  · rw [← low 16 (by decide)]
    exact exec_registerWrite serves rfl rfl
  · exact exec_registerWrite serves rfl rfl
  · exact exec_registerWrite (t := s.clearEvents v) serves rfl rfl
  · exact exec_registerWrite serves rfl rfl
  · exact exec_registerWrite serves rfl rfl
  · exact exec_registerWrite serves rfl rfl
  · exact exec_registerWrite serves rfl rfl

end Sys2Proof.Machine
end

section
/-! PROOFS. The fields of the registers: the bits of a register value, taken apart by position. -/

namespace Sys2Proof.Machine

variable {s : State} {x n i pos : Nat}

/-! ### One field of a register value -/

/-- The bits of a field are those of its value. -/
@[simp] theorem extract_field (h : pos + n ≤ 64) (x : Nat) : (field x pos).extractLsb' pos n = BitVec.ofNat n x := by
  refine BitVec.eq_of_getLsbD_eq fun i hi => ?_
  rw [BitVec.getLsbD_extractLsb', getLsbD_field, BitVec.getLsbD_ofNat]
  simp [hi, show pos + i < 64 by omega]

/-- A field has no bit below its position. -/
@[simp] theorem extract_field_above (h : i + n ≤ pos) (x : Nat) : (field x pos).extractLsb' i n = 0#n := by
  refine BitVec.eq_of_getLsbD_eq fun k hk => ?_
  rw [BitVec.getLsbD_extractLsb', getLsbD_field]
  simp [show ¬pos ≤ i + k by omega]

/-- A field has no bit beyond its value. -/
@[simp] theorem extract_field_below (h : x * 2 ^ pos < 2 ^ i) (n : Nat) : (field x pos).extractLsb' i n = 0#n := by
  refine BitVec.eq_of_toNat_eq ?_
  have small : (field x pos).toNat < 2 ^ i := (Nat.mod_le _ _).trans_lt h
  simp [Nat.shiftRight_eq_zero _ _ small]

@[simp] theorem getElem_field_above (h : i < pos) (hi : i < 64) (x : Nat) : (field x pos)[i] = false := by
  rw [← BitVec.getLsbD_eq_getElem, getLsbD_field]
  simp [show ¬pos ≤ i by omega]

@[simp] theorem getElem_field_below (h : x * 2 ^ pos < 2 ^ i) (hi : i < 64) : (field x pos)[i] = false :=
  Nat.testBit_lt_two_pow ((Nat.mod_le _ _).trans_lt h)

/-- A flag has no bit but its own. -/
@[simp] theorem extract_flagBit (h : pos < i ∨ i + n ≤ pos) (b : Bool) : (flagBit b pos).extractLsb' i n = 0#n := by
  refine BitVec.eq_of_getLsbD_eq fun k hk => ?_
  rw [BitVec.getLsbD_extractLsb', getLsbD_flagBit]
  simp [show i + k ≠ pos by omega]

@[simp] theorem getElem_flagBit_self (h : pos < 64) (b : Bool) : (flagBit b pos)[pos] = b := by
  rw [← BitVec.getLsbD_eq_getElem, getLsbD_flagBit]
  simp [h]

@[simp] theorem getElem_flagBit_other (h : i ≠ pos) (hi : i < 64) (b : Bool) : (flagBit b pos)[i] = false := by
  rw [← BitVec.getLsbD_eq_getElem, getLsbD_flagBit]
  simp [h]

/-! ### PORT_STATUS -/

theorem PortState.code_lt (st : PortState) : st.code < 8 := by cases st <;> decide

theorem FenceReason.code_lt (r : FenceReason) : r.code < 8 := by cases r <;> decide

/-- A port has twelve member slots (03 R41). -/
theorem occupied_le (s : State) (p : Port) : s.occupied p ≤ 12 := by
  have twelve : (portSlots p).length = 12 := by cases p <;> decide +kernel
  exact twelve ▸ List.countP_le_length

/-- Settles O10: each field by its position, with the codes read off by cases. -/
theorem portStatusFields : Obligations.PortStatusFields := by
  intro s p v r stateCode reasonCode
  have state : r.state.code < 8 := r.state.code_lt
  have reason : (r.fenceReason.map FenceReason.code).getD 0 < 8 := by
    cases r.fenceReason with
    | none => decide
    | some reason => exact reason.code_lt
  have slots : s.occupied p ≤ 12 := occupied_le s p
  have epoch : (r.joinedEpoch.getD 0).toNat < 65536 := (r.joinedEpoch.getD 0).isLt
  have stateField : BitVec.ofNat 3 r.state.code = stateCode := by
    simp only [stateCode]
    cases r.state <;> rfl
  have reasonField : BitVec.ofNat 4 ((r.fenceReason.map FenceReason.code).getD 0) = reasonCode := by
    simp only [reasonCode]
    rcases r.fenceReason with _ | reason
    · rfl
    · cases reason <;> rfl
  have slotsField : (BitVec.ofNat 4 (s.occupied p)).toNat = s.occupied p := Nat.mod_eq_of_lt (by omega)
  have value : v = field r.state.code 0 ||| flagBit r.present 4 ||| flagBit r.latchClosed 5 ||| flagBit r.leaveAsked 6
    ||| flagBit r.holdFlag 7 ||| flagBit (s.ifaces.get p).linkUp 8
    ||| field ((r.fenceReason.map FenceReason.code).getD 0) 12 ||| field (s.occupied p) 16
    ||| flagBit r.joinedEpoch.isSome 31 ||| field (r.joinedEpoch.getD 0).toNat 32 := rfl
  clear_value v r stateCode reasonCode
  subst value
  simp (disch := omega) [BitVec.extractLsb'_or, stateField, reasonField, slotsField]

/-! ### The other registers -/

theorem Right.code_lt (r : Right) : r.code < 4 := by cases r <;> decide

/-- WINDOW (06 R125, 10 R202). -/
theorem windowValue_fields (w : Window) :
    let v := windowValue w
    v.extractLsb' 0 23 = w.base ∧ v.getLsbD 23 = false ∧ v.extractLsb' 24 23 = w.limit ∧ v.getLsbD 47 = false
      ∧ v.extractLsb' 48 2 = BitVec.ofNat 2 w.rights.p0.code ∧ v.extractLsb' 50 2 = BitVec.ofNat 2 w.rights.p1.code
      ∧ v.extractLsb' 52 2 = BitVec.ofNat 2 w.rights.p2.code ∧ v.extractLsb' 54 2 = BitVec.ofNat 2 w.rights.p3.code
      ∧ v.extractLsb' 56 7 = 0 ∧ v.getLsbD 63 = w.valid := by
  have base : w.base.toNat < 8388608 := w.base.isLt
  have limit : w.limit.toNat < 8388608 := w.limit.isLt
  have p0 := w.rights.p0.code_lt
  have p1 := w.rights.p1.code_lt
  have p2 := w.rights.p2.code_lt
  have p3 := w.rights.p3.code_lt
  intro v
  unfold v windowValue
  simp (disch := omega) [BitVec.extractLsb'_or]

/-- FIRST_FAULT with a location in it (01 R10, 10 R202). -/
theorem firstFaultValue_fields (f : FaultLocation) :
    let v := firstFaultValue (some f)
    v.extractLsb' 0 23 = f.granule ∧ v.getLsbD 23 = false ∧ v.extractLsb' 24 3 = BitVec.ofNat 3 f.word.val
      ∧ v.extractLsb' 27 4 = 0 ∧ v.getLsbD 31 = true ∧ v.extractLsb' 32 32 = 0 := by
  have granule : f.granule.toNat < 8388608 := f.granule.isLt
  have word := f.word.isLt
  have valid : (field 1 31)[31] = true := getElem_flagBit_self (by decide) true
  intro v
  unfold v firstFaultValue
  simp (disch := omega) [BitVec.extractLsb'_or, valid]

theorem Job.code_lt (j : Job) : j.code < 8 := by cases j <;> simp [Job.code]

theorem number_lt_four (p : Port) : p.number < 4 := by cases p <;> decide

theorem Job.portNumber_lt (j : Job) : j.portNumber < 4 := by
  cases j with
  | depart p | fence p => exact number_lt_four p
  | recheck | clear => decide

theorem Pause.code_lt (p : Pause) : p.code < 4 := by cases p <;> decide

theorem sweepPhaseCode_lt (x : Option Txn) : sweepPhaseCode x < 4 := by
  rcases x with _ | x
  · decide
  · cases phase : x.phase <;> simp [sweepPhaseCode, phase]

/-- SWEEP_STATE (08 R176, 10 R202). -/
theorem sweepStateValue_fields (s : State) :
    let v := sweepStateValue s
    let job := s.sweep.jobs.head?
    v.extractLsb' 0 3 = BitVec.ofNat 3 ((job.map Job.code).getD 0) ∧ v.getLsbD 3 = false
      ∧ v.extractLsb' 4 2 = BitVec.ofNat 2 ((job.map Job.portNumber).getD 0)
      ∧ v.extractLsb' 6 2 = 0 ∧ v.extractLsb' 8 10 = BitVec.ofNat 10 s.sweep.walk.set.val ∧ v.extractLsb' 18 2 = 0
      ∧ v.extractLsb' 20 3 = BitVec.ofNat 3 s.sweep.walk.way.val ∧ v.getLsbD 23 = false
      ∧ v.extractLsb' 24 2 = BitVec.ofNat 2 s.sweep.walk.pause.code ∧ v.extractLsb' 26 2 = 0
      ∧ v.extractLsb' 28 2 = BitVec.ofNat 2 (sweepPhaseCode (s.txn sweepSlot)) ∧ v.getLsbD 30 = false
      ∧ v.getLsbD 31 = ((s.txn sweepSlot).any fun t => !noneAwaited t.awaited)
      ∧ v.extractLsb' 32 3 = BitVec.ofNat 3 s.sweep.jobs.length ∧ v.extractLsb' 35 29 = 0 := by
  have code : (s.sweep.jobs.head?.map Job.code).getD 0 < 8 := by
    cases s.sweep.jobs.head? with
    | none => decide
    | some j => exact j.code_lt
  have port : (s.sweep.jobs.head?.map Job.portNumber).getD 0 < 4 := by
    cases s.sweep.jobs.head? with
    | none => decide
    | some j => exact j.portNumber_lt
  have set := s.sweep.walk.set.isLt
  have way := s.sweep.walk.way.isLt
  have pause := s.sweep.walk.pause.code_lt
  have phase := sweepPhaseCode_lt (s.txn sweepSlot)
  have count : BitVec.ofNat 3 (s.sweep.jobs.length % 8) = BitVec.ofNat 3 s.sweep.jobs.length :=
    BitVec.eq_of_toNat_eq (Nat.mod_mod _ 8)
  intro v job
  unfold v sweepStateValue
  dsimp only [job]
  simp (disch := omega) [BitVec.extractLsb'_or, count]

/-- Some port is awaited (05 R93). -/
theorem awaits_iff (m : PerPort (Option Awaited)) : (!noneAwaited m) = true ↔ ∃ p, (m.get p).isSome = true := by
  have nobody : noneAwaited m = true ↔ ∀ p, (m.get p).isSome = false := by
    rw [noneAwaited_iff]
    constructor
    · rintro rfl p
      rw [PerPort.get_const]
      rfl
    · exact fun h => PerPort.ext_get fun p =>
        (Option.isNone_iff_eq_none.1 (Option.isSome_eq_false_iff.1 (h p))).trans (PerPort.get_const none p).symm
  rw [Bool.not_eq_true', ← Bool.not_eq_true, nobody, not_forall]
  simp only [Bool.not_eq_false]

/-- MEM_GRANULES shows the granule count in its 24 bits (10 R202). -/
theorem memGranules_toNat (h : s.mem.granuleCount < 2 ^ 24) :
    (readRegister s .memGranules).toNat = s.mem.granuleCount := by
  change (s.mem.granuleCount % 2 ^ 24 * 2 ^ 0) % 2 ^ 64 = _
  omega

/-- Settles O11: each register by the fields of its value, with the codes read off by cases. -/
theorem registerFields : Obligations.RegisterFields := by
  intro s rightCode jobCode portCode jobPort pauseCode
  have right : ∀ r : Right, BitVec.ofNat 2 r.code = rightCode r := fun r => by cases r <;> rfl
  have port : ∀ p : Port, BitVec.ofNat 2 p.number = portCode p := fun p => by cases p <;> rfl
  have pause : BitVec.ofNat 2 s.sweep.walk.pause.code = pauseCode := by
    simp only [pauseCode]
    cases s.sweep.walk.pause <;> rfl
  have job : BitVec.ofNat 3 ((s.sweep.jobs.head?.map Job.code).getD 0) = jobCode := by
    simp only [jobCode]
    rcases s.sweep.jobs with _ | ⟨j, js⟩
    · rfl
    · cases j <;> rfl
  have jobsPort : BitVec.ofNat 2 ((s.sweep.jobs.head?.map Job.portNumber).getD 0) = jobPort := by
    simp only [jobPort]
    rcases s.sweep.jobs with _ | ⟨j, js⟩
    · rfl
    · cases j with
      | depart p | fence p => exact port p
      | recheck | clear => rfl
  refine ⟨?_, fun k => ?_, fun empty => ?_, fun f fault => ?_, ?_, memGranules_toNat, ?_, fun p => ?_, rfl, rfl, rfl, rfl,
    rfl, rfl, rfl, fun p => rfl⟩
  · unfold readRegister
    cases s.svc.hubState <;> rfl
  · simp only [← right]
    exact windowValue_fields (s.windows.get k)
  · unfold readRegister
    rw [empty]
    rfl
  · unfold readRegister
    rw [fault]
    exact firstFaultValue_fields f
  · obtain ⟨code, gap3, number, gap6, set, gap18, way, gap23, paused, gap26, phase, gap30, awaits, count, gap35⟩ :=
      sweepStateValue_fields s
    refine ⟨code.trans job, gap3, number.trans jobsPort, gap6, set, gap18, way, gap23, paused.trans pause, gap26,
      fun free => ?_, fun x slot => ?_, gap30, ?_, count, gap35⟩
    · rw [free] at phase
      exact phase
    · rw [slot] at phase
      refine ⟨fun h => phase.trans ?_, fun h => phase.trans ?_, fun h => phase.trans ?_⟩ <;> simp [sweepPhaseCode, h]
    · change (sweepStateValue s).getLsbD 31 = true ↔ _
      rw [awaits, Option.any_eq_true]
      simp only [awaits_iff]
      exact exists_congr fun x => exists_and_left.symm
  · unfold readRegister
    cases s.ctl.admitMode <;> rfl
  · change flagBit (s.ctl.ports.get p).controlGrant 0 ||| flagBit (s.ctl.ports.get p).indicatorForced 1 = _
    cases (s.ctl.ports.get p).controlGrant <;> cases (s.ctl.ports.get p).indicatorForced <;> rfl

end Sys2Proof.Machine
end

section
/-! PROOFS. SLOT_STATUS, and the transfers that reach no owner with what SPI_OUT carries. -/

namespace Sys2Proof.Machine

variable {s : State}

/-! ### SLOT_STATUS -/

/-- The bytes of a granule, one by one (01 R2). -/
theorem dataBytes_eq (d : GranuleData) : dataBytes d = (List.range 64).map (byteOf d) := by
  refine List.ext_getElem (by simp [dataBytes, length_leBytes]) fun i low _ => ?_
  have place : i < 64 := by simpa [dataBytes, length_leBytes] using low
  have byte : (dataBytes d).getD i 0 = BitVec.ofNat 8 (d.toNat / 256 ^ i) :=
    (getD_leBytes 64 d.toNat i).trans (if_pos place)
  have power : 256 ^ i = 2 ^ (8 * i) := (Nat.pow_mul 2 8 i).symm
  rw [List.getElem_map, List.getElem_range, ← List.getD_eq_getElem _ 0 low, byte, power, ← Nat.shiftRight_eq_div_pow]
  rfl

theorem exec_slotStatus (serves : s.serves) : exec .slotStatus s = .next s.readSlot := transfer_serves serves _

/-- Settles O14: the address stands most significant byte first, and the data byte by byte. -/
theorem slotStatusReturnsTheRecord : Obligations.SlotStatusReturnsTheRecord := by
  intro s serves kindBit address answer
  have read : ∀ {r}, s.svc.result = r → exec .slotStatus s = .next (answer r.bytes r.afterRead) := fun h => by
    rw [exec_slotStatus serves, ← h]
    rfl
  have bit : ∀ c, c.bit = kindBit c := fun c => by cases c <;> rfl
  have place : ∀ g : Granule, beBytes 3 g.toNat = address g := beBytes_granule
  refine ⟨fun idle => read idle, fun c g pending => ?_, fun c g data poison done => ?_, fun c g bad => ?_⟩
  · rw [read pending, SlotResult.bytes, bit, place]
    rfl
  · rw [read done, SlotResult.bytes, bit, place, funext dataBytes_eq]
    rfl
  · rw [read bad, SlotResult.bytes, bit, place]
    rfl

/-! ### Transfers that reach no owner -/

/-- The transfer of the selection that was open when hub reset ended, or its end, changes nothing else (10 R200; log
17). -/
theorem transfer_stale (running : s.inReset = false) (stale : s.svc.staleSelection = true) (f : State → State) :
    transfer f s = .next { s with svc := { s.svc with staleSelection := false } } := by
  unfold transfer
  rw [change_running running, if_pos stale]

/-- SPI_OUT after the command byte of a selection (10 R196, R197). -/
theorem spiOut_selected (s : State) (code : Byte) (rest : List Byte) (n : Nat) :
    s.spiOut (some (code :: rest)) n
      = some (if n ≤ 1 + (argumentBytes code).getD 0 then 0
          else s.svc.response.getD (n - (argumentBytes code).getD 0 - 2) 0) := by
  have after : n - (1 + (argumentBytes code).getD 0) - 1 = n - (argumentBytes code).getD 0 - 2 := by omega
  exact congrArg (fun k => some (if n ≤ 1 + (argumentBytes code).getD 0 then 0 else s.svc.response.getD k 0)) after

/-- Settles O15: every row of the service port is a transfer, which a stale selection does not take; the argument bytes
of a code place the turnaround byte. -/
theorem transfersThatReachNoOwner : Obligations.TransfersThatReachNoOwner := by
  intro s
  refine ⟨fun serves => ⟨fun code => transfer_serves serves fun s => s.respond (some .badArgument) [],
    fun bytes => transfer_serves serves id⟩, ?_,
    fun n => ⟨rfl, fun code rest => ?_⟩⟩
  · intro running stale code bytes offset v p m port index valid rights base limit g data mask c row
    have ignored := transfer_stale running stale
    have unknown := ignored fun s => s.respond (some .badArgument) []
    have member : exec (m.instr port) s = .next { s with svc := { s.svc with staleSelection := false } } := by
      cases m <;> exact ignored _
    fin_cases row
    on_goal 15 => exact member
    on_goal 1 => exact unknown
    all_goals exact ignored _
  · intro arguments
    have arguments_eq : (argumentBytes code).getD 0 = arguments := by
      simp only [argumentBytes, arguments]
      generalize code.toNat = k
      match k with
      | 0 | 1 | 2 | 3 | 4 | 5 | 6 | 7 | 8 | 9 | 10 | 11 | 12 | 13 => rfl
      | _ + 14 => rfl
    rw [spiOut_selected, arguments_eq]

end Sys2Proof.Machine
end

section
/-! PROOFS. MEM_PEEK and MEM_POKE: the judgment of the command, and the service slot placed. -/

namespace Sys2Proof.Machine

variable {s t : State} {c : Instr} {kind : TxnKind} {command : MemCommand} {op : Option MemKind} {k : MemKind}
  {g : Granule} {w : Fin 8} {e : Entry}

/-! ### The judgment -/

theorem isPending_iff (r : SlotResult) : r.isPending = true ↔ ∃ c g, r = .pending c g := by
  cases r <;> simp [SlotResult.isPending]

theorem memoryCommand_busy (h : s.svc.hubState = .initializing ∨ ∃ c g, s.svc.result = .pending c g) (kind : TxnKind)
    (g : Granule) : State.memoryCommand kind g s = s.responding [3] := by
  unfold State.memoryCommand
  rw [if_pos (h.imp_right (isPending_iff _).2)]
  rfl

theorem memoryCommand_badAddress (free : ¬(s.svc.hubState = .initializing ∨ ∃ c g, s.svc.result = .pending c g))
    (h : s.mem.granuleCount ≤ g.toNat) (kind : TxnKind) :
    State.memoryCommand kind g s = (s.setResult (.badAddress kind.memCommand g)).responding [4] := by
  unfold State.memoryCommand
  rw [if_neg fun h => free (h.imp_right (isPending_iff _).1), if_pos h]
  rfl

theorem memoryCommand_placed (free : ¬(s.svc.hubState = .initializing ∨ ∃ c g, s.svc.result = .pending c g))
    (h : g.toNat < s.mem.granuleCount) (kind : TxnKind) :
    State.memoryCommand kind g s
      = ((s.setResult (.pending kind.memCommand g)).placeService kind g).responding [0] := by
  unfold State.memoryCommand
  rw [if_neg fun h => free (h.imp_right (isPending_iff _).1), if_neg (by omega)]
  rfl

/-! ### The two commands -/

/-- The holders that stand in the way of a memory command, with what is asked of each (03 R61). -/
def Entry.asksFor (e : Entry) (command : MemCommand) (q : Port) : Option RecallKind :=
  if e.holders.get q = false then none
  else if command = .poke then some .revoke
  else if e.mode = .owner then some .demote else none

/-- What a memory command is to the service slot: its transaction kind, its command in the result record, and its memory
operation, which a MEM_POKE without mask flags does not have (03 R48 step 2, R61, 10 R207). -/
structure ServiceRow (c : Instr) (kind : TxnKind) (command : MemCommand) (op : Option MemKind) (g : Granule) : Prop where
  row : ∀ s, exec c s = transfer (State.memoryCommand kind g) s
  record : kind.memCommand = command
  unjudged : kind.judgedAtActivation = false
  unallocated : kind.allocates = false
  flagged : op ≠ none → kind.zeroMask = false
  flagless : op = none → ∃ d, kind = .memPoke d 0
  operation : ∀ (s : State) (x : Txn), x.kind = kind → s.ownOperation serviceSlot x = op
  recalls : ∀ (s : State) (e : Entry), s.recallSet serviceSlot kind e = asked (e.asksFor command)

theorem serviceRow_memPeek (g : Granule) : ServiceRow (.memPeek g) .memPeek .peek (some .read) g where
  row _ := rfl
  record := rfl
  unjudged := rfl
  unallocated := rfl
  flagged _ := rfl
  flagless := nofun
  operation s x hx := by unfold State.ownOperation; rw [hx]
  recalls s e := recallSet_member (s := s) (i := 0) (p := .p0) (r := .peek) rfl rfl e

theorem serviceRow_memPoke (g : Granule) (d : GranuleData) (m : Mask) :
    ServiceRow (.memPoke g d m) (.memPoke d m) .poke (pokeOperation d m) g where
  row _ := rfl
  record := rfl
  unjudged := rfl
  unallocated := rfl
  flagged h := beq_eq_false_iff_ne.2 fun zero => h (if_pos zero)
  flagless h := by
    refine ⟨d, congrArg _ ?_⟩
    by_contra zero
    rw [pokeOperation, if_neg zero] at h
    split at h <;> cases h
  operation s x hx := by unfold State.ownOperation; rw [hx]
  recalls s e := recallSet_member (s := s) (i := 0) (p := .p0) (r := .poke d m) rfl rfl e

/-! ### The service slot placed -/

theorem placeService_joins (h : s.chain g ≠ []) (kind : TxnKind) :
    s.placeService kind g
      = (s.setTxn serviceSlot (some (newTxn kind g))).setChain g (s.chain g ++ [serviceSlot]) := by
  unfold State.placeService
  rw [if_neg (fun held => h held.1), place_joins h]

/-- An evicting lock holds the service slot outside any chain (03 R61; log 14). -/
theorem placeService_heldBack (h : s.chain g = []) (evicting : s.evictingEntry g = true) (kind : TxnKind) :
    s.placeService kind g = s.setTxn serviceSlot (some (newTxn kind g)) := by
  unfold State.placeService
  exact if_pos ⟨h, evicting⟩

/-- At the head of a new chain the service slot is activated in place (03 R61). -/
theorem placeService_heads (row : ServiceRow c kind command op g) (h : s.chain g = [])
    (free : s.evictingEntry g = false) :
    s.placeService kind g = ((s.headed serviceSlot kind g).activateInPlace serviceSlot).1 := by
  unfold State.placeService
  rw [if_neg (by simp [free]), place_headed h]
  unfold State.activate
  rw [headed_txn_same]
  change (if (kind.judgedAtActivation && _) = true then _
    else if (kind.allocates && _) = true then _ else _ : State × Bool).1 = _
  rw [row.unjudged, row.unallocated]
  rfl

theorem State.NoEntry.evictingEntry (h : s.NoEntry g) : s.evictingEntry g = false := by
  unfold State.evictingEntry
  rw [h.entry]
  rfl

/-- Without an entry the operation is offered at once (03 R52, R61). -/
theorem placeService_offers (row : ServiceRow c kind command (some k) g) (h : s.chain g = []) (free : s.NoEntry g)
    (canonical : Sparse.wf DirSet.empty s.dir) :
    s.placeService kind g
      = ((s.headed serviceSlot kind g).setTxn serviceSlot (some (.plain .memory kind g))).setMem
          (s.mem.offered ⟨k, g, .slot serviceSlot⟩) := by
  have slot := headed_txn_same s serviceSlot kind g
  have unheld : (s.headed serviceSlot kind g).NoEntry g := free.headed serviceSlot kind
  rw [placeService_heads row h free.evictingEntry,
    activateInPlace_free (s := s.headed serviceSlot kind g) canonical slot (row.flagged nofun) rfl unheld,
    recallPhase_quiet slot (fun q held => absurd ((unheld.holds q).symm.trans held) nofun)
      (fun f hf => absurd (unheld.entry.symm.trans hf) nofun),
    enterMemory_offers slot (row.operation _ _ rfl)]
  rfl

/-- A MEM_POKE without mask flags ends in the change that placed it (03 R48 step 2, 10 R208). -/
theorem placeService_ends (row : ServiceRow c kind command none g) (h : s.chain g = []) (unheld : s.NoEntry g)
    (canonical : s.tablesCanonical) (free : s.txn serviceSlot = none) :
    s.placeService kind g = s.setResult (.done .poke g none false) := by
  obtain ⟨-, -, -, chains, dir⟩ := canonical
  obtain ⟨d, rfl⟩ := row.flagless rfl
  let placed := s.headed serviceSlot (.memPoke d 0) g
  let done := placed.setResult (.done .poke g none false)
  have slot : placed.txn serviceSlot = some (newTxn (.memPoke d 0) g) := headed_txn_same s serviceSlot _ g
  have unlocked : done.changeEntry g (.unlock serviceSlot) = done :=
    State.NoEntry.change (s := done) (unheld.of_dir rfl) dir _
  have active : placed.activateInPlace serviceSlot = (placed.endTxn serviceSlot, true) := by
    unfold State.activateInPlace
    rw [slot]
    exact if_pos rfl
  have ended : placed.endTxn serviceSlot = done.freeHead serviceSlot g :=
    (endTxn_memPoke slot rfl).trans (congrArg (State.freeHead · serviceSlot g) unlocked)
  rw [placeService_heads row h unheld.evictingEntry, active, ended]
  exact freeHead_placed (u := done) (x := some (newTxn (.memPoke d 0) g)) chains free h rfl

/-- With an entry the slot locks it and recalls the holders in its way (03 R48, R61, 05 R90, R93, R104). -/
theorem placeService_recalls (row : ServiceRow c kind command op g) (h : s.chain g = []) (he : s.EntryAt g w e)
    (unlocked : e.lock = .none) (flags : op ≠ none)
    (members : ∀ q, e.holders.get q = true → s.portState q = .active ∨ s.portState q = .departing)
    (some_asked : ∃ q, e.asksFor command q ≠ none) :
    ∃ t, s.placeService kind g = t ∧ t = { s with table := t.table, dir := t.dir, ifaces := t.ifaces }
      ∧ s.slotBecomes t serviceSlot (some
        { Txn.plain .recalling kind g with
          awaited := awaiting (e.asksFor command), deadline := some (s.now + s.table.recallLimit.toNat) })
      ∧ s.chainBecomes t g [serviceSlot] ∧ s.wayBecomes t g w (some { e with lock := .busy serviceSlot })
      ∧ s.recallsQueued t g serviceSlot (e.asksFor command) := by
  have slot := headed_txn_same s serviceSlot kind g
  have headed := he.headed serviceSlot kind
  let f : Entry := { e with lock := .busy serviceSlot }
  let locked := (s.headed serviceSlot kind g).setDirSet (setOf g)
    (((s.headed serviceSlot kind g).dirSet (setOf g)).put w f)
  have entry : locked.EntryAt g w f := headed.put he.granule
  have asked_holds : ∀ q, e.asksFor command q ≠ none → e.holders.get q = true := fun q hq => by
    by_contra free
    exact hq (if_pos (Bool.eq_false_iff.2 free))
  have free : s.evictingEntry g = false := by
    unfold State.evictingEntry
    rw [he.entry, Option.any_some, unlocked]
  obtain ⟨t, recalled, rest, queued⟩ := recallPhase_recalls (s := locked) (e := f) (asks := e.asksFor command) slot
    (fun q held => by
      rw [show (newTxn kind g).granule = g from rfl, entry.holds] at held
      rcases members q held with h | h <;> exact fun fencing => absurd (h.symm.trans fencing) nofun)
    entry.entry (row.recalls _ f) some_asked (fun q hq => isFenced_of_member (members q (asked_holds q hq)))
  refine ⟨t, ?_, ?_, ⟨fun j => ?_, ?_⟩, fun a => ?_, fun n => ?_, queued⟩
  · rw [placeService_heads row h free, activateInPlace_locks slot (row.flagged flags) rfl headed]
    exact congrArg Prod.fst recalled
  · rw [rest]
    rfl
  · rw [rest]
    refine (txn_setTxn locked serviceSlot j _).trans ?_
    split
    · rfl
    · exact (headed_txn s serviceSlot kind g j).trans (if_neg ‹_›)
  · rw [rest]
    rfl
  · rw [rest]
    exact headed_chain s serviceSlot kind g a
  · rw [rest]
    exact wayBecomes_put g w f rfl n

/-- Settles O54: the judgment first, then the placement of the service slot with the record PENDING. -/
theorem memoryCommandsArePlaced : Obligations.MemoryCommandsArePlaced := by
  intro c kind command op g s serves which busy pending
  have row : ServiceRow c kind command op g := by
    rcases which with ⟨-, rfl, rfl, rfl, rfl⟩ | ⟨d, m, rfl, rfl, rfl, rfl⟩
    · exact serviceRow_memPeek g
    · exact serviceRow_memPoke g d m
  have taken : exec c s = .next (State.memoryCommand kind g s) := (row.row s).trans (transfer_serves serves _)
  refine ⟨fun h => ?_, fun free outside => ?_, fun free installed => ?_⟩
  · rw [taken, memoryCommand_busy h]
  · rw [taken, memoryCommand_badAddress free outside, row.record]
    rfl
  have placed := taken.trans (congrArg _ (memoryCommand_placed free installed kind))
  rw [row.record] at placed
  let recorded := s.setResult (.pending command g)
  refine ⟨fun chain => ⟨_, placed, ?_⟩, fun chain ⟨w, e, j, he, lock⟩ => ⟨_, placed, ?_⟩,
    fun chain unheld canonical k hk => ⟨_, placed, ?_⟩, fun chain unheld canonical slot hk => ?_,
    fun w e chain he lock flags members => ?_⟩
  · rw [placeService_joins (s := recorded) chain]
    exact ⟨rfl, ⟨fun j => txn_setTxn s serviceSlot j _, rfl⟩, chain_setChain_of_ne (by simp)⟩
  · rw [placeService_heldBack (s := recorded) chain (he.evictingEntry lock)]
    exact ⟨rfl, fun j => txn_setTxn s serviceSlot j _, rfl⟩
  · subst hk
    rw [placeService_offers (s := recorded) row chain unheld canonical.2.2.2.2]
    refine ⟨rfl, ⟨fun j => (txn_setTxn (s.headed serviceSlot kind g) serviceSlot j _).trans ?_, rfl⟩,
      headed_chain s serviceSlot kind g⟩
    split
    · rfl
    · exact (headed_txn s serviceSlot kind g j).trans (if_neg ‹_›)
  · subst hk
    rw [placed, placeService_ends (s := recorded) row chain unheld canonical slot]
    rfl
  · intro asks some_asked
    obtain ⟨t, ht, rest, slots, chains, way, queued⟩ :=
      placeService_recalls (s := recorded) row chain he lock flags members some_asked
    rw [ht] at placed
    exact ⟨_, placed, congrArg (State.responding · [0]) rest, slots, chains, way, queued⟩

end Sys2Proof.Machine
end

section
/-! PROOFS. HUB_CLEAR where a memory command stands outside the service slot: its end rewrites the result record. -/

namespace Sys2Proof.Machine

theorem exec_hubClear {s : State} (serves : s.serves) : exec .hubClear s = .next s.hubClear := transfer_serves serves _

/-- Port 0 is ACTIVE, and its slot 0 is in MEMORY at the head of the chain of granule 0. Behind it waits slot 12, a member
slot of port 1, with a MEM_POKE without mask flags. No run of the part comes here: memory commands stand in the service
slot (03 R41), which `State.transactionsLawful` says. -/
def pokeInMemberSlot : State :=
  let s := State.reset
  let slots := (s.setTxn 0 (some (.plain .memory (.member .peek) 0))).setTxn 12
    (some (.plain .waiting (.memPoke 0 0) 0))
  { slots.setChain 0 [0, 12] with
    inReset := false
    ctl := { s.ctl with ports := s.ctl.ports.set .p0 { PortRec.reset with state := .active, present := true } }
    svc := { s.svc with hubState := .running } }

/-- HUB_CLEAR abandons slot 0, and the activation of slot 12 ends the MEM_POKE, whose result is recorded. -/
theorem pokeInMemberSlot_result : pokeInMemberSlot.hubClear.svc.result = .done .poke 0 none false := by decide +kernel

/-- Refutes O53, in its clause on the result record, in a state that no run reaches. The clause asks only that the service
slot is FREE, and says nothing of a memory command in another slot; where one stands there, the fence entries can bring
it to its end, and the record becomes DONE. -/
theorem not_hubClearFencesEveryMember : ¬Obligations.HubClearFencesEveryMember := by
  intro h
  have idle : pokeInMemberSlot.svc.result = .idle := rfl
  have serves : pokeInMemberSlot.serves := ⟨rfl, rfl⟩
  have notPending : ¬∃ c g, pokeInMemberSlot.svc.result = .pending c g := fun ⟨_, _, pending⟩ => nomatch pending
  obtain ⟨t, done, -, -, kept, -⟩ := (h pokeInMemberSlot serves).2 rfl notPending
  obtain rfl : t = pokeInMemberSlot.hubClear := by injection done.symm.trans (exec_hubClear serves)
  have stays := (kept (by decide +kernel)).trans idle
  exact nomatch pokeInMemberSlot_result.symm.trans stays

end Sys2Proof.Machine
end

section
/-! PROOFS. A step that finds a command at the front of the queue. -/

namespace Sys2Proof.Machine

/-- Settles O1: of the two branches of `step`, by the queue, the one for a queue that is not empty takes the front command
off it and executes that command. -/
theorem stepRunsFrontCommand : Obligations.StepRunsFrontCommand := by
  intro c rest s queued
  unfold step
  rw [queued]

end Sys2Proof.Machine
end

section
/-! PROOFS. Requests of a granule without entry or without recalls: the way they allocate or the entry they lock, the
operation they offer, and the eviction from a full set. -/

namespace Sys2Proof.Machine

variable {s u : State} {p : Port} {tag : Tag} {g : Granule} {r : Request} {i : SlotId} {w : Fin 8} {e : Entry}
  {k : MemKind}

/-! ### The operation offered -/

/-- The operation of a request that needs one, by its kind (04 R66). -/
def Request.offers (r : Request) (k : MemKind) : Prop :=
  (r = .readShare ∨ r = .readOwn ∨ r = .promote ∨ r = .peek) ∧ k = .read
    ∨ (∃ d, r = .poke d (BitVec.allOnes 64) ∧ k = .writeFull d)
    ∨ (∃ d m, r = .poke d m ∧ m ≠ 0 ∧ m ≠ BitVec.allOnes 64 ∧ k = .writePartial d m)
    ∨ ∃ b, r = .atomic b ∧ k = .atomicRmw b

theorem Request.offers.notZero (h : r.offers k) : ∀ d, r ≠ .poke d 0 := by
  rintro d rfl
  rcases h with ⟨h | h | h | h, -⟩ | ⟨_, h, -⟩ | ⟨_, _, h, nonzero, -⟩ | ⟨_, h, -⟩ <;> cases h
  exact nonzero rfl

theorem Request.offers.bypass (h : r.offers k) : r.bypass = false := by
  rcases h with ⟨rfl | rfl | rfl | rfl, -⟩ | ⟨_, rfl, -⟩ | ⟨_, _, rfl, -⟩ | ⟨_, rfl, -⟩ <;> rfl

theorem Request.offers.ownOperation {x : Txn} (h : r.offers k) (hx : x.kind = .member r)
    (hp : r = .promote → ∀ q, slotPort i = some q → s.holds q x.granule = false) : s.ownOperation i x = some k :=
  ownOperation_request hx h.notZero hp
    (h.imp_right fun h => h.imp_right fun h => h.imp_left fun ⟨d, m, eq, _, rest⟩ => ⟨d, m, eq, rest⟩)

/-- A request that finds nobody to recall when it comes to its recalls offers its operation in the change that places it
(03 R48 steps 4 to 6, R52); its slot and its chain are the only ones that change. -/
theorem exec_offers (hs : s.settled) (ha : s.Admits p tag g r i) (hk : r.offers k)
    (hp : s.place i (.member r) g = (u.recallPhase i).1) (hu : u = { s.headed i (.member r) g with dir := u.dir })
    (hf : ∀ q, u.holds q g = true → s.portState q ≠ .fencing)
    (nobody : ∀ f, u.entry g = some f → u.recallSet i (.member r) f = [])
    (promotes : r = .promote → ∀ q, slotPort i = some q → u.holds q g = false) :
    ∃ t, exec (r.instr p tag g) s = .next t
      ∧ t = { s with table := t.table, dir := u.dir, mem := s.mem.offered ⟨k, g, .slot i⟩ }
      ∧ s.slotBecomes t i (some (.plain .memory (.member r) g)) ∧ s.chainBecomes t g [i] := by
  let x : Txn := newTxn (.member r) g
  have slot : u.txn i = some x := (congrArg (fun a : State => a.txn i) hu).trans (headed_txn_same s i _ g)
  have ports : ∀ q, u.portState q = s.portState q := fun q => (congrArg (fun a : State => a.portState q) hu :)
  have offered : (u.recallPhase i).1
      = (u.setTxn i (some (.plain .memory (.member r) g))).setMem (u.mem.offered ⟨k, g, .slot i⟩) := by
    rw [recallPhase_quiet slot (fun q hq => ports q ▸ hf q hq) nobody,
      enterMemory_offers slot (hk.ownOperation rfl promotes)]
    rfl
  have slots : ∀ j, ((u.setTxn i (some (.plain .memory (.member r) g))).setMem (u.mem.offered ⟨k, g, .slot i⟩)).txn j
      = if j = i then some (.plain .memory (.member r) g) else s.txn j := fun j => by
    refine (txn_setTxn u i j _).trans ?_
    rw [show u.txn j = _ from (congrArg (fun a : State => a.txn j) hu).trans (headed_txn s i _ g j)]
    split <;> rfl
  have rest : (u.setTxn i (some (.plain .memory (.member r) g))).setMem (u.mem.offered ⟨k, g, .slot i⟩)
      = { s with
        table := (u.setTxn i (some (.plain .memory (.member r) g))).table
        dir := u.dir
        mem := s.mem.offered ⟨k, g, .slot i⟩ } := by
    rw [hu]
    rfl
  have chains : s.chainBecomes (u.setTxn i (some (.plain .memory (.member r) g))) g [i] := fun h =>
    (congrArg (fun a : State => a.chain h) hu).trans (headed_chain s i (.member r) g h)
  have limit : u.table.recallLimit = s.table.recallLimit :=
    (congrArg (fun a : State => a.table.recallLimit) hu :)
  have done := exec_placed ha hk.bypass
  rw [hp, offered] at done
  rw [settle_of_settled (settled_slot hs (by rw [rest]) slots (.inl ha.free))] at done
  exact ⟨_, done, rest, ⟨slots, limit⟩, chains⟩

/-! ### A way allocated -/

/-- The requests that need an entry (02 R25). -/
theorem allocates_of (h : r = .readShare ∨ r = .readOwn ∨ r = .promote) :
    r.offers .read ∧ (TxnKind.member r).allocates = true ∧ (TxnKind.member r).judgedAtActivation = false := by
  refine ⟨.inl ⟨h.imp_right fun h => h.imp_right .inl, rfl⟩, ?_⟩
  rcases h with rfl | rfl | rfl <;> exact ⟨rfl, rfl⟩

/-- Activation of a request that needs an entry which its granule does not have: by an invalid way of the set, by the
victim of a full set, or not at all (03 R48 step 1, R50). -/
theorem activate_allocating (hr : r = .readShare ∨ r = .readOwn ∨ r = .promote) (hn : s.NoEntry g) :
    (∀ w, (s.dirSet (setOf g)).invalidWay = some w →
        (s.headed i (.member r) g).activate i = ((s.headed i (.member r) g).allocateEntry g i).recallPhase i)
      ∧ ((s.dirSet (setOf g)).invalidWay = none →
        (∀ v, s.victimFor g = some v →
          (s.headed i (.member r) g).activate i = ((s.headed i (.member r) g).startEviction i v, false))
        ∧ (s.victimFor g = none →
          (s.headed i (.member r) g).activate i = ((s.headed i (.member r) g).endWithBounce i .busy, true))) := by
  obtain ⟨-, allocates, judged⟩ := allocates_of hr
  have sets : (s.headed i (.member r) g).dirSet (setOf g) = s.dirSet (setOf g) := rfl
  have victim : (s.headed i (.member r) g).victimFor g = s.victimFor g := rfl
  unfold State.activate
  rw [headed_txn_same]
  dsimp only [newTxn]
  rw [if_neg (by rw [judged]; nofun), if_pos (by rw [allocates, (hn.headed i _).entry]; rfl), sets, victim]
  refine ⟨fun w hw => ?_, fun full => ⟨fun v hv => ?_, fun hv => ?_⟩⟩
  · rw [hw]
  · rw [full, hv]
  · rw [full, hv]

/-- The lowest-numbered invalid way takes the entry of the granule (02 R25, R28). -/
theorem place_allocates (hr : r = .readShare ∨ r = .readOwn ∨ r = .promote) (hc : s.chain g = []) (hn : s.NoEntry g)
    (hw : (s.dirSet (setOf g)).invalidWay = some w) :
    s.place i (.member r) g
      = (((s.headed i (.member r) g).setDirSet (setOf g) ((s.dirSet (setOf g)).allocate w g i)).recallPhase i).1 := by
  have way := (hn.headed i (.member r)).wayOf
  have invalid : ((s.headed i (.member r) g).dirSet (setOf g)).invalidWay = some w := hw
  rw [place_headed hc, (activate_allocating hr hn).1 w hw]
  unfold State.allocateEntry
  dsimp only
  rw [way, invalid]
  rfl

theorem DirSet.allocate_ne_empty (d : DirSet) (w : Fin 8) (g : Granule) (i : SlotId) : d.allocate w g i ≠ .empty := by
  intro h
  have orders := congrArg DirSet.order h
  simp [DirSet.allocate, DirSet.empty] at orders

/-- The entry of a granule that had none, in the way that it is given. -/
theorem State.NoEntry.allocated (h : s.NoEntry g) (i : SlotId) :
    (s.setDirSet (setOf g) ((s.dirSet (setOf g)).allocate w g i)).EntryAt g w (newEntry g i) := by
  unfold State.EntryAt
  rw [dirSet_setDirSet_of_ne (DirSet.allocate_ne_empty _ w g i), if_pos rfl]
  have ways : ∀ x, ((s.dirSet (setOf g)).allocate w g i).ways.get x
      = if x = w then some (newEntry g i) else (s.dirSet (setOf g)).ways.get x := fun x =>
    DirSet.get_put_eq _ w x _
  refine ⟨(ways w).trans (if_pos rfl), rfl, fun v f hv hg => ?_⟩
  by_contra other
  rw [ways, if_neg other] at hv
  exact h v f hv hg

/-- Settles O32: the new entry has no holder, so nobody is recalled, and the READ is offered in the same change. -/
theorem readsAllocate : Obligations.ReadsAllocate := by
  intro p tag g r i w s hs ha hr hc hn hw lowest
  obtain ⟨offers, -⟩ := allocates_of hr
  have entry := (hn.headed i (.member r)).allocated (w := w) i
  have empty : ∀ q,
      ((s.headed i (.member r) g).setDirSet (setOf g) ((s.dirSet (setOf g)).allocate w g i)).holds q g = false :=
    fun q => (entry.holds q).trans (PerPort.get_const false q)
  obtain ⟨t, done, rest, slot, chain⟩ := exec_offers hs ha offers
    (place_allocates hr hc hn (DirSet.invalidWay_of hw lowest)) rfl
    (fun q hq => absurd hq (by rw [empty]; nofun))
    (fun f hf => by
      obtain rfl : newEntry g i = f := Option.some.inj (entry.entry.symm.trans hf)
      rw [recallSet_member ha.slotPort_eq offers.bypass]
      exact asked_eq_nil.2 fun q => if_pos (PerPort.get_const false q))
    (fun _ q _ => empty q)
  have dir : t.dir = (s.setDirSet (setOf g) ((s.dirSet (setOf g)).allocate w g i)).dir :=
    (congrArg State.dir rest :)
  refine ⟨t, done, by rw [dir]; exact rest, slot, chain, fun j => ?_⟩
  have sets : t.dirSet j = (s.setDirSet (setOf g) ((s.dirSet (setOf g)).allocate w g i)).dirSet j :=
    congrArg (Sparse.get DirSet.empty · j) dir
  rw [sets, dirSet_setDirSet_of_ne (DirSet.allocate_ne_empty _ w g i)]
  split
  · rename_i hj
    subst hj
    rfl
  · rfl

/-! ### No way allocated -/

/-- Settles O33: without entry nothing is locked, and readers are not recalled for READ_SHARE and PEEK. -/
theorem accessesDoNotAllocate : Obligations.AccessesDoNotAllocate := by
  intro p tag g r i s hs hcan ha hc
  obtain ⟨-, -, -, -, hdir⟩ := hcan
  refine ⟨fun k hn hk => ?_, fun w e he hl hm hr hf => ?_⟩
  · have offers : r.offers k := hk.imp (And.imp_left fun h => .inr (.inr (.inr h))) id
    have stays : (TxnKind.member r).allocates = false := by
      rcases hk with ⟨rfl, -⟩ | ⟨_, rfl, -⟩ | ⟨_, _, rfl, -⟩ | ⟨_, rfl, -⟩ <;> rfl
    have none := hn.headed i (.member r)
    have placed : s.place i (.member r) g = ((s.headed i (.member r) g).recallPhase i).1 := by
      rw [place_headed hc, ha.activate_headed offers.bypass fun h => absurd h (by rw [stays]; nofun),
        activateInPlace_free (s := s.headed i (.member r) g) hdir (headed_txn_same s i _ g)
          (zeroMask_request offers.notZero) rfl none]
    obtain ⟨t, done, rest, slot, chain⟩ := exec_offers hs ha offers placed rfl
      (fun q hq => absurd hq (by rw [none.holds]; nofun))
      (fun f hf => absurd (none.entry.symm.trans hf) nofun) (fun _ q _ => none.holds q)
    exact ⟨t, done, rest, slot, chain⟩
  · have offers : r.offers .read := .inl ⟨hr.imp_right fun h => .inr (.inr h), rfl⟩
    have entry := he.locking i r
    obtain ⟨t, done, rest, slot, chain⟩ := exec_offers hs ha offers
      (place_locks ha offers.bypass (zeroMask_request offers.notZero) hc he) rfl
      (fun q hq => hf q ((entry.holds q).symm.trans hq))
      (fun f hf => by
        obtain rfl := Option.some.inj (entry.entry.symm.trans hf)
        rw [recallSet_member ha.slotPort_eq offers.bypass]
        refine asked_eq_nil.2 fun q => ?_
        rcases hr with rfl | rfl <;> simp [hm])
      (fun h => by rcases hr with rfl | rfl <;> cases h)
    have dir : t.dir = (s.locking i r g).dir :=
    (congrArg State.dir rest :)
    exact ⟨t, done, by rw [dir]; exact rest, slot, chain, wayBecomes_of_dir (he.locking_way i r) rfl dir⟩

/-! ### A full set -/

/-- Nothing is evicted from a set whose ways are all locked, and the request is bounced BUSY (02 R29, 03 R50). -/
theorem place_busy (ha : s.Admits p tag g r i) (hcan : s.tablesCanonical)
    (hr : r = .readShare ∨ r = .readOwn ∨ r = .promote) (hc : s.chain g = []) (hn : s.NoEntry g)
    (full : (s.dirSet (setOf g)).invalidWay = none) (hv : s.victimFor g = none) :
    s.place i (.member r) g = s.queued p (.bounce tag g .busy) := by
  obtain ⟨-, -, -, hchains, hdir⟩ := hcan
  let answered := (s.headed i (.member r) g).queued p (.bounce tag g .busy)
  have bounced : (s.headed i (.member r) g).endWithBounce i .busy = answered.freeHead i g := by
    have sent : (s.headed i (.member r) g).send p (.bounce (slotTag i) g .busy) = answered := by
      rw [ha.slotTag_eq]
      exact send_queued_of_admits (u := s.headed i (.member r) g) ha rfl rfl _
    have none : answered.NoEntry g := hn.of_dir rfl
    unfold State.endWithBounce
    rw [headed_txn_same, ha.slotPort_eq]
    dsimp only [newTxn]
    rw [sent, none.change hdir]
  rw [place_headed hc, ((activate_allocating hr hn).2 full).2 hv]
  exact bounced.trans (freeHead_placed (s := s) (u := answered) hchains ha.free hc rfl)

/-- The oldest entry without lock is the victim (02 R29). -/
theorem DirSet.victimWay_of {d : DirSet} {older younger : List (Fin 8)} (ho : d.order = older ++ w :: younger)
    (locked : ∀ x, x ∈ older → d.unlocked x = false) (free : d.unlocked w = true) : d.victimWay = some w := by
  unfold DirSet.victimWay
  rw [ho, List.find?_append, List.find?_eq_none.2 fun x hx => by rw [locked x hx]; nofun, List.find?_cons_of_pos free]
  rfl

theorem DirSet.unlocked_eq_false {d : DirSet} (h : ∀ e, d.ways.get w = some e → e.lock ≠ .none) :
    d.unlocked w = false := by
  unfold DirSet.unlocked
  cases hw : d.ways.get w with
  | none => rfl
  | some e => simpa using h e hw

theorem DirSet.invalidWay_full {d : DirSet} (full : ∀ w, d.ways.get w ≠ none) : d.invalidWay = none :=
  List.find?_eq_none.2 fun w _ => by simpa using full w

/-- The state in which a request has locked the victim's entry for its eviction (02 R30). -/
def State.evicting (s : State) (i : SlotId) (r : Request) (g v : Granule) : State :=
  ((s.headed i (.member r) g).changeEntry v (.lockEvicting i)).setTxn i
    (some { newTxn (.member r) g with phase := .evicting, victim := some v })

theorem State.EntryAt.evicting_way {v : Entry} (h : s.EntryAt v.granule w v) (i : SlotId) (r : Request) (g : Granule) :
    s.wayBecomes (s.evicting i r g v.granule) v.granule w (some { v with lock := .evicting i }) :=
  (h.of_dir (t := s.headed i (.member r) g) rfl).wayBecomes_change (Entry.freed_of_locked fun hl => nomatch hl)

theorem State.EntryAt.evicting {v : Entry} (h : s.EntryAt v.granule w v) (i : SlotId) (r : Request) (g : Granule) :
    (s.evicting i r g v.granule).EntryAt v.granule w { v with lock := .evicting i } :=
  h.rewritten (h.evicting_way i r g) rfl

/-- A victim that has holders, none of them in FENCING, is revoked from all of them in one change (03 R50, 05 R90). -/
theorem startEviction_revokes {v : Entry} (he : s.EntryAt v.granule w v) (held : noMember v.holders = false)
    (hm : ∀ q, v.holders.get q = true → s.portState q ≠ .fencing) (i : SlotId) (r : Request) (g : Granule) :
    (s.headed i (.member r) g).startEviction i v.granule
      = (s.evicting i r g v.granule).issueRecalls i v.granule
        (asked fun q => if v.holders.get q = true then some .revoke else none) := by
  have entry := he.evicting i r g
  have locked : ((s.headed i (.member r) g).changeEntry v.granule (.lockEvicting i)).modifyTxn i
      (fun x => { x with phase := .evicting, victim := some v.granule }) = s.evicting i r g v.granule := by
    have slot : ((s.headed i (.member r) g).changeEntry v.granule (.lockEvicting i)).txn i
        = some (newTxn (.member r) g) := headed_txn_same s i _ g
    unfold State.modifyTxn State.evicting
    rw [slot]
  have kept : (s.evicting i r g v.granule).dropFencedHolders v.granule i false = s.evicting i r g v.granule :=
    dropFencedHolders_self (s := s.evicting i r g v.granule) (fun q hq => hm q ((entry.holds q).symm.trans hq)) i false
  have recalls : (((s.evicting i r g v.granule).entry v.granule).map revokeAll).getD []
      = asked fun q => if v.holders.get q = true then some .revoke else none := by
    rw [entry.entry]
    exact map_members v.holders .revoke
  unfold State.startEviction
  rw [locked]
  dsimp only
  rw [kept, recalls]
  have some_recall := asked_members_ne_nil held .revoke
  generalize (asked fun q => if v.holders.get q = true then some RecallKind.revoke else none) = sent at *
  cases sent with
  | nil => exact absurd rfl some_recall
  | cons first others => rfl

/-- A request of a full set locks its victim and revokes it from its holders, in one change (03 R50). -/
theorem place_evicts (hr : r = .readShare ∨ r = .readOwn ∨ r = .promote)
    (hc : s.chain g = []) (hn : s.NoEntry g) (full : (s.dirSet (setOf g)).invalidWay = none) {v : Entry}
    (hv : s.victimFor g = some v.granule) (he : s.EntryAt v.granule w v) (held : noMember v.holders = false)
    (hm : ∀ q, v.holders.get q = true → s.portState q = .active ∨ s.portState q = .departing)
    {asks : Port → Option RecallKind} (hasks : asks = fun q => if v.holders.get q = true then some .revoke else none) :
    ∃ t, s.place i (.member r) g = t ∧ t = { s with table := t.table, dir := t.dir, ifaces := t.ifaces }
      ∧ s.slotBecomes t i (some
        { Txn.plain .evicting (.member r) g with
          victim := some v.granule
          awaited := awaiting asks
          deadline := some (s.now + s.table.recallLimit.toNat) })
      ∧ s.chainBecomes t g [i] ∧ s.wayBecomes t v.granule w (some { v with lock := .evicting i })
      ∧ s.recallsQueued t v.granule i asks := by
  have holder : ∀ q, asks q ≠ none → v.holders.get q = true := fun q hq => by
    by_contra hn
    exact hq (by rw [hasks]; exact if_neg hn)
  have placed : s.place i (.member r) g = (s.evicting i r g v.granule).issueRecalls i v.granule (asked asks) := by
    rw [place_headed hc, ((activate_allocating hr hn).2 full).1 _ hv, hasks]
    dsimp only
    exact startEviction_revokes he held (fun q hq => by rcases hm q hq with h | h <;> simp [h]) i r g
  have slot : (s.evicting i r g v.granule).txn i
      = some { Txn.plain .evicting (.member r) g with victim := some v.granule } := txn_setTxn_same _ i _
  obtain ⟨rest, queued⟩ := issueRecalls_spec slot v.granule asks
    fun q hq => isFenced_of_member (hm q (holder q hq))
  have way := he.evicting_way i r g
  have chain : s.chainBecomes (s.evicting i r g v.granule) g [i] := headed_chain s i (.member r) g
  have slots : ∀ j, j ≠ i → (s.evicting i r g v.granule).txn j = s.txn j := fun j hj =>
    ((txn_setTxn _ i j _).trans (if_neg hj)).trans ((headed_txn s i _ g j).trans (if_neg hj))
  have same : s.evicting i r g v.granule
      = { s with table := (s.evicting i r g v.granule).table, dir := (s.evicting i r g v.granule).dir } := rfl
  have limit : (s.evicting i r g v.granule).table.recallLimit = s.table.recallLimit := rfl
  have clock : (s.evicting i r g v.granule).now = s.now := rfl
  have lines : (s.evicting i r g v.granule).ifaces = s.ifaces := rfl
  generalize s.evicting i r g v.granule = u at *
  generalize u.issueRecalls i v.granule (asked asks) = t at *
  refine ⟨t, placed, ?_, ⟨fun j => ?_, ?_⟩, fun h => ?_, fun k => ?_, fun q => lines ▸ queued q⟩
  · calc
      t = { u with table := t.table, dir := t.dir, ifaces := t.ifaces } := by rw [rest]; rfl
      _ = { s with table := t.table, dir := t.dir, ifaces := t.ifaces } := by rw [same]
  · rw [rest, ← limit, ← clock]
    refine (txn_setTxn u i j _).trans ?_
    split
    · rfl
    · exact slots j ‹_›
  · rw [rest]
    exact limit
  · rw [rest]
    exact chain h
  · rw [rest]
    exact way k

/-- The entry in a way of a lawful set, as the entry of its own granule (02 R20). -/
theorem DirSet.Lawful.entryAt (h : (s.dirSet (setOf g)).Lawful (setOf g)) {v : Entry}
    (hv : (s.dirSet (setOf g)).ways.get w = some v) : setOf v.granule = setOf g ∧ s.EntryAt v.granule w v := by
  have sets := (h.place w v hv).1
  unfold State.EntryAt
  rw [sets]
  exact ⟨rfl, hv, rfl, fun x f hx hf => h.once x w f v hx hv hf⟩

/-- Settles O36: the oldest way without lock is the victim; its entry has a holder, so a recall is awaited. -/
theorem fullSetEvicts : Obligations.FullSetEvicts := by
  intro p tag g r i s hs hcan ha hr hc hn lawful full locked
  have bypass := (allocates_of hr).1.bypass
  have invalid := DirSet.invalidWay_full full
  have done := exec_placed ha bypass
  refine ⟨fun all => ?_, fun older w younger v ho hlocked hv hl hm => ?_⟩
  · have nobody : s.victimFor g = none := by
      unfold State.victimFor DirSet.victimWay
      dsimp only
      rw [List.find?_eq_none.2 fun w _ => by rw [DirSet.unlocked_eq_false (all w)]; nofun]
      rfl
    rw [place_busy ha hcan hr hc hn invalid nobody,
      settle_of_settled (settled_same (t := s.queued p _) hs rfl fun _ => rfl)] at done
    exact done
  · obtain ⟨sets, entry⟩ := lawful.entryAt hv
    have free : (s.dirSet (setOf g)).unlocked w = true := by
      unfold DirSet.unlocked
      rw [hv, Option.any_some, hl]
      rfl
    have victim : s.victimFor g = some v.granule := by
      unfold State.victimFor
      dsimp only
      rw [DirSet.victimWay_of ho (fun x hx => DirSet.unlocked_eq_false (hlocked x hx)) free, Option.bind_some, hv]
      rfl
    obtain ⟨t, hp, rest, slot, chain, way, queued⟩ := place_evicts hr hc hn invalid victim entry
      ((lawful.place w v hv).2.2 hl) hm rfl
    rw [hp, settle_of_settled (settled_slot hs (by rw [rest]) slot.1 (.inl ha.free))] at done
    refine ⟨t, done, rest, slot, chain, ?_, queued⟩
    unfold State.wayBecomes at way ⊢
    rw [sets] at way
    exact way

end Sys2Proof.Machine
end

section
/-! PROOFS. The moves of the transaction table, the directory and the sweep engine once more, with what each of them may
touch: which slots, whether a holder or a new entry can come, and that the walk only works off what is queued. -/

namespace Sys2Proof.Machine

variable {s t u : State} {p : Port} {i : SlotId} {g : Granule} {M : SlotId → Prop} {G : Prop}

/-! ### What a move may touch -/

/-- The change gives an entry a holder or an evicting lock. -/
def EntryChange.adds : EntryChange → Bool
  | .lockEvicting _ => true
  | .grantReader _ _ => true
  | .grantOwner _ _ => true
  | .lockBusy _ => false
  | .unlock _ => false
  | .remove _ => false
  | .removeAll => false
  | .demote => false

/-- One move that writes the records of slots in `M` only and brings only those into a chain, and gives no entry, no
holder and no evicting lock where `G` is false. The walk works off the sweep queue and the reports that are to come, and
the initializer has no part in it. -/
inductive Turn (M : SlotId → Prop) (G : Prop) : State → State → Prop
  | send (s : State) (p : Port) (f : HubFrame) : Turn M G s (s.send p f)
  | offer (s : State) (op : MemOp) (h : op.origin ≠ .initializer) : Turn M G s (s.offer op)
  | txn (s : State) (i : SlotId) (x : Option Txn) (h : M i) : Turn M G s (s.setTxn i x)
  | chain (s : State) (g : Granule) (c : List SlotId) (h : ∀ j ∈ c, j ∈ s.chain g ∨ M j) : Turn M G s (s.setChain g c)
  | entry (s : State) (g : Granule) (c : EntryChange) (h : G ∨ c.adds = false) : Turn M G s (s.changeEntry g c)
  | alloc (s : State) (g : Granule) (i : SlotId) (h : G) : Turn M G s (s.allocateEntry g i)
  | replace (s : State) (v g : Granule) (i : SlotId) (h : G) : Turn M G s (s.replaceVictim v g i)
  | result (s : State) (r : SlotResult) : Turn M G s (s.setResult r)
  | sweep (s : State) (w : Sweep) (hline : w.line = s.sweep.line) (hjobs : w.jobs <:+ s.sweep.jobs) :
      Turn M G s (s.setSweep w)
  | sweepIdle (s : State) : Turn M G s (s.raise .sweepIdle)
  | draws (s : State) (n : Nat) : Turn M G s { s with freeDraws := n }

/-- A sequence of such moves. -/
abbrev Turns (M : SlotId → Prop) (G : Prop) : State → State → Prop := Relation.ReflTransGen (Turn M G)

theorem Turn.turns (h : Turn M G s t) : Turns M G s t := .single h

theorem Turns.refl (s : State) : Turns M G s s := Relation.ReflTransGen.refl

theorem offer_turns (s : State) (k : MemKind) (g : Granule) (i : SlotId) : Turns M G s (s.offer ⟨k, g, .slot i⟩) :=
  (Turn.offer s _ fun h => by cases h).turns

/-- A change that each of a list of parties brings about by moves. -/
theorem turns_foldl {α : Type} {f : State → α → State} {l : List α} (hf : ∀ a ∈ l, ∀ s, Turns M G s (f s a)) :
    ∀ s, Turns M G s (l.foldl f s) := by
  induction l with
  | nil => exact Turns.refl
  | cons a l ih => exact fun s => (hf a (.head l) s).trans (ih (fun b hb => hf b (.tail a hb)) _)

theorem inFreeOrder_turns {fs : List (State → State)} (hf : ∀ f ∈ fs, ∀ s, Turns M G s (f s)) :
    Turns M G s (s.inFreeOrder fs) := by
  obtain ⟨n, l, perm, order⟩ := inFreeOrder_map (s := s) (fun f => f) fs
  rw [List.map_id'] at order
  rw [order]
  exact (Turn.draws s n).turns.trans (turns_foldl (fun f hf' => hf f (perm.mem_iff.1 hf')) _)

/-! ### The slot record and its memory operations -/

theorem modifyTxn_turns (hi : M i) (s : State) (f : Txn → Txn) : Turns M G s (s.modifyTxn i f) := by
  unfold State.modifyTxn
  split
  · exact .refl s
  · exact (Turn.txn s i _ hi).turns

theorem leaveChain_turns (s : State) (i : SlotId) (g : Granule) : Turns M G s (s.leaveChain i g) :=
  (Turn.chain s g _ fun _ hj => .inl (List.mem_of_mem_erase hj)).turns

theorem freeHead_turns (hi : M i) (s : State) (g : Granule) : Turns M G s (s.freeHead i g) :=
  (Turn.txn s i none hi).turns.trans (leaveChain_turns _ i g)

theorem dropFencedHolders_turns (hi : M i) (s : State) (g : Granule) (own : Bool) :
    Turns M G s (s.dropFencedHolders g i own) := by
  refine turns_foldl (fun p _ s => ?_) s
  unfold State.dropFencedHolder
  split
  · split
    · exact ((offer_turns s _ _ _).trans (modifyTxn_turns hi _ _)).trans (Turn.entry _ _ _ (.inr rfl)).turns
    · exact (Turn.entry _ _ _ (.inr rfl)).turns
  · exact .refl s

theorem issueRecalls_turns (hi : M i) (s : State) (g : Granule) (rs : List (Port × RecallKind)) :
    Turns M G s (s.issueRecalls i g rs) :=
  (turns_foldl (fun r _ s => (Turn.send s r.1 (.recall r.2 g i)).turns) s).trans (modifyTxn_turns hi _ _)

theorem unlocked_turns (hi : M i) (s : State) (g : Granule) :
    Turns M G s ((s.changeEntry g (.unlock i)).freeHead i g) :=
  (Turn.entry s g _ (.inr rfl)).turns.trans (freeHead_turns hi _ g)

theorem endTxn_turns (hi : M i) (hG : G ∨ slotPort i = none) (s : State) : Turns M G s (s.endTxn i) := by
  unfold State.endTxn
  split
  · exact .refl s
  · dsimp only
    split
    · split
      · exact unlocked_turns hi s _
      · rename_i hp
        have hG : G := hG.resolve_right (by rw [hp]; nofun)
        exact ((Turn.send s _ _).turns.trans (Turn.entry _ _ _ (.inl hG)).turns).trans (freeHead_turns hi _ _)
    · exact (Turn.result s _).turns.trans (unlocked_turns hi _ _)
    · exact (Turn.result s _).turns.trans (unlocked_turns hi _ _)
    all_goals exact unlocked_turns hi s _

theorem endWithBounce_turns (hi : M i) (s : State) (r : Reason) : Turns M G s (s.endWithBounce i r) := by
  unfold State.endWithBounce
  split
  · exact (Turn.send s _ _).turns.trans (unlocked_turns hi _ _)
  · exact unlocked_turns hi s _
  · exact .refl s

theorem enterMemory_turns (hi : M i) (hG : G ∨ slotPort i = none) (s : State) : Turns M G s (s.enterMemory i).1 := by
  unfold State.enterMemory
  split
  · exact .refl s
  · rename_i x _
    have taken : Turns M G s (s.setTxn i (some { x with phase := .memory, victim := none, deadline := none })) :=
      (Turn.txn s i _ hi).turns
    dsimp only
    split <;> split
    · exact (taken.trans (offer_turns _ _ _ _)).trans (endTxn_turns hi hG _)
    · exact taken.trans (offer_turns _ _ _ _)
    · exact taken.trans (endTxn_turns hi hG _)
    · exact taken

theorem recallPhase_turns (hi : M i) (hG : G ∨ slotPort i = none) (s : State) : Turns M G s (s.recallPhase i).1 := by
  unfold State.recallPhase
  split
  · exact .refl s
  · rename_i x _
    have dropped : Turns M G s (s.dropFencedHolders x.granule i true) := dropFencedHolders_turns hi s _ _
    dsimp only
    split
    · exact dropped.trans (enterMemory_turns hi hG _)
    · exact (dropped.trans (issueRecalls_turns hi _ _ _)).trans (modifyTxn_turns hi _ _)

theorem activateInPlace_turns (hi : M i) (hG : G ∨ slotPort i = none) (s : State) :
    Turns M G s (s.activateInPlace i).1 := by
  unfold State.activateInPlace
  split
  · exact .refl s
  · split
    · exact endTxn_turns hi hG s
    · exact (Turn.entry s _ _ (.inr rfl)).turns.trans (recallPhase_turns hi hG _)

/-! ### The sweep engine -/

theorem setPause_turns (s : State) (w : Pause) : Turns M G s (s.setPause w) :=
  (Turn.sweep s { s.sweep with walk := { s.sweep.walk with pause := w } } rfl (List.suffix_refl _)).turns

/-- A job that leaves the queue leaves its report in its place in the line (08 R170, R171). -/
theorem completeJob_turns (s : State) : Turns M G s s.completeJob := by
  unfold State.completeJob
  split
  · exact .refl s
  · rename_i j hj
    refine (Turn.sweep s _ ?_ ?_).turns.trans (Turn.sweepIdle _).turns
    · simp [Sweep.line, hj]
    · exact hj ▸ List.nil_suffix
  · rename_i j js _ hj
    refine (Turn.sweep s _ ?_ ?_).turns
    · simp [Sweep.line, hj]
    · exact hj ▸ List.suffix_cons j js

theorem moveOn_turns (s : State) : Turns M G s s.moveOn := by
  unfold State.moveOn
  split
  · rename_i w _
    exact (Turn.sweep s { s.sweep with walk := w } rfl (List.suffix_refl _)).turns
  · exact completeJob_turns s

theorem removeDirectly_turns (s : State) (e : Entry) (ps : List Port) : Turns M G s (s.removeDirectly e ps) := by
  unfold State.removeDirectly
  split
  · exact moveOn_turns s
  · have removed : Turns M G s ((ps.filter e.holders.get).foldl (fun s p => s.changeEntry e.granule (.remove p)) s) :=
      turns_foldl (fun p _ s => (Turn.entry s e.granule (.remove p) (.inr rfl)).turns) s
    dsimp only
    split
    · exact removed.trans (moveOn_turns _)
    · have offered := removed.trans (Turn.offer _ ⟨.poisonSet, e.granule, .sweep⟩ fun h => by cases h).turns
      split
      · exact offered.trans (moveOn_turns _)
      · exact offered.trans (setPause_turns _ _)

theorem placeSweep_turns (hM : M sweepSlot) (s : State) (k : TxnKind) (g : Granule) :
    Turns M G s (s.placeSweep k g) := by
  have placed : Turns M G s
      (((s.setTxn sweepSlot (some (newTxn k g))).setChain g (s.chain g ++ [sweepSlot])).setPause .slot) := by
    refine ((Turn.txn s sweepSlot _ hM).turns.trans (Turn.chain _ g _ fun j hj => ?_).turns).trans (setPause_turns _ _)
    exact (List.mem_append.1 hj).imp_right fun h => by rwa [List.mem_singleton.1 h]
  have active := placed.trans (activateInPlace_turns hM (.inr rfl) _)
  unfold State.placeSweep
  dsimp only
  split
  · split
    · exact active.trans (moveOn_turns _)
    · exact active
  · exact placed

/-- A visit of the walk writes the sweep slot only (08 R161 to R166). -/
theorem visit_turns (hM : M sweepSlot) (s : State) : Turns M G s s.visit := by
  have slot : ∀ k g, Turns M G s (s.needSlot k g) := fun k g => by
    unfold State.needSlot
    split
    · exact setPause_turns s _
    · exact placeSweep_turns hM s k g
  unfold State.visit
  split
  · exact .refl s
  · split
    · exact moveOn_turns s
    · split
      · exact removeDirectly_turns s _ _
      · exact removeDirectly_turns s _ _
      · split
        · exact setPause_turns s _
        · split
          · exact slot _ _
          · exact moveOn_turns s
      · split
        · exact setPause_turns s _
        · split
          · exact moveOn_turns s
          · exact slot _ _

theorem visitAfresh_turns (hM : M sweepSlot) (s : State) : Turns M G s s.visitAfresh :=
  (setPause_turns s .none).trans (visit_turns hM _)

theorem sweepSlotFreed_turns (hM : M sweepSlot) (s : State) : Turns M G s s.sweepSlotFreed := by
  unfold State.sweepSlotFreed
  split
  · exact moveOn_turns s
  · exact visitAfresh_turns hM s
  all_goals exact .refl s

theorem startService_turns (hM : M serviceSlot) (s : State) : Turns M G s s.startService := by
  unfold State.startService
  split
  · exact .refl s
  · rename_i x _
    have placed : Turns M G s (s.setChain x.granule (s.chain x.granule ++ [serviceSlot])) :=
      (Turn.chain s _ _ fun j hj => (List.mem_append.1 hj).imp_right fun h => by rwa [List.mem_singleton.1 h]).turns
    dsimp only
    split
    · exact placed.trans (activateInPlace_turns hM (.inr rfl) _)
    · exact placed

theorem heldBack_turns (h48 : M sweepSlot) (h49 : M serviceSlot) (g : Granule) (s : State) :
    ∀ f ∈ s.heldBack g, ∀ u, Turns M G u (f u) := by
  intro f hf u
  unfold State.heldBack at hf
  rcases List.mem_append.1 hf with hf | hf
  · split at hf
    · rw [List.mem_singleton.1 hf]; exact startService_turns h49 u
    · cases hf
  · split at hf
    · rw [List.mem_singleton.1 hf]; exact visitAfresh_turns h48 u
    · cases hf

end Sys2Proof.Machine
end

section
/-! PROOFS. Every operation of the transaction table as a sequence of such moves, of any slot. -/

namespace Sys2Proof.Machine

variable {s t u : State} {p : Port} {i : SlotId} {g : Granule}

/-- Moves that may write every slot and give any entry. -/
abbrev Works : State → State → Prop := Turns (fun _ => True) True

/-! ### Evictions, activation and the advance of a chain -/

theorem completeEviction_works (s : State) (i : SlotId) : Works s (s.completeEviction i) := by
  unfold State.completeEviction
  split
  · exact .refl s
  · split
    · exact .refl s
    · refine ((Turn.replace s _ _ _ trivial).turns.trans (modifyTxn_turns trivial _ _)).trans
        (inFreeOrder_turns fun f hf u => ?_)
      rcases List.mem_cons.1 hf with rfl | hf
      · exact enterMemory_turns trivial (.inl trivial) u
      · exact heldBack_turns trivial trivial _ _ f hf u

theorem checkEviction_works (s : State) (i : SlotId) : Works s (s.checkEviction i) := by
  unfold State.checkEviction
  split
  · exact .refl s
  · split
    · split
      · exact completeEviction_works s i
      · exact .refl s
    · exact .refl s

theorem startEviction_works (s : State) (i : SlotId) (v : Granule) : Works s (s.startEviction i v) := by
  have locked : Works s (((s.changeEntry v (.lockEvicting i)).modifyTxn i fun x =>
      { x with phase := .evicting, victim := some v }).dropFencedHolders v i false) :=
    ((Turn.entry s v _ (.inl trivial)).turns.trans (modifyTxn_turns trivial _ _)).trans
      (dropFencedHolders_turns trivial _ v false)
  unfold State.startEviction
  dsimp only
  split
  · exact locked.trans (checkEviction_works _ i)
  · exact locked.trans (issueRecalls_turns trivial _ v _)

theorem activate_works (s : State) (i : SlotId) : Works s (s.activate i).1 := by
  unfold State.activate
  split
  · exact .refl s
  · rename_i x _
    split
    · exact endWithBounce_turns trivial s _
    · split
      · split
        · exact (Turn.alloc s x.granule i trivial).turns.trans (recallPhase_turns trivial (.inl trivial) _)
        · split
          · rename_i v _
            dsimp only
            exact startEviction_works s i v
          · exact endWithBounce_turns trivial s .busy
      · exact activateInPlace_turns trivial (.inl trivial) s

theorem afterEnd_works (s : State) (i : SlotId) : Works s (s.afterEnd i) := by
  unfold State.afterEnd
  split
  · exact sweepSlotFreed_turns trivial s
  · exact .refl s

theorem advance_works (l : List SlotId) : ∀ s, Works s (State.advance l s) := by
  induction l with
  | nil => exact Turns.refl
  | cons i l ih =>
    intro s
    simp only [State.advance]
    split
    · exact ((activate_works s i).trans (ih _)).trans (afterEnd_works _ i)
    · exact activate_works s i

theorem advanceAfter_works (s : State) (i : SlotId) (g : Granule) : Works s (s.advanceAfter i g) :=
  (advance_works _ s).trans (afterEnd_works _ i)

theorem finish_works (s : State) (i : SlotId) : Works s (s.finish i) := by
  unfold State.finish
  split
  · exact .refl s
  · exact (endTxn_turns trivial (.inl trivial) s).trans (advanceAfter_works _ i _)

theorem takeMemory_works (s : State) (i : SlotId) : Works s (s.takeMemory i) := by
  have taken : Works s (s.enterMemory i).1 := enterMemory_turns trivial (.inl trivial) s
  unfold State.takeMemory
  split
  · exact .refl s
  · dsimp only
    split
    · exact taken.trans (advanceAfter_works _ i _)
    · exact taken

theorem placed_works (s : State) (i : SlotId) (x : Option Txn) (g : Granule) (c : List SlotId) :
    Works s ((s.setTxn i x).setChain g c) :=
  (Turn.txn s i x trivial).turns.trans (Turn.chain _ g c fun _ _ => .inr trivial).turns

theorem place_works (s : State) (i : SlotId) (k : TxnKind) (g : Granule) : Works s (s.place i k g) := by
  have placed := placed_works s i (some (newTxn k g)) g (s.chain g ++ [i])
  unfold State.place
  dsimp only
  split
  · exact placed.trans (activate_works _ i)
  · exact placed

theorem placeService_works (s : State) (k : TxnKind) (g : Granule) : Works s (s.placeService k g) := by
  unfold State.placeService
  split
  · exact (Turn.txn s _ _ trivial).turns
  · exact place_works s _ k g

/-! ### The end of recalls, abandonment and completions -/

theorem recallsEnded_works (s : State) (i : SlotId) : Works s (s.recallsEnded i) := by
  unfold State.recallsEnded
  split
  · exact .refl s
  · rename_i x _
    split
    · have ended : Works s (s.setTxn i (some { x with deadline := none })) := (Turn.txn s i _ trivial).turns
      dsimp only
      split
      · exact ended.trans (takeMemory_works _ i)
      · exact ended.trans (checkEviction_works _ i)
      all_goals exact ended
    · exact .refl s

theorem unawait_works (s : State) (i : SlotId) (p : Port) : Works s (s.unawait i p) :=
  (modifyTxn_turns trivial s _).trans (recallsEnded_works _ i)

theorem resolveAbsent_works (p : Port) (fenced : Bool) (i : SlotId) (s : State) :
    Works s (State.resolveAbsent p fenced i s) := by
  unfold State.resolveAbsent
  split
  · exact .refl s
  · split
    · refine Relation.ReflTransGen.trans ?_ (unawait_works _ i p)
      refine Relation.ReflTransGen.trans ?_ (Turn.entry _ _ _ (.inl trivial)).turns
      split
      · exact (offer_turns s _ _ _).trans (modifyTxn_turns trivial _ _)
      · exact .refl
    · exact .refl s

theorem abandon_works (i : SlotId) (s : State) : Works s (State.abandon i s) := by
  unfold State.abandon
  split
  · exact .refl s
  · rename_i x _
    have left : ∀ v, Works s (((s.setTxn i (s.drained i x)).changeEntry v (.unlock i)).leaveChain i x.granule) :=
      fun v =>
      ((Turn.txn s i _ trivial).turns.trans (Turn.entry _ v _ (.inl trivial)).turns).trans (leaveChain_turns _ i _)
    dsimp only
    split
    · exact freeHead_turns trivial s _
    · exact (left _).trans (advanceAfter_works _ i _)
    · exact (left _).trans (advanceAfter_works _ i _)
    · exact ((left _).trans (inFreeOrder_turns (heldBack_turns trivial trivial _ s))).trans (advanceAfter_works _ i _)
    · exact (Turn.txn s i _ trivial).turns
    · exact .refl s

theorem deliverToSlot_works (s : State) (i : SlotId) (c : Completion) : Works s (s.deliverToSlot i c) := by
  unfold State.deliverToSlot
  split
  · exact .refl s
  · rename_i x _
    have noted : Works s (s.setTxn i (some (x.note c))) := (Turn.txn s i _ trivial).turns
    have freed : ∀ u : State, Works u (u.setTxn i none) := fun u => (Turn.txn u i none trivial).turns
    dsimp only
    split
    · split
      · exact freed s
      · exact .refl s
    · split
      · split
        · exact (Turn.send s _ _).turns.trans (freed _)
        · exact freed s
      · exact .refl s
    · split
      · exact noted.trans (finish_works _ i)
      · exact noted
    all_goals exact noted

/-! ### Requests, yields, and the slots of a port that leaves -/

theorem recheckVictim_works (s : State) (g : Granule) : Works s (s.recheckVictim g) := by
  unfold State.recheckVictim
  split
  · exact .refl s
  · split
    · exact checkEviction_works s _
    all_goals exact .refl s

theorem placeRequest_works (s : State) (i : SlotId) (p : Port) (g : Granule) (r : Request) :
    Works s (s.placeRequest i p g r) := by
  unfold State.placeRequest
  split
  · unfold State.takeReturn
    split
    · exact (((Turn.txn s i _ trivial).turns.trans (Turn.entry _ g _ (.inl trivial)).turns).trans
        (offer_turns _ _ _ _)).trans (recheckVictim_works _ g)
    · exact (Turn.send s p _).turns
  · unfold State.takeRelease
    split
    · exact ((Turn.entry s g _ (.inl trivial)).turns.trans (Turn.send _ p _).turns).trans (recheckVictim_works _ g)
    · exact (Turn.send s p _).turns
  all_goals exact place_works s i _ g

theorem yieldChange_works (s : State) (p : Port) (g : Granule) (k : RecallKind) (o : YieldOutcome) :
    Works s (s.yieldChange p g k o) := by
  have changed : ∀ c, Works s (s.changeEntry g c) := fun c => (Turn.entry s g c (.inl trivial)).turns
  unfold State.yieldChange
  split
  · exact changed _
  · exact changed _
  all_goals
    split
    · exact changed _
    · exact .refl s

theorem offerYielded_works (s : State) (i : SlotId) (g : Granule) (o : YieldOutcome) :
    Works s (s.offerYielded i g o) := by
  unfold State.offerYielded
  split
  · exact (offer_turns s _ _ _)
  all_goals exact .refl s

theorem dropIfWaiting_works (s : State) (i : SlotId) : Works s (s.dropIfWaiting i) := by
  unfold State.dropIfWaiting
  split
  · exact .refl s
  · split
    · exact freeHead_turns trivial s _
    · exact .refl s

theorem fenceTask_works {ps : List Port} {f : State → State} (hf : s.fenceTask ps i = some f) (u : State) :
    Works u (f u) := by
  unfold State.fenceTask at hf
  split at hf
  · cases hf
  · split at hf
    · injection hf with hf; subst hf; exact abandon_works i u
    · split at hf
      · injection hf with hf; subst hf
        exact turns_foldl (fun p _ u => resolveAbsent_works p true i u) u
      · cases hf

/-- What fence entry brings beside the records and the interfaces of the ports. -/
theorem fenceEntries_works (s : State) (ps : List Port) (reason : FenceReason) :
    Works (ps.foldl (State.enterFencing reason) s) (s.fenceEntries ps reason) := by
  unfold State.fenceEntries
  refine (turns_foldl (fun i _ u => dropIfWaiting_works u i) _).trans (inFreeOrder_turns fun f hf u => ?_)
  obtain ⟨i, -, hi⟩ := List.mem_filterMap.1 hf
  exact fenceTask_works hi u

end Sys2Proof.Machine
end

section
/-! PROOFS. What a sequence of such moves leaves: the line of reports, the initializer's operations, the slots and
chains that are none of its own, and the entries where it gives none. -/

namespace Sys2Proof.Machine

variable {s t u : State} {p : Port} {i j : SlotId} {g k : Granule} {M : SlotId → Prop} {G : Prop}

theorem Turn.move (h : Turn M G s t) :
    Moves (fun _ => True) True s t ∨ ∃ n, t = { s with freeDraws := n } := by
  cases h with
  | send p f => exact .inl (Move.send s p f).moves
  | offer op => exact .inl (Move.offer s op trivial).moves
  | txn i x => exact .inl (Move.txn s i x fun x _ => ⟨⟨trivial, fun _ _ => trivial⟩, .inl trivial⟩).moves
  | chain g c => exact .inl (Move.chain s g c).moves
  | entry g c => exact .inl (Move.entry s g c).moves
  | alloc g i => exact .inl (Move.alloc s g i trivial).moves
  | replace v g i => exact .inl (Move.replace s v g i trivial).moves
  | result r => exact .inl (Move.result s r).moves
  | sweep w => exact .inl (Move.sweep s w).moves
  | sweepIdle => exact .inl (Move.sweepIdle s).moves
  | draws n => exact .inr ⟨n, rfl⟩

theorem Turn.directoryLawful (h : Turn M G s t) (hs : s.directoryLawful) : t.directoryLawful := by
  rcases h.move with m | ⟨n, rfl⟩
  · exact m.directoryLawful hs
  · exact hs

theorem Turns.directoryLawful (h : Turns M G s t) (hs : s.directoryLawful) : t.directoryLawful := by
  induction h with
  | refl => exact hs
  | tail _ m ih => exact m.directoryLawful ih

theorem Turn.chainsCanonical (h : Turn M G s t) (hs : Sparse.wf [] s.table.chains) : Sparse.wf [] t.table.chains := by
  cases h with
  | send p f => unfold State.send; dsimp only; split <;> exact hs
  | offer op => unfold State.offer; split <;> exact hs
  | chain g c => exact Sparse.wf_set hs _ _
  | alloc g i => unfold State.allocateEntry; dsimp only; split <;> exact hs
  | replace v g i =>
    unfold State.replaceVictim
    dsimp only
    split
    · split <;> exact hs
    · exact hs
  | txn | entry | result | sweep | sweepIdle | draws => exact hs

theorem Turns.chainsCanonical (h : Turns M G s t) (hs : Sparse.wf [] s.table.chains) :
    Sparse.wf [] t.table.chains := by
  induction h with
  | refl => exact hs
  | tail _ m ih => exact m.chainsCanonical ih

/-! ### The sweep queue, the initializer and the ports -/

/-- From `s` to `t` the walk has only worked off jobs, each of which has left its report, and the initializer, the port
records and HUB_STATE stay. -/
structure Marches (s t : State) : Prop where
  line : t.sweep.line = s.sweep.line
  jobs : t.sweep.jobs <:+ s.sweep.jobs
  inits : t.mem.inits = s.mem.inits
  nextInit : t.mem.nextInit = s.mem.nextInit
  granuleCount : t.mem.granuleCount = s.mem.granuleCount
  ctl : t.ctl = s.ctl
  hub : t.svc.hubState = s.svc.hubState
  inReset : t.inReset = s.inReset

theorem Marches.refl (s : State) : Marches s s := ⟨rfl, List.suffix_refl _, rfl, rfl, rfl, rfl, rfl, rfl⟩

theorem Marches.trans (h : Marches s t) (k : Marches t u) : Marches s u :=
  ⟨k.line.trans h.line, k.jobs.trans h.jobs, k.inits.trans h.inits, k.nextInit.trans h.nextInit,
    k.granuleCount.trans h.granuleCount, k.ctl.trans h.ctl, k.hub.trans h.hub, k.inReset.trans h.inReset⟩

/-- A change that leaves the sweep engine, the memory controller, the controller and HUB_STATE alone. -/
theorem Marches.of_eq (hsweep : t.sweep = s.sweep) (hmem : t.mem = s.mem) (hctl : t.ctl = s.ctl)
    (hhub : t.svc.hubState = s.svc.hubState) (hr : t.inReset = s.inReset) : Marches s t :=
  ⟨by rw [hsweep], hsweep ▸ List.suffix_refl _, by rw [hmem], by rw [hmem], by rw [hmem], hctl, hhub, hr⟩

theorem MemController.inits_eq (m : MemController) :
    m.inits = ((m.queue ++ m.waiting).filter fun op => op.origin == .initializer).map fun op => op.granule.toNat := rfl

theorem Turn.marches (h : Turn M G s t) : Marches s t := by
  cases h with
  | send p f => unfold State.send; dsimp only; split <;> exact .of_eq rfl rfl rfl rfl rfl
  | offer op ho =>
    have inits : (s.offer op).mem.inits = s.mem.inits := by
      have left : ([op].filter fun op => op.origin == .initializer) = [] := by simpa using ho
      rw [MemController.inits_eq, offer_queues, List.filter_append, left, List.append_nil]
      rfl
    refine ⟨?_, ?_, inits, ?_, ?_, ?_, ?_, ?_⟩ <;> unfold State.offer <;> split <;> rfl
  | alloc g i => unfold State.allocateEntry; dsimp only; split <;> exact .of_eq rfl rfl rfl rfl rfl
  | replace v g i =>
    unfold State.replaceVictim
    dsimp only
    split
    · split <;> exact .of_eq rfl rfl rfl rfl rfl
    · exact .of_eq rfl rfl rfl rfl rfl
  | sweep w hl hj => exact ⟨hl, hj, rfl, rfl, rfl, rfl, rfl, rfl⟩
  | txn | chain | entry | result | sweepIdle | draws => exact .of_eq rfl rfl rfl rfl rfl

theorem Turns.marches (h : Turns M G s t) : Marches s t := by
  induction h with
  | refl => exact .refl s
  | tail _ m ih => exact ih.trans m.marches

/-! ### Slots and chains -/

theorem offer_table (s : State) (op : MemOp) : (s.offer op).table = s.table := by
  unfold State.offer; split <;> rfl

theorem allocateEntry_table (s : State) (g : Granule) (i : SlotId) : (s.allocateEntry g i).table = s.table := by
  unfold State.allocateEntry; dsimp only; split <;> rfl

theorem replaceVictim_table (s : State) (v g : Granule) (i : SlotId) : (s.replaceVictim v g i).table = s.table := by
  unfold State.replaceVictim
  dsimp only
  split
  · split <;> rfl
  · rfl

theorem txn_of_table (h : t.table = s.table) (i : SlotId) : t.txn i = s.txn i := by
  unfold State.txn; rw [h]

theorem chain_of_table (h : t.table = s.table) (g : Granule) : t.chain g = s.chain g := by
  unfold State.chain; rw [h]

theorem Turn.foreign (h : Turn M G s t) (hc : Sparse.wf [] s.table.chains) (hj : ¬M j) :
    t.txn j = s.txn j ∧ (j ∈ t.chain k → j ∈ s.chain k) := by
  have same : ∀ {v : State}, v.table = s.table → v.txn j = s.txn j ∧ (j ∈ v.chain k → j ∈ s.chain k) :=
    fun hv => ⟨txn_of_table hv j, fun h => chain_of_table hv k ▸ h⟩
  cases h with
  | send p f => exact same (send_table s p f)
  | offer op => exact same (offer_table s op)
  | alloc g i => exact same (allocateEntry_table s g i)
  | replace v g i => exact same (replaceVictim_table s v g i)
  | txn i x hi => exact ⟨txn_setTxn_other s x fun e => hj (e ▸ hi), id⟩
  | chain g c hg =>
    refine ⟨rfl, fun h => ?_⟩
    rw [chain_setChain hc] at h
    split at h
    · rename_i e
      exact e ▸ (hg j h).resolve_right hj
    · exact h
  | entry | result | sweep | sweepIdle | draws => exact same rfl

/-- The slots outside `M` keep their records and come into no chain. -/
theorem Turns.foreign (h : Turns M G s t) (hc : Sparse.wf [] s.table.chains) (hj : ¬M j) :
    t.txn j = s.txn j ∧ (j ∈ t.chain k → j ∈ s.chain k) := by
  induction h with
  | refl => exact ⟨rfl, id⟩
  | tail h m ih =>
    obtain ⟨same, mem⟩ := m.foreign (k := k) (Turns.chainsCanonical h hc) hj
    exact ⟨same.trans ih.1, fun hk => ih.2 (mem hk)⟩

/-! ### Entries -/

/-- From `s` to `t` no granule gets an entry, no entry a holder, and none an evicting lock. -/
def GivesNone (s t : State) : Prop :=
  ∀ k f, t.entry k = some f → ∃ e, s.entry k = some e
    ∧ (∀ p, f.holders.get p = true → e.holders.get p = true) ∧ ∀ j, f.lock = .evicting j → e.lock = .evicting j

theorem GivesNone.refl (s : State) : GivesNone s s := fun _ f h => ⟨f, h, fun _ => id, fun _ => id⟩

theorem GivesNone.trans (h : GivesNone s t) (k : GivesNone t u) : GivesNone s u := fun g f hf => by
  obtain ⟨e, he, holders, lock⟩ := k g f hf
  obtain ⟨d, hd, holders', lock'⟩ := h g e he
  exact ⟨d, hd, fun p hp => holders' p (holders p hp), fun j hj => lock' j (lock j hj)⟩

theorem entry_of_dir (h : t.dir = s.dir) (g : Granule) : t.entry g = s.entry g := by
  unfold State.entry State.dirSet; rw [h]

theorem Entry.apply_gives_none (e : Entry) {c : EntryChange} (hc : c.adds = false) :
    (∀ p, (e.apply c).holders.get p = true → e.holders.get p = true)
      ∧ ∀ j, (e.apply c).lock = .evicting j → e.lock = .evicting j := by
  have removed : ∀ q p, (e.holders.set q false).get p = true → e.holders.get p = true := fun q p h => by
    rw [PerPort.get_set] at h
    split at h
    · cases h
    · exact h
  cases c with
  | lockBusy i => exact ⟨fun _ => id, nofun⟩
  | unlock i =>
    refine ⟨fun _ => id, fun j h => ?_⟩
    change e.lock.release i = .evicting j at h
    unfold Lock.release at h
    split at h
    · cases h
    · exact h
  | remove q => exact ⟨removed q, fun _ => id⟩
  | removeAll =>
    refine ⟨fun p h => ?_, fun _ => id⟩
    rw [show (e.apply .removeAll).holders = .const false from rfl, PerPort.get_const] at h
    cases h
  | demote => exact ⟨fun _ => id, fun _ => id⟩
  | lockEvicting | grantReader | grantOwner => cases hc

theorem changeEntry_givesNone (h : s.directoryLawful) (g : Granule) {c : EntryChange} (hc : c.adds = false) :
    GivesNone s (s.changeEntry g c) := fun k f hf => by
  rw [entry_changeEntry h] at hf
  split at hf
  · rename_i hk
    subst k
    obtain ⟨e, he, hf⟩ := Option.bind_eq_some_iff.1 hf
    split at hf
    · cases hf
    · injection hf with hf
      exact ⟨e, he, hf ▸ e.apply_gives_none hc⟩
  · exact ⟨f, hf, fun _ => id, fun _ => id⟩

theorem Turn.givesNone (h : Turn M False s t) (hd : s.directoryLawful) : GivesNone s t := by
  have same : ∀ {v : State}, v.dir = s.dir → GivesNone s v :=
    fun hv k f hf => ⟨f, entry_of_dir hv k ▸ hf, fun _ => id, fun _ => id⟩
  cases h with
  | send p f => exact same (send_dir s p f)
  | offer op => exact same (offer_dir s op)
  | entry g c hc => exact changeEntry_givesNone hd g (hc.resolve_left id)
  | alloc g i hG => exact hG.elim
  | replace v g i hG => exact hG.elim
  | txn | chain | result | sweep | sweepIdle | draws => exact same rfl

theorem Turns.givesNone (h : Turns M False s t) (hd : s.directoryLawful) : GivesNone s t := by
  induction h with
  | refl => exact .refl s
  | tail h m ih => exact ih.trans (m.givesNone (Turns.directoryLawful h hd))

end Sys2Proof.Machine
end

section
/-! PROOFS. The laws of slots, chains, locks and the result record as a law of the state, and what each single change of
the slots, of a chain and of an entry does to it. -/

namespace Sys2Proof.Machine

variable {s t u : State} {p : Port} {i j : SlotId} {g v k : Granule} {b : Granule → Prop} {x y : Txn} {c : EntryChange}

/-! ### Locks -/

/-- The change leaves the lock of an entry alone. -/
def EntryChange.keepsLock : EntryChange → Bool
  | .remove _ => true
  | .removeAll => true
  | .demote => true
  | .lockBusy _ => false
  | .lockEvicting _ => false
  | .unlock _ => false
  | .grantReader _ _ => false
  | .grantOwner _ _ => false

/-- The change releases the lock of slot `i` (02 R27, R33, R34). -/
def EntryChange.Releases (i : SlotId) (c : EntryChange) : Prop :=
  c = .unlock i ∨ (∃ p, c = .grantReader p i) ∨ ∃ p, c = .grantOwner p i

theorem lock_of_keepsLock (h : c.keepsLock = true) (e : Entry) : (e.apply c).lock = e.lock := by
  cases c with
  | remove | removeAll | demote => rfl
  | lockBusy | lockEvicting | unlock | grantReader | grantOwner => cases h

theorem lock_of_releases (h : c.Releases i) (e : Entry) : (e.apply c).lock = e.lock.release i := by
  rcases h with rfl | ⟨p, rfl⟩ | ⟨p, rfl⟩ <;> rfl

theorem lock_of_freed {e : Entry} (h : e.freed = true) : e.lock = .none := by
  unfold Entry.freed at h
  simpa using (Bool.and_eq_true_iff.1 h).2

theorem lockOf_of_dir (h : t.dir = s.dir) (k : Granule) : t.lockOf k = s.lockOf k := by
  unfold State.lockOf; rw [entry_of_dir h]

theorem lockOf_eq_none : s.lockOf k = none ↔ s.entry k = none := by
  unfold State.lockOf; exact Option.map_eq_none_iff

theorem lockOf_eq_some {l : Lock} : s.lockOf k = some l ↔ ∃ e, s.entry k = some e ∧ e.lock = l := by
  unfold State.lockOf; exact Option.map_eq_some_iff

/-- The lock of each granule after a change of one entry. -/
theorem lockOf_changeEntry (h : s.directoryLawful) (g : Granule) (c : EntryChange) (k : Granule) :
    (s.changeEntry g c).lockOf k =
      if k = g then (s.entry g).bind fun e => if (e.apply c).freed then none else some (e.apply c).lock
      else s.lockOf k := by
  unfold State.lockOf
  rw [entry_changeEntry h]
  split
  · cases s.entry g with
    | none => rfl
    | some e => simp only [Option.bind_some]; split <;> rfl
  · rfl

theorem lockOf_changeEntry_other (h : s.directoryLawful) (c : EntryChange) (hk : k ≠ g) :
    (s.changeEntry g c).lockOf k = s.lockOf k := by rw [lockOf_changeEntry h, if_neg hk]

/-- A change that leaves the lock alone takes away no more than an entry that is not locked. -/
theorem lockOf_keepsLock (h : s.directoryLawful) (hc : c.keepsLock = true) (g k : Granule) :
    (s.changeEntry g c).lockOf k = s.lockOf k
      ∨ s.lockOf k = some .none ∧ (s.changeEntry g c).lockOf k = none := by
  rw [lockOf_changeEntry h]
  split
  · rename_i hk
    subst k
    cases he : s.entry g with
    | none => exact .inl (lockOf_eq_none.2 he).symm
    | some e =>
      rw [lockOf_eq_some.2 ⟨e, he, rfl⟩, Option.bind_some, ← lock_of_keepsLock hc e]
      split
      · rename_i hf
        exact .inr ⟨by rw [lock_of_freed hf], rfl⟩
      · exact .inl rfl
  · exact .inl rfl

/-- A lock that is released leaves an entry without lock, or none. -/
theorem lockOf_releases (h : s.directoryLawful) (hc : c.Releases i) {l : Lock} (hl : s.lockOf g = some l) :
    (s.changeEntry g c).lockOf g = none ∧ l.release i = .none ∨ (s.changeEntry g c).lockOf g = some (l.release i) := by
  obtain ⟨e, he, rfl⟩ := lockOf_eq_some.1 hl
  rw [lockOf_changeEntry h, if_pos rfl, he, Option.bind_some, ← lock_of_releases hc e]
  split
  · rename_i hf
    exact .inl ⟨rfl, lock_of_freed hf⟩
  · exact .inr rfl

theorem lockOf_changeEntry_none (h : s.directoryLawful) (c : EntryChange) (hl : s.lockOf g = none) :
    (s.changeEntry g c).lockOf g = none := by
  rw [lockOf_changeEntry h, if_pos rfl, lockOf_eq_none.1 hl]
  rfl

/-! ### The law of the state -/

theorem directoryLawful_of_dir (h : t.dir = s.dir) (hs : s.directoryLawful) : t.directoryLawful := by
  unfold State.directoryLawful State.dirSet at *
  rwa [h]

/-- The laws of the transaction table and of the directory that they rest on, while the granules of `b` are between two
heads of their chains. -/
structure State.TableLawful (b : Granule → Prop) (s : State) : Prop where
  chains : Sparse.wf [] s.table.chains
  directory : s.directoryLawful
  table : TableLaw b s.txn s.chain s.lockOf s.svc.result
  awaiting : ∀ i x, s.txn i = some x → x.phase ≠ .evicting → x.phase ≠ .recalling → x.awaited = .const none

/-- No granule is between two heads. -/
def NoGranule : Granule → Prop := fun _ => False

theorem transactionsLawful_iff : s.transactionsLawful ↔ s.tablesCanonical ∧ s.TableLawful NoGranule :=
  ⟨fun h => ⟨h.canonical, h.canonical.2.2.2.1, h.directory, h.table, h.awaiting⟩,
    fun ⟨hc, h⟩ => ⟨hc, h.directory, h.table, h.awaiting⟩⟩

theorem State.TableLawful.congr (h : s.TableLawful b) {o : Granule → Prop} (ho : ∀ k, o k ↔ b k) : s.TableLawful o :=
  ⟨h.chains, h.directory, h.table.congr ho, h.awaiting⟩

/-- A change that touches neither the transaction table nor the directory nor the result record. -/
theorem State.TableLawful.of_eq (h : s.TableLawful b) (ht : t.table = s.table) (hd : t.dir = s.dir)
    (hr : t.svc.result = s.svc.result) : t.TableLawful b where
  chains := ht ▸ h.chains
  directory := directoryLawful_of_dir hd h.directory
  table := by
    have txn : t.txn = s.txn := funext (txn_of_table ht)
    have chain : t.chain = s.chain := funext (chain_of_table ht)
    have lock : t.lockOf = s.lockOf := funext (lockOf_of_dir hd)
    rw [txn, chain, lock, hr]
    exact h.table
  awaiting j y hy := h.awaiting j y (txn_of_table ht j ▸ hy)

theorem State.TableLawful.send (h : s.TableLawful b) (p : Port) (f : HubFrame) : (s.send p f).TableLawful b :=
  h.of_eq (send_table s p f) (send_dir s p f) (by unfold State.send; dsimp only; split <;> rfl)

theorem State.TableLawful.offer (h : s.TableLawful b) (op : MemOp) : (s.offer op).TableLawful b :=
  h.of_eq (offer_table s op) (offer_dir s op) (by unfold State.offer; split <;> rfl)

theorem State.TableLawful.setSweep (h : s.TableLawful b) (w : Sweep) :
    (s.setSweep w).TableLawful b := h.of_eq rfl rfl rfl

theorem State.TableLawful.setPause (h : s.TableLawful b) (w : Pause) :
    (s.setPause w).TableLawful b := h.of_eq rfl rfl rfl

theorem State.TableLawful.draws (h : s.TableLawful b) (n : Nat) : ({ s with freeDraws := n } : State).TableLawful b :=
  h.of_eq rfl rfl rfl

theorem State.TableLawful.moveOn (h : s.TableLawful b) : s.moveOn.TableLawful b := by
  unfold State.moveOn State.completeJob
  split
  · exact h.setSweep _
  · split
    · exact h
    · exact h.of_eq rfl rfl rfl
    · exact h.setSweep _

/-- A law that each of a list of changes keeps. -/
theorem lawful_foldl {α : Type} {f : State → α → State} {l : List α}
    (hf : ∀ a ∈ l, ∀ s : State, s.TableLawful b → (f s a).TableLawful b) :
    ∀ {s : State}, s.TableLawful b → (l.foldl f s).TableLawful b := by
  induction l with
  | nil => exact fun h => h
  | cons a l ih => exact fun h => ih (fun a ha => hf a (.tail _ ha)) (hf a (.head l) _ h)

theorem lawful_inFreeOrder {fs : List (State → State)}
    (hf : ∀ f ∈ fs, ∀ s : State, s.TableLawful b → (f s).TableLawful b)
    (h : s.TableLawful b) : (s.inFreeOrder fs).TableLawful b := by
  obtain ⟨n, l, perm, order⟩ := inFreeOrder_map (s := s) (fun f => f) fs
  rw [List.map_id'] at order
  rw [order]
  exact lawful_foldl (fun f hl => hf f (perm.mem_iff.1 hl)) (h.draws n)

/-! ### Slots -/

theorem txn_modifyTxn (hx : s.txn i = some x) (f : Txn → Txn) : s.modifyTxn i f = s.setTxn i (some (f x)) := by
  unfold State.modifyTxn; rw [hx]

theorem State.TableLawful.idle (h : s.TableLawful b) (hx : s.txn i = some x) (h1 : x.phase ≠ .evicting)
    (h2 : x.phase ≠ .recalling) : x.awaited = .const none := h.awaiting i x hx h1 h2

/-- A slot rewritten whose phase, granule and victim stay. -/
theorem State.TableLawful.rewrite_like (h : s.TableLawful b) (hx : s.txn i = some x) (hy : y.Like x i)
    (ha : y.phase ≠ .evicting → y.phase ≠ .recalling → y.awaited = .const none) :
    (s.setTxn i (some y)).TableLawful b where
  chains := h.chains
  directory := h.directory
  table := by
    refine h.table.of_like (fun j => ?_) fun _ => .inl rfl
    rw [txn_setTxn]
    split
    · rename_i hj
      exact .inr ⟨x, y, hj ▸ hx, rfl, hj ▸ hy⟩
    · cases hz : s.txn j with
      | none => exact .inl ⟨rfl, rfl⟩
      | some z => exact .inr ⟨z, z, rfl, rfl, like_of_core rfl j⟩
  awaiting j z hz := by
    rw [txn_setTxn] at hz
    split at hz
    · injection hz with hz
      exact hz ▸ ha
    · exact h.awaiting j z hz

/-- A slot rewritten whose phase, kind, granule and victim stay. -/
theorem State.TableLawful.rewrite (h : s.TableLawful b) (hx : s.txn i = some x) (hy : y.core = x.core)
    (ha : y.phase ≠ .evicting → y.phase ≠ .recalling → y.awaited = .const none) :
    (s.setTxn i (some y)).TableLawful b := h.rewrite_like hx (like_of_core hy i) ha

/-- A slot rewritten in nothing that the laws read. -/
theorem State.TableLawful.note (h : s.TableLawful b) (hx : s.txn i = some x) (hy : y.core = x.core)
    (ha : y.awaited = x.awaited) : (s.setTxn i (some y)).TableLawful b :=
  h.rewrite hx hy fun h1 h2 => by
    have hp : y.phase = x.phase := congrArg Prod.fst hy
    rw [ha]
    exact h.idle hx (hp ▸ h1) (hp ▸ h2)

/-! ### Entries -/

/-- Holders removed from an entry, or the entry demoted: it may be freed, if it is not locked. -/
theorem State.TableLawful.changeEntry (h : s.TableLawful b) (hc : c.keepsLock = true) (g : Granule) :
    (s.changeEntry g c).TableLawful b where
  chains := h.chains
  directory := (Move.entry (K := fun _ => True) (A := True) s g c).directoryLawful h.directory
  table := h.table.of_cores (fun _ => rfl) (lockOf_keepsLock h.directory hc g)
  awaiting := h.awaiting

theorem State.TableLawful.offerPoison (h : s.TableLawful b) (g : Granule) (i : SlotId) (own : Bool) :
    (s.offerPoison g i own).TableLawful b := by
  have offered := h.offer ⟨.poisonSet, g, .slot i⟩
  unfold State.offerPoison
  generalize s.offer ⟨.poisonSet, g, .slot i⟩ = u at offered
  unfold State.modifyTxn
  split
  · exact offered
  · rename_i x hx
    exact offered.note hx rfl rfl

theorem State.TableLawful.dropFencedHolders (h : s.TableLawful b) (g : Granule) (i : SlotId) (own : Bool) :
    (s.dropFencedHolders g i own).TableLawful b := by
  refine lawful_foldl (fun p _ s h => ?_) h
  unfold State.dropFencedHolder
  split
  · refine State.TableLawful.changeEntry ?_ rfl g
    split
    · exact h.offerPoison g i own
    · exact h
  · exact h

/-! ### A slot leaves its chain -/

theorem chain_of_chains (h : t.table.chains = s.table.chains) : t.chain = s.chain :=
  funext fun k => by unfold State.chain; rw [h]

/-- The chains after a slot has left one of them. -/
theorem chain_leaveChain (hs : Sparse.wf [] s.table.chains) (i : SlotId) (g k : Granule) :
    (s.leaveChain i g).chain k = if k = g then (s.chain k).erase i else s.chain k := by
  refine (chain_setChain hs g _ k).trans ?_
  split
  · rename_i hk; rw [hk]
  · rfl

/-- From `s` to `t` slot `i` comes to hold `z`, leaves the chain of `g` and releases its lock by the change `c` of the
entry of `v`; a memory command of the service port ends with it. -/
structure State.SlotLeaves (s t : State) (i : SlotId) (g v : Granule) (z : Option Txn) (c : EntryChange) : Prop where
  releases : c.Releases i
  slots : ∀ j, t.txn j = if j = i then z else s.txn j
  chains : t.table.chains = (s.leaveChain i g).table.chains
  dir : t.dir = (s.changeEntry v c).dir
  result : i ≠ serviceSlot → t.svc.result = s.svc.result
  ended : i = serviceSlot → ∀ c g, t.svc.result ≠ .pending c g

section
variable {z : Option Txn} (e : s.SlotLeaves t i g v z c)
include e

theorem State.SlotLeaves.canonical (hs : Sparse.wf [] s.table.chains) : Sparse.wf [] t.table.chains :=
  e.chains ▸ Sparse.wf_set hs _ _

theorem State.SlotLeaves.chain (hs : Sparse.wf [] s.table.chains) (k : Granule) :
    t.chain k = if k = g then (s.chain k).erase i else s.chain k := by
  rw [chain_of_chains e.chains, chain_leaveChain hs]

theorem State.SlotLeaves.directory (hs : s.directoryLawful) : t.directoryLawful :=
  directoryLawful_of_dir e.dir ((Move.entry (K := fun _ => True) (A := True) s v c).directoryLawful hs)

end

/-- The lock of the entry that an active slot recalls is the slot's own. -/
theorem State.TableLawful.recalled_lock (h : s.TableLawful b) (hx : s.txn i = some x)
    (ha : x.phase.active = true) {l : Lock} (hl : s.lockOf x.recalled = some l) : l = .busy i ∨ l = .evicting i := by
  unfold Txn.recalled at hl
  by_cases he : x.phase = .evicting
  · obtain ⟨-, -, v, hv, -, lock⟩ := h.table.evicts i x hx he
    rw [hv, Option.getD_some, lock] at hl
    exact .inr (Option.some.inj hl).symm
  · have hp : x.phase = .recalling ∨ x.phase = .memory := by
      cases hphase : x.phase <;> simp_all [Phase.active]
    rw [(h.table.seated i x hx).2.1 he, Option.getD_none] at hl
    exact .inl (h.table.locked i x l hx hp hl)

/-- A lock of slot `i` is on the entry that it recalls. -/
theorem State.TableLawful.recalled_of_lock (h : s.TableLawful b) (hx : s.txn i = some x)
    (hl : s.lockOf k = some (.busy i) ∨ s.lockOf k = some (.evicting i)) : k = x.recalled := by
  unfold Txn.recalled
  rcases hl with hl | hl
  · obtain ⟨y, hy, hg, hp⟩ := h.table.busy k i hl
    rw [hx] at hy
    cases hy
    rw [(h.table.seated i x hx).2.1 (by rcases hp with hp | hp <;> rw [hp] <;> nofun), Option.getD_none, hg]
  · obtain ⟨y, hy, hp, hv⟩ := h.table.evicting k i hl
    rw [hx] at hy
    cases hy
    rw [hv, Option.getD_some]

/-- An active slot leaves the head of its chain and releases its lock (03 R55, R58). -/
theorem State.TableLawful.leave (h : s.TableLawful b) (hx : s.txn i = some x) (ha : x.phase.active = true)
    {z : Option Txn}
    (hz : ∀ y, z = some y →
      (y.phase = .draining ∧ y.kind = x.kind ∧ y.victim = none ∧ i.val < 48) ∧ y.awaited = .const none)
    (e : s.SlotLeaves t i x.granule x.recalled z c) : t.TableLawful fun k => b k ∨ k = x.granule where
  chains := e.canonical h.chains
  directory := e.directory h.directory
  table := by
    refine h.table.leave hx ha (fun y hy => (hz y hy).1) e.slots (e.chain h.chains) (fun k => ?_) e.result e.ended
    rw [lockOf_of_dir e.dir k]
    by_cases hk : k = x.recalled
    · subst k
      cases hl : s.lockOf x.recalled with
      | none => exact .inl ⟨lockOf_changeEntry_none h.directory c hl, nofun, nofun⟩
      | some l =>
        have own := h.recalled_lock hx ha hl
        have released : l.release i = .none := if_pos own
        refine .inr ⟨?_, own.imp (congrArg some) fun hl => .inl (congrArg some hl)⟩
        rcases lockOf_releases h.directory e.releases hl with ⟨he, -⟩ | he
        · exact .inl he
        · exact .inr (released ▸ he)
    · exact .inl ⟨lockOf_changeEntry_other h.directory c hk, fun hb => hk (h.recalled_of_lock hx (.inl hb)),
        fun he => hk (h.recalled_of_lock hx (.inr he))⟩
  awaiting j y hy := by
    rw [e.slots] at hy
    split at hy
    · exact fun _ _ => (hz y hy).2
    · exact h.awaiting j y hy

/-- The head of a chain between two heads ends where it stands, with its lock never taken (03 R48, R49). -/
theorem State.TableLawful.pass (h : s.TableLawful b) (hb : b g) {rest : List SlotId} (hg : s.chain g = i :: rest)
    (e : s.SlotLeaves t i g g none c) : t.TableLawful b where
  chains := e.canonical h.chains
  directory := e.directory h.directory
  table := by
    refine h.table.pass hb hg e.slots (e.chain h.chains) (fun k => ?_) e.result e.ended
    rw [lockOf_of_dir e.dir k]
    by_cases hk : k = g
    · subst k
      cases hl : s.lockOf g with
      | none => exact .inl (lockOf_changeEntry_none h.directory c hl)
      | some l =>
        obtain rfl := (h.table.opened g hb).2 l hl
        rcases lockOf_releases h.directory e.releases hl with ⟨he, -⟩ | he
        · exact .inr ⟨rfl, he⟩
        · exact .inl he
    · exact .inl (lockOf_changeEntry_other h.directory c hk)
  awaiting j y hy := by
    rw [e.slots] at hy
    split at hy
    · cases hy
    · exact h.awaiting j y hy

/-- A WAITING slot leaves its chain (03 R57, R58). -/
theorem State.TableLawful.freeWaiting (h : s.TableLawful NoGranule) (hx : s.txn i = some x) (hp : x.phase = .waiting)
    (hi : i ≠ serviceSlot) : (s.freeHead i x.granule).TableLawful NoGranule where
  chains := Sparse.wf_set h.chains _ _
  directory := h.directory
  table := by
    exact h.table.drop (fun _ => id) hx hp hi (fun j => txn_setTxn s i j none)
      (chain_leaveChain (s := s.setTxn i none) h.chains i x.granule)
  awaiting j y hy := by
    rw [show (s.freeHead i x.granule).txn j = (s.setTxn i none).txn j from rfl, txn_setTxn] at hy
    split at hy
    · cases hy
    · exact h.awaiting j y hy

/-- A slot in no chain changes its record, or is freed (03 R56, R59). -/
theorem State.TableLawful.outside (h : s.TableLawful b)
    (hold : ∀ x, s.txn i = some x → x.phase = .bypass ∨ x.phase = .draining) {z : Option Txn}
    (hz : ∀ y, z = some y → (y.phase = .bypass ∨ y.phase = .draining) ∧ y.seatedIn i ∧ y.awaited = .const none)
    (hi : i.val < 48) : (s.setTxn i z).TableLawful b where
  chains := h.chains
  directory := h.directory
  table := h.table.outside hold (fun y hy => ⟨(hz y hy).1, (hz y hy).2.1⟩) hi (fun j => txn_setTxn s i j z)
  awaiting j y hy := by
    rw [txn_setTxn] at hy
    split at hy
    · exact fun _ _ => (hz y hy).2.2
    · exact h.awaiting j y hy

/-! ### A slot joins a chain, and becomes active -/

/-- A WAITING slot joins the tail of its chain: behind a head it waits, and else its granule is between two heads. -/
theorem State.TableLawful.join (h : s.TableLawful b) (hi : ∀ k, i ∉ s.chain k) (hp : x.phase = .waiting)
    (ha : x.awaited = .const none) (hold : s.txn i = none ∨ ∃ w, s.txn i = some w ∧ w.phase = .waiting)
    (hsx : x.seatedIn i)
    (ht : t.table = ((s.setTxn i (some x)).setChain x.granule (s.chain x.granule ++ [i])).table) (hd : t.dir = s.dir)
    (hr : i ≠ serviceSlot → t.svc.result = s.svc.result) (hr' : i = serviceSlot → t.svc.result = x.underWay) :
    (s.chain x.granule ≠ [] → t.TableLawful b)
      ∧ (s.chain x.granule = [] → (∀ j, s.lockOf x.granule ≠ some (.evicting j)) →
        t.TableLawful fun k => b k ∨ k = x.granule) := by
  have slots : ∀ j, t.txn j = if j = i then some x else s.txn j := fun j =>
    (txn_of_table ht j).trans (txn_setTxn s i j (some x))
  have chains : Sparse.wf [] t.table.chains := ht ▸ Sparse.wf_set h.chains _ _
  have directory := directoryLawful_of_dir hd h.directory
  have awaiting : ∀ j y, t.txn j = some y → y.phase ≠ .evicting → y.phase ≠ .recalling → y.awaited = .const none :=
    fun j y hy => by
      rw [slots] at hy
      split at hy
      · injection hy with hy
        exact fun _ _ => hy ▸ ha
      · exact h.awaiting j y hy
  have chain : ∀ k, t.chain k = if k = x.granule then s.chain k ++ [i] else s.chain k := fun k => by
    refine (chain_of_table ht k).trans ((chain_setChain (s := s.setTxn i (some x)) h.chains x.granule _ k).trans ?_)
    split
    · rename_i hk; rw [hk]
    · rfl
  have lock : s.lockOf = t.lockOf := funext fun k => (lockOf_of_dir hd k).symm
  obtain ⟨behind, alone⟩ := h.table.join hi hp hold hsx slots chain hr hr'
  exact ⟨fun hne => ⟨chains, directory, lock ▸ behind hne, awaiting⟩,
    fun he hl => ⟨chains, directory, lock ▸ alone he hl, awaiting⟩⟩

/-- The new head of a chain takes phase RECALLING or MEMORY, with the busy lock of its granule's entry, if it has one
(03 R48). -/
theorem State.TableLawful.start (h : s.TableLawful b) (hb : b g) {rest : List SlotId} (hg : s.chain g = i :: rest)
    (hx : s.txn i = some x) (hk : y.kind = x.kind) (hgr : y.granule = x.granule)
    (hp : y.phase = .recalling ∨ y.phase = .memory ∧ y.awaited = .const none) (hv : y.victim = none)
    (hslots : ∀ j, t.txn j = if j = i then some y else s.txn j) (hchains : t.table.chains = s.table.chains)
    (hd : t.directoryLawful) (hown : t.lockOf g = none ∨ t.lockOf g = some (.busy i))
    (hother : ∀ k, k ≠ g → t.lockOf k = s.lockOf k) (hr : t.svc.result = s.svc.result) :
    t.TableLawful fun k => b k ∧ k ≠ g where
  chains := hchains ▸ h.chains
  directory := hd
  table := by
    rw [chain_of_chains hchains, hr]
    exact h.table.start hb hg hx hk hgr hslots (.inl ⟨hp.imp_right And.left, hv, hown, hother⟩)
  awaiting j z hz := by
    rw [hslots] at hz
    split at hz
    · injection hz with hz
      subst hz
      exact fun _ hn => hp.elim (fun hp => absurd hp hn) And.right
    · exact h.awaiting j z hz

end Sys2Proof.Machine
end

section
/-! PROOFS. The ends of a transaction, its entry into MEMORY and the recalls of a new head, by the laws of the table. -/

namespace Sys2Proof.Machine

variable {s t u : State} {p : Port} {i j : SlotId} {g v k : Granule} {b : Granule → Prop} {x y : Txn} {c : EntryChange}
  {rest : List SlotId}

/-! ### The end of a transaction -/

theorem ne_serviceSlot (h : i.val < 48) : i ≠ serviceSlot := fun e => by
  rw [e] at h
  exact absurd h (by decide)

theorem slotLeaves_freeHead (ht : u.table = s.table) (hd : u.dir = s.dir) (hc : c.Releases i)
    (hr : i ≠ serviceSlot → u.svc.result = s.svc.result) (hr' : i = serviceSlot → ∀ c g, u.svc.result ≠ .pending c g) :
    s.SlotLeaves ((u.changeEntry g c).freeHead i g) i g g none c where
  releases := hc
  slots j := by
    refine (txn_setTxn (u.changeEntry g c) i j none).trans ?_
    rw [show (u.changeEntry g c).txn j = s.txn j from txn_of_table ht j]
  chains := by
    change Sparse.set [] u.table.chains g.toNat ((u.chain g).erase i) = _
    rw [chain_of_table ht, ht]
    rfl
  dir := by
    change (u.changeEntry g c).dir = _
    unfold State.changeEntry State.setDirSet State.dirSet
    rw [hd]
  result := hr
  ended := hr'

/-- The end at reply time, and that of a request answered at activation (03 R55). -/
theorem endTxn_slotLeaves (hx : s.txn i = some x) (hs : x.seatedIn i) :
    ∃ c, s.SlotLeaves (s.endTxn i) i x.granule x.granule none c := by
  obtain ⟨-, -, kind⟩ := hs
  unfold State.endTxn
  rw [hx]
  dsimp only
  split
  · rename_i r hk
    rw [hk] at kind
    have other := ne_serviceSlot kind.1
    split
    · exact ⟨_, slotLeaves_freeHead rfl rfl (.inl rfl) (fun _ => rfl) fun h => absurd h other⟩
    · rename_i p _
      refine ⟨_, slotLeaves_freeHead (send_table s p _) (send_dir s p _) ?_ (fun _ => ?_) fun h => absurd h other⟩
      · unfold State.replyOf
        dsimp only
        split
        · split
          · exact .inl rfl
          · split
            · exact .inl rfl
            · exact .inr (.inl ⟨p, rfl⟩)
        · split
          · exact .inl rfl
          · split
            · exact .inl rfl
            · exact .inr (.inr ⟨p, rfl⟩)
        · split
          · exact .inl rfl
          · split
            · exact .inl rfl
            · exact .inr (.inr ⟨p, rfl⟩)
        all_goals exact .inl rfl
      · rw [send_rest]
  · rename_i hk
    rw [hk] at kind
    exact ⟨_, slotLeaves_freeHead (u := s.setResult _) rfl rfl (.inl rfl) (fun h => absurd kind h)
      fun _ _ _ h => by cases h⟩
  · rename_i hk
    rw [hk] at kind
    exact ⟨_, slotLeaves_freeHead (u := s.setResult _) rfl rfl (.inl rfl) (fun h => absurd kind h)
      fun _ _ _ h => by cases h⟩
  all_goals
    rename_i hk
    rw [hk] at kind
    exact ⟨_, slotLeaves_freeHead rfl rfl (.inl rfl) (fun _ => rfl) fun h => by rw [kind] at h; cases h⟩

/-- The end with a bounce (03 R49). -/
theorem endWithBounce_slotLeaves (hx : s.txn i = some x) (hi : i ≠ serviceSlot) (r : Reason) :
    ∃ c, s.SlotLeaves (s.endWithBounce i r) i x.granule x.granule none c := by
  unfold State.endWithBounce
  rw [hx]
  split
  · rename_i y p hy _
    cases hy
    exact ⟨_, slotLeaves_freeHead (send_table s p _) (send_dir s p _) (.inl rfl) (fun _ => by rw [send_rest])
      fun h => absurd h hi⟩
  · rename_i y hy _
    cases hy
    exact ⟨_, slotLeaves_freeHead rfl rfl (.inl rfl) (fun _ => rfl) fun h => absurd h hi⟩
  · rename_i hy
    cases hy

/-! ### What a head does -/

/-- What becomes of the head of the chain of `g`, with `rest` behind it: it has ended and left the granule between two
heads, or it is active and the granules of `b` are. -/
def Goes (b : Granule → Prop) (g : Granule) (rest : List SlotId) (r : State × Bool) : Prop :=
  if r.2 = true then (r.1.TableLawful fun k => b k ∨ k = g) ∧ r.1.chain g = rest else r.1.TableLawful b

theorem Goes.ended (h : t.TableLawful fun k => b k ∨ k = g) (hc : t.chain g = rest) : Goes b g rest (t, true) :=
  (if_pos rfl).mpr ⟨h, hc⟩

theorem Goes.active (h : t.TableLawful b) : Goes b g rest (t, false) := by
  unfold Goes
  rwa [if_neg (by simp)]

theorem Goes.of_true {r : State × Bool} (h : Goes b g rest r) (hr : r.2 = true) :
    (r.1.TableLawful fun k => b k ∨ k = g) ∧ r.1.chain g = rest := by
  unfold Goes at h
  rwa [if_pos hr] at h

theorem Goes.of_false {r : State × Bool} (h : Goes b g rest r) (hr : ¬r.2 = true) : r.1.TableLawful b := by
  unfold Goes at h
  rwa [if_neg hr] at h

theorem SlotLeaves.chain_rest {z : Option Txn} (e : s.SlotLeaves t i g v z c) (hs : Sparse.wf [] s.table.chains)
    (hg : s.chain g = i :: rest) : t.chain g = rest := by
  rw [e.chain hs, if_pos rfl, hg, List.erase_cons_head]

/-- The end of an active transaction (03 R55). -/
theorem State.TableLawful.endTxn (h : s.TableLawful b) (hx : s.txn i = some x) (ha : x.phase = .memory) :
    (s.endTxn i).TableLawful (fun k => b k ∨ k = x.granule)
      ∧ ∀ rest, s.chain x.granule = i :: rest → (s.endTxn i).chain x.granule = rest := by
  have seated := h.table.seated i x hx
  obtain ⟨c, e⟩ := endTxn_slotLeaves hx seated
  have own : x.recalled = x.granule := by
    unfold Txn.recalled
    rw [seated.2.1 (by rw [ha]; nofun)]
    rfl
  have left : s.SlotLeaves (s.endTxn i) i x.granule x.recalled none c := by rw [own]; exact e
  exact ⟨h.leave hx (by rw [ha]; rfl) (fun _ he => by cases he) left,
    fun rest hg => SlotLeaves.chain_rest e h.chains hg⟩

/-- The record of a transaction that has taken MEMORY (03 R52). -/
def Txn.toMemory (x : Txn) : Txn := { x with phase := .memory, victim := none, deadline := none }

/-- A slot that comes to MEMORY offers its operation, or ends (03 R52). -/
theorem enterMemory_goes (hx : s.txn i = some x) (h : (s.setTxn i (some x.toMemory)).TableLawful b)
    (hg : s.chain x.granule = i :: rest) : Goes b x.granule rest (s.enterMemory i) := by
  have ended : ∀ t : State, t.TableLawful b → t.table = (s.setTxn i (some x.toMemory)).table →
      Goes b x.granule rest (if t.outstanding i = 0 then (t.endTxn i, true) else (t, false)) := fun t ht same => by
    have own : t.txn i = some x.toMemory := (txn_of_table same i).trans (txn_setTxn_same s i _)
    have chain : t.chain x.toMemory.granule = i :: rest := (chain_of_table same x.granule).trans hg
    obtain ⟨lawful, left⟩ := ht.endTxn own rfl
    split
    · exact Goes.ended lawful (left rest chain)
    · exact Goes.active ht
  unfold State.enterMemory
  rw [hx]
  change Goes b x.granule rest
    (let u := match s.ownOperation i x with
      | some k => (s.setTxn i (some x.toMemory)).offer ⟨k, x.granule, .slot i⟩
      | none => s.setTxn i (some x.toMemory)
    if u.outstanding i = 0 then (u.endTxn i, true) else (u, false))
  dsimp only
  split
  · exact ended _ (h.offer _) (offer_table _ _)
  · exact ended _ h rfl

/-! ### A new head takes its granule -/

/-- From `s` to `u` slot `i`, which holds `x`, has locked the entry of `g` busy, if there is one, and has at most noted
poison; the rest of the table stays. -/
structure State.Locks (s u : State) (i : SlotId) (g : Granule) (x : Txn) : Prop where
  slots : ∀ j, j ≠ i → u.txn j = s.txn j
  own : ∃ y, u.txn i = some y ∧ y.core = x.core ∧ y.awaited = x.awaited
  chains : u.table.chains = s.table.chains
  directory : u.directoryLawful
  lock : u.lockOf g = none ∨ u.lockOf g = some (.busy i)
  other : ∀ k, k ≠ g → u.lockOf k = s.lockOf k
  result : u.svc.result = s.svc.result

/-- The removal of a holder keeps the entry, which is locked. -/
theorem State.Locks.remove (l : s.Locks u i g x) (p : Port) : s.Locks (u.changeEntry g (.remove p)) i g x where
  slots := l.slots
  own := l.own
  chains := l.chains
  directory := (Move.entry (K := fun _ => True) (A := True) u g _).directoryLawful l.directory
  lock := by
    rcases lockOf_keepsLock l.directory (c := .remove p) rfl g g with he | ⟨hn, -⟩
    · rw [he]
      exact l.lock
    · rcases l.lock with hl | hl <;> rw [hl] at hn <;> cases hn
  other k hk := (lockOf_changeEntry_other l.directory _ hk).trans (l.other k hk)
  result := l.result

/-- A change of the memory controller and of the slot's note of poison. -/
theorem State.Locks.offerPoison (l : s.Locks u i g x) (own : Bool) : s.Locks (u.offerPoison g i own) i g x := by
  obtain ⟨y, hy, core, awaited⟩ := l.own
  have occupied : (u.offer ⟨.poisonSet, g, .slot i⟩).txn i = some y := (offer_txn u _ i).trans hy
  have result : (u.offer ⟨.poisonSet, g, .slot i⟩).svc = u.svc := by unfold State.offer; split <;> rfl
  unfold State.offerPoison
  rw [txn_modifyTxn occupied]
  exact
    { slots := fun j hj => (txn_setTxn_other _ _ hj).trans ((offer_txn u _ j).trans (l.slots j hj))
      own := ⟨_, txn_setTxn_same _ i _, core, awaited⟩
      chains := (congrArg TxnTable.chains (offer_table u _)).trans l.chains
      directory := directoryLawful_of_dir (offer_dir u _) l.directory
      lock := l.lock.imp (lockOf_of_dir (offer_dir u _) g).trans (lockOf_of_dir (offer_dir u _) g).trans
      other := fun k hk => (lockOf_of_dir (s := u) (offer_dir u _) k).trans (l.other k hk)
      result := (congrArg ServicePort.result result).trans l.result }

theorem State.Locks.dropFencedHolders (l : s.Locks u i g x) (own : Bool) :
    s.Locks (u.dropFencedHolders g i own) i g x := by
  unfold State.dropFencedHolders
  refine kept_foldl (P := fun u => s.Locks u i g x) (fun u p l => ?_) Port.all l
  unfold State.dropFencedHolder
  split
  · refine State.Locks.remove ?_ p
    split
    · exact l.offerPoison own
    · exact l
  · exact l

/-- The head of a chain, with its entry locked, sends its recalls or comes to MEMORY (03 R48 steps 4 to 6). -/
theorem State.Locks.recallPhase (l : s.Locks u i g x) (h : s.TableLawful b) (hb : b g) (hg : s.chain g = i :: rest)
    (hx : s.txn i = some x) (hgr : x.granule = g) (hp : x.phase = .waiting) :
    Goes (fun k => b k ∧ k ≠ g) g rest (u.recallPhase i) := by
  have unawaited := h.idle hx (by rw [hp]; nofun) (by rw [hp]; nofun)
  have victim : x.victim = none := (h.table.seated i x hx).2.1 (by rw [hp]; nofun)
  -- a record of this slot that stands for an active phase, in a state that differs from the locked one in it alone
  have started : ∀ {v t : State} {z : Txn}, s.Locks v i g x →
      z.kind = x.kind → z.granule = x.granule → z.victim = none →
      (z.phase = .recalling ∨ z.phase = .memory ∧ z.awaited = .const none) →
      t.table = (v.setTxn i (some z)).table → t.dir = v.dir → t.svc.result = v.svc.result →
      t.TableLawful fun k => b k ∧ k ≠ g := fun {v t z} lv hk hgz hvz hpz ht hd hr => by
    refine h.start hb hg hx hk hgz hpz hvz (fun j => ?_) ?_ (directoryLawful_of_dir hd lv.directory) ?_ (fun k hk => ?_)
      (hr.trans lv.result)
    · rw [txn_of_table ht, txn_setTxn]
      split
      · rfl
      · rename_i hj
        exact lv.slots j hj
    · rw [ht]
      exact lv.chains
    · exact lv.lock.imp (lockOf_of_dir hd g).trans (lockOf_of_dir hd g).trans
    · exact (lockOf_of_dir hd k).trans (lv.other k hk)
  obtain ⟨y, hy, core, -⟩ := l.own
  obtain rfl : y.granule = g := (core_eq core).2.2.1.trans hgr
  have dropped := l.dropFencedHolders true
  unfold State.recallPhase
  rw [hy]
  dsimp only
  generalize u.dropFencedHolders y.granule i true = w at dropped
  obtain ⟨z, hz, zcore, zawaited⟩ := dropped.own
  obtain ⟨-, zkind, zgranule, zvictim⟩ := core_eq zcore
  have chain : w.chain y.granule = i :: rest := by rw [chain_of_chains dropped.chains, hg]
  split
  · have goes := enterMemory_goes (b := fun k => b k ∧ k ≠ y.granule) hz
      (started (z := z.toMemory) dropped zkind zgranule rfl (.inr ⟨rfl, zawaited.trans unawaited⟩) rfl rfl rfl)
      (rest := rest) (by rw [zgranule, hgr, chain])
    rwa [zgranule, hgr] at goes
  · rename_i r rs _
    refine .active ?_
    generalize hsent : (r :: rs).foldl (fun s r => s.send r.1 (.recall r.2 y.granule i)) w = v
    have table : v.table = w.table := hsent ▸ kept_foldl (P := fun v => v.table = w.table)
      (fun v r hv => (send_table v _ _).trans hv) _ rfl
    have dir : v.dir = w.dir := hsent ▸ kept_foldl (P := fun v => v.dir = w.dir)
      (fun v r hv => (send_dir v _ _).trans hv) _ rfl
    have result : v.svc = w.svc := hsent ▸ kept_foldl (P := fun v => v.svc = w.svc)
      (fun v r hv => by rw [send_rest]; exact hv) _ rfl
    have occupied : v.txn i = some z := (txn_of_table table i).trans hz
    unfold State.issueRecalls
    rw [hsent, txn_modifyTxn occupied, txn_modifyTxn (txn_setTxn_same _ i _)]
    rw [setTxn_setTxn]
    have recalling : ∀ a d, (v.setTxn i (some { z with phase := .recalling, awaited := a, deadline := d })).TableLawful
        fun k => b k ∧ k ≠ y.granule := fun a d =>
      started (z := { z with phase := .recalling, awaited := a, deadline := d }) dropped zkind zgranule
        (zvictim.trans victim) (.inl rfl) (by unfold State.setTxn; rw [table]) dir (congrArg ServicePort.result result)
    exact recalling _ _

/-- The head of a chain is activated where no entry is to be allocated (03 R48 steps 2 to 6). -/
theorem State.TableLawful.activateInPlace (h : s.TableLawful b) (hb : b g) (hg : s.chain g = i :: rest)
    (hx : s.txn i = some x) (hgr : x.granule = g) (hp : x.phase = .waiting) :
    Goes (fun k => b k ∧ k ≠ g) g rest (s.activateInPlace i) := by
  unfold State.activateInPlace
  rw [hx]
  dsimp only
  split
  · obtain ⟨c, e⟩ := endTxn_slotLeaves hx (h.table.seated i x hx)
    rw [hgr] at e
    refine .ended ((h.pass hb hg e).congr fun k => ?_) (SlotLeaves.chain_rest e h.chains hg)
    constructor
    · rintro (⟨hk, -⟩ | rfl)
      · exact hk
      · exact hb
    · exact fun hk => (em (k = g)).elim .inr fun hn => .inl ⟨hk, hn⟩
  · rw [hgr]
    refine State.Locks.recallPhase (s := s) (g := g) (x := x) ?_ h hb hg hx hgr hp
    exact
      { slots := fun _ _ => rfl
        own := ⟨x, hx, rfl, rfl⟩
        chains := rfl
        directory := (Move.entry (K := fun _ => True) (A := True) s g _).directoryLawful h.directory
        lock := by
          rw [lockOf_changeEntry h.directory, if_pos rfl]
          cases s.entry g with
          | none => exact .inl rfl
          | some e => exact .inr (if_neg (by simp [Entry.apply, Entry.freed]))
        other := fun k hk => lockOf_changeEntry_other h.directory _ hk
        result := rfl }

end Sys2Proof.Machine
end

section
/-! PROOFS. The walk's visits and the start of the service slot by the laws of the table. -/

namespace Sys2Proof.Machine

variable {s t u : State} {p : Port} {i j : SlotId} {g v k : Granule} {b : Granule → Prop} {x y : Txn} {c : EntryChange}
  {rest : List SlotId}

/-! ### The sweep slot placed -/

/-- Where no slot stands in the chain of a granule, it need not be between two heads. -/
theorem State.TableLawful.close (h : s.TableLawful fun k => b k ∨ k = g) (hb : ¬b g) (hc : s.chain g = []) :
    s.TableLawful b := by
  have closed : s.TableLawful fun k => (b k ∨ k = g) ∧ k ≠ g := ⟨h.chains, h.directory, h.table.close hc, h.awaiting⟩
  exact closed.congr fun k => ⟨fun hk => ⟨.inl hk, fun e => hb (e ▸ hk)⟩, fun hk => hk.1.resolve_right hk.2⟩

theorem open_only (hb : ¬b g) (k : Granule) : b k ↔ (b k ∨ k = g) ∧ k ≠ g :=
  ⟨fun hk => ⟨.inl hk, fun e => hb (e ▸ hk)⟩, fun hk => hk.1.resolve_right hk.2⟩

/-- A WAITING slot alone in its chain is activated there (03 R46, R60, R61). -/
theorem State.TableLawful.alone (h : s.TableLawful fun k => b k ∨ k = g) (hb : ¬b g) (hg : s.chain g = [i])
    (hx : s.txn i = some x) (hgr : x.granule = g) (hp : x.phase = .waiting) :
    (s.activateInPlace i).1.TableLawful b := by
  have goes := h.activateInPlace (.inr rfl) hg hx hgr hp
  by_cases ended : (s.activateInPlace i).2 = true
  · obtain ⟨lawful, empty⟩ := goes.of_true ended
    exact State.TableLawful.close (g := g)
      (lawful.congr fun k => or_congr_left (open_only hb k)) hb empty
  · exact (goes.of_false ended).congr (open_only hb)

theorem not_mem_chains_of_free (h : s.TableLawful b) (hi : s.txn i = none) (k : Granule) : i ∉ s.chain k :=
  h.table.not_mem_of_free hi

/-- The sweep slot placed for a granule whose entry has no evicting lock (03 R60). -/
theorem State.TableLawful.placeSweep (h : s.TableLawful b) {a : TxnKind} (ha : (newTxn a g).seatedIn sweepSlot)
    (hb : ¬b g) (hfree : s.txn sweepSlot = none) (hl : ∀ j, s.lockOf g ≠ some (.evicting j)) :
    (s.placeSweep a g).TableLawful b := by
  obtain ⟨behind, alone⟩ := h.join (x := newTxn a g) (not_mem_chains_of_free h hfree) rfl rfl (.inl hfree) ha
    (t := (s.setTxn sweepSlot (some (newTxn a g))).setChain g (s.chain g ++ [sweepSlot])) rfl rfl (fun _ => rfl) nofun
  have chain : ((s.setTxn sweepSlot (some (newTxn a g))).setChain g (s.chain g ++ [sweepSlot])).chain g
      = s.chain g ++ [sweepSlot] := by
    rw [chain_setChain (s := s.setTxn sweepSlot (some (newTxn a g))) h.chains, if_pos rfl]
  have slot : ((s.setTxn sweepSlot (some (newTxn a g))).setChain g (s.chain g ++ [sweepSlot])).txn sweepSlot
      = some (newTxn a g) := txn_setTxn_same s sweepSlot _
  unfold State.placeSweep
  dsimp only
  split
  · rename_i empty
    have started := ((alone empty hl).setPause .slot).alone hb (chain.trans (by rw [empty]; rfl)) slot rfl rfl
    split
    · exact started.moveOn
    · exact started
  · rename_i full
    exact (behind (by rw [show (newTxn a g).granule = g from rfl, full]; exact List.cons_ne_nil _ _)).setPause .slot

/-! ### A visit -/

theorem currentEntry_entry (h : s.directoryLawful) {e : Entry} (he : s.currentEntry = some e) :
    s.entry e.granule = some e := by
  refine (entry_iff h).2 ⟨s.sweep.walk.way, ?_, rfl⟩
  rw [((h.2 _).place _ _ he).1]
  exact he

theorem State.TableLawful.removeDirectly (h : s.TableLawful b) (e : Entry) (ps : List Port) :
    (s.removeDirectly e ps).TableLawful b := by
  unfold State.removeDirectly
  split
  · exact h.moveOn
  · have removed := lawful_foldl (f := fun s p => s.changeEntry e.granule (.remove p)) (l := ps.filter e.holders.get)
      (fun p _ s hs => hs.changeEntry rfl e.granule) h
    dsimp only
    split
    · exact removed.moveOn
    · split
      · exact (removed.offer _).moveOn
      · exact (removed.offer _).setPause _

/-- A visit keeps the laws while no granule that is between two heads has an entry. -/
theorem State.TableLawful.visit (h : s.TableLawful b) (hb : ∀ k, b k → s.entry k = none) : s.visit.TableLawful b := by
  have slot : ∀ {e a}, s.currentEntry = some e → (newTxn a e.granule).seatedIn sweepSlot → ¬e.lock.isEvicting = true →
      (s.needSlot a e.granule).TableLawful b := fun {e a} he ha hl => by
    have entry := currentEntry_entry h.directory he
    unfold State.needSlot
    split
    · exact h.setPause _
    · rename_i hfree
      refine h.placeSweep ha (fun hbg => ?_) (by simpa using hfree) fun j hj => ?_
      · rw [hb _ hbg] at entry
        cases entry
      · obtain ⟨f, hf, hlock⟩ := lockOf_eq_some.1 hj
        rw [entry] at hf
        cases hf
        exact hl (by rw [hlock]; rfl)
  unfold State.visit
  split
  · exact h
  · split
    · exact h.moveOn
    · rename_i e he
      split
      · exact h.removeDirectly e _
      · exact h.removeDirectly e _
      · split
        · exact h.setPause _
        · rename_i hl
          split
          · exact slot he ⟨nofun, fun _ => rfl, rfl⟩ hl
          · exact h.moveOn
      · split
        · exact h.setPause _
        · rename_i hl
          split
          · exact h.moveOn
          · exact slot he ⟨nofun, fun _ => rfl, rfl⟩ hl

theorem State.TableLawful.visitAfresh (h : s.TableLawful b) (hb : ∀ k, b k → s.entry k = none) :
    s.visitAfresh.TableLawful b := (h.setPause .none).visit hb

theorem State.TableLawful.sweepSlotFreed (h : s.TableLawful NoGranule) : s.sweepSlotFreed.TableLawful NoGranule := by
  unfold State.sweepSlotFreed
  split
  · exact h.moveOn
  · exact h.visitAfresh fun _ => False.elim
  all_goals exact h

theorem State.TableLawful.sweepOfferEntered (h : s.TableLawful b) : s.sweepOfferEntered.TableLawful b := by
  unfold State.sweepOfferEntered
  split
  · exact h.moveOn
  · exact h

theorem State.TableLawful.afterEnd (h : s.TableLawful NoGranule) (i : SlotId) :
    (s.afterEnd i).TableLawful NoGranule := by
  unfold State.afterEnd
  split
  · exact h.sweepSlotFreed
  · exact h

/-! ### The service slot started -/

/-- The service slot, WAITING outside any chain, joins the chain of its granule (02 R26, 03 R61). -/
theorem State.TableLawful.startService (h : s.TableLawful b) (hx : s.txn serviceSlot = some x) (hp : x.phase = .waiting)
    (hb : ¬b x.granule) (hn : ∀ k, serviceSlot ∉ s.chain k) (hl : ∀ j, s.lockOf x.granule ≠ some (.evicting j)) :
    s.startService.TableLawful b := by
  have unawaited := h.idle hx (by rw [hp]; nofun) (by rw [hp]; nofun)
  obtain ⟨behind, alone⟩ := h.join hn hp unawaited (.inr ⟨x, hx, hp⟩) (h.table.seated _ x hx)
    (t := s.setChain x.granule (s.chain x.granule ++ [serviceSlot])) (by rw [setTxn_self hx]) rfl (fun _ => rfl)
    (fun _ => h.table.result.1 x hx)
  have chain : (s.setChain x.granule (s.chain x.granule ++ [serviceSlot])).chain x.granule
      = s.chain x.granule ++ [serviceSlot] := by rw [chain_setChain h.chains, if_pos rfl]
  unfold State.startService
  rw [hx]
  dsimp only
  split
  · rename_i empty
    exact (alone empty hl).alone hb (chain.trans (by rw [empty]; rfl)) hx rfl hp
  · rename_i full
    exact behind (by rw [full]; exact List.cons_ne_nil _ _)

end Sys2Proof.Machine
end

section
/-! PROOFS. The parties that meet at the end of an eviction, in any order. -/

namespace Sys2Proof.Machine

variable {s t u : State} {p : Port} {i j : SlotId} {g v k : Granule} {b : Granule → Prop} {x y : Txn} {c : EntryChange}
  {rest : List SlotId}

/-! ### Parties in any order, each once -/

/-- What holds with the parties `rem` still to act, and is kept as each of them acts, holds when all have acted. -/
theorem parties_foldl {α : Type} {run : α → State → State} {I : (α → Prop) → State → Prop}
    (step : ∀ rem a s, rem a → I rem s → I (fun x => rem x ∧ x ≠ a) (run a s)) (l : List α) :
    ∀ (rem : α → Prop) (s : State), l.Nodup → (∀ a ∈ l, rem a) → I rem s →
      ∃ rem, I rem (l.foldl (fun s a => run a s) s) := by
  induction l with
  | nil => exact fun rem s _ _ h => ⟨rem, h⟩
  | cons a l ih =>
    intro rem s nodup hr h
    obtain ⟨ha, hl⟩ := List.nodup_cons.1 nodup
    exact ih _ _ hl (fun x hx => ⟨hr x (.tail a hx), fun e => ha (e ▸ hx)⟩) (step rem a s (hr a (.head l)) h)

/-! ### The parties of an eviction -/

/-- The parties that proceed as an eviction ends: the requester, which enters MEMORY, and those that the evicting lock
has held back, the service slot and the walk (02 R26, R32). -/
inductive Party where
  | memory | service | walk

def Party.run (i : SlotId) : Party → State → State
  | .memory => fun s => (s.enterMemory i).1
  | .service => State.startService
  | .walk => State.visitAfresh

/-- The parties that are held back. -/
def State.waiters (s : State) (v : Granule) : List Party :=
  (if s.serviceHeldBack v then [.service] else []) ++ if s.walkHeldBack v then [.walk] else []

theorem heldBack_eq (s : State) (v : Granule) (i : SlotId) : s.heldBack v = (s.waiters v).map (Party.run i) := by
  unfold State.heldBack State.waiters
  cases s.serviceHeldBack v <;> cases s.walkHeldBack v <;> rfl

theorem waiters_nodup (s : State) (v : Granule) : (Party.memory :: s.waiters v).Nodup := by
  unfold State.waiters
  cases s.serviceHeldBack v <;> cases s.walkHeldBack v <;> simp

/-- The laws, and that each party that has still to act can: the service slot waits outside the chains, the requester is
in MEMORY with an entry that nobody holds, and the lock of the victim is released. -/
structure Meets (b : Granule → Prop) (i : SlotId) (v : Granule) (rem : Party → Prop) (s : State) : Prop where
  lawful : s.TableLawful b
  without : ∀ k, b k → s.entry k = none
  lock : ∀ j, s.lockOf v ≠ some (.evicting j)
  service : rem .service → ∃ x, s.txn serviceSlot = some x ∧ x.phase = .waiting ∧ x.granule = v
    ∧ ∀ k, serviceSlot ∉ s.chain k
  memory : rem .memory → ∃ x, s.txn i = some x ∧ x.phase = .memory ∧ x.kind.allocates = true
    ∧ ∀ p, s.holds p x.granule = false

theorem GivesNone.entry_none (h : GivesNone s t) (hk : s.entry k = none) : t.entry k = none := by
  cases hf : t.entry k with
  | none => rfl
  | some f =>
    obtain ⟨e, he, -⟩ := h k f hf
    rw [hk] at he
    cases he

theorem GivesNone.not_evicting (h : GivesNone s t) (hl : ∀ j, s.lockOf k ≠ some (.evicting j)) (j : SlotId) :
    t.lockOf k ≠ some (.evicting j) := fun ht => by
  obtain ⟨f, hf, hlock⟩ := lockOf_eq_some.1 ht
  obtain ⟨e, he, -, lock⟩ := h k f hf
  exact hl j (lockOf_eq_some.2 ⟨e, he, lock j hlock⟩)

theorem GivesNone.not_holds (h : GivesNone s t) (hs : s.holds p k = false) : t.holds p k = false := by
  unfold State.holds at hs ⊢
  cases hf : t.entry k with
  | none => rfl
  | some f =>
    obtain ⟨e, he, holders, -⟩ := h k f hf
    rw [he] at hs
    cases hp : f.holders.get p with
    | false => exact hp
    | true => exact absurd ((holders p hp).symm.trans hs) nofun

/-- What the walk or the service slot does leaves the other parties as they were. -/
theorem Meets.after {M : SlotId → Prop} {rem rem' : Party → Prop} (m : Meets b i v rem s) (ht : t.TableLawful b)
    (work : Turns M False s t) (hi : ¬M i) (hrem : ∀ a, rem' a → rem a) (hs : rem' .service → ¬M serviceSlot) :
    Meets b i v rem' t where
  lawful := ht
  without k hk := (work.givesNone m.lawful.directory).entry_none (m.without k hk)
  lock := (work.givesNone m.lawful.directory).not_evicting m.lock
  service hr := by
    obtain ⟨x, hx, hp, hg, hn⟩ := m.service (hrem _ hr)
    exact ⟨x, (work.foreign (k := v) m.lawful.chains (hs hr)).1.trans hx, hp, hg,
      fun k hk => hn k ((work.foreign m.lawful.chains (hs hr)).2 hk)⟩
  memory hr := by
    obtain ⟨x, hx, hp, ha, hh⟩ := m.memory (hrem _ hr)
    exact ⟨x, (work.foreign (k := v) m.lawful.chains hi).1.trans hx, hp, ha,
      fun p => (work.givesNone m.lawful.directory).not_holds (hh p)⟩

theorem ownOperation_allocates (ha : x.kind.allocates = true) (hh : ∀ p, s.holds p x.granule = false) (i : SlotId) :
    s.ownOperation i x = some .read := by
  have unheld : ((slotPort i).any fun p => s.holds p x.granule) = false := by
    cases slotPort i with
    | none => rfl
    | some p => exact hh p
  unfold State.ownOperation
  split
  · rfl
  · rfl
  · rw [unheld]; rfl
  all_goals
    rename_i hk
    exact absurd ha (by rw [hk]; nofun)

theorem Meets.step (hv : ¬b v) (hi : i.val < 48) (rem : Party → Prop) (a : Party) (s : State) (ha : rem a)
    (m : Meets b i v rem s) : Meets b i v (fun x => rem x ∧ x ≠ a) (a.run i s) := by
  have h48 : i ≠ sweepSlot := fun e => by rw [e] at hi; exact absurd hi (by decide)
  cases a with
  | service =>
    obtain ⟨x, hx, hp, rfl, hn⟩ := m.service ha
    exact m.after (m.lawful.startService hx hp hv hn m.lock) (startService_turns (M := (· = serviceSlot)) rfl s)
      (ne_serviceSlot hi) (fun _ => And.left) fun hr => absurd rfl hr.2
  | walk =>
    exact m.after (m.lawful.visitAfresh m.without) (visitAfresh_turns (M := (· = sweepSlot)) rfl s) h48
      (fun _ => And.left) fun _ => nofun
  | memory =>
    obtain ⟨x, hx, hp, hk, hh⟩ := m.memory ha
    have offers := enterMemory_offers hx (ownOperation_allocates hk hh i)
    have victim := (m.lawful.table.seated i x hx).2.1 (by rw [hp]; nofun)
    have taken : (s.setTxn i (some x.toMemory)).TableLawful b :=
      m.lawful.note hx (by unfold Txn.core Txn.toMemory; rw [hp, victim]) rfl
    have run : Party.memory.run i s
        = (s.setTxn i (some x.toMemory)).setMem (s.mem.offered ⟨.read, x.granule, .slot i⟩) :=
      congrArg Prod.fst offers
    rw [run]
    exact
      { lawful := taken.of_eq rfl rfl rfl
        without := m.without
        lock := m.lock
        service := fun hr => by
          obtain ⟨y, hy, rest⟩ := m.service hr.1
          exact ⟨y, (txn_setTxn_other s _ (ne_serviceSlot hi).symm).trans hy, rest⟩
        memory := fun hr => absurd rfl hr.2 }

/-- The parties of an eviction act, in any order. -/
theorem Meets.inFreeOrder {l : List Party} (m : Meets b i v (· ∈ l) s) (hv : ¬b v) (hi : i.val < 48) (hl : l.Nodup) :
    (s.inFreeOrder (l.map (Party.run i))).TableLawful b := by
  obtain ⟨n, l', perm, order⟩ := inFreeOrder_map (s := s) (Party.run i) l
  rw [order]
  have drawn : Meets b i v (· ∈ l) { s with freeDraws := n } :=
    ⟨m.lawful.draws n, m.without, m.lock, m.service, m.memory⟩
  obtain ⟨rem, done⟩ :=
    parties_foldl (Meets.step hv hi) l' _ _ (perm.nodup_iff.2 hl) (fun a ha => perm.mem_iff.1 ha) drawn
  exact done.lawful

/-- The service slot that an evicting lock holds back waits outside the chains. -/
theorem State.TableLawful.heldBack (h : s.TableLawful b) (hs : s.serviceHeldBack v = true) :
    ∃ x, s.txn serviceSlot = some x ∧ x.phase = .waiting ∧ x.granule = v ∧ ∀ k, serviceSlot ∉ s.chain k := by
  unfold State.serviceHeldBack at hs
  cases hx : s.txn serviceSlot with
  | none => rw [hx] at hs; cases hs
  | some x =>
    rw [hx] at hs
    simp only [Option.any_some, Bool.and_eq_true, beq_iff_eq, Bool.not_eq_true', List.contains_eq_mem,
      decide_eq_false_iff_not] at hs
    obtain ⟨⟨hp, hg⟩, hn⟩ := hs
    refine ⟨x, rfl, hp, hg, fun k hk => ?_⟩
    rw [← h.table.granule_of_mem hk hx, hg] at hk
    exact hn hk

theorem mem_waiters_service (h : Party.service ∈ s.waiters v) : s.serviceHeldBack v = true := by
  unfold State.waiters at h
  cases hs : s.serviceHeldBack v with
  | true => rfl
  | false => cases hw : s.walkHeldBack v <;> simp [hs, hw] at h

theorem not_mem_waiters_memory : Party.memory ∉ s.waiters v := (List.nodup_cons.1 (waiters_nodup s v)).1

end Sys2Proof.Machine
end

section
/-! PROOFS. Evictions, the activation of a head and the advance of a chain, by the laws of the table. -/

namespace Sys2Proof.Machine

variable {s t u : State} {p : Port} {i j : SlotId} {g v k : Granule} {b : Granule → Prop} {x y : Txn} {c : EntryChange}
  {rest : List SlotId}

/-! ### An eviction completes -/

theorem member_of_allocates (hs : x.seatedIn i) (ha : x.kind.allocates = true) : i.val < 48 := by
  obtain ⟨-, -, kind⟩ := hs
  cases hk : x.kind with
  | member r => rw [hk] at kind; exact kind.1
  | sweepDepart | sweepRecheck | sweepWithdrawn | memPeek | memPoke => rw [hk] at ha; cases ha

/-- The way of the victim passes to the requester, which takes MEMORY (02 R32, 03 R50). -/
theorem State.TableLawful.replaceVictim (h : s.TableLawful NoGranule) (hx : s.txn i = some x) (hp : x.phase = .evicting)
    (hv : x.victim = some v) (ha : x.awaited = .const none) :
    ((s.replaceVictim v x.granule i).setTxn i (some x.toMemory)).TableLawful NoGranule
      ∧ ∀ k, (s.replaceVictim v x.granule i).entry k
        = if k = x.granule then some (newEntry x.granule i) else if k = v then none else s.entry k := by
  obtain ⟨own, -, w, hw, sets, lock⟩ := h.table.evicts i x hx hp
  obtain rfl : v = w := Option.some.inj (hv.symm.trans hw)
  obtain ⟨e, he, -⟩ := lockOf_eq_some.1 lock
  have entries := entry_replaceVictim h.directory i he (lockOf_eq_none.1 own) sets.symm
  have table := replaceVictim_table s v x.granule i
  have svc : (s.replaceVictim v x.granule i).svc = s.svc := by
    unfold State.replaceVictim
    dsimp only
    split
    · split <;> rfl
    · rfl
  refine ⟨?_, entries⟩
  exact
    { chains := by
        rw [setTxn_chains, table]
        exact h.chains
      directory := (Move.replace (K := fun _ => True) (A := True) s v x.granule i trivial).directoryLawful h.directory
      table := by
        have chain : ((s.replaceVictim v x.granule i).setTxn i (some x.toMemory)).chain = s.chain :=
          chain_of_chains (t := (s.replaceVictim v x.granule i).setTxn i _) (by rw [setTxn_chains, table])
        rw [chain, setTxn_svc, svc]
        refine h.table.goOn (y := x.toMemory) hx rfl rfl (fun j => ?_) (.inr rfl) rfl (.inr ⟨hp, v, hv, fun k => ?_⟩)
        · rw [txn_setTxn, txn_of_table table]
        · change (s.replaceVictim v x.granule i).lockOf k = _
          unfold State.lockOf
          rw [entries]
          split
          · rfl
          · split <;> rfl
      awaiting := fun j y hy => by
        rw [txn_setTxn, txn_of_table table] at hy
        split at hy
        · injection hy with hy
          exact fun _ _ => hy ▸ ha
        · exact h.awaiting j y hy }

theorem State.TableLawful.completeEviction (h : s.TableLawful NoGranule) (hx : s.txn i = some x)
    (hp : x.phase = .evicting)
    (ha : x.awaited = .const none) : (s.completeEviction i).TableLawful NoGranule := by
  obtain ⟨own, allocates, v, hv, -, lock⟩ := h.table.evicts i x hx hp
  obtain ⟨taken, entries⟩ := h.replaceVictim hx hp hv ha
  have table := replaceVictim_table s v x.granule i
  have other : v ≠ x.granule := fun e => by rw [e, own] at lock; cases lock
  unfold State.completeEviction
  rw [hx]
  dsimp only
  rw [hv]
  dsimp only
  rw [txn_modifyTxn ((txn_of_table table i).trans hx), heldBack_eq s v i]
  refine Meets.inFreeOrder (v := v) (l := .memory :: s.waiters v)
    { lawful := taken
      without := fun _ => False.elim
      lock := fun j hj => ?_
      service := fun hm => ?_
      memory := fun _ => ⟨_, txn_setTxn_same _ i _, rfl, allocates, fun p => ?_⟩ }
    id (member_of_allocates (h.table.seated i x hx) allocates) (waiters_nodup s v)
  · obtain ⟨e, he, -⟩ := lockOf_eq_some.1 hj
    have gone := (entries v).symm.trans he
    rw [if_neg other, if_pos rfl] at gone
    cases gone
  · have held := mem_waiters_service ((List.mem_cons.1 hm).resolve_left nofun)
    obtain ⟨y, hy, hpy, hgy, hn⟩ := h.heldBack held
    have hi : serviceSlot ≠ i := (ne_serviceSlot (member_of_allocates (h.table.seated i x hx) allocates)).symm
    exact ⟨y, (txn_setTxn_other _ _ hi).trans ((txn_of_table table _).trans hy), hpy, hgy,
      fun k hk => hn k (chain_of_table (t := s.replaceVictim v x.granule i) table k ▸ hk)⟩
  · refine (congrArg (fun o : Option Entry => o.any fun e => e.holders.get p) (entries x.granule)).trans ?_
    rw [if_pos rfl]
    exact PerPort.get_const false p

theorem State.TableLawful.checkEviction (h : s.TableLawful NoGranule) (i : SlotId) :
    (s.checkEviction i).TableLawful NoGranule := by
  unfold State.checkEviction
  split
  · exact h
  · rename_i x hx
    split
    · rename_i hp _
      split
      · rename_i ready
        exact h.completeEviction hx hp ((noneAwaited_iff _).1 (Bool.and_eq_true_iff.1 ready).1)
      · exact h
    · exact h

/-! ### An eviction begins -/

/-- The recalls of a slot in EVICTING or RECALLING (05 R90, R104). -/
theorem State.TableLawful.issueRecalls (h : s.TableLawful b) (hx : s.txn i = some x)
    (hp : x.phase = .evicting ∨ x.phase = .recalling) (g : Granule) (rs : List (Port × RecallKind)) :
    (s.issueRecalls i g rs).TableLawful b := by
  have sent : (rs.foldl (fun s r => s.send r.1 (.recall r.2 g i)) s).TableLawful b :=
    lawful_foldl (fun r _ u hu => hu.send r.1 _) h
  have slots : (rs.foldl (fun s r => s.send r.1 (.recall r.2 g i)) s).txn i = some x :=
    kept_foldl (P := fun u => u.txn i = some x) (fun u r hu => (send_txn u _ _ i).trans hu) rs hx
  unfold State.issueRecalls
  rw [txn_modifyTxn slots]
  exact sent.rewrite slots rfl fun h1 h2 => (hp.elim h1 h2).elim

/-- The removal of fenced holders leaves every slot as it is but for a note of poison. -/
theorem dropFencedHolders_core (s : State) (g : Granule) (i : SlotId) (own : Bool) (j : SlotId) :
    ((s.dropFencedHolders g i own).txn j).map Txn.core = (s.txn j).map Txn.core := by
  refine kept_foldl (P := fun u => (u.txn j).map Txn.core = (s.txn j).map Txn.core) (fun u p hu => ?_) Port.all rfl
  unfold State.dropFencedHolder
  split
  · split
    · refine Eq.trans ?_ hu
      change ((u.offerPoison g i own).txn j).map Txn.core = _
      unfold State.offerPoison State.modifyTxn
      rw [offer_txn]
      split
      · rw [offer_txn]
      · rename_i x hx
        rw [txn_setTxn, offer_txn]
        split
        · rename_i hj
          rw [hj, hx]
          rfl
        · rfl
    · exact hu
  · exact hu

theorem victimFor_spec (h : s.directoryLawful) (hv : s.victimFor g = some v) :
    setOf v = setOf g ∧ s.lockOf v = some .none := by
  unfold State.victimFor at hv
  obtain ⟨w, hw, hv⟩ := Option.bind_eq_some_iff.1 hv
  obtain ⟨e, he, rfl⟩ := Option.map_eq_some_iff.1 hv
  have unlocked := List.find?_some hw
  unfold DirSet.unlocked at unlocked
  rw [he] at unlocked
  have place := ((h.2 _).place w e he).1
  refine ⟨place, lockOf_eq_some.2 ⟨e, (entry_iff h).2 ⟨w, place.symm ▸ he, rfl⟩, ?_⟩⟩
  simpa using unlocked

/-- The head of a chain that finds its set full evicts an entry that is not locked (02 R29, R30). -/
theorem State.TableLawful.startEviction (h : s.TableLawful fun k => NoGranule k ∨ k = g) (hg : s.chain g = i :: rest)
    (hx : s.txn i = some x) (ha : x.kind.allocates = true) (hn : s.lockOf g = none) (hv : s.victimFor g = some v) :
    (s.startEviction i v).TableLawful NoGranule := by
  obtain ⟨sets, unlocked⟩ := victimFor_spec h.directory hv
  have other : v ≠ g := fun e => by rw [e, hn] at unlocked; cases unlocked
  obtain ⟨e, he, -⟩ := lockOf_eq_some.1 unlocked
  have evicting : ((s.changeEntry v (.lockEvicting i)).setTxn i
      (some { x with phase := .evicting, victim := some v })).TableLawful NoGranule := by
    refine State.TableLawful.congr (b := fun k => (NoGranule k ∨ k = g) ∧ k ≠ g) ?_ (open_only id)
    exact
      { chains := h.chains
        directory := (Move.entry (K := fun _ => True) (A := True) s v _).directoryLawful h.directory
        table := by
          refine h.table.start (y := { x with phase := .evicting, victim := some v }) (.inr rfl) hg hx rfl rfl
            (fun j => txn_setTxn _ i j _) (.inr ⟨rfl, hn, ha, v, rfl, sets, unlocked, ?_, fun k => ?_⟩)
          · exact fun hb => hb.elim id other
          · refine (lockOf_changeEntry h.directory v _ k).trans ?_
            rw [he]
            split
            · exact if_neg (by simp [Entry.apply, Entry.freed])
            · rfl
        awaiting := fun j y hy => by
          rw [txn_setTxn] at hy
          split at hy
          · injection hy with hy
            subst hy
            exact fun hne => absurd rfl hne
          · exact h.awaiting j y hy }
  have dropped := evicting.dropFencedHolders v i false
  have core := dropFencedHolders_core ((s.changeEntry v (.lockEvicting i)).setTxn i
    (some { x with phase := .evicting, victim := some v })) v i false i
  unfold State.startEviction
  dsimp only
  rw [show (s.changeEntry v (.lockEvicting i)).modifyTxn i _ = _ from txn_modifyTxn (s := s.changeEntry v _) hx _]
  generalize ((s.changeEntry v (.lockEvicting i)).setTxn i
    (some { x with phase := .evicting, victim := some v })).dropFencedHolders v i false = w at dropped core
  split
  · exact dropped.checkEviction i
  · rw [txn_setTxn_same] at core
    cases hy : w.txn i with
    | none => rw [hy] at core; cases core
    | some y =>
      rw [hy] at core
      have phase : y.phase = .evicting := congrArg Prod.fst (Option.some.inj core)
      exact dropped.issueRecalls hy (.inl phase) v _

/-! ### A head is activated -/

/-- The head of a chain between two heads is activated (03 R48, R49). -/
theorem State.TableLawful.activate (h : s.TableLawful fun k => NoGranule k ∨ k = g) (hg : s.chain g = i :: rest)
    (hx : s.txn i = some x) (hgr : x.granule = g) (hp : x.phase = .waiting) :
    Goes NoGranule g rest (s.activate i) := by
  have seated := h.table.seated i x hx
  have bounced : ∀ r, i ≠ serviceSlot → Goes NoGranule g rest (s.endWithBounce i r, true) := fun r hi => by
    obtain ⟨c, e⟩ := endWithBounce_slotLeaves hx hi r
    rw [hgr] at e
    exact .ended (h.pass (.inr rfl) hg e) (SlotLeaves.chain_rest e h.chains hg)
  have narrowed : ∀ {r}, Goes (fun k => (NoGranule k ∨ k = g) ∧ k ≠ g) g rest r → Goes NoGranule g rest r :=
    fun hr => by
    rwa [show NoGranule = fun k => (NoGranule k ∨ k = g) ∧ k ≠ g from funext fun k => propext (open_only id k)]
  unfold State.activate
  rw [hx]
  dsimp only
  split
  · rename_i judged
    refine bounced _ (ne_serviceSlot ?_)
    have kind : x.kind.judgedAtActivation = true := (Bool.and_eq_true_iff.1 judged).1
    obtain ⟨-, -, seat⟩ := seated
    cases hk : x.kind with
    | member r => rw [hk] at seat; exact seat.1
    | sweepDepart | sweepRecheck | sweepWithdrawn | memPeek | memPoke => rw [hk] at kind; cases kind
  · split
    · rename_i needs
      obtain ⟨allocates, without⟩ := Bool.and_eq_true_iff.1 needs
      rw [hgr, Option.isNone_iff_eq_none] at without
      rw [hgr]
      split
      · rename_i w hw
        refine narrowed (State.Locks.recallPhase (s := s) (x := x) ?_ h (.inr rfl) hg hx hgr hp)
        have entries := entry_allocateEntry h.directory i without (hw ▸ rfl)
        have table := allocateEntry_table s g i
        exact
          { slots := fun j _ => txn_of_table table j
            own := ⟨x, (txn_of_table table i).trans hx, rfl, rfl⟩
            chains := congrArg TxnTable.chains table
            directory := (Move.alloc (K := fun _ => True) (A := True) s g i trivial).directoryLawful h.directory
            lock := .inr (lockOf_eq_some.2 ⟨_, (entries g).trans (if_pos rfl), rfl⟩)
            other := fun k hk => by unfold State.lockOf; rw [entries, if_neg hk]
            result := by unfold State.allocateEntry; dsimp only; split <;> rfl }
      · split
        · rename_i v hv
          exact .active (h.startEviction hg hx allocates (lockOf_eq_none.2 without) hv)
        · exact bounced _ (ne_serviceSlot (member_of_allocates seated allocates))
    · exact narrowed (h.activateInPlace (.inr rfl) hg hx hgr hp)

/-! ### The advance of a chain -/

theorem State.TableLawful.advance (l : List SlotId) : ∀ {s : State}, (s.TableLawful fun k => NoGranule k ∨ k = g) →
    s.chain g = l → (State.advance l s).TableLawful NoGranule := by
  induction l with
  | nil => exact fun h hg => h.close id hg
  | cons i rest ih =>
    intro s h hg
    have mem : i ∈ s.chain g := hg ▸ .head rest
    obtain ⟨x, hx, hp⟩ := (h.table.opened g (.inr rfl)).1 i mem
    have goes := h.activate hg hx (h.table.granule_of_mem mem hx) hp
    simp only [State.advance]
    split
    · rename_i ended
      obtain ⟨lawful, chain⟩ := goes.of_true ended
      exact (ih lawful chain).afterEnd i
    · rename_i active
      exact goes.of_false active

theorem State.TableLawful.advanceAfter (h : s.TableLawful fun k => NoGranule k ∨ k = g) (i : SlotId) :
    (s.advanceAfter i g).TableLawful NoGranule := (h.advance _ rfl).afterEnd i

end Sys2Proof.Machine
end

section
/-! PROOFS. The ends of recalls, requests, abandonment and completions, by the laws of the table. -/

namespace Sys2Proof.Machine

variable {s t u : State} {p : Port} {i j : SlotId} {g v k : Granule} {b : Granule → Prop} {x y : Txn} {c : EntryChange}
  {a : TxnKind}

/-! ### The memory phase, and the end of recalls -/

/-- An active transaction ends, and its chain advances (03 R55). -/
theorem State.TableLawful.finish (h : s.TableLawful NoGranule) (hx : s.txn i = some x) (hp : x.phase = .memory) :
    (s.finish i).TableLawful NoGranule := by
  unfold State.finish
  rw [hx]
  exact (h.endTxn hx hp).1.advanceAfter i

/-- A transaction whose recalls have ended takes MEMORY (03 R52). -/
theorem State.TableLawful.takeMemory (h : s.TableLawful NoGranule) (hx : s.txn i = some x) (hp : x.phase = .recalling)
    (ha : x.awaited = .const none) : (s.takeMemory i).TableLawful NoGranule := by
  obtain ⟨rest, hg, -⟩ := h.table.isHead hx (by rw [hp]; rfl)
  have taken : (s.setTxn i (some x.toMemory)).TableLawful NoGranule :=
    { chains := h.chains
      directory := h.directory
      table := h.table.goOn (y := x.toMemory) hx rfl rfl (fun j => txn_setTxn s i j _) (.inr rfl) rfl
        (.inl ⟨.inl hp, fun _ => rfl⟩)
      awaiting := fun j y hy => by
        rw [txn_setTxn] at hy
        split at hy
        · injection hy with hy
          exact fun _ _ => hy ▸ ha
        · exact h.awaiting j y hy }
  have goes := enterMemory_goes hx taken hg
  unfold State.takeMemory
  rw [hx]
  dsimp only
  split
  · rename_i ended
    exact (goes.of_true ended).1.advanceAfter i
  · rename_i active
    exact goes.of_false active

theorem State.TableLawful.recallsEnded (h : s.TableLawful NoGranule) (i : SlotId) :
    (s.recallsEnded i).TableLawful NoGranule := by
  unfold State.recallsEnded
  split
  · exact h
  · rename_i x hx
    split
    · rename_i ended
      have noted : (s.setTxn i (some { x with deadline := none })).TableLawful NoGranule := h.note hx rfl rfl
      dsimp only
      split
      · rename_i hp
        exact noted.takeMemory (txn_setTxn_same s i _) hp ((noneAwaited_iff _).1 ended)
      · exact noted.checkEviction i
      all_goals exact noted
    · exact h

theorem State.TableLawful.unawait (h : s.TableLawful NoGranule) (i : SlotId) (p : Port) :
    (s.unawait i p).TableLawful NoGranule := by
  unfold State.unawait
  refine State.TableLawful.recallsEnded ?_ i
  unfold State.modifyTxn
  split
  · exact h
  · rename_i x hx
    refine h.rewrite hx rfl fun h1 h2 => ?_
    have none_there := h.idle hx h1 h2
    change x.awaited.set p none = _
    rw [none_there]
    cases p <;> rfl

theorem State.TableLawful.resolveAbsent (h : s.TableLawful NoGranule) (p : Port) (fenced : Bool) (i : SlotId) :
    (State.resolveAbsent p fenced i s).TableLawful NoGranule := by
  unfold State.resolveAbsent
  split
  · exact h
  · split
    · refine State.TableLawful.unawait (State.TableLawful.changeEntry ?_ rfl _) i p
      split
      · exact h.offerPoison _ i _
      · exact h
    · exact h

/-! ### Requests placed -/

/-- A slot placed where its granule's entry has no evicting lock, or behind others (03 R46). -/
theorem State.TableLawful.place (h : s.TableLawful NoGranule) (ht : u.table = s.table) (hd : u.dir = s.dir)
    (hfree : s.txn i = none) (hs : (newTxn a g).seatedIn i) (hl : s.chain g = [] → ∀ j, s.lockOf g ≠ some (.evicting j))
    (hr : i ≠ serviceSlot → u.svc.result = s.svc.result)
    (hr' : i = serviceSlot → u.svc.result = (newTxn a g).underWay) : (u.place i a g).TableLawful NoGranule := by
  have same : u.chain g = s.chain g := chain_of_table ht g
  obtain ⟨behind, alone⟩ := h.join (x := newTxn a g) (not_mem_chains_of_free h hfree) rfl rfl (.inl hfree) hs
    (t := (u.setTxn i (some (newTxn a g))).setChain g (u.chain g ++ [i]))
    (by rw [same]; unfold State.setChain State.setTxn; rw [ht]; rfl) hd hr hr'
  unfold State.place
  dsimp only
  split
  · rename_i empty
    rw [same] at empty
    have started := alone empty (hl empty)
    have chain : ((u.setTxn i (some (newTxn a g))).setChain g (u.chain g ++ [i])).chain g = [i] := by
      rw [same, empty]
      have canonical : Sparse.wf [] (u.setTxn i (some (newTxn a g))).table.chains := by
        rw [setTxn_chains, ht]
        exact h.chains
      exact (chain_setChain (s := u.setTxn i (some (newTxn a g))) canonical g [i] g).trans
        (if_pos rfl)
    have goes := started.activate (g := g) chain (txn_setTxn_same u i _) rfl rfl
    unfold Goes at goes
    split at goes
    · exact goes.1.close id goes.2
    · exact goes
  · rename_i full
    exact behind (by rw [show (newTxn a g).granule = g from rfl, ← same, full]; exact List.cons_ne_nil _ _)

/-- The service slot waits outside any chain for the evicting lock of its granule (03 R61). -/
theorem TableLaw.waitOutside {slot slot' : SlotId → Option Txn} {chain : Granule → List SlotId}
    {lock : Granule → Option Lock} {res res' : SlotResult} (h : TableLaw b slot chain lock res)
    (hfree : slot serviceSlot = none) (hp : x.phase = .waiting)
    (hsx : x.seatedIn serviceSlot) (hs : ∀ j, slot' j = if j = serviceSlot then some x else slot j)
    (hr : res' = x.underWay) : TableLaw b slot' chain lock res' := by
  have keep : ∀ {j y}, slot j = some y → slot' j = some y := fun {j y} hy => by
    rw [hs, if_neg (fun e => by rw [e, hfree] at hy; cases hy), hy]
  have back : ∀ {j y}, slot' j = some y → (j = serviceSlot ∧ y = x) ∨ slot j = some y := fun {j y} hy => by
    rw [hs] at hy
    split at hy
    · exact .inl ⟨‹_›, (Option.some.inj hy).symm⟩
    · exact .inr hy
  have idle : ¬x.phase.active = true := by rw [hp]; nofun
  refine
    { nodup := h.nodup
      inChain := fun g i hi => ?_
      head := fun g i rest hg => ⟨fun ho => ?_, fun j hj => ?_⟩
      placed := fun i y hy hpy => ?_
      seated := fun i y hy => ?_
      busy := fun g i hl => ?_
      locked := fun i y l hy hpy => ?_
      evicting := fun g i hl => ?_
      evicts := fun i y hy hpy => ?_
      result := ⟨fun y hy => ?_, fun hn => ?_⟩
      opened := fun g ho => ⟨fun i hi => ?_, (h.opened g ho).2⟩ }
  · obtain ⟨y, hy, rest⟩ := h.inChain g i hi
    exact ⟨y, keep hy, rest⟩
  · obtain ⟨y, hy, active⟩ := (h.head g i rest hg).1 ho
    exact ⟨y, keep hy, active⟩
  · obtain ⟨y, hy, waits⟩ := (h.head g i rest hg).2 j hj
    exact ⟨y, keep hy, waits⟩
  · rcases back hy with ⟨rfl, rfl⟩ | hy
    · exact (hpy.elim idle fun hw => hw.2 rfl).elim
    · exact h.placed i y hy hpy
  · rcases back hy with ⟨rfl, rfl⟩ | hy
    · exact hsx
    · exact h.seated i y hy
  · obtain ⟨y, hy, rest⟩ := h.busy g i hl
    exact ⟨y, keep hy, rest⟩
  · rcases back hy with ⟨rfl, rfl⟩ | hy
    · rw [hp] at hpy
      exact hpy.elim nofun nofun
    · exact h.locked i y l hy hpy
  · obtain ⟨y, hy, rest⟩ := h.evicting g i hl
    exact ⟨y, keep hy, rest⟩
  · rcases back hy with ⟨rfl, rfl⟩ | hy
    · rw [hp] at hpy
      cases hpy
    · exact h.evicts i y hy hpy
  · rcases back hy with ⟨-, rfl⟩ | hy
    · exact hr
    · rw [hfree] at hy
      cases hy
  · rw [hs, if_pos rfl] at hn
    cases hn
  · obtain ⟨y, hy, waits⟩ := (h.opened g ho).1 i hi
    exact ⟨y, keep hy, waits⟩

theorem not_evicting_of_entry (hl : s.evictingEntry g = false) (j : SlotId) :
    s.lockOf g ≠ some (.evicting j) := fun hj => by
  obtain ⟨e, he, lock⟩ := lockOf_eq_some.1 hj
  unfold State.evictingEntry at hl
  rw [he, Option.any_some, lock] at hl
  cases hl

/-- Slot 49 placed with its command recorded (10 R208). -/
theorem State.TableLawful.placeService (h : s.TableLawful NoGranule) (hfree : s.txn serviceSlot = none)
    (hs : (newTxn a g).seatedIn serviceSlot) :
    ((s.setResult (newTxn a g).underWay).placeService a g).TableLawful NoGranule := by
  unfold State.placeService
  split
  · exact
      { chains := h.chains
        directory := h.directory
        table := h.table.waitOutside hfree rfl hs (fun j => txn_setTxn _ serviceSlot j _) rfl
        awaiting := fun j y hy => by
          rw [txn_setTxn] at hy
          split at hy
          · injection hy with hy
            exact fun _ _ => hy ▸ rfl
          · exact h.awaiting j y hy }
  · rename_i free
    refine h.place rfl rfl hfree hs (fun empty => not_evicting_of_entry ?_) (fun hn => absurd rfl hn) fun _ => rfl
    exact Bool.eq_false_iff.2 fun held => free ⟨empty, held⟩

/-! ### Bypass frames -/

theorem State.TableLawful.recheckVictim (h : s.TableLawful NoGranule) (g : Granule) :
    (s.recheckVictim g).TableLawful NoGranule := by
  unfold State.recheckVictim
  split
  · exact h
  · split
    · exact h.checkEviction _
    all_goals exact h

theorem newTxn_seatedIn {r : Request} (hi : i.val < 48) (hb : r.bypass = false) (g : Granule) :
    (newTxn (.member r) g).seatedIn i := ⟨fun _ => hi, fun _ => rfl, hi, fun _ => hb⟩

/-- A request that intake accepts for a FREE slot (03 R46, R56). -/
theorem State.TableLawful.placeRequest (h : s.TableLawful NoGranule) (hfree : s.txn i = none) (hi : i.val < 48)
    (r : Request) (hl : r.bypass = true ∨ s.evictingEntry g = false) (p : Port) :
    (s.placeRequest i p g r).TableLawful NoGranule := by
  have placed : r.bypass = false → (s.place i (.member r) g).TableLawful NoGranule := fun hb =>
    h.place rfl rfl hfree (newTxn_seatedIn hi hb g)
      (fun _ => not_evicting_of_entry (hl.resolve_left (by rw [hb]; nofun))) (fun _ => rfl)
      fun e => absurd e (ne_serviceSlot hi)
  cases r with
  | returnDirty d =>
    change (s.takeReturn i p g d).TableLawful NoGranule
    unfold State.takeReturn
    split
    · refine State.TableLawful.recheckVictim (State.TableLawful.offer (State.TableLawful.changeEntry ?_ rfl g) _) g
      refine h.outside (fun x hx => by rw [hfree] at hx; cases hx) (fun y hy => ?_) hi
      injection hy with hy
      subst hy
      exact ⟨.inl rfl, ⟨fun _ => hi, fun _ => rfl, hi, fun hp => hp.elim nofun nofun⟩, rfl⟩
    · exact h.send p _
  | release =>
    change (s.takeRelease i p g).TableLawful NoGranule
    unfold State.takeRelease
    split
    · exact ((h.changeEntry rfl g).send p _).recheckVictim g
    · exact h.send p _
  | readShare | readOwn | promote | peek | poke | atomic => exact placed rfl

/-! ### Slots of a port that leaves -/

theorem State.TableLawful.bounceIfWaiting (h : s.TableLawful NoGranule) (p : Port) (hi : i.val < 48) :
    (State.bounceIfWaiting p i s).TableLawful NoGranule := by
  unfold State.bounceIfWaiting
  split
  · exact h
  · rename_i x hx
    split
    · rename_i hp
      exact (h.send p _).freeWaiting ((send_txn s p _ i).trans hx) hp (ne_serviceSlot hi)
    · exact h

theorem State.TableLawful.dropIfWaiting (h : s.TableLawful NoGranule) (hi : i.val < 48) :
    (s.dropIfWaiting i).TableLawful NoGranule := by
  unfold State.dropIfWaiting
  split
  · exact h
  · rename_i x hx
    split
    · rename_i hp
      exact h.freeWaiting hx hp (ne_serviceSlot hi)
    · exact h

/-- The record of an abandoned slot is FREE or DRAINING (03 R58). -/
theorem drained_draining {z : Txn} (hz : s.drained i x = some z) :
    z = { x with phase := .draining, victim := none, awaited := .const none, deadline := none } := by
  unfold State.drained at hz
  split at hz
  · cases hz
  · exact (Option.some.inj hz).symm

/-- An active slot is abandoned: what its abandonment leaves of it (03 R58). -/
theorem abandon_slotLeaves (s : State) (i : SlotId) (g v : Granule) (z : Option Txn) (hi : i.val < 48) :
    s.SlotLeaves (((s.setTxn i z).changeEntry v (.unlock i)).leaveChain i g) i g v z (.unlock i) where
  releases := .inl rfl
  slots j := txn_setTxn s i j z
  chains := rfl
  dir := rfl
  result _ := rfl
  ended hn := absurd hn (ne_serviceSlot hi)

theorem State.TableLawful.leaveAbandoned (h : s.TableLawful NoGranule) (hx : s.txn i = some x)
    (ha : x.phase.active = true)
    (hi : i.val < 48) :
    (((s.setTxn i (s.drained i x)).changeEntry x.recalled (.unlock i)).leaveChain i x.granule).TableLawful
      fun k => NoGranule k ∨ k = x.granule :=
  h.leave hx ha (fun y hy => by rw [drained_draining hy]; exact ⟨⟨rfl, rfl, rfl, hi⟩, rfl⟩)
    (abandon_slotLeaves s i _ _ _ hi)

/-- The parties that an evicting lock has held back proceed as the slot that held it is abandoned (02 R33). -/
theorem State.TableLawful.abandonEvicting (h : s.TableLawful NoGranule) (hx : s.txn i = some x)
    (hp : x.phase = .evicting)
    (hi : i.val < 48) :
    ((((s.setTxn i (s.drained i x)).changeEntry x.recalled (.unlock i)).leaveChain i x.granule).inFreeOrder
      (s.heldBack x.recalled)).TableLawful fun k => NoGranule k ∨ k = x.granule := by
  have left := h.leaveAbandoned hx (by rw [hp]; rfl) hi
  have leaves := abandon_slotLeaves s i x.granule x.recalled (s.drained i x) hi
  obtain ⟨own, -, v, hv, -, lock⟩ := h.table.evicts i x hx hp
  obtain rfl : x.recalled = v := by unfold Txn.recalled; rw [hv]; rfl
  have other : x.granule ≠ x.recalled := fun e => by rw [← e, own] at lock; cases lock
  rw [heldBack_eq s _ i]
  refine Meets.inFreeOrder (v := x.recalled) (l := s.waiters x.recalled)
    { lawful := left
      without := fun k hk => ?_
      lock := fun j hj => ?_
      service := fun hm => ?_
      memory := fun hm => absurd hm not_mem_waiters_memory }
    (fun hb => hb.elim id fun e => other e.symm) hi (List.nodup_cons.1 (waiters_nodup s _)).2
  · obtain rfl := hk.resolve_left id
    refine lockOf_eq_none.1 ((lockOf_of_dir leaves.dir _).trans ?_)
    exact (lockOf_changeEntry_other h.directory _ other).trans own
  · have after := (lockOf_of_dir leaves.dir x.recalled).symm.trans hj
    rcases lockOf_releases h.directory leaves.releases lock with ⟨gone, -⟩ | released
    · rw [gone] at after
      cases after
    · rw [released, show (Lock.evicting i).release i = .none from if_pos (.inr rfl)] at after
      cases after
  · obtain ⟨y, hy, hpy, hgy, hn⟩ := h.heldBack (mem_waiters_service hm)
    refine ⟨y, (leaves.slots _).trans ((if_neg (ne_serviceSlot hi).symm).trans hy), hpy, hgy, fun k hk => hn k ?_⟩
    rw [leaves.chain h.chains] at hk
    split at hk
    · exact List.mem_of_mem_erase hk
    · exact hk

/-- A member slot is abandoned, by its phase (03 R58). -/
theorem State.TableLawful.abandon (h : s.TableLawful NoGranule) (hi : i.val < 48) :
    (State.abandon i s).TableLawful NoGranule := by
  unfold State.abandon
  split
  · exact h
  · rename_i x hx
    have recalled : x.phase ≠ .evicting → x.recalled = x.granule := fun hp => by
      unfold Txn.recalled
      rw [(h.table.seated i x hx).2.1 hp]
      rfl
    dsimp only
    split
    · rename_i hp
      exact h.freeWaiting hx hp (ne_serviceSlot hi)
    · rename_i hp
      have left := h.leaveAbandoned hx (by rw [hp]; rfl) hi
      rw [recalled (by rw [hp]; nofun)] at left
      exact left.advanceAfter i
    · rename_i hp
      have left := h.leaveAbandoned hx (by rw [hp]; rfl) hi
      rw [recalled (by rw [hp]; nofun)] at left
      exact left.advanceAfter i
    · rename_i hp
      exact (h.abandonEvicting hx hp hi).advanceAfter i
    · rename_i hp
      refine h.outside (fun y hy => by rw [hx] at hy; cases hy; exact .inl hp) (fun y hy => ?_) hi
      rw [drained_draining hy]
      obtain ⟨-, -, kind⟩ := h.table.seated i x hx
      refine ⟨.inr rfl, ⟨fun _ => hi, fun _ => rfl, ?_⟩, rfl⟩
      cases hk : x.kind with
      | member r => exact ⟨hi, fun hp => hp.elim nofun nofun⟩
      | sweepDepart | sweepRecheck | sweepWithdrawn | memPeek | memPoke => rw [hk] at kind; exact kind
    · exact h

/-- The member slots lie below the sweep slot (03 R41). -/
theorem val_of_slotPort (hi : slotPort i = some p) : i.val < 48 := by
  by_contra hn
  have high : i.val / 12 = 4 := by omega
  unfold slotPort at hi
  rw [high] at hi
  cases hi

theorem val_of_ownedBy {ps : List Port} (hi : ownedBy ps i = true) : i.val < 48 := by
  unfold ownedBy at hi
  obtain ⟨p, hp, -⟩ := (Option.any_eq_true ..).1 hi
  exact val_of_slotPort hp

/-- Fence entry at the slots of the ports and at those that await them (07 R144). -/
theorem State.TableLawful.fenceEntries (h : s.TableLawful NoGranule) (ps : List Port) (reason : FenceReason) :
    (s.fenceEntries ps reason).TableLawful NoGranule := by
  have entered : (ps.foldl (State.enterFencing reason) s).TableLawful NoGranule :=
    lawful_foldl (f := State.enterFencing reason) (fun p _ u hu => hu.of_eq rfl rfl rfl) h
  have dropped := lawful_foldl (f := State.dropIfWaiting) (l := allSlots.filter (ownedBy ps))
    (fun i hi u hu => hu.dropIfWaiting (val_of_ownedBy (List.mem_filter.1 hi).2)) entered
  unfold State.fenceEntries
  refine lawful_inFreeOrder (fun f hf u hu => ?_) dropped
  obtain ⟨i, -, hi⟩ := List.mem_filterMap.1 hf
  unfold State.fenceTask at hi
  split at hi
  · cases hi
  · split at hi
    · rename_i owned
      injection hi with hi
      subst hi
      exact hu.abandon (val_of_ownedBy owned)
    · split at hi
      · injection hi with hi
        subst hi
        exact lawful_foldl (fun p _ u hu => hu.resolveAbsent p true i) hu
      · cases hi

/-! ### Completions, deadlines and yields -/

theorem State.TableLawful.deliverToSlot (h : s.TableLawful NoGranule) (i : SlotId) (c : Completion) :
    (s.deliverToSlot i c).TableLawful NoGranule := by
  unfold State.deliverToSlot
  split
  · exact h
  · rename_i x hx
    have core : (x.note c).core = x.core := by cases c <;> rfl
    have noted : (s.setTxn i (some (x.note c))).TableLawful NoGranule := h.note hx core (by cases c <;> rfl)
    have freed : ∀ {u : State}, u.TableLawful NoGranule → u.txn i = some x → x.phase = .bypass ∨ x.phase = .draining →
        (u.setTxn i none).TableLawful NoGranule := fun hu hxu hp =>
      hu.outside (fun y hy => by rw [hxu] at hy; cases hy; exact hp) (fun _ hy => by cases hy)
        ((h.table.seated i x hx).1 hp)
    dsimp only
    split
    · rename_i hp
      split
      · exact freed h hx (.inr hp)
      · exact h
    · rename_i hp
      split
      · split
        · exact freed (h.send _ _) ((send_txn s _ _ i).trans hx) (.inl hp)
        · exact freed h hx (.inl hp)
      · exact h
    · rename_i hp
      split
      · exact noted.finish (txn_setTxn_same s i _) ((congrArg Prod.fst core).trans hp)
      · exact noted
    all_goals exact noted

theorem State.TableLawful.recallExpiry (h : s.TableLawful NoGranule) (i : SlotId) :
    (State.recallExpiry i s).TableLawful NoGranule := by
  unfold State.recallExpiry
  split
  · exact h
  · rename_i x hx
    split
    · exact h
    · refine State.TableLawful.of_eq (s := s.setTxn i _)
        (h.rewrite (y := { x with deadline := none, awaited := _ }) hx rfl
        fun h1 h2 => ?_) rfl rfl rfl
      have none_there := h.idle hx h1 h2
      change (⟨timeOut x.awaited.p0, timeOut x.awaited.p1, timeOut x.awaited.p2, timeOut x.awaited.p3⟩ : PerPort _) = _
      rw [none_there]
      rfl

theorem State.TableLawful.yieldChange (h : s.TableLawful NoGranule) (p : Port) (g : Granule) (k : RecallKind)
    (o : YieldOutcome) : (s.yieldChange p g k o).TableLawful NoGranule := by
  unfold State.yieldChange
  split
  · exact h.changeEntry rfl g
  · exact h.changeEntry rfl g
  all_goals
    split
    · exact h.changeEntry rfl g
    · exact h

theorem State.TableLawful.offerYielded (h : s.TableLawful NoGranule) (i : SlotId) (g : Granule) (o : YieldOutcome) :
    (s.offerYielded i g o).TableLawful NoGranule := by
  unfold State.offerYielded
  split
  · exact h.offer _
  all_goals exact h

/-- HUB_CLEAR withdraws the action of a WAITING sweep slot (08 R174). -/
theorem State.TableLawful.requestClear (h : s.TableLawful NoGranule) : s.requestClear.TableLawful NoGranule := by
  unfold State.requestClear
  refine State.TableLawful.setSweep ?_ _
  unfold State.modifyTxn
  split
  · exact h
  · rename_i x hx
    dsimp only
    split
    · rename_i hp
      refine h.rewrite_like hx ⟨rfl, rfl, rfl, fun hs => ⟨hs.1, hs.2.1, rfl⟩, fun he => ?_, nofun⟩ fun h1 h2 => ?_
      · rw [hp] at he
        cases he
      · exact h.idle (x := x) hx h1 h2
    · rwa [setTxn_self hx]

end Sys2Proof.Machine
end

section
/-! PROOFS. The laws of the sweep queue under the changes of the queue, of the reports and of the port records. -/

namespace Sys2Proof.Machine

variable {s t u : State} {p q : Port} {hub : HubState} {v w : Sweep} {r : PortRec}

/-! ### Jobs and their reports -/

/-- A member job has one report, which concerns its port; the other jobs have none that does. -/
theorem filter_report (q : Port) (j : Job) :
    (j.report.filter (Report.concerns q)).length = if j.concerns q then 1 else 0 := by
  cases j with
  | depart p => by_cases h : p = q <;> simp [Job.report, Report.concerns, Job.concerns, h]
  | fence p => by_cases h : p = q <;> simp [Job.report, Report.concerns, Job.concerns, h]
  | recheck => rfl
  | clear => rfl

theorem countP_concerns (q : Port) (js : List Job) :
    js.countP (Job.concerns q) = ((js.flatMap Job.report).filter (Report.concerns q)).length := by
  induction js with
  | nil => rfl
  | cons j js ih =>
    rw [List.countP_cons, List.flatMap_cons, List.filter_append, List.length_append, filter_report, ih, Nat.add_comm]

/-- Where no report of a port is to come, none of its jobs is queued. -/
theorem countP_concerns_line (q : Port) (v : Sweep) :
    v.jobs.countP (Job.concerns q) ≤ (v.line.filter (Report.concerns q)).length := by
  rw [countP_concerns, Sweep.line, List.filter_append, List.length_append]
  exact Nat.le_add_left _ _

theorem clear_mem_line (h : .clear ∈ v.jobs) : .clear ∈ v.line :=
  List.mem_append_right _ (List.mem_flatMap.2 ⟨.clear, h, .head _⟩)

theorem count_clear (js : List Job) : js.count .clear = (js.flatMap Job.report).count .clear := by
  induction js with
  | nil => rfl
  | cons j js ih =>
    rw [List.count_cons, List.flatMap_cons, List.count_append, ← ih, Nat.add_comm]
    cases j <;> simp [Job.report]

/-! ### The bounds of the queue -/

/-- Every job is a member job of one port, a RECHECK or a CLEAR. -/
theorem length_jobs (js : List Job) :
    js.length = js.countP (Job.concerns .p0) + js.countP (Job.concerns .p1) + js.countP (Job.concerns .p2)
      + js.countP (Job.concerns .p3) + js.count .recheck + js.count .clear := by
  induction js with
  | nil => rfl
  | cons j js ih =>
    simp only [List.length_cons, List.countP_cons, List.count_cons, ih]
    cases j with
    | depart p => cases p <;> simp [Job.concerns] <;> omega
    | fence p => cases p <;> simp [Job.concerns] <;> omega
    | recheck => simp [Job.concerns]; omega
    | clear => simp [Job.concerns]; omega

/-- The laws bound the sweep queue (08 R157). -/
theorem State.SweepLaw.queueLawful (h : s.SweepLaw hub) : s.sweep.queueLawful := by
  have rechecks : s.sweep.jobs.count .recheck ≤ 2 := by
    have bound := h.rechecks
    cases hj : s.sweep.jobs with
    | nil => exact Nat.zero_le _
    | cons j js =>
      rw [hj, List.tail_cons] at bound
      rw [List.count_cons]
      split <;> omega
  have clears : s.sweep.jobs.count .clear ≤ 1
      ∧ (.clear ∈ s.sweep.jobs → ∀ p, s.sweep.jobs.countP (Job.concerns p) = 0) := by
    by_cases hub' : hub = .clearing
    · obtain ⟨⟨a, line, ha⟩, -, members⟩ := h.clearing hub'
      refine ⟨?_, fun _ => members⟩
      have total : s.sweep.line.count .clear = 1 := by
        rw [line, List.count_append, List.count_eq_zero.2 ha]
        rfl
      rw [count_clear, ← total, Sweep.line, List.count_append]
      exact Nat.le_add_left _ _
    · have absent : .clear ∉ s.sweep.jobs := fun hc => h.noClear hub' (clear_mem_line hc)
      exact ⟨(List.count_eq_zero.2 absent).le.trans (Nat.zero_le 1), fun hc => absurd hc absent⟩
  refine ⟨h.jobs, h.rechecks, clears.1, clears.2, ?_⟩
  rw [length_jobs]
  have j0 := h.jobs .p0
  have j1 := h.jobs .p1
  have j2 := h.jobs .p2
  have j3 := h.jobs .p3
  by_cases hc : .clear ∈ s.sweep.jobs
  · have members := clears.2 hc
    rw [members, members, members, members]
    have := clears.1
    omega
  · rw [List.count_eq_zero.2 hc]
    omega

/-! ### Changes that the laws do not read, and the walk -/

/-- The initializer's operations and the granules that it has offered stay, and the part runs. -/
structure SameInits (s t : State) : Prop where
  inits : t.mem.inits = s.mem.inits
  nextInit : t.mem.nextInit = s.mem.nextInit
  granuleCount : t.mem.granuleCount = s.mem.granuleCount
  running : t.inReset = false

theorem resetLawful_of_running (h : s.inReset = false) : s.resetLawful := fun hr => by rw [h] at hr; cases hr

theorem Marches.sameInits (h : Marches s t) (hr : s.inReset = false) : SameInits s t :=
  ⟨h.inits, h.nextInit, h.granuleCount, h.inReset.trans hr⟩

/-- The laws of another sweep queue, other records and the same initializer. -/
theorem State.SweepLaw.of_queue (h : s.SweepLaw hub) (same : SameInits s t)
    (jobs : ∀ p, t.sweep.jobs.countP (Job.concerns p) ≤ 1) (rechecks : t.sweep.jobs.tail.count .recheck ≤ 1)
    (port : ∀ p, (t.ctl.ports.get p).awaits p (.clear ∈ t.sweep.line) (t.sweep.line.filter (Report.concerns p)))
    (clearing : hub = .clearing →
      (∃ a, t.sweep.line = a ++ [.clear] ∧ .clear ∉ a) ∧ (∀ p, (t.portState p).isMember = false)
        ∧ ∀ p, t.sweep.jobs.countP (Job.concerns p) = 0)
    (noClear : hub ≠ .clearing → .clear ∉ t.sweep.line) : t.SweepLaw hub where
  jobs := jobs
  rechecks := rechecks
  port := port
  clearing := clearing
  noClear := noClear
  initializing hn := h.initializing (same.inits ▸ hn)
  ascending := by
    rw [same.inits, same.nextInit, same.granuleCount]
    exact h.ascending
  reset := resetLawful_of_running same.running

/-- The walk works off the queue, and records stay in what their reports say of them. -/
theorem State.SweepLaw.of_line (h : s.SweepLaw hub) (same : SameInits s t) (line : t.sweep.line = s.sweep.line)
    (jobs : t.sweep.jobs <:+ s.sweep.jobs)
    (port : ∀ p C l, (s.ctl.ports.get p).awaits p C l → (t.ctl.ports.get p).awaits p C l)
    (member : hub = .clearing → ∀ p, (t.portState p).isMember = true → (s.portState p).isMember = true) :
    t.SweepLaw hub := by
  refine h.of_queue same (fun p => (jobs.sublist.countP_le).trans (h.jobs p))
    ((jobs.sublist.tail.count_le _).trans h.rechecks) (fun p => ?_) (fun hc => ?_) (fun hc => line ▸ h.noClear hc)
  · rw [line]
    exact port p _ _ (h.port p)
  · obtain ⟨last, members, none_queued⟩ := h.clearing hc
    refine ⟨line ▸ last, fun p => ?_, fun p => ?_⟩
    · exact Bool.eq_false_iff.2 fun hm => by
        have was := members p
        rw [member hc p hm] at was
        cases was
    · exact Nat.le_zero.1 ((jobs.sublist.countP_le).trans (none_queued p).le)

theorem State.SweepLaw.marches (h : s.SweepLaw hub) (m : Marches s t) (hr : s.inReset = false) : t.SweepLaw hub :=
  h.of_line (m.sameInits hr) m.line m.jobs (fun p C l ha => by rw [m.ctl]; exact ha)
    fun _ p hm => by unfold State.portState at *; rwa [m.ctl] at hm

/-! ### Records -/

/-- A record in the same state, its sweep finished or not as before. -/
theorem awaits_of_state {r r' : PortRec} (hst : r'.state = r.state) (hf : r'.sweepFinished = r.sweepFinished) {C : Prop}
    {l : List Report} (h : r.awaits p C l) : r'.awaits p C l := by
  unfold PortRec.awaits at *
  rwa [hst, hf]

/-- A port that awaits no report: it is neither DEPARTING nor FENCING, or its sweep is finished. -/
def PortRec.idle (r : PortRec) : Prop := (r.state ≠ .departing ∧ r.state ≠ .fencing) ∨ r.sweepFinished = true

theorem awaits_idle (h : r.idle) {C : Prop} {l : List Report} : r.awaits p C l ↔ l = [] := by
  unfold PortRec.awaits
  rcases h with ⟨hd, hf⟩ | hs
  · rw [if_neg (fun h => hd h.1), if_neg (fun h => hf h.1)]
  · rw [if_neg (fun h => by rw [hs] at h; cases h.2), if_neg (fun h => by rw [hs] at h; cases h.2)]

theorem awaits_of_idle {r r' : PortRec} (h : r.idle) (h' : r'.idle) {C : Prop} {l : List Report} (ha : r.awaits p C l) :
    r'.awaits p C l := (awaits_idle h').2 ((awaits_idle h).1 ha)

/-- A member awaits no report, or that of its DEPART job. -/
theorem awaits_member (hm : r.state.isMember = true) {C : Prop} {l : List Report} (h : r.awaits p C l) :
    l = [] ∨ l = [.depart p] := by
  unfold PortRec.awaits at h
  split at h
  · exact .inr h
  · split at h
    · rename_i hf
      rw [hf.1] at hm
      cases hm
    · exact .inl h

/-- A port enters FENCING with a FENCE report to come. -/
theorem awaits_fencing (hst : r.state = .fencing) (hf : r.sweepFinished = false) {C : Prop} {l : List Report} :
    r.awaits p C l ↔ l = [.fence p] ∨ l = [.depart p, .fence p] ∨ C ∧ (l = [] ∨ l = [.depart p]) := by
  unfold PortRec.awaits
  rw [if_neg (fun h => by rw [hst] at h; cases h.1), if_pos ⟨hst, hf⟩]

theorem awaits_departing (hst : r.state = .departing) (hf : r.sweepFinished = false) {C : Prop} {l : List Report} :
    r.awaits p C l ↔ l = [.depart p] := by
  unfold PortRec.awaits
  rw [if_pos ⟨hst, hf⟩]

/-! ### A job joins the queue -/

theorem notClearing_of_member (h : s.SweepLaw hub) (hm : (s.portState p).isMember = true) :
    hub ≠ .clearing := fun hc => by
  have := (h.clearing hc).2.1 p
  rw [hm] at this
  cases this

/-- A RECHECK joins the queue where none waits (06 R122). -/
theorem State.SweepLaw.requestRecheck (h : s.SweepLaw hub) (hr : s.inReset = false) :
    s.requestRecheck.SweepLaw hub := by
  unfold State.requestRecheck
  split
  · exact h
  · rename_i absent
    have line : (s.queueJob .recheck).sweep.line = s.sweep.line := by
      rw [queueJob_eq]
      simp [Sweep.line, Job.report]
    have jobs : (s.queueJob .recheck).sweep.jobs = s.sweep.jobs ++ [.recheck] := by rw [queueJob_eq]; rfl
    have rest : (s.queueJob .recheck) = { s with sweep := (s.queueJob .recheck).sweep } := by rw [queueJob_eq]; rfl
    have counts : ∀ p, (s.sweep.jobs ++ [Job.recheck]).countP (Job.concerns p) = s.sweep.jobs.countP (Job.concerns p) :=
      fun p => by rw [List.countP_append]; rfl
    refine h.of_queue ⟨by rw [rest], by rw [rest], by rw [rest], by rw [rest]; exact hr⟩ (fun p => ?_) ?_ (fun p => ?_)
      (fun hc => ?_) fun hc => line ▸ h.noClear hc
    · rw [jobs, counts]
      exact h.jobs p
    · rw [jobs]
      cases hj : s.sweep.jobs with
      | nil => exact Nat.zero_le _
      | cons j js =>
        rw [hj, List.tail_cons] at absent
        rw [List.cons_append, List.tail_cons, List.count_append, List.count_eq_zero.2 absent]
        exact Nat.le_refl _
    · rw [line, rest]
      exact h.port p
    · obtain ⟨last, members, none_queued⟩ := h.clearing hc
      refine ⟨line ▸ last, fun p => by rw [rest]; exact members p, fun p => ?_⟩
      rw [jobs, counts]
      exact none_queued p

/-- One member job at the tail of the queue. -/
theorem line_append (v : Sweep) (j : Job) (k : Walk) :
    ({ v with jobs := v.jobs ++ [j], walk := k } : Sweep).line = v.line ++ j.report := by
  simp [Sweep.line]

/-- A job in the place of another. -/
theorem line_split {a b : List Job} {j : Job} (hj : v.jobs = a ++ j :: b) :
    v.line = (v.reports ++ a.flatMap Job.report) ++ (j.report ++ b.flatMap Job.report) := by
  simp [Sweep.line, hj]

/-- An active port enters DEPARTING, and its DEPART job joins the queue (07 R139). -/
theorem State.SweepLaw.enterDeparting (h : s.SweepLaw hub) (hr : s.inReset = false) (hp : s.portState p = .active) :
    (s.enterDeparting p).SweepLaw hub := by
  have hub' := notClearing_of_member h (isMember_of (.inl hp))
  have active : (s.ctl.ports.get p).state = .active := hp
  have unasked : s.sweep.line.filter (Report.concerns p) = [] :=
    (awaits_idle (.inl ⟨by rw [active]; nofun, by rw [active]; nofun⟩)).1 (h.port p)
  have unqueued : s.sweep.jobs.countP (Job.concerns p) = 0 :=
    Nat.le_zero.1 ((countP_concerns_line p s.sweep).trans (by rw [unasked]; exact Nat.le_refl _))
  obtain ⟨n, l, v, -, -, -, ends⟩ := enterDeparting_spec s p
  have sweep : (s.enterDeparting p).sweep = s.departQueued p := congrArg State.sweep ends
  have line : (s.enterDeparting p).sweep.line = s.sweep.line ++ [.depart p] := by
    rw [sweep]
    exact line_append s.sweep (.depart p) _
  have jobs : (s.enterDeparting p).sweep.jobs = s.sweep.jobs ++ [.depart p] := congrArg Sweep.jobs sweep
  have same : SameInits s (s.enterDeparting p) := by rw [ends]; exact ⟨rfl, rfl, rfl, hr⟩
  have record : ∀ q, (s.enterDeparting p).ctl.ports.get q = if q = p then s.departed p else s.ctl.ports.get q :=
    fun q => by
    rw [ends]
    exact PerPort.get_set _ p q _
  refine h.of_queue same (fun q => ?_) ?_ (fun q => ?_) (fun hc => absurd hc hub') fun _ => ?_
  · rw [jobs, List.countP_append]
    by_cases hq : q = p
    · subst q
      rw [unqueued]
      simp [Job.concerns]
    · have other : [Job.depart p].countP (Job.concerns q) = 0 := by simp [Job.concerns, Ne.symm hq]
      rw [other]
      exact h.jobs q
  · rw [jobs]
    have bound := h.rechecks
    cases hj : s.sweep.jobs with
    | nil => exact Nat.zero_le _
    | cons j js =>
      rw [hj, List.tail_cons] at bound
      rw [List.cons_append, List.tail_cons, List.count_append]
      simpa using bound
  · rw [record, line, List.filter_append]
    split
    · rename_i hq
      subst q
      rw [unasked]
      exact (awaits_departing rfl rfl).2 (by simp [Report.concerns])
    · rename_i hq
      have other : [Report.depart p].filter (Report.concerns q) = [] := by simp [Report.concerns, Ne.symm hq]
      rw [other, List.append_nil]
      simpa using h.port q
  · rw [line]
    simpa using h.noClear hub'

/-! ### A member is fenced -/

/-- A member has no FENCE job, and its DEPART job at most once, so that a FENCE request is taken (07 R145, 08 R160). -/
theorem State.SweepLaw.fenceAsked (h : s.SweepLaw hub) (hm : (s.portState p).isMember = true) :
    ∃ w, s.sweep.FenceAsked w p := by
  have reports := awaits_member hm (h.port p)
  have noFence : .fence p ∉ s.sweep.jobs := fun hf => by
    have mem : Report.fence p ∈ s.sweep.line.filter (Report.concerns p) :=
      List.mem_filter.2 ⟨List.mem_append_right _ (List.mem_flatMap.2 ⟨_, hf, .head _⟩), by simp [Report.concerns]⟩
    rcases reports with hl | hl <;> rw [hl] at mem <;> simp at mem
  by_cases hd : .depart p ∈ s.sweep.jobs
  · obtain ⟨a, b, hj⟩ := List.append_of_mem hd
    have once := h.jobs p
    rw [hj, List.countP_append, List.countP_cons_of_pos (by simp [Job.concerns])] at once
    have apart : ∀ j ∈ a ++ b, j.concerns p = false := fun j hj' => by
      have zero : (a ++ b).countP (Job.concerns p) = 0 := by rw [List.countP_append]; omega
      exact Bool.eq_false_iff.2 (List.countP_eq_zero.1 zero j hj')
    exact ⟨_, .inr ⟨a, b, hj, fun hm => by simpa [Job.concerns] using apart _ hm,
      fun hm => by simpa [Job.concerns] using apart _ hm, rfl⟩⟩
  · exact ⟨_, .inl ⟨hd, noFence, rfl⟩⟩

/-- What a FENCE request for `p` makes of the sweep queue `v`: the reports of the other ports and the CLEAR report stay,
and the FENCE report is to come, behind a DEPART report at most. -/
structure Sweep.Fences (v w : Sweep) (p : Port) : Prop where
  reports : ∀ q, q ≠ p → w.line.filter (Report.concerns q) = v.line.filter (Report.concerns q)
  jobs : ∀ q, q ≠ p → w.jobs.countP (Job.concerns q) = v.jobs.countP (Job.concerns q)
  own : w.line.filter (Report.concerns p) = [.fence p] ∨ w.line.filter (Report.concerns p) = [.depart p, .fence p]
  once : w.jobs.countP (Job.concerns p) ≤ 1
  rechecks : w.jobs.tail.count .recheck ≤ 1
  clear : .clear ∈ w.line ↔ .clear ∈ v.line

/-- A FENCE job joins the tail of the queue (08 R159). -/
theorem fences_fresh (hd : .depart p ∉ v.jobs) (hf : .fence p ∉ v.jobs) (rechecks : v.jobs.tail.count .recheck ≤ 1)
    (awaited : v.line.filter (Report.concerns p) = [] ∨ v.line.filter (Report.concerns p) = [.depart p]) (k : Walk) :
    Sweep.Fences v { v with jobs := v.jobs ++ [.fence p], walk := k } p := by
  have unqueued : v.jobs.countP (Job.concerns p) = 0 := List.countP_eq_zero.2 fun j hj hc => by
    cases j with
    | depart q => exact hd (by simpa [Job.concerns, show q = p by simpa [Job.concerns] using hc] using hj)
    | fence q => exact hf (by simpa [Job.concerns, show q = p by simpa [Job.concerns] using hc] using hj)
    | recheck => cases hc
    | clear => cases hc
  have line := line_append v (.fence p) k
  constructor
  case reports =>
    intro q hq
    rw [line]
    simp [Job.report, Report.concerns, Ne.symm hq]
  case jobs =>
    intro q hq
    simp [Job.concerns, Ne.symm hq]
  case own =>
    rw [line, List.filter_append]
    refine awaited.imp (fun hl => ?_) fun hl => ?_
    · simp [hl, Job.report, Report.concerns]
    · simp [hl, Job.report, Report.concerns]
  case once => simp [List.countP_append, unqueued, Job.concerns]
  case rechecks =>
    cases hs : v.jobs with
    | nil => exact Nat.zero_le _
    | cons j js =>
      rw [hs, List.tail_cons] at rechecks
      simpa using rechecks
  case clear =>
    rw [line]
    simp [Job.report]

/-- The reports before and behind a port's only one are none of its own. -/
theorem filter_concerns_around {x y : List Report}
    (h : (x ++ ([Report.depart p] ++ y)).filter (Report.concerns p) = []
      ∨ (x ++ ([Report.depart p] ++ y)).filter (Report.concerns p) = [.depart p]) :
    x.filter (Report.concerns p) = [] ∧ y.filter (Report.concerns p) = [] := by
  have total : ((x ++ ([Report.depart p] ++ y)).filter (Report.concerns p)).length ≤ 1 := by
    rcases h with hl | hl
    · rw [hl]
      exact Nat.zero_le 1
    · rw [hl]
      exact Nat.le_refl 1
  have mid : [Report.depart p].filter (Report.concerns p) = [.depart p] := by simp [Report.concerns]
  rw [List.filter_append, List.filter_append, mid, List.length_append, List.length_append,
    List.length_singleton] at total
  exact ⟨List.eq_nil_of_length_eq_zero (by omega), List.eq_nil_of_length_eq_zero (by omega)⟩

/-- A DEPART job, queued or running, is replaced by the FENCE job (08 R160). -/
theorem fences_converted {a b : List Job} (hj : v.jobs = a ++ .depart p :: b)
    (once : v.jobs.countP (Job.concerns p) ≤ 1) (rechecks : v.jobs.tail.count .recheck ≤ 1)
    (awaited : v.line.filter (Report.concerns p) = [] ∨ v.line.filter (Report.concerns p) = [.depart p]) (k : Walk) :
    Sweep.Fences v { v with jobs := a ++ .fence p :: b, walk := k } p := by
  have before : v.line = (v.reports ++ a.flatMap Job.report) ++ ([.depart p] ++ b.flatMap Job.report) := line_split hj
  have after : ({ v with jobs := a ++ .fence p :: b, walk := k } : Sweep).line
      = (v.reports ++ a.flatMap Job.report) ++ ([.fence p] ++ b.flatMap Job.report) :=
    line_split (v := { v with jobs := a ++ .fence p :: b, walk := k }) rfl
  rw [hj] at once rechecks
  rw [before] at awaited
  obtain ⟨front, behind⟩ := filter_concerns_around awaited
  constructor
  case reports =>
    intro q hq
    rw [before, after]
    simp [Report.concerns, Ne.symm hq]
  case jobs =>
    intro q hq
    rw [hj]
    simp [Job.concerns, Ne.symm hq]
  case own =>
    rw [after, List.filter_append, front, List.filter_append, behind]
    exact .inl (by simp [Report.concerns])
  case once => simpa [Job.concerns] using once
  case rechecks =>
    cases a with
    | nil => simpa using rechecks
    | cons j a => simpa using rechecks
  case clear =>
    rw [before, after]
    simp

theorem State.SweepLaw.fences (h : s.SweepLaw hub) (hm : (s.portState p).isMember = true)
    (ha : s.sweep.FenceAsked w p) :
    s.sweep.Fences w p := by
  have awaited := awaits_member hm (h.port p)
  rcases ha with ⟨hd, hf, rfl⟩ | ⟨a, b, hj, -, -, rfl⟩
  · exact fences_fresh hd hf h.rechecks awaited _
  · exact fences_converted hj (h.jobs p) h.rechecks awaited _

theorem portState_enterFencing (s : State) (reason : FenceReason) (p q : Port) :
    (State.enterFencing reason s p).ctl.ports.get q =
      if q = p then
        { s.ctl.ports.get p with
          state := .fencing, fenceReason := some reason, deadline := none, leaveAsked := false, sweepFinished := false }
      else s.ctl.ports.get q := PerPort.get_set _ p q _

/-- A member enters FENCING with its FENCE job asked for (07 R144, R145). -/
theorem State.SweepLaw.enterFencing (h : s.SweepLaw hub) (hr : s.inReset = false) (hm : (s.portState p).isMember = true)
    (reason : FenceReason) : (State.enterFencing reason (s.requestFence p) p).SweepLaw hub := by
  obtain ⟨w, ha⟩ := h.fenceAsked hm
  have hub' := notClearing_of_member h hm
  obtain ⟨reports, jobs, own, once, rechecks, clear⟩ := h.fences hm ha
  rw [requestFence_asked ha]
  have record := portState_enterFencing (s.setSweep w) reason p
  have same : SameInits s (State.enterFencing reason (s.setSweep w) p) := ⟨rfl, rfl, rfl, hr⟩
  have sweep : (State.enterFencing reason (s.setSweep w) p).sweep = w := rfl
  generalize State.enterFencing reason (s.setSweep w) p = t at record same sweep
  refine h.of_queue same (fun q => ?_) (by rw [sweep]; exact rechecks) (fun q => ?_) (fun hc => absurd hc hub')
    fun _ => ?_
  · rw [sweep]
    by_cases hq : q = p
    · exact hq ▸ once
    · rw [jobs q hq]
      exact h.jobs q
  · rw [record, sweep]
    split
    · rename_i hq
      subst q
      exact (awaits_fencing rfl rfl).2 (own.imp_right .inl)
    · rename_i hq
      rw [reports q hq]
      have was := h.port q
      unfold PortRec.awaits at was ⊢
      rwa [clear]
  · rw [sweep, clear]
    exact h.noClear hub'

end Sys2Proof.Machine
end

section
/-! PROOFS. The laws of the transaction table and of the sweep queue together, under the changes of the records, the
tests of R141 and R147, and the ways in which a port becomes or ceases to be a member. -/

namespace Sys2Proof.Machine

variable {s t u : State} {p q : Port} {i : SlotId} {g : Granule} {hub : HubState} {r : PortRec}

/-! ### The laws of a part that runs -/

/-- The part runs, and has the laws of the transaction table, and those of the sweep queue for this state of the hub. -/
structure State.SoundAt (hub : HubState) (s : State) : Prop where
  running : s.inReset = false
  table : s.TableLawful NoGranule
  sweep : s.SweepLaw hub

/-- The part runs and has the laws, by HUB_STATE. -/
def State.Sound (s : State) : Prop := s.SoundAt s.svc.hubState

theorem State.SoundAt.sound (h : t.SoundAt s.svc.hubState) (hub : t.svc.hubState = s.svc.hubState) : t.Sound := by
  unfold State.Sound
  rwa [hub]

/-- From `s` to `t` the sweep engine, the port records and the initializer stay. -/
structure SameSweep (s t : State) : Prop where
  sweep : t.sweep = s.sweep
  ports : t.ctl.ports = s.ctl.ports
  inits : t.mem.inits = s.mem.inits
  nextInit : t.mem.nextInit = s.mem.nextInit
  granuleCount : t.mem.granuleCount = s.mem.granuleCount
  inReset : t.inReset = s.inReset

theorem SameSweep.sameInits (k : SameSweep s t) (hr : s.inReset = false) : SameInits s t :=
  ⟨k.inits, k.nextInit, k.granuleCount, k.inReset.trans hr⟩

theorem State.SoundAt.sameSweep (h : s.SoundAt hub) (k : SameSweep s t) (ht : t.TableLawful NoGranule) :
    t.SoundAt hub where
  running := k.inReset.trans h.running
  table := ht
  sweep := h.sweep.of_line (k.sameInits h.running) (by rw [k.sweep]) (k.sweep ▸ List.suffix_refl _)
    (fun p C l ha => by rwa [k.ports]) fun _ p hm => by unfold State.portState at *; rwa [k.ports] at hm

/-- From `s` to `t` nothing that the laws read has changed. -/
structure Still (s t : State) : Prop extends SameSweep s t where
  txn : t.txn = s.txn
  chains : t.table.chains = s.table.chains
  dir : t.dir = s.dir
  result : t.svc.result = s.svc.result
  hub : t.svc.hubState = s.svc.hubState

theorem State.TableLawful.still {b : Granule → Prop} (h : s.TableLawful b) (k : Still s t) : t.TableLawful b where
  chains := k.chains ▸ h.chains
  directory := directoryLawful_of_dir k.dir h.directory
  table := by
    rw [k.txn, chain_of_chains k.chains, k.result, show t.lockOf = s.lockOf from funext (lockOf_of_dir k.dir)]
    exact h.table
  awaiting := by
    rw [k.txn]
    exact h.awaiting

theorem State.SoundAt.still (h : s.SoundAt hub) (k : Still s t) : t.SoundAt hub :=
  h.sameSweep k.toSameSweep (h.table.still k)

theorem State.Sound.still (h : s.Sound) (k : Still s t) : t.Sound := (SoundAt.still h k).sound k.hub

theorem Still.refl (s : State) : Still s s := ⟨⟨rfl, rfl, rfl, rfl, rfl, rfl⟩, rfl, rfl, rfl, rfl, rfl⟩

theorem Still.trans (h : Still s t) (k : Still t u) : Still s u where
  sweep := k.sweep.trans h.sweep
  ports := k.ports.trans h.ports
  inits := k.inits.trans h.inits
  nextInit := k.nextInit.trans h.nextInit
  granuleCount := k.granuleCount.trans h.granuleCount
  inReset := k.inReset.trans h.inReset
  txn := k.txn.trans h.txn
  chains := k.chains.trans h.chains
  dir := k.dir.trans h.dir
  result := k.result.trans h.result
  hub := k.hub.trans h.hub

theorem send_still (s : State) (p : Port) (f : HubFrame) : Still s (s.send p f) := by
  rw [send_rest]
  exact ⟨⟨rfl, rfl, rfl, rfl, rfl, rfl⟩, rfl, rfl, rfl, rfl, rfl⟩

theorem sendNotice_still (s : State) (ps : List Port) (n : Notice) : Still s (s.sendNotice ps n) :=
  List.foldlRecOn ps _ (Still.refl s) fun u hu p _ => hu.trans (send_still u p _)

theorem raise_still (s : State) (e : Event) : Still s (s.raise e) :=
  ⟨⟨rfl, rfl, rfl, rfl, rfl, rfl⟩, rfl, rfl, rfl, rfl, rfl⟩

theorem respond_still (s : State) (x : Option Reason) (d : List Byte) : Still s (s.respond x d) :=
  ⟨⟨rfl, rfl, rfl, rfl, rfl, rfl⟩, rfl, rfl, rfl, rfl, rfl⟩

theorem protocolError_still (s : State) (p : Port) : Still s (s.protocolError p) :=
  ⟨⟨rfl, rfl, rfl, rfl, rfl, rfl⟩, rfl, rfl, rfl, rfl, rfl⟩

theorem setIface_still (s : State) (p : Port) (f : Iface) : Still s (s.setIface p f) :=
  ⟨⟨rfl, rfl, rfl, rfl, rfl, rfl⟩, rfl, rfl, rfl, rfl, rfl⟩

/-- The transaction table works, and the walk with it. -/
theorem State.SoundAt.work (h : s.SoundAt hub) (w : Works s t) (ht : t.TableLawful NoGranule) : t.SoundAt hub where
  running := w.marches.inReset.trans h.running
  table := ht
  sweep := h.sweep.marches w.marches h.running

theorem State.Sound.work (h : s.Sound) (w : Works s t) (ht : t.TableLawful NoGranule) : t.Sound :=
  (SoundAt.work h w ht).sound w.marches.hub

/-! ### Records -/

/-- A record rewritten which awaits the reports that it awaited, and is not a member's while the hub is clearing. -/
theorem State.SoundAt.record (h : s.SoundAt hub) (ha : ∀ C l, (s.ctl.ports.get p).awaits p C l → r.awaits p C l)
    (hm : r.state.isMember = true → (s.portState p).isMember = true ∨ hub ≠ .clearing) :
    (s.setPort p r).SoundAt hub where
  running := h.running
  table := h.table.of_eq rfl rfl rfl
  sweep := by
    have record : ∀ q, (s.setPort p r).ctl.ports.get q = if q = p then r else s.ctl.ports.get q :=
      fun q => PerPort.get_set _ p q r
    refine h.sweep.of_line (t := s.setPort p r) ⟨rfl, rfl, rfl, h.running⟩ rfl (List.suffix_refl _)
      (fun q C l hq => ?_) fun hc q hq => ?_
    · rw [record]
      split
      · rename_i e
        subst e
        exact ha C l hq
      · exact hq
    · unfold State.portState at hq
      rw [record] at hq
      split at hq
      · rename_i e
        subst e
        exact (hm hq).resolve_right fun hn => hn hc
      · exact hq

theorem State.Sound.record (h : s.Sound) (ha : ∀ C l, (s.ctl.ports.get p).awaits p C l → r.awaits p C l)
    (hm : r.state.isMember = true → (s.portState p).isMember = true ∨ s.svc.hubState ≠ .clearing) :
    (s.setPort p r).Sound := (SoundAt.record h ha hm).sound rfl

/-- A record's setting. -/
theorem State.Sound.setting (h : s.Sound) (p : Port) (f : PortRec → PortRec)
    (hst : (f (s.ctl.ports.get p)).state = (s.ctl.ports.get p).state)
    (hf : (f (s.ctl.ports.get p)).sweepFinished = (s.ctl.ports.get p).sweepFinished) : (s.modifyPort p f).Sound :=
  h.record (fun _ _ => awaits_of_state hst hf) fun hm => .inl (by
    rw [hst] at hm
    exact hm)

/-- A port in a state which has no report to come passes to another such state. -/
theorem State.Sound.rest (h : s.Sound) (hold : (s.ctl.ports.get p).idle) {st : PortState}
    (hst : st.isMember = false ∧ st ≠ .fencing) : (s.movePort p st).Sound := by
  obtain ⟨hm, hf⟩ := hst
  refine h.record (fun C l => awaits_of_idle hold (.inl ⟨fun hd => ?_, hf⟩)) fun hn => absurd (hm.symm.trans hn) nofun
  rw [show st = .departing from hd] at hm
  cases hm

theorem idle_of_state {st : PortState} (h : s.portState p = st) (hst : st ≠ .departing ∧ st ≠ .fencing) :
    (s.ctl.ports.get p).idle := .inl ⟨fun e => hst.1 (h.symm.trans e), fun e => hst.2 (h.symm.trans e)⟩

/-! ### The tests of R141 and R147 -/

theorem sweepFinished_of_mayLeave (may : s.mayLeave p = true) : (s.ctl.ports.get p).sweepFinished = true := by
  unfold State.mayLeave at may
  simp only [Bool.or_eq_true, Bool.and_eq_true] at may
  exact may.elim (fun h => h.1.2) fun h => h.1.2

theorem State.SoundAt.passToParked (h : s.SoundAt hub) (done : (s.ctl.ports.get p).sweepFinished = true) :
    (s.passToParked p).SoundAt hub := by
  have parked : (s.setPort p (s.ctl.ports.get p).passed).bumpEpoch.SoundAt hub := by
    refine (h.record (fun _ _ => awaits_of_idle (.inr done) (.inl ⟨fun hd => ?_, fun hf => ?_⟩)) fun hm => ?_).still
      ⟨⟨rfl, rfl, rfl, rfl, rfl, rfl⟩, rfl, rfl, rfl, rfl, rfl⟩
    · cases hd
    · cases hf
    · cases hm
  unfold State.passToParked
  dsimp only
  change (State.raise
    (State.sendNotice (State.inFreeOrder (s.setPort p (s.ctl.ports.get p).passed).bumpEpoch _) _ _) _).SoundAt hub
  generalize (s.setPort p (s.ctl.ports.get p).passed).bumpEpoch = u at parked
  refine State.SoundAt.still (s := u.inFreeOrder _) ?_ ((sendNotice_still _ _ _).trans (raise_still _ _))
  refine parked.work (inFreeOrder_turns fun f hf v => ?_) (lawful_inFreeOrder (fun f hf v hv => ?_) parked.table)
  · obtain ⟨i, -, rfl⟩ := List.mem_map.1 hf
    exact resolveAbsent_works p false i v
  · obtain ⟨i, -, rfl⟩ := List.mem_map.1 hf
    exact hv.resolveAbsent p false i

theorem PortRec.exited_idle (r : PortRec) : r.exited.idle ∧ r.exited.state.isMember = false := by
  unfold PortRec.exited PortRec.idle
  cases r.present with
  | false => exact ⟨.inl (show PortState.empty ≠ .departing ∧ PortState.empty ≠ .fencing by decide), rfl⟩
  | true => exact ⟨.inl (show PortState.fenced ≠ .departing ∧ PortState.fenced ≠ .fencing by decide), rfl⟩

theorem State.SoundAt.exitFencing (h : s.SoundAt hub) (done : (s.ctl.ports.get p).sweepFinished = true) :
    (s.exitFencing p).SoundAt hub := by
  obtain ⟨idle, noMember⟩ := (s.ctl.ports.get p).exited_idle
  have exited : (s.setPort p (s.ctl.ports.get p).exited).bumpEpoch.SoundAt hub :=
    (h.record (fun _ _ => awaits_of_idle (.inr done) idle) fun hm => absurd (noMember.symm.trans hm) nofun).still
      ⟨⟨rfl, rfl, rfl, rfl, rfl, rfl⟩, rfl, rfl, rfl, rfl, rfl⟩
  rw [exitFencing_eq]
  exact exited.still ((sendNotice_still _ _ _).trans (raise_still _ _))

theorem State.SoundAt.settle (h : s.SoundAt hub) : s.settle.SoundAt hub := by
  refine settle_keeps (fun u n hu => hu.still ⟨⟨rfl, rfl, rfl, rfl, rfl, rfl⟩, rfl, rfl, rfl, rfl, rfl⟩)
    (fun u p may hu => ?_) h
  have done := sweepFinished_of_mayLeave may
  unfold State.leaveIfReady
  rw [if_pos may]
  split
  · exact hu.passToParked done
  · exact hu.exitFencing done

theorem settle_hub (s : State) : s.settle.svc.hubState = s.svc.hubState :=
  ((stage_afterKept _ _ _).settle (s := s) ⟨rfl, rfl, rfl⟩).hub

theorem State.Sound.settle (h : s.Sound) : s.settle.Sound := (SoundAt.settle h).sound (settle_hub s)

/-! ### Members are fenced, and depart -/

theorem State.Sound.fenceMember (h : s.Sound) (p : Port) (reason : FenceReason) : (s.fenceMember p reason).Sound := by
  unfold State.fenceMember
  split
  · rename_i hm
    obtain ⟨w, ha⟩ := h.sweep.fenceAsked hm
    have asked : (State.enterFencing reason (s.requestFence p) p).Sound := by
      have laws := h.sweep.enterFencing h.running hm reason
      rw [requestFence_asked ha] at laws ⊢
      exact ⟨h.running, h.table.of_eq rfl rfl rfl, laws⟩
    have table : (s.requestFence p).TableLawful NoGranule := by
      rw [requestFence_asked ha]
      exact h.table.setSweep w
    have fenced : ((s.requestFence p).fenceEntries [p] reason).Sound :=
      asked.work (fenceEntries_works _ [p] reason) (table.fenceEntries [p] reason)
    dsimp only
    split
    · exact (fenced.work (visit_turns trivial _) (fenced.table.visit fun _ => False.elim)).settle
    · exact fenced.settle
  · exact h

theorem State.Sound.enterDeparting (h : s.Sound) (hp : s.portState p = .active) : (s.enterDeparting p).Sound := by
  have laws := h.sweep.enterDeparting h.running hp
  have table : (s.enterDeparting p).TableLawful NoGranule := by
    unfold State.enterDeparting
    dsimp only
    have moved : (s.movePort p .departing).TableLawful NoGranule := h.table.of_eq rfl rfl rfl
    generalize s.movePort p .departing = u at moved
    have bounced : (u.inFreeOrder (((portSlots p).filter fun i => (u.txn i).any fun t => t.phase == .waiting).map
        (State.bounceIfWaiting p))).TableLawful NoGranule := by
      refine lawful_inFreeOrder (fun f hf v hv => ?_) moved
      obtain ⟨i, hi, rfl⟩ := List.mem_map.1 hf
      exact hv.bounceIfWaiting p (val_of_slotPort (mem_portSlots.1 (List.mem_filter.1 hi).1))
    generalize u.inFreeOrder _ = v at bounced
    rw [queueJob_eq]
    exact bounced.of_eq rfl rfl rfl
  obtain ⟨n, l, v, -, -, -, ends⟩ := enterDeparting_spec s p
  have running : (s.enterDeparting p).inReset = false := (congrArg State.inReset ends).trans h.running
  exact SoundAt.sound ⟨running, table, laws⟩ (congrArg (fun x : State => x.svc.hubState) ends :)

theorem State.Sound.requestRecheck (h : s.Sound) : s.requestRecheck.Sound := by
  have laws := h.sweep.requestRecheck h.running
  unfold State.requestRecheck at laws ⊢
  split
  · exact h
  · rename_i absent
    rw [if_neg absent] at laws
    rw [queueJob_eq] at laws ⊢
    exact ⟨h.running, h.table.of_eq rfl rfl rfl, laws⟩

/-! ### Line events and membership commands -/

theorem State.Sound.admission (h : s.Sound) (hold : (s.ctl.ports.get p).idle) : (s.admission p).Sound := by
  unfold State.admission
  split
  · exact (h.rest hold (by decide)).still (raise_still _ _)
  · exact h.rest hold (by decide)

theorem State.Sound.placeCard (h : s.Sound) (hold : (s.ctl.ports.get p).idle) : (s.placeCard p).Sound := by
  unfold State.placeCard
  split
  · exact h.admission hold
  · exact h.rest hold (by decide)

theorem State.Sound.presence (h : s.Sound) (p : Port) (asserted : Bool) : (State.presence p asserted s).Sound := by
  unfold State.presence
  split
  · exact h
  · have recorded : (s.modifyPort p fun r => { r with present := asserted }).Sound := h.setting p _ rfl rfl
    dsimp only
    generalize s.modifyPort p (fun r => { r with present := asserted }) = u at recorded
    split
    · rename_i hst _
      exact (recorded.placeCard (idle_of_state hst (by decide))).still (raise_still _ _)
    · exact recorded
    · rename_i hst _
      exact recorded.rest (idle_of_state hst (by decide)) (by decide)
    · rename_i hst _
      exact recorded.rest (idle_of_state hst (by decide)) (by decide)
    · rename_i hst _
      exact recorded.rest (idle_of_state hst (by decide)) (by decide)
    · rename_i hst _
      exact recorded.rest (idle_of_state hst (by decide)) (by decide)
    · exact recorded.fenceMember p _
    · exact recorded.fenceMember p _
    · exact recorded
    · exact recorded

theorem State.Sound.latch (h : s.Sound) (p : Port) (closed : Bool) : (State.latch p closed s).Sound := by
  unfold State.latch
  split
  · exact h
  · have recorded : (s.modifyPort p fun r => { r with latchClosed := closed }).Sound := h.setting p _ rfl rfl
    dsimp only
    generalize s.modifyPort p (fun r => { r with latchClosed := closed }) = u at recorded
    split
    · rename_i hst _
      exact recorded.admission (idle_of_state hst (by decide))
    · exact (recorded.setting p _ rfl rfl).still (sendNotice_still _ _ _)
    · exact (recorded.setting p _ rfl rfl).still ((sendNotice_still _ _ _).trans (raise_still _ _))
    · rename_i hst _
      exact recorded.rest (idle_of_state hst (by decide)) (by decide)
    · rename_i hst _
      exact recorded.rest (idle_of_state hst (by decide)) (by decide)
    · exact recorded

theorem State.Sound.holdOn (h : s.Sound) (p : Port) : (s.holdOn p).Sound := by
  have recorded : (s.modifyPort p fun r => { r with holdFlag := true }).Sound := h.setting p _ rfl rfl
  unfold State.holdOn
  dsimp only
  generalize s.modifyPort p (fun r => { r with holdFlag := true }) = u at recorded
  split
  · exact recorded.fenceMember p _
  · exact recorded.fenceMember p _
  · rename_i hst
    exact recorded.rest (idle_of_state hst (by decide)) (by decide)
  all_goals exact recorded

/-- An accepted membership command (07 R148 to R151). -/
theorem State.Sound.applyMember (h : s.Sound) {c : MemberCommand} (hc : c.applies (s.ctl.ports.get p) = true) :
    (State.applyMember c p s).Sound := by
  cases c with
  | admission =>
    have held : ((s.ctl.ports.get p).state == .held && !(s.ctl.ports.get p).holdFlag) = true := hc
    rw [Bool.and_eq_true, beq_iff_eq] at held
    exact h.rest (idle_of_state held.1 (by decide)) (by decide)
  | eject => exact (h.enterDeparting (beq_iff_eq.1 hc)).still (sendNotice_still _ _ _)
  | fence => exact h.fenceMember p _
  | release =>
    have fenced : s.portState p = .fenced := beq_iff_eq.1 hc
    exact h.placeCard (idle_of_state fenced (by decide))
  | holdOn => exact h.holdOn p
  | holdOff => exact h.setting p _ rfl rfl

end Sys2Proof.Machine
end

section
/-! PROOFS. The laws of the transaction table and of the sweep queue as the reports of the sweep engine are taken, and
through HUB_CLEAR. -/

namespace Sys2Proof.Machine

variable {s t u : State} {p q : Port} {i : SlotId} {g : Granule} {hub : HubState} {r : PortRec} {l : List Report}

/-! ### The report of a member job taken -/

/-- The line without its first report. -/
theorem line_dropReport {a : Report} {rest : List Report} (h : s.sweep.reports = a :: rest) :
    s.sweep.line = a :: s.dropReport.sweep.line := by
  unfold State.dropReport Sweep.line
  rw [h]
  rfl

/-- A port's record with its sweep finished, where its first report was what it awaited (08 R171). -/
def PortRec.finished (r : PortRec) : PortRec := { r with sweepFinished := true }

theorem PortRec.finished_idle (r : PortRec) : r.finished.idle := .inr rfl

theorem awaits_departed (hst : r.state = .departing) {C : Prop} (h : r.awaits p C (.depart p :: l)) :
    r.finished.awaits p C l := by
  refine (awaits_idle r.finished_idle).2 ?_
  cases hf : r.sweepFinished with
  | true => cases (awaits_idle (.inr hf)).1 h
  | false => exact (List.cons.inj ((awaits_departing hst hf).1 h)).2

/-- A DEPART report that comes after its port has left DEPARTING (08 R171). -/
theorem awaits_depart_late (hst : r.state ≠ .departing) {C : Prop} (h : r.awaits p C (.depart p :: l)) :
    r.awaits p C l := by
  unfold PortRec.awaits at h ⊢
  rw [if_neg fun hd => hst hd.1] at h ⊢
  split at h
  · rw [if_pos ‹_›]
    rcases h with h | h | ⟨hc, h | h⟩
    · cases (List.cons.inj h).1
    · exact .inl (List.cons.inj h).2
    · cases h
    · exact .inr (.inr ⟨hc, .inl (List.cons.inj h).2⟩)
  · cases h

/-- A FENCE report comes in FENCING only. -/
theorem awaits_fenced {C : Prop} (h : r.awaits p C (.fence p :: l)) : r.state = .fencing ∧ r.finished.awaits p C l := by
  unfold PortRec.awaits at h
  split at h
  · cases (List.cons.inj h).1
  · split at h
    · rename_i fencing
      refine ⟨fencing.1, (awaits_idle r.finished_idle).2 ?_⟩
      rcases h with h | h | ⟨-, h | h⟩
      · exact (List.cons.inj h).2
      · cases (List.cons.inj h).1
      · cases h
      · cases (List.cons.inj h).1
    · cases h

/-- The first report of a line, which is of a member job of `p`, is taken; the records of the other ports stay. -/
theorem State.SoundAt.reportTaken (h : s.SoundAt hub) {a : Report} {rest : List Report}
    (hr : s.sweep.reports = a :: rest)
    (ha : a = .depart p ∨ a = .fence p) {r : PortRec} (hst : r.state = (s.ctl.ports.get p).state)
    (own : ∀ C l, (s.ctl.ports.get p).awaits p C (a :: l) → r.awaits p C l) :
    (s.dropReport.setPort p r).SoundAt hub where
  running := h.running
  table := h.table.of_eq rfl rfl rfl
  sweep := by
    have line := line_dropReport hr
    have jobs : s.dropReport.sweep.jobs = s.sweep.jobs := rfl
    have record : ∀ q, (s.dropReport.setPort p r).ctl.ports.get q = if q = p then r else s.ctl.ports.get q :=
      fun q => PerPort.get_set _ p q r
    have notClear : a ≠ .clear := by rcases ha with rfl | rfl <;> nofun
    have clear : .clear ∈ s.sweep.line ↔ .clear ∈ s.dropReport.sweep.line := by
      rw [line, List.mem_cons]
      exact or_iff_right (Ne.symm notClear)
    refine h.sweep.of_queue (t := s.dropReport.setPort p r) ⟨rfl, rfl, rfl, h.running⟩ h.sweep.jobs h.sweep.rechecks
      (fun q => ?_) (fun hc => ?_) fun hc hm => h.sweep.noClear hc (clear.2 hm)
    · have was := h.sweep.port q
      change ((s.dropReport.setPort p r).ctl.ports.get q).awaits q (.clear ∈ s.dropReport.sweep.line)
        (s.dropReport.sweep.line.filter (Report.concerns q))
      rw [← propext clear, record]
      rw [line, List.filter_cons] at was
      split
      · rename_i e
        subst e
        rw [if_pos (by rcases ha with rfl | rfl <;> simp [Report.concerns]), ← line] at was
        exact own _ _ was
      · rename_i e
        rwa [if_neg (by rcases ha with rfl | rfl <;> simp [Report.concerns, Ne.symm e]), ← line] at was
    · obtain ⟨⟨b, last, absent⟩, members, unqueued⟩ := h.sweep.clearing hc
      refine ⟨?_, fun q => ?_, unqueued⟩
      · rw [line] at last
        cases b with
        | nil => exact absurd (List.cons.inj last).1 notClear
        | cons c b => exact ⟨b, (List.cons.inj last).2, fun hm => absent (.tail c hm)⟩
      · have state : (s.dropReport.setPort p r).portState q = s.portState q := by
          unfold State.portState
          rw [record]
          split
          · rename_i e
            rw [e, hst]
          · rfl
        rw [state]
        exact members q

theorem State.Sound.sweepReportTaken (h : s.Sound) : s.sweepReportTaken.Sound := by
  have unread : ∀ p, s.dropReport.setPort p (s.ctl.ports.get p) = s.dropReport := fun p => setPort_self s.dropReport p
  unfold State.sweepReportTaken
  split
  · rename_i p rest hr
    dsimp only
    split
    · rename_i hst
      exact ((SoundAt.reportTaken h hr (.inl rfl) (r := (s.ctl.ports.get p).finished) rfl fun C l =>
        awaits_departed hst).sound rfl).settle
    · rename_i hst
      have taken := SoundAt.reportTaken h hr (.inl rfl) (r := s.ctl.ports.get p) rfl fun C l => awaits_depart_late hst
      exact (unread p ▸ taken).sound rfl
  · rename_i p rest hr
    dsimp only
    split
    · exact ((SoundAt.reportTaken h hr (.inr rfl) (r := (s.ctl.ports.get p).finished) rfl fun C l ha =>
        (awaits_fenced ha).2).sound rfl).settle
    · rename_i hst
      have taken := SoundAt.reportTaken h hr (.inr rfl) (r := s.ctl.ports.get p) rfl fun C l ha =>
        absurd (awaits_fenced ha).1 hst
      exact (unread p ▸ taken).sound rfl
  · exact h

/-! ### The CLEAR report taken -/

/-- When the CLEAR report is taken no other report is to come (08 R174, R175). -/
theorem State.SweepLaw.only_clear (h : s.SweepLaw hub) {rest : List Report} (hr : s.sweep.reports = .clear :: rest) :
    hub = .clearing ∧ s.dropReport.sweep.line = [] := by
  have line := line_dropReport hr
  have clearing : hub = .clearing := by
    by_contra hc
    exact h.noClear hc (line ▸ .head _)
  obtain ⟨⟨a, last, absent⟩, -, -⟩ := h.clearing clearing
  refine ⟨clearing, ?_⟩
  rw [line] at last
  cases a with
  | nil => exact (List.cons.inj last).2
  | cons b a => exact absurd (List.mem_cons.2 (.inl (List.cons.inj last).1)) absent

/-- The CLEAR report finishes the sweeps of the ports in FENCING, and no member job is left (08 R175, 07 R153). -/
theorem State.SoundAt.cleared (h : s.SoundAt hub) {rest : List Report} (hr : s.sweep.reports = .clear :: rest) :
    s.dropReport.clearing.SoundAt .running where
  running := h.running
  table := h.table.of_eq rfl rfl rfl
  sweep := by
    obtain ⟨clearing, empty⟩ := h.sweep.only_clear hr
    have line := line_dropReport hr
    obtain ⟨-, members, unqueued⟩ := h.sweep.clearing clearing
    have none : s.mem.inits = [] := by
      by_contra hn
      rw [h.sweep.initializing hn] at clearing
      cases clearing
    have awaited : ∀ p, (s.dropReport.clearing.ctl.ports.get p).awaits p (.clear ∈ s.dropReport.sweep.line) [] :=
      fun p => by
      have was := h.sweep.port p
      rw [line, empty, show [Report.clear].filter (Report.concerns p) = [] from rfl] at was
      rw [clearing_record]
      unfold PortRec.cleared
      change PortRec.awaits (if (s.ctl.ports.get p).state = _ then _ else s.ctl.ports.get p) p _ []
      split
      · exact (awaits_idle (.inr rfl)).2 rfl
      · rename_i hf
        unfold PortRec.awaits at was ⊢
        rw [if_neg (show ¬(_ ∧ _) from fun hc => hf hc.1)] at was ⊢
        exact was
    exact
      { jobs := h.sweep.jobs
        rechecks := h.sweep.rechecks
        port := fun p => by
          change PortRec.awaits _ p (.clear ∈ s.dropReport.sweep.line) (s.dropReport.sweep.line.filter _)
          rw [empty] at awaited ⊢
          exact awaited p
        clearing := nofun
        noClear := fun _ hm => by
          rw [show s.dropReport.clearing.sweep.line = [] from empty] at hm
          cases hm
        initializing := fun hn => absurd none hn
        ascending := h.sweep.ascending
        reset := resetLawful_of_running h.running }

theorem State.Sound.clearReportTaken (h : s.Sound) : s.clearReportTaken.Sound := by
  unfold State.clearReportTaken
  split
  · rename_i rest hr
    dsimp only
    rw [finishFenced_all]
    have settled := (SoundAt.cleared h hr).settle
    generalize s.dropReport.clearing.settle = u at settled
    exact State.Sound.still (s := { u with svc := { u.svc with hubState := .running } })
      ⟨settled.running, settled.table.of_eq rfl rfl rfl,
        settled.sweep.of_line (t := { u with svc := { u.svc with hubState := .running } })
          ⟨rfl, rfl, rfl, settled.running⟩ rfl (List.suffix_refl _) (fun _ _ _ => id) fun _ _ => id⟩
      (raise_still _ _)
  · exact h

/-! ### HUB_CLEAR -/

/-- Fence entry writes the records and the interfaces of its ports only. -/
theorem foldl_enterFencing (reason : FenceReason) (ps : List Port) : ∀ s : State,
    ∃ c i, ps.foldl (State.enterFencing reason) s = { s with ctl := c, ifaces := i } := by
  induction ps with
  | nil => exact fun s => ⟨s.ctl, s.ifaces, rfl⟩
  | cons p ps ih =>
    intro s
    obtain ⟨c, i, ends⟩ := ih (State.enterFencing reason s p)
    exact ⟨c, i, ends⟩

/-- The records of the ports of a fence entry are in FENCING with no sweep finished, the others stay (07 R144). -/
theorem foldl_enterFencing_record (reason : FenceReason) (ps : List Port) (q : Port) : ∀ s : State,
    q ∈ ps ∧ ((ps.foldl (State.enterFencing reason) s).ctl.ports.get q).state = .fencing
        ∧ ((ps.foldl (State.enterFencing reason) s).ctl.ports.get q).sweepFinished = false
      ∨ q ∉ ps ∧ (ps.foldl (State.enterFencing reason) s).ctl.ports.get q = s.ctl.ports.get q := by
  induction ps with
  | nil => exact fun s => .inr ⟨List.not_mem_nil, rfl⟩
  | cons p ps ih =>
    intro s
    have record := portState_enterFencing s reason p q
    rw [List.foldl_cons]
    rcases ih (State.enterFencing reason s p) with ⟨hm, hst, hf⟩ | ⟨hm, same⟩
    · exact .inl ⟨.tail p hm, hst, hf⟩
    · rw [same, record]
      split
      · rename_i e
        exact .inl ⟨e ▸ .head ps, rfl, rfl⟩
      · rename_i e
        exact .inr ⟨fun hc => (List.mem_cons.1 hc).elim e hm, rfl⟩

/-- What a port that is no member awaits of the reports on their way, when the queue behind them is emptied and a CLEAR
report is to come (08 R173). -/
theorem awaits_emptied {a b : List Report} (h : r.awaits p False (a ++ b)) (hn : r.state.isMember = false) :
    r.awaits p True a := by
  unfold PortRec.awaits at h ⊢
  have stays : ¬(r.state = .departing ∧ r.sweepFinished = false) := fun hd => by
    rw [hd.1] at hn
    cases hn
  rw [if_neg stays] at h ⊢
  split at h
  · rw [if_pos ‹_›]
    cases a with
    | nil => exact .inr (.inr ⟨trivial, .inl rfl⟩)
    | cons x a =>
      rcases h with h | h | ⟨hf, -⟩
      · obtain ⟨rfl, rest⟩ := List.cons.inj h
        exact .inl (by rw [(List.append_eq_nil_iff.1 rest).1])
      · obtain ⟨rfl, rest⟩ := List.cons.inj h
        rcases List.append_eq_singleton_iff.1 rest with ⟨rfl, -⟩ | ⟨rfl, -⟩
        · exact .inr (.inr ⟨trivial, .inr rfl⟩)
        · exact .inr (.inl rfl)
      · exact hf.elim
  · rw [if_neg ‹_›]
    exact (List.append_eq_nil_iff.1 h).1

/-- A member that is fenced by HUB_CLEAR: of its reports only a DEPART report can be on its way. -/
theorem awaits_clear {old : PortRec} {a b : List Report} (h : old.awaits p False (a ++ b))
    (hm : old.state.isMember = true) (hst : r.state = .fencing) (hf : r.sweepFinished = false) : r.awaits p True a := by
  refine (awaits_fencing hst hf).2 (.inr (.inr ⟨trivial, ?_⟩))
  rcases awaits_member hm h with h | h
  · exact .inl (List.append_eq_nil_iff.1 h).1
  · exact (List.append_eq_singleton_iff.1 h).imp And.left And.left

/-- The state in which HUB_CLEAR has emptied the sweep queue and fenced the members at their records (07 R153, 08
R173). -/
def State.clearEntered (s : State) : State :=
  (Port.all.filter fun p => (s.portState p).isMember).foldl (State.enterFencing .clear) s.stopSweep

theorem clearEntered_rest (s : State) : ∃ c i, s.clearEntered = { s.stopSweep with ctl := c, ifaces := i } :=
  foldl_enterFencing _ _ s.stopSweep

/-- What HUB_CLEAR leaves of the records and of the reports on their way, when a CLEAR report is to come. -/
theorem clearEntered_awaits (h : s.SoundAt .running) (p : Port) :
    (s.clearEntered.portState p).isMember = false
      ∧ (s.clearEntered.ctl.ports.get p).awaits p True (s.sweep.reports.filter (Report.concerns p)) := by
  have was := h.sweep.port p
  rw [eq_false (h.sweep.noClear nofun), Sweep.line, List.filter_append] at was
  rcases foldl_enterFencing_record .clear (Port.all.filter fun p => (s.portState p).isMember) p s.stopSweep with
    ⟨hm, hst, hf⟩ | ⟨hm, same⟩
  · refine ⟨by rw [show s.clearEntered.portState p = .fencing from hst]; rfl, awaits_clear was ?_ hst hf⟩
    exact (List.mem_filter.1 hm).2
  · have noMember : (s.portState p).isMember = false := Bool.eq_false_iff.2 fun hn =>
      hm (List.mem_filter.2 ⟨mem_allPorts p, hn⟩)
    have record : s.clearEntered.ctl.ports.get p = s.ctl.ports.get p := same
    rw [record]
    refine ⟨?_, awaits_emptied was noMember⟩
    rw [show s.clearEntered.portState p = s.portState p from congrArg PortRec.state record]
    exact noMember

theorem requestClear_rest (s : State) : ∃ b : TxnTable,
    s.requestClear = { s with table := b, sweep := { s.sweep with jobs := [.clear], walk := .start } } := by
  unfold State.requestClear State.modifyTxn
  split
  · exact ⟨_, rfl⟩
  · exact ⟨_, rfl⟩

/-- HUB_CLEAR at the controller and at the sweep engine brings the laws of a hub that is clearing (07 R153, 08 R173). -/
theorem State.SoundAt.clearMembers (h : s.SoundAt .running) :
    s.clearMembers.SoundAt .clearing ∧ s.clearMembers.svc.hubState = s.svc.hubState := by
  have entered := clearEntered_awaits h
  obtain ⟨c, i, rest⟩ := clearEntered_rest s
  have works : Works s.clearEntered
      (s.stopSweep.fenceEntries (Port.all.filter fun p => (s.portState p).isMember) .clear) :=
    fenceEntries_works s.stopSweep _ .clear
  have table :
      (s.stopSweep.fenceEntries (Port.all.filter fun p => (s.portState p).isMember) .clear).TableLawful NoGranule :=
    (h.table.of_eq (t := s.stopSweep) rfl rfl rfl).fenceEntries _ .clear
  have none : s.mem.inits = [] := by
    by_contra hn
    cases h.sweep.initializing hn
  unfold State.clearMembers
  generalize s.stopSweep.fenceEntries (Port.all.filter fun p => (s.portState p).isMember) .clear = t at works table
  generalize s.clearEntered = u at rest works entered
  have marches := works.marches
  have inits : t.mem.inits = [] := (marches.inits.trans (congrArg (fun v : State => v.mem.inits) rest :)).trans none
  have nextInit : t.mem.nextInit = s.mem.nextInit :=
    marches.nextInit.trans (congrArg (fun v : State => v.mem.nextInit) rest :)
  have count : t.mem.granuleCount = s.mem.granuleCount :=
    marches.granuleCount.trans (congrArg (fun v : State => v.mem.granuleCount) rest :)
  have running : t.inReset = false :=
    (marches.inReset.trans (congrArg State.inReset rest :)).trans h.running
  have sweep : u.sweep = s.stopSweep.sweep := (congrArg State.sweep rest :)
  have jobs : t.sweep.jobs = [] := by
    have before : u.sweep.jobs = [] := congrArg Sweep.jobs sweep
    exact List.suffix_nil.1 (before ▸ marches.jobs)
  have reports : t.sweep.reports = s.sweep.reports := by
    have line := marches.line
    rw [sweep] at line
    simpa [Sweep.line, jobs, State.stopSweep, State.setSweep] using line
  have hub : t.svc.hubState = s.svc.hubState := marches.hub.trans (congrArg (fun v : State => v.svc.hubState) rest :)
  have lawful := table.requestClear
  obtain ⟨b, ends⟩ := requestClear_rest t
  rw [ends] at lawful ⊢
  refine ⟨SoundAt.settle ⟨running, lawful, ?_⟩, (settle_hub _).trans hub⟩
  have line : ({ t.sweep with jobs := [.clear], walk := .start } : Sweep).line = s.sweep.reports ++ [.clear] :=
    congrArg (· ++ [Report.clear]) reports
  have ports : ∀ p, t.ctl.ports.get p = u.ctl.ports.get p := fun p => by rw [marches.ctl]
  have absent : .clear ∉ s.sweep.reports := fun hm => h.sweep.noClear nofun (List.mem_append_left _ hm)
  exact
    { jobs := fun p => Nat.zero_le _
      rechecks := Nat.zero_le _
      port := fun p => by
        change (t.ctl.ports.get p).awaits p (_ ∈ Sweep.line _) (List.filter _ (Sweep.line _))
        rw [line, ports, List.filter_append, eq_true (List.mem_append_right _ (List.mem_singleton_self Report.clear))]
        simpa [Report.concerns] using (entered p).2
      clearing := fun _ => ⟨⟨_, line, absent⟩,
        fun p => (congrArg (fun r : PortRec => r.state.isMember) (ports p)).trans (entered p).1, fun p => rfl⟩
      noClear := fun hc => absurd rfl hc
      initializing := fun hn => absurd inits hn
      ascending := by
        change List.Pairwise _ t.mem.inits ∧ (∀ n ∈ t.mem.inits, n < t.mem.nextInit)
          ∧ t.mem.nextInit ≤ t.mem.granuleCount ∧ t.mem.granuleCount ≤ _
        rw [inits, nextInit, count]
        exact ⟨.nil, fun _ hn => absurd hn List.not_mem_nil, h.sweep.ascending.2.2⟩
      reset := resetLawful_of_running running }

theorem State.Sound.hubClear (h : s.Sound) : s.hubClear.Sound := by
  unfold State.hubClear
  split
  · exact h.still (respond_still _ _ _)
  · rename_i free
    have hub : s.svc.hubState = .running := by
      simp only [not_or] at free
      cases hs : s.svc.hubState with
      | running => rfl
      | initializing => exact absurd hs free.1
      | clearing => exact absurd hs free.2.1
    have running : s.SoundAt .running := hub ▸ h
    have entered : ({ s with svc := { s.svc with hubState := .clearing } } : State).SoundAt .running :=
      running.sameSweep ⟨rfl, rfl, rfl, rfl, rfl, rfl⟩ (running.table.of_eq rfl rfl rfl)
    obtain ⟨laws, clearing⟩ := entered.clearMembers
    exact State.Sound.still (SoundAt.sound (s := { s with svc := { s.svc with hubState := .clearing } }) laws clearing)
      (respond_still _ _ _)

end Sys2Proof.Machine
end

section
/-! PROOFS. The laws of the transaction table and of the sweep queue through intake and the service port. -/

namespace Sys2Proof.Machine

variable {s t u : State} {p q : Port} {i : SlotId} {g : Granule} {hub : HubState} {r : PortRec}

/-! ### Events from inside the part -/

theorem State.Sound.linkLostTaken (h : s.Sound) (p : Port) : (State.linkLostTaken p s).Sound := by
  unfold State.linkLostTaken
  split
  · exact h
  · refine State.Sound.fenceMember ?_ p _
    exact h.still ⟨⟨rfl, rfl, rfl, rfl, rfl, rfl⟩, rfl, rfl, rfl, rfl, rfl⟩

theorem State.Sound.fenceRequestTaken (h : s.Sound) (p : Port) : (State.fenceRequestTaken p s).Sound := by
  unfold State.fenceRequestTaken
  split
  · refine State.Sound.fenceMember ?_ p _
    exact h.still ⟨⟨rfl, rfl, rfl, rfl, rfl, rfl⟩, rfl, rfl, rfl, rfl, rfl⟩
  · exact h

theorem State.Sound.departureExpiry (h : s.Sound) (p : Port) : (State.departureExpiry p s).Sound := by
  unfold State.departureExpiry
  split
  · refine State.Sound.fenceMember ?_ p _
    exact h.still ⟨⟨rfl, rfl, rfl, rfl, rfl, rfl⟩, rfl, rfl, rfl, rfl, rfl⟩
  · exact h

theorem recallExpiry_sameSweep (s : State) (i : SlotId) :
    SameSweep s (State.recallExpiry i s) ∧ (State.recallExpiry i s).svc.hubState = s.svc.hubState := by
  unfold State.recallExpiry
  split
  · exact ⟨⟨rfl, rfl, rfl, rfl, rfl, rfl⟩, rfl⟩
  · split
    · exact ⟨⟨rfl, rfl, rfl, rfl, rfl, rfl⟩, rfl⟩
    · exact ⟨⟨rfl, rfl, rfl, rfl, rfl, rfl⟩, rfl⟩

theorem State.Sound.recallExpiry (h : s.Sound) (i : SlotId) : (State.recallExpiry i s).Sound :=
  (SoundAt.sameSweep h (recallExpiry_sameSweep s i).1 (h.table.recallExpiry i)).sound (recallExpiry_sameSweep s i).2

theorem State.Sound.walkVisit (h : s.Sound) : s.walkVisit.Sound := by
  unfold State.walkVisit
  split
  · exact h.work (visit_turns trivial s) (h.table.visit fun _ => False.elim)
  · exact h

/-! ### Registers and windows -/

theorem State.Sound.writeRegister (h : s.Sound) {src : Source} {x : Reg} {v : Word}
    (ht : s.writeRegister src x v = .ok t) :
    t.Sound := by
  unfold State.writeRegister at ht
  cases x with
  | eventStatus =>
    cases src with
    | service =>
      injection ht with ht
      subst ht
      exact h.still ⟨⟨rfl, rfl, rfl, rfl, rfl, rfl⟩, rfl, rfl, rfl, rfl, rfl⟩
    | card => cases ht
  | portControl q =>
    injection ht with ht
    subst ht
    cases src
    · exact h.setting q (fun r => { r with controlGrant := v.getLsbD 0, indicatorForced := v.getLsbD 1 }) rfl rfl
    · exact h.setting q (fun r => { r with indicatorForced := v.getLsbD 1 }) rfl rfl
  | eventEnable | admitMode | recallLimit | departLimit | corrected | uncorrected | firstFault | protoErrors =>
    injection ht with ht
    subst ht
    exact h.still ⟨⟨rfl, rfl, rfl, rfl, rfl, rfl⟩, rfl, rfl, rfl, rfl, rfl⟩
  | hubState | epoch | memGranules | sweepState | portStatus | window => cases ht

theorem State.Sound.replaceWindow (h : s.Sound) (k : Fin 8) (w : Window) : (s.replaceWindow k w).Sound :=
  State.Sound.requestRecheck (s := { s with windows := s.windows.set k.val w k.isLt })
    (h.still ⟨⟨rfl, rfl, rfl, rfl, rfl, rfl⟩, rfl, rfl, rfl, rfl, rfl⟩)

/-! ### Intake -/

/-- A request that intake accepts has a FREE member slot, and where it joins a chain no evicting lock stands in its way
(09 R189, R190). -/
theorem judgeRequest_accepted {tag : Tag} {x : Request} (h : s.judgeRequest p tag g x = .accepted i) :
    s.txn i = none ∧ i.val < 48 ∧ (x.bypass = true ∨ s.evictingEntry g = false) := by
  have granule : ∀ {j}, s.judgeGranule p j g x = .accepted i → j = i ∧ (x.bypass = true ∨ s.evictingEntry g = false) :=
      fun {j} hj => by
    unfold State.judgeGranule at hj
    split at hj
    · cases hj
    · split at hj
      · exact ⟨Judgment.accepted.inj hj, .inl ‹_›⟩
      · split at hj
        · cases hj
        · split at hj
          · cases hj
          · exact ⟨Judgment.accepted.inj hj, .inr (Bool.eq_false_iff.2 ‹_›)⟩
  have slot : s.judgeSlot p tag g x = .accepted i →
      s.txn i = none ∧ i.val < 48 ∧ (x.bypass = true ∨ s.evictingEntry g = false) := by
    intro hj
    unfold State.judgeSlot at hj
    split at hj
    · cases hj
    · cases hj
    · split at hj
      · cases hj
      · rename_i j member
        split at hj
        · cases hj
        · rename_i free
          obtain ⟨rfl, lock⟩ := granule hj
          refine ⟨by simpa using free, ?_, lock⟩
          unfold memberSlot at member
          split at member
          · rename_i bound
            rw [← Option.some.inj member]
            exact bound.1
          · cases member
  unfold State.judgeRequest at h
  split at h
  · cases h
  · split at h
    · exact slot h
    · split at h
      · exact slot h
      · cases h
    all_goals cases h

theorem State.Sound.takeRequest (h : s.Sound) (p : Port) (tag : Tag) (g : Granule) (x : Request) :
    (s.takeRequest p tag g x).Sound := by
  unfold State.takeRequest
  split
  · exact h.still (send_still s p _)
  · exact h.still (protocolError_still s p)
  · rename_i i accepted
    obtain ⟨free, member, lock⟩ := judgeRequest_accepted accepted
    exact (h.work (placeRequest_works s i p g x) (h.table.placeRequest free member x lock p)).settle

theorem State.Sound.takeYield (h : s.Sound) (p : Port) (tag : Tag) (g : Granule) (recallId : Byte) (o : YieldOutcome) :
    (s.takeYield p tag g recallId o).Sound := by
  unfold State.takeYield
  split
  · unfold State.matchYield
    split
    · exact h.still (protocolError_still s p)
    · rename_i i w _
      split
      · exact h
      · have works : Works s (((s.yieldChange p g w.kind o).offerYielded i g o).unawait i p) :=
          ((yieldChange_works s p g w.kind o).trans (offerYielded_works _ i g o)).trans (unawait_works _ i p)
        exact (h.work works (((h.table.yieldChange p g w.kind o).offerYielded i g o).unawait i p)).settle
  · exact h.still (send_still s p _)

/-- A port becomes a member while the hub runs only (07 R135, R136). -/
theorem State.Sound.joinFrame (h : s.Sound) (p : Port) (g : Granule) : (s.joinFrame p g).Sound := by
  have bounced : ∀ reason, (s.bounce15 p g reason).Sound := fun reason => h.still (send_still s p _)
  unfold State.joinFrame
  split
  · rename_i hst
    split
    · rename_i hrun
      have joinable : (s.ctl.ports.get p).idle := idle_of_state hst (by decide)
      have active : PortState.active ≠ .departing ∧ PortState.active ≠ .fencing := by decide
      have counted : s.bumpEpoch.Sound := h.still ⟨⟨rfl, rfl, rfl, rfl, rfl, rfl⟩, rfl, rfl, rfl, rfl, rfl⟩
      have joined : (s.bumpEpoch.modifyPort p fun r =>
          { r with state := .active, joinedEpoch := some s.bumpEpoch.ctl.epoch, fenceReason := none }).Sound :=
        counted.record (fun _ _ => awaits_of_idle joinable (.inl active)) fun _ =>
          .inr (by rw [show s.bumpEpoch.svc.hubState = .running from hrun]; nofun)
      exact joined.still (((send_still _ _ _).trans (sendNotice_still _ _ _)).trans (raise_still _ _))
    · exact bounced _
    · exact bounced _
  all_goals first
    | exact bounced _
    | exact h

theorem State.Sound.leaveFrame (h : s.Sound) (p : Port) (g : Granule) : (s.leaveFrame p g).Sound := by
  have bounced : ∀ reason, (s.bounce15 p g reason).Sound := fun reason => h.still (send_still s p _)
  unfold State.leaveFrame
  split
  · rename_i hst
    split
    · have answered := send_still s p (.ack 15 0 .ok .none false)
      refine (h.still answered).enterDeparting ?_
      unfold State.portState
      rw [answered.ports]
      exact hst
    · exact bounced _
  all_goals first
    | exact bounced _
    | exact h

theorem State.Sound.controlMember (h : s.Sound) (p : Port) (g : Granule) (c : MemberCommand) (port : Byte) :
    (s.controlMember p g c port).Sound := by
  unfold State.controlMember
  split
  · exact h.still (send_still s p _)
  · rename_i q accepted
    have applies := judgeMember_ok accepted
    obtain ⟨n, order⟩ := inFreeOrder_two s (fun s => s.controlAck p 0) (State.applyMember c q)
    have drawn : ({ s with freeDraws := n } : State).Sound :=
      h.still ⟨⟨rfl, rfl, rfl, rfl, rfl, rfl⟩, rfl, rfl, rfl, rfl, rfl⟩
    rcases order with order | order
    · rw [order]
      have answered := send_still { s with freeDraws := n } p (.ack 14 0 .ok (.value 0) false)
      exact (drawn.still answered).applyMember (by rw [answered.ports]; exact applies)
    · rw [order]
      exact (drawn.applyMember applies).still (send_still _ p _)

theorem State.Sound.takeControl (h : s.Sound) (p : Port) (g : Granule) (b : ControlBlock) :
    (s.takeControl p g b).Sound := by
  unfold State.takeControl State.controlJudged
  split
  · split
    · exact h.still (send_still s p _)
    · split
      · exact h.still (send_still s p _)
      · unfold State.controlRead
        split
        · exact h.still (send_still s p _)
        · exact h.still (send_still s p _)
      · unfold State.controlWrite
        split
        · exact h.still (send_still s p _)
        · split
          · exact h.still (send_still s p _)
          · rename_i written
            exact (h.writeRegister written).still (send_still _ p _)
      · exact h.controlMember p g _ _
      · unfold State.controlWindow
        split
        · exact h.still (send_still s p _)
        · exact (h.replaceWindow _ _).still ((send_still _ p _).trans (sendNotice_still _ _ _))
  · exact h.still (send_still s p _)

theorem State.Sound.takeFrame (h : s.Sound) (p : Port) (f : Frame) : (State.takeFrame p s f).Sound := by
  unfold State.takeFrame
  split
  · exact h
  · cases f with
    | request tag g x => exact h.takeRequest p tag g x
    | yield tag g recallId o => exact h.takeYield p tag g recallId o
    | join g => exact h.joinFrame p g
    | leave g => exact h.leaveFrame p g
    | control g b => exact h.takeControl p g b
    | malformed => exact h.still (protocolError_still s p)

theorem State.Sound.arrive (h : s.Sound) (p : Port) (f : Frame) : (State.arrive p f s).Sound := by
  unfold State.arrive
  dsimp only
  split
  · exact h
  · split
    · exact h.takeFrame p f
    · exact h.still (setIface_still s p _)

theorem State.Sound.resumeIntake (p : Port) (l : List Frame) : ∀ {s : State}, s.Sound →
    (State.resumeIntake p l s).Sound := by
  induction l with
  | nil => exact fun h => h
  | cons f l ih =>
    intro s h
    simp only [State.resumeIntake]
    split
    · exact ih (h.takeFrame p f)
    · exact h.still (setIface_still s p _)

theorem State.Sound.linkLost (h : s.Sound) (p : Port) : (State.linkLost p s).Sound := by
  unfold State.linkLost
  dsimp only
  split
  · exact h
  · refine kept_foldl (P := State.Sound) (fun _ f hu => hu.takeFrame p f) _ ?_
    exact h.still ⟨⟨rfl, rfl, rfl, rfl, rfl, rfl⟩, rfl, rfl, rfl, rfl, rfl⟩

theorem State.Sound.frameSent (h : s.Sound) (p : Port) : (State.frameSent p s).Sound := by
  unfold State.frameSent
  dsimp only
  split
  · exact h
  · exact State.Sound.resumeIntake p _ (h.still (setIface_still s p _))

/-! ### The service port -/

theorem State.Sound.serviceRead (h : s.Sound) (offset : BitVec 16) : (State.serviceRead offset s).Sound := by
  unfold State.serviceRead
  split
  · exact h.still (respond_still _ _ _)
  · exact h.still (respond_still _ _ _)

theorem State.Sound.serviceWrite (h : s.Sound) (x : Reg) (v : Word) : (State.serviceWrite x v s).Sound := by
  unfold State.serviceWrite
  split
  · exact h.still (respond_still _ _ _)
  · rename_i written
    exact (h.writeRegister written).still (respond_still _ _ _)

theorem State.Sound.serviceWriteAt (h : s.Sound) (offset : BitVec 16) (v : Word) :
    (State.serviceWriteAt offset v s).Sound := by
  unfold State.serviceWriteAt
  split
  · exact h.still (respond_still _ _ _)
  · exact h.serviceWrite _ v

theorem State.Sound.serviceMember (h : s.Sound) (c : MemberCommand) (port : Byte) :
    (State.serviceMember c port s).Sound := by
  unfold State.serviceMember
  split
  · exact h.still (respond_still _ _ _)
  · rename_i accepted
    exact (h.applyMember (judgeMember_ok accepted)).still (respond_still _ _ _)

theorem State.Sound.serviceWindow (h : s.Sound) (index valid : Byte) (base limit : Granule) (rights : Byte) :
    (State.serviceWindow index valid base limit rights s).Sound := by
  unfold State.serviceWindow
  split
  · exact h.still (respond_still _ _ _)
  · exact (h.replaceWindow _ _).still ((sendNotice_still _ _ _).trans (respond_still _ _ _))

/-- While no memory command is under way the service slot is FREE, and the record may show any other result (10
R206). -/
theorem State.TableLawful.setResult {b : Granule → Prop} (h : s.TableLawful b) (hs : s.svc.result.isPending = false)
    {x : SlotResult} (hx : x.isPending = false) : s.txn serviceSlot = none ∧ (s.setResult x).TableLawful b := by
  have free : s.txn serviceSlot = none := by
    cases ht : s.txn serviceSlot with
    | none => rfl
    | some y =>
      rw [h.table.result.1 y ht] at hs
      unfold Txn.underWay at hs
      split at hs <;> cases hs
  refine ⟨free, h.chains, h.directory, { h.table with result := ⟨fun y hy => ?_, fun _ c g hc => ?_⟩ }, h.awaiting⟩
  · cases free.symm.trans hy
  · rw [show x = .pending c g from hc] at hx
    cases hx

theorem State.Sound.setResult (h : s.Sound) (hs : s.svc.result.isPending = false) {x : SlotResult}
    (hx : x.isPending = false) : (s.setResult x).Sound :=
  SoundAt.sound (SoundAt.sameSweep h ⟨rfl, rfl, rfl, rfl, rfl, rfl⟩ (h.table.setResult hs hx).2) rfl

theorem State.Sound.memoryCommand (h : s.Sound) {a : TxnKind}
    (ha : a = .memPeek ∨ ∃ d m, a = .memPoke d m) (g : Granule) : (State.memoryCommand a g s).Sound := by
  unfold State.memoryCommand
  split
  · exact h.still (respond_still _ _ _)
  · rename_i free
    rw [not_or, Bool.not_eq_true] at free
    split
    · exact (h.setResult free.2 rfl).still (respond_still _ _ _)
    · have seated : (newTxn a g).seatedIn serviceSlot ∧ (newTxn a g).underWay = .pending a.memCommand g := by
        rcases ha with rfl | ⟨d, m, rfl⟩
        · exact ⟨⟨nofun, fun _ => rfl, rfl⟩, rfl⟩
        · exact ⟨⟨nofun, fun _ => rfl, rfl⟩, rfl⟩
      have placed := h.table.placeService (h.table.setResult (x := .idle) free.2 rfl).1 seated.1
      rw [seated.2] at placed
      exact (h.work ((Turn.result s _).turns.trans (placeService_works _ a g)) placed).still (respond_still _ _ _)

theorem State.Sound.readSlot (h : s.Sound) : s.readSlot.Sound := by
  have read : (s.setResult s.svc.result.afterRead).Sound := by
    cases hr : s.svc.result with
    | pending c g => exact h.still ⟨⟨rfl, rfl, rfl, rfl, rfl, rfl⟩, rfl, rfl, rfl, hr.symm, rfl⟩
    | idle => exact h.setResult (by rw [hr]; rfl) rfl
    | done _ _ _ _ => exact h.setResult (by rw [hr]; rfl) rfl
    | badAddress _ _ => exact h.setResult (by rw [hr]; rfl) rfl
  exact read.still (respond_still _ _ _)

end Sys2Proof.Machine
end

section
/-! PROOFS. The laws of the transaction table and of the sweep queue through the completions, with the initializer's
operations, and the end of hub reset. -/

namespace Sys2Proof.Machine

variable {s t u : State} {p : Port} {i : SlotId} {g : Granule} {hub : HubState} {op : MemOp} {rest : List MemOp}
  {n : Nat}

/-! ### The initializer's operations -/

/-- The granule that an operation of the initializer names; the other operations are none of its own. -/
def MemOp.init? (op : MemOp) : List Nat := if op.origin = .initializer then [op.granule.toNat] else []

theorem inits_append (a b : List MemOp) :
    ((a ++ b).filter fun op => op.origin == .initializer).map (fun op => op.granule.toNat)
      = (a.filter fun op => op.origin == .initializer).map (fun op => op.granule.toNat)
        ++ (b.filter fun op => op.origin == .initializer).map fun op => op.granule.toNat := by
  rw [List.filter_append, List.map_append]

theorem inits_singleton (op : MemOp) :
    ([op].filter fun op => op.origin == .initializer).map (fun op => op.granule.toNat) = op.init? := by
  unfold MemOp.init?
  by_cases h : op.origin = .initializer <;> simp [h]

/-- The oldest operation leaves the memory queue. -/
theorem inits_popped {m : MemController} (h : m.queue = op :: rest) : m.inits = op.init? ++ m.popped.inits := by
  have queues := popped_queues m (by rw [h]; nofun)
  rw [h, List.cons_append, List.tail_cons] at queues
  rw [MemController.inits_eq, MemController.inits_eq, queues, ← inits_singleton, ← inits_append, h]
  rfl

theorem inits_offer (s : State) (op : MemOp) : (s.offer op).mem.inits = s.mem.inits ++ op.init? := by
  rw [MemController.inits_eq, offer_queues, inits_append, inits_singleton]
  rfl

theorem inits_offerInit (hn : s.mem.nextInit < s.mem.granuleCount) (hg : s.mem.granuleCount ≤ 2 ^ 23) :
    s.offerInit.mem.inits = s.mem.inits ++ [s.mem.nextInit] := by
  have named : (BitVec.ofNat 23 s.mem.nextInit).toNat = s.mem.nextInit := by
    rw [BitVec.toNat_ofNat, Nat.mod_eq_of_lt (by omega)]
  refine (inits_offer s ⟨.init, BitVec.ofNat 23 s.mem.nextInit, .initializer⟩).trans ?_
  rw [MemOp.init?, if_pos rfl, named]

/-- What an offer of the initializer leaves alone. -/
theorem offerInit_rest (s : State) : ∃ m : MemController,
    s.offerInit = s.setMem m ∧ m.granuleCount = s.mem.granuleCount ∧ m.nextInit = s.mem.nextInit + 1 := by
  unfold State.offerInit State.offer
  split
  · exact ⟨_, rfl, rfl, rfl⟩
  · exact ⟨_, rfl, rfl, rfl⟩

/-- The laws where only the initializer's operations have changed. -/
theorem State.SoundAt.setMem (h : s.SoundAt hub) {m : MemController} (hi : m.inits ≠ [] → hub = .initializing)
    (ha : m.inits.Pairwise (· < ·) ∧ (∀ n ∈ m.inits, n < m.nextInit) ∧ m.nextInit ≤ m.granuleCount
      ∧ m.granuleCount ≤ 2 ^ 23) : (s.setMem m).SoundAt hub where
  running := h.running
  table := h.table.of_eq rfl rfl rfl
  sweep :=
    { jobs := h.sweep.jobs
      rechecks := h.sweep.rechecks
      port := h.sweep.port
      clearing := h.sweep.clearing
      noClear := h.sweep.noClear
      initializing := hi
      ascending := ha
      reset := resetLawful_of_running h.running }

/-- While the hub initializes, the initializer offers its granules in ascending order (01 R17). -/
theorem State.SoundAt.offerInit (h : s.SoundAt .initializing) (hn : s.mem.nextInit < s.mem.granuleCount) :
    s.offerInit.SoundAt .initializing := by
  obtain ⟨ascending, below, -, bound⟩ := h.sweep.ascending
  have inits := inits_offerInit hn bound
  obtain ⟨m, ends, count, next⟩ := offerInit_rest s
  rw [ends] at inits ⊢
  have inits : m.inits = s.mem.inits ++ [s.mem.nextInit] := inits
  refine h.setMem (fun _ => rfl) ?_
  rw [inits, count, next]
  refine ⟨List.pairwise_append.2 ⟨ascending, List.pairwise_singleton _ _, fun n hm k hk => ?_⟩, fun n hm => ?_, hn,
    bound⟩
  · rw [List.mem_singleton.1 hk]
    exact below n hm
  · rcases List.mem_append.1 hm with hm | hm
    · exact Nat.lt_succ_of_lt (below n hm)
    · exact Nat.lt_succ_of_le (List.mem_singleton.1 hm).le

/-! ### The oldest operation leaves the queue -/

theorem State.SoundAt.popped (h : s.SoundAt hub) (hq : s.mem.queue = op :: rest) :
    (s.setMem s.mem.popped).SoundAt hub := by
  obtain ⟨ascending, below, bounds⟩ := h.sweep.ascending
  have inits := inits_popped hq
  have kept : s.mem.popped.inits.Sublist s.mem.inits := inits ▸ List.sublist_append_right _ _
  refine h.setMem (fun hn => h.sweep.initializing fun hs => hn (List.eq_nil_of_sublist_nil (hs ▸ kept))) ?_
  rw [popped_nextInit, popped_granuleCount]
  exact ⟨ascending.sublist kept, fun n hm => below n (kept.subset hm), bounds⟩

theorem sweepOfferEntered_works (s : State) : Works s s.sweepOfferEntered := by
  unfold State.sweepOfferEntered
  split
  · exact moveOn_turns s
  · exact .refl s

/-- The party whose offer has entered goes on (01 R17, 08 R168). -/
theorem State.SoundAt.leaveQueue (h : s.SoundAt hub) (hq : s.mem.queue = op :: rest) : s.leaveQueue.SoundAt hub := by
  have popped := h.popped hq
  unfold State.leaveQueue
  split
  · exact popped
  · rename_i a l hw
    unfold State.entered
    split
    · exact popped
    · exact popped.work (sweepOfferEntered_works _) popped.table.sweepOfferEntered
    · rename_i ho
      have queued : a ∈ (s.setMem s.mem.popped).mem.queue ++ (s.setMem s.mem.popped).mem.waiting := by
        change a ∈ s.mem.popped.queue ++ s.mem.popped.waiting
        rw [popped_queues _ (by rw [hq]; nofun), hq, hw]
        simp
      have some : (s.setMem s.mem.popped).mem.inits ≠ [] :=
        List.ne_nil_of_mem (List.mem_map.2 ⟨a, List.mem_filter.2 ⟨queued, beq_iff_eq.2 ho⟩, rfl⟩)
      obtain rfl := popped.sweep.initializing some
      exact offerInits_keeps (P := State.SoundAt .initializing) (fun u hn hu => hu.offerInit hn) 17 popped

/-- From `s`, whose oldest operation leaves the queue, to `u` the initializer has only offered granules beyond those
that it had offered before. -/
structure State.OffersBeyond (s u : State) : Prop where
  count : u.mem.granuleCount = s.mem.granuleCount
  next : s.mem.nextInit ≤ u.mem.nextInit
  inits : ∀ n ∈ u.mem.inits, n ∈ s.mem.popped.inits ∨ s.mem.nextInit ≤ n

theorem State.OffersBeyond.offerInit (h : s.OffersBeyond u) (hlt : u.mem.nextInit < u.mem.granuleCount)
    (hg : s.mem.granuleCount ≤ 2 ^ 23) : s.OffersBeyond u.offerInit := by
  have offered := inits_offerInit hlt (h.count.le.trans hg)
  obtain ⟨m, ends, count, next⟩ := offerInit_rest u
  rw [ends] at offered ⊢
  refine ⟨count.trans h.count, h.next.trans ((Nat.le_succ _).trans next.ge), fun n hm => ?_⟩
  rw [offered] at hm
  rcases List.mem_append.1 hm with hm | hm
  · exact h.inits n hm
  · exact .inr (by rw [List.mem_singleton.1 hm]; exact h.next)

theorem offersBeyond_leaveQueue (hg : s.mem.granuleCount ≤ 2 ^ 23) : s.OffersBeyond s.leaveQueue := by
  have popped : s.OffersBeyond (s.setMem s.mem.popped) :=
    ⟨popped_granuleCount s.mem, (popped_nextInit s.mem).ge, fun n hm => .inl hm⟩
  unfold State.leaveQueue
  split
  · exact popped
  · unfold State.entered
    split
    · exact popped
    · have marches := (sweepOfferEntered_works (s.setMem s.mem.popped)).marches
      exact ⟨marches.granuleCount.trans popped.count, popped.next.trans marches.nextInit.ge,
        fun n hm => popped.inits n (marches.inits ▸ hm)⟩
    · exact offerInits_keeps (P := s.OffersBeyond) (fun u hlt hu => hu.offerInit hlt hg) 17 popped

/-- When the last granule's operation has left the queue, none of the initializer is left (01 R17). -/
theorem State.SoundAt.initialized (h : s.SoundAt hub) (hq : s.mem.queue = op :: rest) (ho : op.origin = .initializer)
    (last : op.granule.toNat + 1 = s.mem.granuleCount) : s.leaveQueue.mem.inits = [] := by
  obtain ⟨ascending, below, -, bound⟩ := h.sweep.ascending
  have inits := inits_popped hq
  rw [MemOp.init?, if_pos ho, List.singleton_append] at inits
  rw [inits] at ascending below
  have beyond := offersBeyond_leaveQueue bound
  obtain ⟨-, below', bound', -⟩ := (h.leaveQueue hq).sweep.ascending
  refine List.eq_nil_iff_forall_not_mem.2 fun n hn => ?_
  have upper : n < s.mem.granuleCount := (below' n hn).trans_le (bound'.trans beyond.count.le)
  have first := below _ (.head _)
  rcases beyond.inits n hn with old | new
  · have later := (List.pairwise_cons.1 ascending).1 n old
    omega
  · omega

/-! ### A completion -/

theorem Performed.still (h : Performed s t) : Still s t where
  sweep := (congrArg State.sweep h.rest :)
  ports := (congrArg (fun u : State => u.ctl.ports) h.rest :)
  inits := by rw [MemController.inits_eq, MemController.inits_eq, h.queue, h.waiting]
  nextInit := h.nextInit
  granuleCount := h.granuleCount
  inReset := (congrArg State.inReset h.rest :)
  txn := (congrArg State.txn h.rest :)
  chains := congrArg TxnTable.chains h.table
  dir := h.dir
  result := (congrArg ServicePort.result h.svc :)
  hub := (congrArg ServicePort.hubState h.svc :)

theorem leaveQueue_hub (s : State) : s.leaveQueue.svc.hubState = s.svc.hubState :=
  ((stage_afterKept s.svc.hubState s.mem.granuleCount _).leaveQueue (s := s)
    ⟨rfl, popped_granuleCount s.mem, rfl⟩).hub

theorem State.SoundAt.endInitialization (h : s.SoundAt .initializing) (none : s.mem.inits = []) :
    s.endInitialization.Sound where
  running := h.running
  table := h.table.of_eq rfl rfl rfl
  sweep :=
    { jobs := h.sweep.jobs
      rechecks := h.sweep.rechecks
      port := h.sweep.port
      clearing := nofun
      noClear := fun _ => h.sweep.noClear nofun
      initializing := fun hn => absurd none hn
      ascending := h.sweep.ascending
      reset := resetLawful_of_running h.running }

theorem State.Sound.completeOldest (h : s.Sound) (hq : s.mem.queue = op :: rest) : (s.completeOldest op).Sound := by
  have performed := perform_performed s op
  have laws : (s.perform op).1.Sound := h.still performed.still
  have queue : (s.perform op).1.mem.queue = op :: rest := performed.queue.trans hq
  have left : (s.perform op).1.leaveQueue.Sound := SoundAt.sound (laws.leaveQueue queue) (leaveQueue_hub _)
  change (State.settle ((s.perform op).1.leaveQueue.deliver op (s.perform op).2)).Sound
  generalize (s.perform op).1 = u at laws queue left
  refine State.Sound.settle ?_
  unfold State.deliver
  split
  · exact left.work (deliverToSlot_works _ _ _) (left.table.deliverToSlot _ _)
  · exact left
  · rename_i ho
    split
    · rename_i last
      rw [(offersBeyond_leaveQueue laws.sweep.ascending.2.2.2).count] at last
      have some : u.mem.inits ≠ [] := by
        rw [inits_popped queue, MemOp.init?, if_pos ho]
        nofun
      have initializing : u.svc.hubState = .initializing := laws.sweep.initializing some
      have none := laws.initialized queue ho last
      exact State.SoundAt.endInitialization (initializing ▸ laws.leaveQueue queue) none
    · exact left

/-! ### The end of hub reset -/

/-- A port comes out of hub reset in no state that has a report to come. -/
theorem placed_idle (l : ResetLines) (p : Port) : (placed l p).idle := by
  refine .inl ?_
  change (ite _ _ _) ≠ PortState.departing ∧ (ite _ _ _) ≠ PortState.fencing
  split
  · decide
  · split
    · decide
    · split
      · decide
      · decide

/-- The initializer's operations as hub reset ends (01 R17). -/
theorem inits_firstOffers :
    (((List.range 16).map initOp ++ [initOp 16]).filter fun op => op.origin == .initializer).map
      (fun op => op.granule.toNat) = List.range 17 := by decide

theorem State.Sound.leaveReset (l : ResetLines) (hs : s.enterReset = s) : (s.leaveReset l).Sound := by
  have bounds := granuleCountOf_bounds l.firstMemSize l.secondMemSize
  have record : ∀ p, (⟨placed l .p0, placed l .p1, placed l .p2, placed l .p3⟩ : PerPort PortRec).get p = placed l p :=
    fun p => by
    cases p <;> rfl
  rw [leaveReset_eq l hs, ← hs]
  refine ⟨rfl, (transactionsLawful_iff.1 reset_transactionsLawful).2.of_eq rfl rfl rfl, ?_⟩
  exact
    { jobs := fun _ => Nat.zero_le _
      rechecks := Nat.zero_le _
      port := fun p => by
        change PortRec.awaits (PerPort.get _ p) p _ []
        rw [record]
        exact (awaits_idle (placed_idle l p)).2 rfl
      clearing := nofun
      noClear := fun _ => List.not_mem_nil
      initializing := fun _ => rfl
      ascending := by
        rw [MemController.inits_eq]
        dsimp only
        rw [inits_firstOffers]
        exact ⟨List.pairwise_lt_range, fun n hn => List.mem_range.1 hn, bounds⟩
      reset := resetLawful_of_running rfl }

end Sys2Proof.Machine
end

section
/-! PROOFS. Every step keeps the laws of the holder directory, of the transaction table and of the sweep queue. -/

namespace Sys2Proof.Machine

variable {s t u : State} {p : Port}

/-! ### Commands of a part that runs -/

theorem sound_change {f : State → State} (hf : ∀ u : State, u.Sound → (f u).Sound) (hs : s.Sound)
    (h : change f s = .next t) :
    t.Sound := kept_change hf hs h

theorem sound_transfer {f : State → State} (hf : ∀ u : State, u.Sound → (f u).Sound) (hs : s.Sound)
    (h : transfer f s = .next t) : t.Sound := by
  refine sound_change (fun u hu => ?_) hs h
  split
  · exact hu.still ⟨⟨rfl, rfl, rfl, rfl, rfl, rfl⟩, rfl, rfl, rfl, rfl, rfl⟩
  · exact hf u hu

theorem sound_complete {kind : MemKind → Bool} (hs : s.Sound) (h : complete kind s = .next t) : t.Sound := by
  rcases complete_cases h with rfl | ⟨op, rest, -, hq, -, -, rfl⟩
  · exact hs
  · exact hs.completeOldest hq

/-- A part that runs keeps its laws, but for hub reset, which brings those of the reset state. -/
theorem State.Sound.exec {c : Instr} (hs : s.Sound) (hc : c ≠ .hubReset) (h : exec c s = .next t) : t.Sound := by
  cases c with
  | hubReset => exact absurd rfl hc
  | hubResetEnd l =>
    injection h with h
    rw [if_neg (by rw [hs.running]; nofun)] at h
    exact h ▸ hs
  | readComplete | writeFullComplete | writePartialComplete | atomicRmwComplete | poisonSetComplete | initComplete =>
    exact sound_complete hs h
  | presenceEvent p a => exact sound_change (fun _ hu => hu.presence p a) hs h
  | latchEvent p a => exact sound_change (fun _ hu => hu.latch p a) hs h
  | linkUp p => exact sound_change (fun u hu => hu.still (setIface_still u p _)) hs h
  | linkLost p => exact sound_change (fun _ hu => hu.linkLost p) hs h
  | linkLostAtController p => exact sound_change (fun _ hu => hu.linkLostTaken p) hs h
  | frameSent p => exact sound_change (fun _ hu => hu.frameSent p) hs h
  | readShare p | readOwn p | promote p | peek p | poke p | atomic p | returnDirty p | release p | yield p | join p
  | leave p | control p | malformedFrame p =>
    exact sound_change (fun _ hu => hu.arrive p _) hs h
  | recallDeadlineExpiry i => exact sound_change (fun _ hu => hu.recallExpiry i) hs h
  | fenceRequest p => exact sound_change (fun _ hu => hu.fenceRequestTaken p) hs h
  | departureDeadlineExpiry p => exact sound_change (fun _ hu => hu.departureExpiry p) hs h
  | walkVisit => exact sound_change (fun _ hu => hu.walkVisit) hs h
  | sweepReport => exact sound_change (fun _ hu => hu.sweepReportTaken) hs h
  | clearReport => exact sound_change (fun _ hu => hu.clearReportTaken) hs h
  | dramBitsInError g w b =>
    refine sound_change (fun u hu => ?_) hs h
    unfold State.bitsInError
    split
    · exact hu.still ⟨⟨rfl, rfl, rfl, rfl, rfl, rfl⟩, rfl, rfl, rfl, rfl, rfl⟩
    · exact hu
  | regRead o => exact sound_transfer (fun _ hu => hu.serviceRead o) hs h
  | regWrite o v => exact sound_transfer (fun _ hu => hu.serviceWriteAt o v) hs h
  | eventStatusWrite v | eventEnableWrite v | portControlWrite _ v | admitModeWrite v | recallLimitWrite v
  | departLimitWrite v | correctedWrite v | uncorrectedWrite v | firstFaultWrite v | protoErrorsWrite _ v =>
    exact sound_transfer (fun _ hu => hu.serviceWrite _ v) hs h
  | admitPort b | ejectPort b | fencePort b | releasePort b | holdOn b | holdOff b =>
    exact sound_transfer (fun _ hu => hu.serviceMember _ b) hs h
  | setWindow i v b l r => exact sound_transfer (fun _ hu => hu.serviceWindow i v b l r) hs h
  | hubClear => exact sound_transfer (fun _ hu => hu.hubClear) hs h
  | memPeek g => exact sound_transfer (fun _ hu => hu.memoryCommand (.inl rfl) g) hs h
  | memPoke g d m => exact sound_transfer (fun _ hu => hu.memoryCommand (.inr ⟨d, m, rfl⟩) g) hs h
  | slotStatus => exact sound_transfer (fun _ hu => hu.readSlot) hs h
  | incompleteSelection => exact sound_transfer (fun _ hu => hu) hs h
  | unknownServiceCommand => exact sound_transfer (fun u hu => hu.still (respond_still u _ _)) hs h

/-! ### Every step -/

/-- The laws of the transaction table and of the sweep queue, whether the part runs or hub reset is taken. -/
structure State.TablesSound (s : State) : Prop where
  table : s.TableLawful NoGranule
  sweep : s.sweepLawful

theorem State.Sound.tables (h : s.Sound) : s.TablesSound := ⟨h.table, h.sweep⟩

theorem State.TablesSound.sound (h : s.TablesSound) (hr : s.inReset = false) : s.Sound := ⟨hr, h.table, h.sweep⟩

/-- The laws say nothing of the time base, the draws and the queue of commands. -/
theorem State.TablesSound.idle (h : s.TablesSound) (n d : Nat) (q : List Instr) :
    ({ s with now := n, freeDraws := d, pending := q } : State).TablesSound where
  table := h.table.of_eq rfl rfl rfl
  sweep :=
    { jobs := h.sweep.jobs
      rechecks := h.sweep.rechecks
      port := h.sweep.port
      clearing := h.sweep.clearing
      noClear := h.sweep.noClear
      initializing := h.sweep.initializing
      ascending := h.sweep.ascending
      reset := fun hr =>
        congrArg (fun u : State => { u with now := n, freeDraws := d, pending := q }) (h.sweep.reset hr) }

theorem enterReset_tables (s : State) : s.enterReset.TablesSound :=
  State.TablesSound.idle ⟨(transactionsLawful_iff.1 reset_transactionsLawful).2, reset_sweepLawful⟩
    s.now s.freeDraws s.pending

theorem State.TablesSound.exec {c : Instr} (hs : s.TablesSound) (h : exec c s = .next t) : t.TablesSound := by
  by_cases hc : c = .hubReset
  · subst hc
    injection h with h
    exact h ▸ enterReset_tables s
  · cases hr : s.inReset with
    | false => exact ((hs.sound hr).exec hc h).tables
    | true =>
      by_cases hl : ∃ l, c = .hubResetEnd l
      · obtain ⟨l, rfl⟩ := hl
        injection h with h
        rw [if_pos hr] at h
        exact h ▸ (State.Sound.leaveReset l (hs.sweep.reset hr)).tables
      · rw [exec_inReset hr hc fun l he => hl ⟨l, he⟩] at h
        injection h with h
        exact h ▸ hs

theorem State.TablesSound.step (hs : s.TablesSound) (h : step s = .next t) : t.TablesSound := by
  rcases step_cases h with ⟨c, rest, -, he⟩ | rfl
  · exact (hs.idle s.now s.freeDraws rest).exec he
  · exact hs.idle _ _ _

theorem directoryLawful_kept : StepKept State.directoryLawful where
  idle _ _ _ _ h := h
  reset _ := ⟨Sparse.wf_nil, DirSet.lawful_empty⟩
  sampled _ _ h := h
  performed _ _ p h := directoryLawful_of_dir p.dir h
  popped _ _ h := h
  offered s h := directoryLawful_of_dir (offer_dir s _) h
  deed _ _ d h := d.directoryLawful h

/-- Settles O57: the laws of the directory by the moves that write it; those of the transaction table and of the sweep
queue together, command by command, since a report of the sweep engine is judged by the record of its port; the bounds
of the queue follow from the reports that the ports await. -/
theorem stepKeepsDirectoryLaws : Obligations.StepKeepsDirectoryLaws := by
  intro s t h
  refine ⟨directoryLawful_kept.step h, fun transactions sweep => ?_⟩
  obtain ⟨canonical, table⟩ := transactionsLawful_iff.1 transactions
  obtain ⟨table, sweep⟩ := State.TablesSound.step ⟨table, sweep⟩ h
  exact ⟨transactionsLawful_iff.2 ⟨tablesCanonical_kept.step h canonical, table⟩, sweep, sweep.queueLawful⟩

end Sys2Proof.Machine
end
